-- ==== Sys2Proof/Word.lean ====
section
/-! DEFINITION. The words of the block, one abbreviation per width the spec names (00_scope.md R5, R6; 10_state.md R21 to
R43). Every value is unsigned (R7). The widths are those of the configuration record, Config.params (Laws/Config.lean). -/

namespace Sys2Proof

/-- A host register, the tag and ERR_INFO: 32 bits (R39, R5 TAG_W, R43). -/
abbrev Word := BitVec 32

/-- An input symbol or a decoded literal: WORD_W = 8 bits (R5). -/
abbrev Byte := BitVec 8

/-- A symbol value in the header and in NODE: SYM_W = 9 bits (R5, R22). -/
abbrev Sym := BitVec 9

/-- A FREQ entry: CNT_W = 32 bits (R6, R21). -/
abbrev Count := BitVec 32

/-- A node weight: W_W = CNT_W + 9 = 41 bits (R6, R22). -/
abbrev Weight := BitVec 41

/-- A node index, and NEXT and NLIVE: IDX_W = 10 bits (R6, R28 to R31). -/
abbrev Idx := BitVec 10

/-- A code's length: LEN_W = 9 bits (R6, R26). -/
abbrev Len := BitVec 9

/-- A code's bits, right-aligned: CODE_MAXLEN = 256 bits (R6, R26). -/
abbrev Pat := BitVec 256

/-- A bit sequence in stream order, the first bit written or read at the head (R7). -/
abbrev Bits := List Bool

end Sys2Proof
end

