-- ==== Sys2Proof/Machine/Bits.lean ====
section
/-! DEFINITION. Bit order: how an N-bit value goes on a stream and comes off it (00_scope.md R7, 20_memory.md R62, R66, R69)
and how a stream is cut into the bytes of a file (R70). -/

namespace Sys2Proof.Machine

/-- The low `n` bits of `v`, most significant first: `v[n−1], …, v[0]` (R7, R66). -/
def msbFirst : Nat → Nat → Bits
  | 0, _ => []
  | n + 1, v => v.testBit n :: msbFirst n v

/-- The unsigned value of a bit string read most significant bit first (R62). -/
def fromMsb (bs : Bits) : Nat :=
  bs.foldl (fun a b => 2 * a + b.toNat) 0

/-- The bits of a byte file: each byte gives 8 bits, most significant first (R61, R70). -/
def bitsOfBytes (bytes : List Byte) : Bits :=
  bytes.flatMap (fun b => msbFirst 8 b.toNat)

/-- The whole bytes of a bit sequence: bit k of the stream is bit 7 − (k mod 8) of byte floor(k / 8) (R70). A partial last
byte is left out. -/
def bytesOfBits : Bits → List Byte
  | a :: b :: c :: d :: e :: f :: g :: h :: rest =>
    BitVec.ofNat 8 (fromMsb [a, b, c, d, e, f, g, h]) :: bytesOfBits rest
  | _ => []

end Sys2Proof.Machine
end

