-- ==== Sys2Proof/Config.lean ====
section
/-! DEFINITION. The one configuration record of the block: the constants of 00_scope.md R5 and the widths and sizes of R6. The
machine reads each through its name below. The types of Word.lean have these widths, and an operation that is given a width
from the record has to answer in such a type, so the two cannot come apart (Laws/Config.lean says so entry by entry). MAGIC is
open (R6, R210, decision D2): an opaque constant, so that nothing can be proved about its value. -/

namespace Sys2Proof.Config

/-- The parameters with a number (R5, R6). -/
structure Params where
  /-- WORD_W: bits of an input symbol and of a decoded literal (R5). -/
  wordW : Nat
  /-- ALPH: literal symbol values (R5). -/
  alph : Nat
  /-- NSYM: symbols (R5). -/
  nsym : Nat
  /-- EOS: the end-of-stream sentinel symbol (R5). -/
  eos : Nat
  /-- SYM_W: bits of a symbol value in the header (R5). -/
  symW : Nat
  /-- TAG_W: bits of the format tag (R5). -/
  tagW : Nat
  /-- LEAF_BITS: header bits per leaf (R5). -/
  leafBits : Nat
  /-- INT_BITS: header bits per Internal node (R5). -/
  intBits : Nat
  /-- CNT_W: bits of a FREQ entry (R6). -/
  cntW : Nat
  /-- W_W: bits of a node weight (R6). -/
  weightW : Nat
  /-- NODE_CAP: entries of the NODE table (R6). -/
  nodeCap : Nat
  /-- IDX_W: bits of a node index (R6). -/
  idxW : Nat
  /-- CODE_MAXLEN: the greatest code length (R6). -/
  codeMaxLen : Nat
  /-- LEN_W: bits of a code length (R6). -/
  lenW : Nat
  deriving DecidableEq, Repr

/-- The values the source and the spec fix (R5, R6). -/
abbrev params : Params where
  wordW := 8
  alph := 256
  nsym := 257
  eos := 256
  symW := 9
  tagW := 32
  leafBits := 10
  intBits := 1
  cntW := 32
  weightW := 41
  nodeCap := 513
  idxW := 10
  codeMaxLen := 256
  lenW := 9

/-- WORD_W (R5). -/
abbrev wordW : Nat := params.wordW

/-- ALPH (R5). -/
abbrev alph : Nat := params.alph

/-- NSYM (R5). -/
def nsym : Nat := params.nsym

/-- EOS (R5). -/
def eos : Nat := params.eos

/-- SYM_W (R5). -/
abbrev symW : Nat := params.symW

/-- TAG_W (R5). -/
abbrev tagW : Nat := params.tagW

/-- LEAF_BITS (R5). -/
abbrev leafBits : Nat := params.leafBits

/-- INT_BITS (R5). -/
abbrev intBits : Nat := params.intBits

/-- CNT_W (R6). -/
abbrev cntW : Nat := params.cntW

/-- W_W (R6). -/
abbrev weightW : Nat := params.weightW

/-- NODE_CAP (R6). -/
def nodeCap : Nat := params.nodeCap

/-- IDX_W (R6). -/
abbrev idxW : Nat := params.idxW

/-- CODE_MAXLEN (R6). -/
abbrev codeMaxLen : Nat := params.codeMaxLen

/-- LEN_W (R6). -/
abbrev lenW : Nat := params.lenW

/-- MAGIC, the TAG_W-bit format tag: no source gives its value (R6, R102, R210; log entry 1). -/
opaque magic : Word

/-- 2^CNT_W − 1, the greatest value of a FREQ entry (R6, R143). -/
def countMax : Count := BitVec.allOnes cntW

end Sys2Proof.Config
end

