-- ==== Sys2Proof/Syntax.lean ====
section
/-! DEFINITION. The operations of 30_encoding.md R100, one constructor per row of opcode_table.json: the commands the host
writes to CMD, the micro-operations the sequencer runs, and the fixed-width tokens of a container. -/

namespace Sys2Proof

inductive Instr where
  /-- COMPRESS, command word 1 (R114, R222). -/
  | compress
  /-- DECOMPRESS, command word 2 (R114, R223). -/
  | decompress
  /-- CLEAR, command word 3 (R114, R224). -/
  | clear
  /-- COUNT, PHASE code 1, unit FC (R116, R141). -/
  | count
  /-- BUILD, PHASE code 2, unit TB (R116, R151 to R154). -/
  | build
  /-- GENCODES, PHASE code 3, unit CG (R116, R166). -/
  | gencodes
  /-- WRTAG, PHASE code 4, sequencer (R116, R211). -/
  | wrtag
  /-- WRHDR, PHASE code 5, unit HC (R116, R176). -/
  | wrhdr
  /-- ENCODE, PHASE code 6, unit SE (R116, R191). -/
  | encode
  /-- RDTAG, PHASE code 7, sequencer (R116, R212). -/
  | rdtag
  /-- RDHDR, PHASE code 8, unit HC (R116, R180). -/
  | rdhdr
  /-- DECODE, PHASE code 9, unit SD (R116, R201). -/
  | decode
  /-- CLOSE, PHASE code 10, sequencer (R116, R225). -/
  | close
  /-- TAG, the container's first 32 bits (R102), checked as R212 says. -/
  | tag (m : Word)
  /-- INTERNAL, the header token `0` (R103), read as R180 says. -/
  | internal
  /-- LEAF, the header token `1sssssssss` (R104), read as R180 says. -/
  | leaf (sym : Sym)
  deriving DecidableEq, Repr

end Sys2Proof
end

