-- ==== Sys2Proof/WellFormed.lean ====
section
/-! DEFINITION. Well-formed operations. The widths are carried by the types; what is left to check is that a LEAF token's
value is a Symbol, an integer in 0 to 256 (R12, R104, R112): a compression writes no other, while RDHDR tolerates 257 to 511
(R117), so the decoder yields ill-formed LEAF tokens too and the machine runs them. -/

namespace Sys2Proof

/-- The operation's fields hold what a COMPRESS may write and a host may send (R112, R114, R116). -/
def Instr.wellFormed : Instr → Bool
  | .leaf sym => decide (sym.toNat ≤ Config.eos)
  | .tag _ => true
  | .compress | .decompress | .clear => true
  | .count | .build | .gencodes | .wrtag | .wrhdr | .encode | .rdtag | .rdhdr | .decode | .close => true
  | .internal => true

end Sys2Proof
end

