-- ==== Sys2Proof/Decode.lean ====
section
/-! DEFINITION. Decoding and encoding of the three formats of 30_encoding.md: command words (R113 to R115), PHASE codes
(R116), container tokens (R102 to R104). Each decoder is total and refuses by name. -/

namespace Sys2Proof

open Machine (msbFirst fromMsb)

/-- Why bits are no operation of their format. -/
inductive DecodeError where
  /-- A command word other than 1, 2, 3 (R115). -/
  | illegalCommand (w : Word)
  /-- PHASE 0: no micro-operation (R116). -/
  | noMicroOperation
  /-- PHASE 11 to 15: reserved, never taken (R116). -/
  | reservedPhase (p : BitVec 4)
  /-- Fewer than 32 bits where a TAG is due (R120, R214). -/
  | tagCut
  /-- No bit left where a header token is due (R182). -/
  | tokenMissing
  /-- A LEAF's type bit with fewer than 9 bits after it (R182). -/
  | leafCut
  /-- Bits that are no row of the opcode table. -/
  | notInTable (w : Nat)
  deriving DecidableEq, Repr

/-- A command word (R113 to R115). -/
def decodeCommand (w : Word) : Except DecodeError Instr :=
  if w = 1 then .ok .compress
  else if w = 2 then .ok .decompress
  else if w = 3 then .ok .clear
  else .error (.illegalCommand w)

/-- A PHASE code (R116). -/
def decodePhase (p : BitVec 4) : Except DecodeError Instr :=
  match p.toNat with
  | 0 => .error .noMicroOperation
  | 1 => .ok .count
  | 2 => .ok .build
  | 3 => .ok .gencodes
  | 4 => .ok .wrtag
  | 5 => .ok .wrhdr
  | 6 => .ok .encode
  | 7 => .ok .rdtag
  | 8 => .ok .rdhdr
  | 9 => .ok .decode
  | 10 => .ok .close
  | _ => .error (.reservedPhase p)

/-- The TAG token at the head of a bit sequence, and the bits after it (R102). -/
def decodeTag (bs : Bits) : Except DecodeError (Instr × Bits) :=
  if Config.tagW ≤ bs.length then .ok (.tag (BitVec.ofNat _ (fromMsb (bs.take Config.tagW))), bs.drop Config.tagW)
  else .error .tagCut

/-- The header token at the head of a bit sequence, and the bits after it (R103, R104). The LEAF value is not checked
(R117). -/
def decodeHeader : Bits → Except DecodeError (Instr × Bits)
  | [] => .error .tokenMissing
  | false :: rest => .ok (.internal, rest)
  | true :: rest =>
    if Config.symW ≤ rest.length then .ok (.leaf (BitVec.ofNat _ (fromMsb (rest.take Config.symW))), rest.drop Config.symW)
    else .error .leafCut

/-- An operation's words, with the format that says who reads them (opcode_table.json's "format"; the two kinds of container
token are kept apart because RDTAG reads the one and RDHDR the other). -/
inductive Encoding where
  /-- CMD32: a word written to CMD. -/
  | command (w : Word)
  /-- PHASE4: a code of PHASE. -/
  | phase (p : BitVec 4)
  /-- CONTAINER: the bits of a TAG. -/
  | tagBits (bs : Bits)
  /-- CONTAINER: the bits of a header token. -/
  | headerBits (bs : Bits)
  deriving DecidableEq, Repr

/-- The encoding of an operation: R114, R116, R102, R103, R104. -/
def encode : Instr → Encoding
  | .compress => .command 0x00000001
  | .decompress => .command 0x00000002
  | .clear => .command 0x00000003
  | .count => .phase 0x1
  | .build => .phase 0x2
  | .gencodes => .phase 0x3
  | .wrtag => .phase 0x4
  | .wrhdr => .phase 0x5
  | .encode => .phase 0x6
  | .rdtag => .phase 0x7
  | .rdhdr => .phase 0x8
  | .decode => .phase 0x9
  | .close => .phase 0xA
  | .tag m => .tagBits (msbFirst Config.tagW m.toNat)
  | .internal => .headerBits [false]
  | .leaf sym => .headerBits (true :: msbFirst Config.symW sym.toNat)

/-- The operation an encoding stands for, with the stream bits after it (none for a register format). -/
def decode : Encoding → Except DecodeError (Instr × Bits)
  | .command w => (decodeCommand w).map (·, [])
  | .phase p => (decodePhase p).map (·, [])
  | .tagBits bs => decodeTag bs
  | .headerBits bs => decodeHeader bs

/-- The encoding whose bits the opcode table numbers as `w`: bit 0 the least significant, so a token's first stream bit is
its most significant one. A row of at most 8 bits is INTERNAL (bit 0 clear) or a PHASE code; one of at most 16 bits is
LEAF; one of 32 bits is a command word or, being none of the three, a TAG (log entry 14). -/
def encodingOfTable (nbits w : Nat) : Option Encoding :=
  if nbits ≤ 8 then
    if w = 0 then some (.headerBits [false])
    else if w < 16 then some (.phase (BitVec.ofNat 4 w)) else none
  else if nbits ≤ 16 then
    if 0x200 ≤ w ∧ w < 0x400 then some (.headerBits (msbFirst Config.leafBits w)) else none
  else if w < 2 ^ 32 then
    if w = 1 ∨ w = 2 ∨ w = 3 then some (.command (BitVec.ofNat 32 w))
    else some (.tagBits (msbFirst Config.tagW w))
  else none

/-- The operation the decoder reads from an opcode-table word of `nbits` bits. -/
def decodeTableWord (nbits w : Nat) : Option Instr :=
  match encodingOfTable nbits w with
  | none => none
  | some e =>
    match decode e with
    | .ok (i, _) => some i
    | .error _ => none

end Sys2Proof
end

