-- ==== Sys2Proof/Machine/State.lean ====
section
/-! DEFINITION. The machine's state (10_state.md), the environment behind its two ports (20_memory.md R61, R65) and the outside
world's moves (70_reset_and_hazards.md R277), all as plain data; the reasons a step can stop; the state after reset. -/

namespace Sys2Proof.Machine

/-! ## The tables (10_state.md section 2) -/

/-- An internal table, one whole entry per index (20_memory.md R60, R73): the entries written so far, indexes strictly rising
and below the table's capacity. An index not listed is an unspecified entry (R46; log entry 4). -/
abbrev Table (α : Type) := List (Nat × α)

/-- The three tables, named in faults. -/
inductive TableName where
  | freq | node | code
  deriving DecidableEq, Repr

/-- NODE's kind bit: 1 = Leaf, 0 = Internal (R22). -/
inductive Kind where
  | leaf | internal
  deriving DecidableEq, Repr

/-- An entry of NODE (R22). -/
structure Node where
  kind   : Kind
  sym    : Sym
  weight : Weight
  left   : Idx
  right  : Idx
  deriving DecidableEq, Repr

/-- An entry of CODE: the code is the bit string `pat[len−1], …, pat[0]` (R26). -/
structure CodeEntry where
  valid : Bool
  len   : Len
  pat   : Pat
  deriving DecidableEq, Repr

/-! ## Sequencer registers and error registers -/

/-- PHASE: which micro-operation runs, or ran when an error was raised (R33). Codes 11 to 15 are never taken. -/
inductive Phase where
  | none | count | build | gencodes | wrtag | wrhdr | encode | rdtag | rdhdr | decode | close
  deriving DecidableEq, Repr

/-- STATE (R34). -/
inductive RunState where
  | idle | busy | done | error
  deriving DecidableEq, Repr

/-- CAUSE, the error causes of 60_exceptions.md R243. Codes 8 to 15 are never produced. -/
inductive Cause where
  | none | badMagic | headerTruncated | payloadTruncated | treeOverflow | countOverflow | noCode | illegalCommand
  deriving DecidableEq, Repr

/-! ## The traversal stack (R38) -/

/-- A stack entry: an Internal node's index and whether its left subtree is finished (R38). -/
structure Frame where
  index    : Idx
  leftDone : Bool
  deriving DecidableEq, Repr

/-- The traversal stack, top first, with GENCODES' current path as a (len, pat) pair (R38). -/
structure Traversal where
  frames : List Frame
  len    : Len
  pat    : Pat
  deriving DecidableEq, Repr

/-- The empty stack: no micro-operation is walking a tree (R38). -/
def Traversal.empty : Traversal := ⟨[], 0, 0⟩

/-! ## The environment -/

/-- The bit-input source (20_memory.md R61): the whole sequence and the read position. `rewound` is what the source delivers
after a `Rewind()` when it breaks its contract and delivers something else (R194, R280; log entry 8); `none` for a source
that keeps it. -/
structure Source where
  bits    : Bits
  pos     : Nat
  rewound : Option Bits
  deriving DecidableEq, Repr

/-- The bit-output sink (R65). -/
structure Sink where
  bits   : Bits
  closed : Bool
  deriving DecidableEq, Repr

/-- The four host registers, numbers 0 to 3 (10_state.md R39). -/
inductive HostReg where
  | cmd | status | errCause | errInfo
  deriving DecidableEq, Repr

/-- How much of a running command one turn of the block runs (47_sequencer_commands.md R231): a whole micro-operation, or,
inside a tree walk, one node or container token. -/
inductive Grain where
  | microOp | node
  deriving DecidableEq, Repr

/-- One move of the system: the block's turn, or a move of the host or platform (70_reset_and_hazards.md R277; log entry 3). -/
inductive Move where
  /-- The host does nothing in this step; the block takes its turn. -/
  | block (g : Grain)
  /-- The host writes a register (R39, R40). -/
  | write (r : HostReg) (w : Word)
  /-- The host reads a register (R39). -/
  | read (r : HostReg)
  /-- The host attaches a fresh source, at its start, and a fresh open empty sink (R275). -/
  | attach (bits : Bits) (rewound : Option Bits)
  /-- The reset input is asserted between two of the block's turns (R270). -/
  | reset
  /-- The reset input is asserted inside the block's turn, when `k` of the turn's port transactions have happened (R270,
  R271). -/
  | resetDuring (g : Grain) (k : Nat)
  deriving DecidableEq, Repr

/-! ## The state -/

/-- The block's state (10_state.md R20), the environment's (R47), and the moves still to come. -/
structure State where
  /-- FREQ (R21). -/
  freq : Table Count
  /-- NODE (R22). -/
  node : Table Node
  /-- CODE (R26). -/
  code : Table CodeEntry
  /-- LIVE, as the set of live indexes, strictly rising (R27). -/
  live : List Nat
  /-- ROOT (R28). -/
  root : Idx
  /-- NEXT (R29). -/
  next : Idx
  /-- NLIVE (R30). -/
  nlive : Idx
  /-- CUR (R31). -/
  cur : Idx
  /-- PHASE (R33). -/
  phase : Phase
  /-- STATE (R34). -/
  state : RunState
  /-- FREQ_VALID (R35). -/
  freqValid : Bool
  /-- TREE_VALID (R35). -/
  treeValid : Bool
  /-- CODE_VALID (R35). -/
  codeValid : Bool
  /-- SINK_CLOSED (R36). -/
  sinkClosed : Bool
  /-- ERR_EOI (R37). -/
  errEoi : Bool
  /-- ERR_CAUSE's CAUSE field (R42). -/
  errCause : Cause
  /-- ERR_INFO (R43). -/
  errInfo : Word
  /-- CMD (R40). -/
  cmd : Word
  /-- The traversal stack (R38). -/
  trav : Traversal
  /-- The source behind the input port (R61). -/
  src : Source
  /-- The sink behind the output port (R65). -/
  sink : Sink
  /-- What the host's last register read got back (R277; log entry 9). -/
  hostData : Word
  /-- The moves still to come; when there is none the block takes its turn (log entry 3). -/
  moves : List Move
  deriving DecidableEq, Repr

/-- Faults of the MODEL. The block's own errors (60_exceptions.md R243) are next states, never faults. -/
inductive Fault where
  /-- BUILD, GENCODES, WRHDR, ENCODE or DECODE reads a table entry that nothing has written since reset: R46 says a model
  should treat such a read as a fault of the model. Safe: the hardware goes on with some value. -/
  | unspecifiedEntry (t : TableName) (i : Nat)
  /-- An operation indexes a table at or past its capacity, which R73 says never occurs. Safe. -/
  | outsideTable (t : TableName) (i : Nat)
  /-- BUILD's PopMin finds no live node, which R150's precondition FREQ[256] = 1 excludes. Safe. -/
  | noLiveNode
  /-- GENCODES, WRHDR or RDHDR would put more than NODE_CAP entries on the traversal stack, which R38 says cannot happen on a
  tree; a NODE table with a cycle gets here. Safe. -/
  | stackOverflow
  /-- COUNT, ENCODE or DECODE has used its whole bound of iterations (R144, R193, R207) without ending: never reached. Safe. -/
  | endlessLoop
  /-- STATE is BUSY and PHASE is NONE, which R33 and R227 exclude. Safe. -/
  | noMicroOperation
  deriving DecidableEq, Repr

/-- Refusals of the model. -/
inductive Refusal where
  /-- An operation without a meaning yet: raised by exec's arm only. Safe. -/
  | notModelled (mnemonic : String)
  /-- The host attaches a source or sink while the block is BUSY: R277 forbids it and R278 says a model gives the host no
  such move. Raised by step. It leaves out runs a careless host could cause, so it is unsafe in that direction, as R278
  itself says (log entry 10). -/
  | attachWhileBusy
  deriving DecidableEq, Repr

/-- The state after reset (R45, R270), with the environment the model starts from: an empty source, an open empty sink and no
moves to come (log entries 3 to 9). -/
def State.reset : State where
  freq := []
  node := []
  code := []
  live := []
  root := 0
  next := 0
  nlive := 0
  cur := 0
  phase := .none
  state := .idle
  freqValid := false
  treeValid := false
  codeValid := false
  sinkClosed := false
  errEoi := false
  errCause := .none
  errInfo := 0
  cmd := 0
  trav := .empty
  src := ⟨[], 0, none⟩
  sink := ⟨[], false⟩
  hostData := 0
  moves := []

end Sys2Proof.Machine
end

