-- ==== Sys2Proof/Machine/Ops.lean ====
section
/-! DEFINITION. The named operations: over the tables and LIVE, over the two ports (20_memory.md), the error entry
(60_exceptions.md R250) and the close it shares with CLOSE (47_sequencer_commands.md R225), and the result type of a
micro-operation. There is no return from an error (R254): only CLEAR and reset leave ERROR. -/

namespace Sys2Proof.Machine

open Host (Outcome)

/-! ## Tables and LIVE -/

/-- The entry at an index, if something has written it. -/
def Table.read {α : Type} : Table α → Nat → Option α
  | [], _ => none
  | (k, v) :: rest, i => if k = i then some v else Table.read rest i

/-- Write one whole entry, keeping the indexes strictly rising. -/
def Table.write {α : Type} : Table α → Nat → α → Table α
  | [], i, v => [(i, v)]
  | (k, u) :: rest, i, v =>
    if i < k then (i, v) :: (k, u) :: rest
    else if i = k then (i, v) :: rest
    else (k, u) :: Table.write rest i v

/-- The table with `v` in every entry from 0 to `n − 1`: a clearing loop of R141 or R166. -/
def Table.fill {α : Type} (n : Nat) (v : α) : Table α :=
  (List.range n).map (fun i => (i, v))

/-- Indexes strictly rising, all at least `lo` and below `cap`. -/
def Table.risingFrom {α : Type} (cap : Nat) : Nat → Table α → Bool
  | _, [] => true
  | lo, (k, _) :: rest => decide (lo ≤ k) && decide (k < cap) && Table.risingFrom cap (k + 1) rest

/-- Put an index into LIVE, kept strictly rising. -/
def liveInsert (i : Nat) : List Nat → List Nat
  | [] => [i]
  | k :: rest => if i < k then i :: k :: rest else if i = k then k :: rest else k :: liveInsert i rest

/-- LIVE's form: strictly rising, all at least `lo` and below `cap`. -/
def liveRisingFrom (cap : Nat) : Nat → List Nat → Bool
  | _, [] => true
  | lo, k :: rest => decide (lo ≤ k) && decide (k < cap) && liveRisingFrom cap (k + 1) rest

/-- The canonical form of all internal storage: FREQ and CODE below NSYM, NODE and LIVE below NODE_CAP (R21, R22, R26, R27). -/
def Memory.wf (s : State) : Bool :=
  Table.risingFrom Config.nsym 0 s.freq && Table.risingFrom Config.nodeCap 0 s.node &&
    Table.risingFrom Config.nsym 0 s.code && liveRisingFrom Config.nodeCap 0 s.live

/-! ## The input port -/

/-- The bits not yet read. -/
def Source.remaining (src : Source) : Bits := src.bits.drop src.pos

/-- `ReadBits(n)` (R62, R63): the next `n` bits as an unsigned value, or EOI (`none`) with the position moved to the end when
fewer than `n` remain. -/
def Source.readBits (n : Nat) (src : Source) : Option (BitVec n) × Source :=
  if src.pos + n ≤ src.bits.length then
    (some (BitVec.ofNat n (fromMsb (src.remaining.take n))), { src with pos := src.pos + n })
  else (none, { src with pos := src.bits.length })

/-- `Rewind()` (R64): back to the start. A source that breaks its contract delivers other bits from then on (R194). -/
def Source.rewind (src : Source) : Source :=
  { src with bits := src.rewound.getD src.bits, pos := 0 }

/-- Move past `n` bits whose value is known already (a token the fetch has decoded), never past the end. -/
def Source.skip (n : Nat) (src : Source) : Source :=
  { src with pos := min (src.pos + n) src.bits.length }

/-- The block's `ReadBits(n)`. -/
def State.readBits (n : Nat) (s : State) : Option (BitVec n) × State :=
  ((s.src.readBits n).1, { s with src := (s.src.readBits n).2 })

/-- The block's `Rewind()`. -/
def State.rewind (s : State) : State := { s with src := s.src.rewind }

/-- The block's `ReadBits(n)` of bits whose value the fetch has decoded. -/
def State.skip (n : Nat) (s : State) : State := { s with src := s.src.skip n }

/-! ## The output port -/

/-- `WriteBits(n, v)` (R66): append `v[n−1], …, v[0]`. -/
def Sink.writeBits (n v : Nat) (k : Sink) : Sink := { k with bits := k.bits ++ msbFirst n v }

/-- How many zero bits complete the last byte (R67). -/
def padLength (len : Nat) : Nat := (8 - len % 8) % 8

/-- `CloseSink()` (R67): zero bits up to a whole byte, then closed. -/
def Sink.close (k : Sink) : Sink :=
  { bits := k.bits ++ List.replicate (padLength k.bits.length) false, closed := true }

/-- The byte file the sink stands for, defined only once it is closed (R65, R70). -/
def Sink.file (k : Sink) : Option (List Byte) :=
  if k.closed then some (bytesOfBits k.bits) else none

/-- The block's `WriteBits(n, v)`. -/
def State.writeBits (n v : Nat) (s : State) : State := { s with sink := s.sink.writeBits n v }

/-- The two lines of CLOSE, run by the error entry too (R225, R250, R251): close the sink unless the block already has. -/
def State.closeOnce (s : State) : State :=
  if s.sinkClosed then s else { s with sink := s.sink.close, sinkClosed := true }

/-! ## Taking an error -/

/-- Error entry (R250): record the cause, the offending value and whether it was an EOI; PHASE stays; the valid flags go to
0; the sink is closed once; STATE becomes ERROR. The traversal stack is empty whenever no micro-operation runs (R38). -/
def State.errorEntry (cause : Cause) (info : Word) (eoi : Bool) (s : State) : State :=
  { State.closeOnce
      { s with
        errCause := cause, errInfo := info, errEoi := eoi
        freqValid := false, treeValid := false, codeValid := false
        trav := .empty } with
    state := .error }

/-! ## Running a micro-operation -/

/-- How a stretch of a micro-operation's pseudocode ends: at its last statement with a result, in a `raise` (the state is the
one the error entry leaves, R10), or in a fault of the model. -/
inductive Run (α : Type) where
  | ok (a : α) (s : State)
  | raised (s : State)
  | bad (f : Fault)

/-- Go on with the next statements unless the first raised or faulted (R10). -/
def Run.bind {α β : Type} (r : Run α) (k : α → State → Run β) : Run β :=
  match r with
  | .ok a s => k a s
  | .raised s => .raised s
  | .bad f => .bad f

/-- A whole micro-operation as a step's outcome: its end and its `raise` are both next states. -/
def Run.outcome (r : Run Unit) : Outcome State Fault Refusal :=
  match r with
  | .ok _ s => .next s
  | .raised s => .next s
  | .bad f => .fault f

/-- `raise` inside a micro-operation (R10, R250). -/
def Run.raise {α : Type} (cause : Cause) (info : Word) (eoi : Bool) (s : State) : Run α :=
  .raised (s.errorEntry cause info eoi)

end Sys2Proof.Machine
end

