-- ==== Sys2Proof/Machine/Operands.lean ====
section
/-! DEFINITION. The operands of the micro-operations. None is encoded (40_frequency_counter.md R140 and its like in every unit
file): they are table entries, reached by index, one whole entry at a time (20_memory.md R60, R73, R74). A read of an entry
that nothing has written, and an index outside the table, are faults of the model (10_state.md R46, 20_memory.md R73). -/

namespace Sys2Proof.Machine

/-- Read entry `i` of a table of capacity `cap`. -/
def readEntry {α : Type} (name : TableName) (cap : Nat) (t : Table α) (i : Nat) (s : State) : Run α :=
  if i < cap then
    match t.read i with
    | some v => .ok v s
    | none => .bad (.unspecifiedEntry name i)
  else .bad (.outsideTable name i)

/-- `FREQ[i]`. -/
def readFreq (i : Nat) (s : State) : Run Count := readEntry .freq Config.nsym s.freq i s

/-- `NODE[i]`. -/
def readNode (i : Nat) (s : State) : Run Node := readEntry .node Config.nodeCap s.node i s

/-- `CODE[i]`. -/
def readCode (i : Nat) (s : State) : Run CodeEntry := readEntry .code Config.nsym s.code i s

/-- `FREQ[i] <- v`. -/
def writeFreq (i : Nat) (v : Count) (s : State) : Run Unit :=
  if i < Config.nsym then .ok () { s with freq := s.freq.write i v } else .bad (.outsideTable .freq i)

/-- `NODE[i] <- v`. -/
def writeNode (i : Nat) (v : Node) (s : State) : Run Unit :=
  if i < Config.nodeCap then .ok () { s with node := s.node.write i v } else .bad (.outsideTable .node i)

/-- `CODE[i] <- v`. -/
def writeCode (i : Nat) (v : CodeEntry) (s : State) : Run Unit :=
  if i < Config.nsym then .ok () { s with code := s.code.write i v } else .bad (.outsideTable .code i)

/-- A Leaf entry: BUILD's and RDHDR's (R151, R180); the child fields of a leaf are never read. -/
def leafNode (sym : Sym) (weight : Weight) : Node := ⟨.leaf, sym, weight, 0, 0⟩

/-- An Internal entry: BUILD's and RDHDR's (R153, R180); its sym is never read. -/
def internalNode (weight : Weight) (left right : Idx) : Node := ⟨.internal, 0, weight, left, right⟩

/-- The child an edge bit leads to: 0 left, 1 right (R22, R202). -/
def Node.child (n : Node) (b : Bool) : Idx := if b then n.right else n.left

end Sys2Proof.Machine
end

