-- ==== Sys2Proof/Machine/TreeWalk.lean ====
section
/-! DEFINITION. The traversal stack (10_state.md R38), used when a tree walk is taken one node at a time: which node is next,
entering an Internal node, and leaving the subtrees a leaf completes. The whole micro-operations are recursive, as the rules
are written, and leave the stack empty. -/

namespace Sys2Proof.Machine

/-- The index of the node a walk over NODE visits next: ROOT when the stack is empty, else the left child of the top entry's
node, or its right child once the left subtree is finished. -/
def walkPosition (s : State) : Run Idx :=
  match s.trav.frames with
  | [] => .ok s.root s
  | f :: _ => (readNode f.index.toNat s).bind fun n s => .ok (n.child f.leftDone) s

/-- Put an Internal node on the stack, its left subtree not finished; the stack holds at most NODE_CAP entries. -/
def pushFrame (i : Idx) (s : State) : Run Unit :=
  if s.trav.frames.length < Config.nodeCap then
    .ok () { s with trav := { s.trav with frames := ⟨i, false⟩ :: s.trav.frames } }
  else .bad .stackOverflow

/-- A subtree is finished: entries whose right subtree it was are finished too and leave the stack; the entry whose left
subtree it was turns to its right one. Returns how many entries left, and the stack after. -/
def unwind : List Frame → Nat × List Frame
  | [] => (0, [])
  | ⟨i, false⟩ :: rest => (0, ⟨i, true⟩ :: rest)
  | ⟨_, true⟩ :: rest => ((unwind rest).1 + 1, (unwind rest).2)

end Sys2Proof.Machine
end

