-- ==== Sys2Proof/Machine/CodeTableGen.lean ====
section
/-! DEFINITION. The unit huffman_code_table_gen (CG): GENCODES (42_code_table_gen.md). -/

namespace Sys2Proof.Machine

open Host (Outcome)

/-- An entry of a symbol without a code (R166). -/
def noCodeEntry : CodeEntry := ⟨false, 0, 0⟩

/-- `(pat << 1) | b`: append an edge's bit at the low end (R166). -/
def appendBit (pat : Pat) (b : Bool) : Pat := (pat <<< 1) ||| (BitVec.ofBool b).setWidth _

/-- Walk (R166): the path to a leaf becomes its symbol's code, `0` for a left edge and `1` for a right one, left before
right. `fuel` counts the free entries of the traversal stack, plus one (R38). -/
def walkCodes : Nat → Idx → Len → Pat → State → Run Unit
  | 0, _, _, _, _ => .bad .stackOverflow
  | fuel + 1, i, len, pat, s =>
    (readNode i.toNat s).bind fun n s =>
      match n.kind with
      | .leaf => writeCode n.sym.toNat ⟨true, len, pat⟩ s
      | .internal =>
        (walkCodes fuel n.left (len + 1) (appendBit pat false) s).bind fun _ s =>
          walkCodes fuel n.right (len + 1) (appendBit pat true) s

/-- GENCODES (R166): clear CODE, then walk the tree; a root that is a leaf gets the one-bit code `0` (R167). -/
def gencodesRun (s : State) : Run Unit :=
  (readNode s.root.toNat { s with code := Table.fill Config.nsym noCodeEntry }).bind fun n s =>
    (match n.kind with
      | .leaf => writeCode n.sym.toNat ⟨true, 1, 0⟩ s
      | .internal => walkCodes (Config.nodeCap + 1) s.root 0 0 s).bind fun _ s =>
      .ok () { s with codeValid := true }

/-- GENCODES (R165 to R171). -/
def execGencodes (s : State) : Outcome State Fault Refusal :=
  (gencodesRun s).outcome

/-- The stack and path after a leaf of GENCODES' walk: back to the nearest entry whose left subtree this ended, then along its
right edge (R38, R166). -/
def unwindPath (t : Traversal) : Traversal :=
  match unwind t.frames with
  | (_, []) => .empty
  | (popped, frames) => ⟨frames, t.len - BitVec.ofNat _ popped, (t.pat >>> popped) ||| 1⟩

/-- One node of GENCODES (R166, R38): the first visit clears CODE; the last one sets CODE_VALID. -/
def visitGencodes (s : State) : Run Unit :=
  let first := s.trav.frames.isEmpty
  let s := if first then { s with code := Table.fill Config.nsym noCodeEntry, trav := .empty } else s
  (walkPosition s).bind fun i s =>
    (readNode i.toNat s).bind fun n s =>
      match n.kind with
      | .internal =>
        (pushFrame i s).bind fun _ s =>
          .ok () { s with trav := { s.trav with len := s.trav.len + 1, pat := appendBit s.trav.pat false } }
      | .leaf =>
        (writeCode n.sym.toNat (if first then ⟨true, 1, 0⟩ else ⟨true, s.trav.len, s.trav.pat⟩) s).bind fun _ s =>
          let t := unwindPath s.trav
          .ok () { s with trav := t, codeValid := s.codeValid || t.frames.isEmpty }

end Sys2Proof.Machine
end

