-- ==== Sys2Proof/Machine/Flags.lean ====
section
/-! DEFINITION. The status flags and the host's view of the registers (10_state.md sections 6 and 7). The block has no
condition codes: no operation leaves a result flag for a later one to test. -/

namespace Sys2Proof.Machine

/-- The valid flags cleared: when a command is accepted and when it ends (R35). -/
def State.clearValid (s : State) : State :=
  { s with freqValid := false, treeValid := false, codeValid := false }

/-- PHASE's code (R33, R116). -/
def Phase.code : Phase → BitVec 4
  | .none => 0
  | .count => 1
  | .build => 2
  | .gencodes => 3
  | .wrtag => 4
  | .wrhdr => 5
  | .encode => 6
  | .rdtag => 7
  | .rdhdr => 8
  | .decode => 9
  | .close => 10

/-- STATE's code (R34). -/
def RunState.code : RunState → BitVec 2
  | .idle => 0
  | .busy => 1
  | .done => 2
  | .error => 3

/-- CAUSE's code (R243). -/
def Cause.code : Cause → BitVec 4
  | .none => 0
  | .badMagic => 1
  | .headerTruncated => 2
  | .payloadTruncated => 3
  | .treeOverflow => 4
  | .countOverflow => 5
  | .noCode => 6
  | .illegalCommand => 7

/-- STATUS, register 1: a live copy of the fields, bits [31:11] hardwired 0 (R41). -/
def State.status (s : State) : Word :=
  0#21 ++ BitVec.ofBool s.errEoi ++ BitVec.ofBool s.sinkClosed ++ BitVec.ofBool s.codeValid ++
    BitVec.ofBool s.treeValid ++ BitVec.ofBool s.freqValid ++ s.phase.code ++ s.state.code

/-- What a host read of a register returns; reading has no side effect on the block (R39 to R43). -/
def State.hostRead (r : HostReg) (s : State) : Word :=
  match r with
  | .cmd => s.cmd
  | .status => s.status
  | .errCause => 0#28 ++ s.errCause.code
  | .errInfo => s.errInfo

/-- A register's number (R39). -/
def HostReg.number : HostReg → BitVec 2
  | .cmd => 0
  | .status => 1
  | .errCause => 2
  | .errInfo => 3

/-- The level output `done` (R44). -/
def State.doneOut (s : State) : Bool := decide (s.state = .done)

/-- The level output `error` (R44). -/
def State.errorOut (s : State) : Bool := decide (s.state = .error)

end Sys2Proof.Machine
end

