-- ==== Sys2Proof/Machine/Commands.lean ====
section
/-! DEFINITION. The commands COMPRESS, DECOMPRESS, CLEAR and the CLOSE micro-operation (47_sequencer_commands.md). -/

namespace Sys2Proof.Machine

open Host (Outcome)

/-- A command is accepted: STATE <- BUSY, the valid flags 0, PHASE <- its first micro-operation (R222, R223). The sequencer
then runs the sequence, a micro-operation a step (R227, R231). -/
def startCommand (first : Phase) (s : State) : State :=
  { s.clearValid with state := .busy, phase := first }

/-- COMPRESS (R222): accepted in IDLE, dropped in every other STATE (R221, R229). -/
def execCompress (s : State) : Outcome State Fault Refusal :=
  .next (if s.state = .idle then startCommand .count s else s)

/-- DECOMPRESS (R223): accepted in IDLE, dropped in every other STATE (R221, R229). -/
def execDecompress (s : State) : Outcome State Fault Refusal :=
  .next (if s.state = .idle then startCommand .rdtag s else s)

/-- Every register and flag at its reset value, but CMD (R224, R45); tables, source and sink stay. -/
def State.clearRegisters (s : State) : State :=
  { s with
    root := 0, next := 0, nlive := 0, cur := 0
    phase := .none, state := .idle
    freqValid := false, treeValid := false, codeValid := false
    sinkClosed := false
    errEoi := false, errCause := .none, errInfo := 0
    trav := .empty }

/-- CLEAR (R224): accepted in IDLE, DONE and ERROR, dropped in BUSY (R221, R229). -/
def execClear (s : State) : Outcome State Fault Refusal :=
  .next (if s.state = .busy then s else s.clearRegisters)

/-- CLOSE (R225). -/
def execClose (s : State) : Outcome State Fault Refusal :=
  .next s.closeOnce

/-- An illegal command word (R115): in IDLE it makes the error entry of R228, without a port transaction; in any other STATE
it is dropped (R229). -/
def illegalCommand (w : Word) (s : State) : State :=
  if s.state = .idle then
    { s with state := .error, phase := .none, errCause := .illegalCommand, errInfo := w, errEoi := false }
  else s

/-- The reset input (R270, R271): registers and flags at their reset values, CMD too; the tables' and LIVE's contents are
unspecified from then on (R46); no port transaction, so source and sink stay as they are (R275). -/
def State.hardReset (s : State) : State :=
  { s.clearRegisters with cmd := 0, freq := [], node := [], code := [], live := [] }

end Sys2Proof.Machine
end

