-- ==== Sys2Proof/Machine/FormatTag.lean ====
section
/-! DEFINITION. The format tag: WRTAG, RDTAG, and the TAG token as RDTAG takes it (46_format_tag.md; 30_encoding.md R102). -/

namespace Sys2Proof.Machine

open Host (Outcome)

/-- Write the tag `magic` (R211). -/
def writeTag (magic : Word) (s : State) : State := s.writeBits Config.tagW magic.toNat

/-- Compare the 32 bits read with the tag `magic` (R212): any other value raises BAD_MAGIC naming it (R213, R120). -/
def checkTag (magic m : Word) (s : State) : State :=
  if m = magic then s else s.errorEntry .badMagic m false

/-- Read and check the tag `magic` (R212); fewer than 32 bits raise BAD_MAGIC with ERR_EOI (R214). -/
def readTag (magic : Word) (s : State) : State :=
  match s.readBits Config.tagW with
  | (none, s) => s.errorEntry .badMagic 0 true
  | (some v, s) => checkTag magic v s

/-- WRTAG (R211). -/
def execWrtag (s : State) : Outcome State Fault Refusal :=
  .next (writeTag Config.magic s)

/-- RDTAG (R212 to R214). -/
def execRdtag (s : State) : Outcome State Fault Refusal :=
  .next (readTag Config.magic s)

/-- TAG (R102, R212): its 32 bits are read and compared with MAGIC. -/
def execTag (m : Word) (s : State) : Outcome State Fault Refusal :=
  .next (checkTag Config.magic m (s.skip Config.tagW))

end Sys2Proof.Machine
end

