-- ==== Sys2Proof/Machine/FrequencyCounter.lean ====
section
/-! DEFINITION. The unit frequency_counter: COUNT (40_frequency_counter.md). -/

namespace Sys2Proof.Machine

open Host (Outcome)

/-- COUNT's reading loop (R141): read symbols of WORD_W bits until EOI, adding 1 to each one's count; a count that has reached `limit`
raises COUNT_OVERFLOW before it is changed (R143). `limit` is 2^CNT_W − 1; it is an argument because the spec shows the error
with a smaller CNT_W (95_test_vectors.md V70). Each iteration but the last consumes 8 bits, so `fuel` one above the number of
bits left is enough (R144). -/
def countLoop (limit : Count) : Nat → State → Run Unit
  | 0, _ => .bad .endlessLoop
  | fuel + 1, s =>
    match s.readBits Config.wordW with
    | (none, s) => .ok () s
    | (some v, s) =>
      (readFreq v.toNat s).bind fun c s =>
        if c = limit then Run.raise .countOverflow (v.setWidth 32) false s
        else (writeFreq v.toNat (c + 1) s).bind fun _ s => countLoop limit fuel s

/-- COUNT (R141): clear FREQ, count, set the sentinel's count to 1, FREQ_VALID <- 1. -/
def countRun (limit : Count) (s : State) : Run Unit :=
  (countLoop limit (s.src.remaining.length + 1) { s with freq := Table.fill Config.nsym 0 }).bind fun _ s =>
    (writeFreq Config.eos 1 s).bind fun _ s => .ok () { s with freqValid := true }

/-- COUNT (R140 to R145). -/
def execCount (s : State) : Outcome State Fault Refusal :=
  (countRun Config.countMax s).outcome

end Sys2Proof.Machine
end

