-- ==== Sys2Proof/Machine/HeaderCodec.lean ====
section
/-! DEFINITION. The unit huffman_header_codec (HC): WRHDR and RDHDR, and the two header tokens INTERNAL and LEAF as RDHDR's
Get takes them (43_header_codec.md; 30_encoding.md R103, R104). -/

namespace Sys2Proof.Machine

open Host (Outcome)

/-! ## WRHDR -/

/-- Put (R176): preorder, `0` and the two subtrees for an Internal node, `1` and the 9-bit symbol for a Leaf.
The type bit alone is INT_BITS wide, and with the symbol LEAF_BITS (R5). -/
def putNode : Nat → Idx → State → Run Unit
  | 0, _, _ => .bad .stackOverflow
  | fuel + 1, i, s =>
    (readNode i.toNat s).bind fun n s =>
      match n.kind with
      | .internal =>
        (putNode fuel n.left (s.writeBits Config.intBits 0)).bind fun _ s => putNode fuel n.right s
      | .leaf => .ok () ((s.writeBits Config.intBits 1).writeBits Config.symW n.sym.toNat)

/-- WRHDR (R175 to R179). -/
def execWrhdr (s : State) : Outcome State Fault Refusal :=
  (putNode (Config.nodeCap + 1) s.root s).outcome

/-- One node of WRHDR (R176, R38). -/
def visitWrhdr (s : State) : Run Unit :=
  (walkPosition s).bind fun i s =>
    (readNode i.toNat s).bind fun n s =>
      match n.kind with
      | .internal => pushFrame i (s.writeBits Config.intBits 0)
      | .leaf =>
        let s := (s.writeBits Config.intBits 1).writeBits Config.symW n.sym.toNat
        .ok () { s with trav := { s.trav with frames := (unwind s.trav.frames).2 } }

/-! ## RDHDR -/

/-- A node's index is NEXT, taken when its type bit has been read; a full table raises TREE_OVERFLOW (R180, R183). -/
def takeIndex (s : State) : Run Idx :=
  if s.next.toNat = Config.nodeCap then Run.raise .treeOverflow (BitVec.ofNat 32 Config.nodeCap) false s
  else .ok s.next { s with next := s.next + 1 }

/-- Get (R180): one `node` of the header grammar. The nesting is at most NODE_CAP deep (R184), one call more being the one
that raises. -/
def getNode : Nat → State → Run Idx
  | 0, _ => .bad .stackOverflow
  | fuel + 1, s =>
    match s.readBits Config.intBits with
    | (none, s) => Run.raise .headerTruncated 0 true s
    | (some b, s) =>
      (takeIndex s).bind fun i s =>
        if b = 0 then
          (getNode fuel s).bind fun l s =>
            (getNode fuel s).bind fun r s =>
              (writeNode i.toNat (internalNode 0 l r) s).bind fun _ s => .ok i s
        else
          match s.readBits Config.symW with
          | (none, s) => Run.raise .headerTruncated 0 true s
          | (some v, s) => (writeNode i.toNat (leafNode v 0) s).bind fun _ s => .ok i s

/-- RDHDR (R180): NEXT <- 0, one `node`, ROOT <- its index, TREE_VALID <- 1. -/
def rdhdrRun (s : State) : Run Unit :=
  (getNode (Config.nodeCap + 1) { s with next := 0 }).bind fun r s =>
    .ok () { s with root := r, treeValid := true }

/-- RDHDR (R180 to R186). -/
def execRdhdr (s : State) : Outcome State Fault Refusal :=
  (rdhdrRun s).outcome

/-! ## RDHDR one token at a time -/

/-- A subtree with root index `i` is complete, under the stack `frames`. With the stack empty the header is complete: ROOT and
TREE_VALID are set, RDHDR's last statements. Else it is the left subtree of the top entry, whose right one comes next, or
its right subtree, and then that Internal node's entry is written, its left child being the next index in preorder (R180). -/
def completeSubtree (i : Idx) : List Frame → State → Run Unit
  | [], s => .ok () { s with trav := .empty, root := i, treeValid := true }
  | ⟨j, false⟩ :: rest, s => .ok () { s with trav := { s.trav with frames := ⟨j, true⟩ :: rest } }
  | ⟨j, true⟩ :: rest, s =>
    (writeNode j.toNat (internalNode 0 (j + 1) i) s).bind fun _ s => completeSubtree j rest s

/-- INTERNAL as Get takes it: its one bit is read, its index taken, and its two subtrees are what comes next. -/
def internalToken (s : State) : Run Unit :=
  (takeIndex (s.skip Config.intBits)).bind fun i s => pushFrame i s

/-- LEAF as Get takes it: type bit, index, 9-bit value, and the entry is written; the value is not checked (R117). -/
def leafToken (sym : Sym) (s : State) : Run Unit :=
  (takeIndex (s.skip Config.intBits)).bind fun i s =>
    (writeNode i.toNat (leafNode sym 0) (s.skip Config.symW)).bind fun _ s => completeSubtree i s.trav.frames s

/-- The input ends inside a LEAF: the type bit is read and the index taken, then `ReadBits(9)` returns EOI (R180, R182). -/
def leafCutShort (s : State) : Run Unit :=
  (takeIndex (s.readBits Config.intBits).2).bind fun _ s => Run.raise .headerTruncated 0 true (s.readBits Config.symW).2

/-- The input ends where a type bit is due (R182). -/
def tokenMissing (s : State) : Run Unit :=
  Run.raise .headerTruncated 0 true (s.readBits Config.intBits).2

/-- INTERNAL (R103, R180). -/
def execInternal (s : State) : Outcome State Fault Refusal :=
  (internalToken s).outcome

/-- LEAF (R104, R117, R180). -/
def execLeaf (sym : Sym) (s : State) : Outcome State Fault Refusal :=
  (leafToken sym s).outcome

end Sys2Proof.Machine
end

