-- ==== Sys2Proof/Machine/StreamDecoder.lean ====
section
/-! DEFINITION. The unit huffman_stream_decoder (SD): DECODE (45_stream_decoder.md). -/

namespace Sys2Proof.Machine

open Host (Outcome)

/-- One branch of the walk (R201 to R203): from an Internal node to the child the bit names; at a leaf, which can only be a
leaf root, CUR stays. -/
def decodeMove (b : Bool) (s : State) : Run Unit :=
  (readNode s.cur.toNat s).bind fun n s =>
    match n.kind with
    | .internal => .ok () { s with cur := n.child b }
    | .leaf => .ok () s

/-- DECODE's loop (R201): read a bit, move, and at a leaf end on the sentinel (R205) or emit the literal's low 8 bits and go
back to ROOT (R204). Each iteration consumes a bit, so `fuel` one above the number of bits left is enough (R207). -/
def decodeLoop : Nat → State → Run Unit
  | 0, _ => .bad .endlessLoop
  | fuel + 1, s =>
    match s.readBits 1 with
    | (none, s) => Run.raise .payloadTruncated 0 true s
    | (some b, s) =>
      (decodeMove (b = 1) s).bind fun _ s =>
        (readNode s.cur.toNat s).bind fun n s =>
          match n.kind with
          | .internal => decodeLoop fuel s
          | .leaf =>
            if n.sym.toNat = Config.eos then .ok () s
            else decodeLoop fuel { s.writeBits Config.wordW (n.sym.setWidth _ : Byte).toNat with cur := s.root }

/-- DECODE (R201): CUR <- ROOT, then the loop. -/
def decodeRun (s : State) : Run Unit :=
  decodeLoop (s.src.remaining.length + 1) { s with cur := s.root }

/-- DECODE (R200 to R208). -/
def execDecode (s : State) : Outcome State Fault Refusal :=
  (decodeRun s).outcome

end Sys2Proof.Machine
end

