-- ==== Sys2Proof/Machine/StreamEncoder.lean ====
section
/-! DEFINITION. The unit huffman_stream_encoder (SE): ENCODE (44_stream_encoder.md). -/

namespace Sys2Proof.Machine

open Host (Outcome)

/-- Emit (R191, R192): `pat[len−1]` first, `pat[0]` last, each by its own `WriteBits(1, b)`; leading zeros are written too. -/
def emitCode (pat : Pat) : Nat → State → State
  | 0, s => s
  | k + 1, s => emitCode pat k (s.writeBits 1 (pat.getLsbD k).toNat)

/-- ENCODE's loop (R191): each byte's code, until EOI; a byte without a code raises NO_CODE before anything is written for it
(R194). `fuel` one above the number of bits left is enough (R193). -/
def encodeLoop : Nat → State → Run Unit
  | 0, _ => .bad .endlessLoop
  | fuel + 1, s =>
    match s.readBits Config.wordW with
    | (none, s) => .ok () s
    | (some v, s) =>
      (readCode v.toNat s).bind fun c s =>
        if c.valid then encodeLoop fuel (emitCode c.pat c.len.toNat s)
        else Run.raise .noCode (v.setWidth 32) false s

/-- ENCODE (R191): rewind, encode every byte, then the sentinel's code once. -/
def encodeRun (s : State) : Run Unit :=
  (encodeLoop (s.rewind.src.remaining.length + 1) s.rewind).bind fun _ s =>
    (readCode Config.eos s).bind fun c s => .ok () (emitCode c.pat c.len.toNat s)

/-- ENCODE (R190 to R196). -/
def execEncode (s : State) : Outcome State Fault Refusal :=
  (encodeRun s).outcome

end Sys2Proof.Machine
end

