-- ==== Sys2Proof/Machine/TreeBuilder.lean ====
section
/-! DEFINITION. The unit huffman_tree_builder (TB): BUILD (41_tree_builder.md). -/

namespace Sys2Proof.Machine

open Host (Outcome)

/-- BUILD part 1 over the symbols of a list, in its order (R151): a Leaf per symbol with a nonzero count, made live. -/
def buildLeaves : List Nat → State → Run Unit
  | [], s => .ok () s
  | i :: rest, s =>
    (readFreq i s).bind fun c s =>
      if c = 0 then buildLeaves rest s
      else
        (writeNode i (leafNode (BitVec.ofNat _ i) (c.setWidth _)) s).bind fun _ s =>
          buildLeaves rest { s with live := liveInsert i s.live, nlive := s.nlive + 1 }

/-- The removal order (R152): smaller weight first, at equal weight the smaller index. -/
def goesBefore (w : Weight) (a : Nat) (v : Weight) (b : Nat) : Bool :=
  decide (w < v) || (decide (w = v) && decide (a < b))

/-- The first in the removal order among index `m`, of weight `w`, and the indexes of a list (R152). -/
def firstInOrder (w : Weight) (m : Nat) : List Nat → State → Run Nat
  | [], s => .ok m s
  | i :: rest, s =>
    (readNode i s).bind fun n s =>
      if goesBefore n.weight i w m then firstInOrder n.weight i rest s else firstInOrder w m rest s

/-- PopMin (R152): take the first live node in the removal order out of LIVE. -/
def popMin (s : State) : Run Nat :=
  match s.live with
  | [] => .bad .noLiveNode
  | i :: rest =>
    (readNode i s).bind fun n s =>
      (firstInOrder n.weight i rest s).bind fun m s =>
        .ok m { s with live := s.live.erase m, nlive := s.nlive - 1 }

/-- One merge (R153): the first node removed becomes the left child, the second the right one; weights add up; the new node
takes index NEXT and becomes live. -/
def mergeOnce (s : State) : Run Unit :=
  (popMin s).bind fun a s =>
    (popMin s).bind fun b s =>
      (readNode a s).bind fun na s =>
        (readNode b s).bind fun nb s =>
          (writeNode s.next.toNat
              (internalNode (na.weight + nb.weight) (BitVec.ofNat _ a) (BitVec.ofNat _ b)) s).bind fun _ s =>
            .ok () { s with live := liveInsert s.next.toNat s.live, nlive := s.nlive + 1, next := s.next + 1 }

/-- BUILD part 2 (R153): merge until one live node remains. NLIVE falls by one an iteration, so NLIVE is fuel enough; none is
left only when no node was live (R150 excludes it). -/
def mergeLoop : Nat → State → Run Unit
  | 0, _ => .bad .noLiveNode
  | fuel + 1, s =>
    if s.nlive = 1 then .ok () s
    else (mergeOnce s).bind fun _ s => mergeLoop fuel s

/-- BUILD part 3 (R154): ROOT <- the one live index; TREE_VALID <- 1. -/
def buildFinish (s : State) : Run Unit :=
  match s.live with
  | [r] => .ok () { s with root := BitVec.ofNat _ r, treeValid := true }
  | _ => .bad .noLiveNode

/-- BUILD (R151, R153, R154). -/
def buildRun (s : State) : Run Unit :=
  (buildLeaves (List.range Config.nsym) { s with live := [], nlive := 0 }).bind fun _ s =>
    (mergeLoop s.nlive.toNat { s with next := 257 }).bind fun _ s => buildFinish s

/-- BUILD (R150 to R160). -/
def execBuild (s : State) : Outcome State Fault Refusal :=
  (buildRun s).outcome

end Sys2Proof.Machine
end

