-- ==== Sys2Proof/Machine/Dispatch.lean ====
section
/-! DEFINITION. The meaning of every operation: one arm per constructor of Instr. -/

namespace Sys2Proof.Machine

def exec (i : Instr) (s : State) : Host.Outcome State Fault Refusal :=
  match i with
  | .compress => Sys2Proof.Machine.execCompress s
  | .decompress => Sys2Proof.Machine.execDecompress s
  | .clear => Sys2Proof.Machine.execClear s
  | .count => Sys2Proof.Machine.execCount s
  | .build => Sys2Proof.Machine.execBuild s
  | .gencodes => Sys2Proof.Machine.execGencodes s
  | .wrtag => Sys2Proof.Machine.execWrtag s
  | .wrhdr => Sys2Proof.Machine.execWrhdr s
  | .encode => Sys2Proof.Machine.execEncode s
  | .rdtag => Sys2Proof.Machine.execRdtag s
  | .rdhdr => Sys2Proof.Machine.execRdhdr s
  | .decode => Sys2Proof.Machine.execDecode s
  | .close => Sys2Proof.Machine.execClose s
  | .tag m => Sys2Proof.Machine.execTag m s
  | .internal => Sys2Proof.Machine.execInternal s
  | .leaf sym => Sys2Proof.Machine.execLeaf sym s

end Sys2Proof.Machine
end

