-- ==== Sys2Proof/Machine/Transactions.lean ====
section
/-! DEFINITION. The port transactions of the block's turn, in the order they are issued (20_memory.md R74, R78, R79). A reset may
land between any two of them (70_reset_and_hazards.md R270, R271), and what the finished ones have done to the source and the
sink is all of the turn that a reset leaves: every register and flag gets its reset value, and the tables' contents are
unspecified from then on. -/

namespace Sys2Proof.Machine

/-- A port transaction, indivisible (R74). -/
inductive PortOp where
  /-- `ReadBits(n)` (R62). -/
  | read (n : Nat)
  /-- `Rewind()` (R64). -/
  | rewind
  /-- `WriteBits(n, v)` (R66). -/
  | write (n v : Nat)
  /-- `CloseSink()` (R67). -/
  | close
  deriving DecidableEq, Repr

/-- What a transaction does to the source and the sink. -/
def PortOp.run (op : PortOp) (io : Source × Sink) : Source × Sink :=
  match op with
  | .read n => ((io.1.readBits n).2, io.2)
  | .rewind => (io.1.rewind, io.2)
  | .write n v => (io.1, io.2.writeBits n v)
  | .close => (io.1, io.2.close)

/-- What transactions do one after the other. -/
def runPorts (ops : List PortOp) (io : Source × Sink) : Source × Sink := ops.foldl (fun io op => op.run io) io

/-- The state with transactions issued. -/
def State.ports (ops : List PortOp) (s : State) : State :=
  { s with src := (runPorts ops (s.src, s.sink)).1, sink := (runPorts ops (s.src, s.sink)).2 }

/-! ## The transactions of each micro-operation -/

/-- The transaction of CLOSE, and of an error entry: the sink is closed unless the block already has (R225, R250, R251). -/
def closing (s : State) : List PortOp := if s.sinkClosed then [] else [.close]

/-- The transactions of the statements that follow a stretch of pseudocode, or those of its `raise`. -/
def Run.portsAfter {α : Type} (r : Run α) (raising : List PortOp) (k : α → State → List PortOp) : List PortOp :=
  match r with
  | .ok a s => k a s
  | .raised _ => raising
  | .bad _ => []

/-- COUNT's loop (R141): a read a symbol; the last one is the EOI, or the one whose count is full (R143). -/
def countPorts (limit : Count) : Nat → State → List PortOp
  | 0, _ => []
  | fuel + 1, s =>
    .read Config.wordW ::
      match s.readBits Config.wordW with
      | (none, _) => []
      | (some v, s) =>
        (readFreq v.toNat s).portsAfter [] fun c s =>
          if c = limit then closing s
          else (writeFreq v.toNat (c + 1) s).portsAfter [] fun _ s => countPorts limit fuel s

/-- WRHDR's Put (R176). Where the model's Put faults on an entry, which R176's precondition excludes, the writes after it are
of no consequence. -/
def putPorts : Nat → Idx → State → List PortOp
  | 0, _, _ => []
  | fuel + 1, i, s =>
    (readNode i.toNat s).portsAfter [] fun n s =>
      match n.kind with
      | .internal => .write Config.intBits 0 :: (putPorts fuel n.left s ++ putPorts fuel n.right s)
      | .leaf => [.write Config.intBits 1, .write Config.symW n.sym.toNat]

/-- Emit (R191, R192): a write a bit. -/
def codePorts (c : CodeEntry) : List PortOp :=
  (msbFirst c.len.toNat c.pat.toNat).map (fun b => .write 1 b.toNat)

/-- ENCODE's loop after its Rewind, and the sentinel's code (R191, R194). -/
def encodePorts : Nat → State → List PortOp
  | 0, _ => []
  | fuel + 1, s =>
    .read Config.wordW ::
      match s.readBits Config.wordW with
      | (none, s) => (readCode Config.eos s).portsAfter [] fun c _ => codePorts c
      | (some v, s) =>
        (readCode v.toNat s).portsAfter [] fun c s =>
          if c.valid then codePorts c ++ encodePorts fuel s else closing s

/-- RDTAG (R212 to R214). -/
def tagPorts (s : State) : List PortOp :=
  .read Config.tagW ::
    match s.readBits Config.tagW with
    | (none, s) => closing s
    | (some v, s) => if v = Config.magic then [] else closing s

/-- RDHDR's Get (R180), told by the number of indexes still free and the number of `node`s still to come: a type bit each, and a
symbol after a type bit 1; one more type bit when the table is full (R183). -/
def headerPorts : Nat → Nat → State → List PortOp
  | _, 0, _ => []
  | 0, _ + 1, s => .read Config.intBits :: closing s
  | free + 1, due + 1, s =>
    .read Config.intBits ::
      match s.readBits Config.intBits with
      | (none, s) => closing s
      | (some b, s) =>
        if b = 0 then headerPorts free (due + 2) s
        else
          .read Config.symW ::
            match s.readBits Config.symW with
            | (none, s) => closing s
            | (some _, s) => headerPorts free due s

/-- DECODE's loop (R201): a read a payload bit, a write a literal. -/
def decodePorts : Nat → State → List PortOp
  | 0, _ => []
  | fuel + 1, s =>
    .read 1 ::
      match s.readBits 1 with
      | (none, s) => closing s
      | (some b, s) =>
        (decodeMove (b = 1) s).portsAfter [] fun _ s =>
          (readNode s.cur.toNat s).portsAfter [] fun n s =>
            match n.kind with
            | .internal => decodePorts fuel s
            | .leaf =>
              if n.sym.toNat = Config.eos then []
              else .write Config.wordW (n.sym.setWidth _ : Byte).toNat :: decodePorts fuel { s with cur := s.root }

/-- The transactions of the whole micro-operation PHASE names (R33). BUILD and GENCODES have none. -/
def microOpPorts (s : State) : List PortOp :=
  match s.phase with
  | .none | .build | .gencodes => []
  | .count =>
    countPorts Config.countMax (s.src.remaining.length + 1) { s with freq := Table.fill Config.nsym 0 }
  | .wrtag => [.write Config.tagW Config.magic.toNat]
  | .wrhdr => putPorts (Config.nodeCap + 1) s.root s
  | .encode => .rewind :: encodePorts (s.rewind.src.remaining.length + 1) s.rewind
  | .rdtag => tagPorts s
  | .rdhdr => headerPorts Config.nodeCap 1 s
  | .decode => decodePorts (s.src.remaining.length + 1) { s with cur := s.root }
  | .close => closing s

/-! ## The transactions of one node or token of a walk -/

/-- The transactions of WRHDR's next node. -/
def visitPorts (s : State) : List PortOp :=
  (walkPosition s).portsAfter [] fun i s =>
    (readNode i.toNat s).portsAfter [] fun n _ =>
      match n.kind with
      | .internal => [.write Config.intBits 0]
      | .leaf => [.write Config.intBits 1, .write Config.symW n.sym.toNat]

/-- The transactions of RDHDR's next token, when `full` says that no index is free. -/
def tokenPorts (full : Bool) (s : State) : List PortOp :=
  .read Config.intBits ::
    match decodeHeader s.src.remaining with
    | .ok (.internal, _) => if full then closing s else []
    | .ok _ => if full then closing s else [.read Config.symW]
    | .error .leafCut => if full then closing s else .read Config.symW :: closing s
    | .error _ => closing s

/-- The transactions of a turn of one node or token. RDHDR's first statement NEXT <- 0 comes before its first token (R180). -/
def nodePorts (s : State) : List PortOp :=
  match s.phase with
  | .gencodes => []
  | .wrhdr => visitPorts s
  | .rdhdr => tokenPorts (decide (s.trav.frames ≠ [] ∧ s.next.toNat = Config.nodeCap)) s
  | .none | .count | .build | .wrtag | .encode | .rdtag | .decode | .close => microOpPorts s

/-- The transactions of the block's turn, of a grain (R231); none while it waits (R270). -/
def turnPorts (g : Grain) (s : State) : List PortOp :=
  if s.state = .busy then
    if g = .node ∨ s.trav.frames ≠ [] then nodePorts s else microOpPorts s
  else []

/-- A reset inside the block's turn, after `k` of its transactions (R270, R271): the command ends on the spot. No error entry
runs, and the sink holds what was written before. -/
def State.resetAfter (g : Grain) (k : Nat) (s : State) : State :=
  (s.ports ((turnPorts g s).take k)).hardReset

end Sys2Proof.Machine
end

