-- ==== Sys2Proof/Machine/Turn.lean ====
section
/-! DEFINITION. Who moves, and what a move does: the host's register accesses (10_state.md R39, R40; 47_sequencer_commands.md
R221), attaching source and sink, reset (70_reset_and_hazards.md R270 to R278), and the block's own turn, in which the
sequencer fetches the operation PHASE names and advances PHASE (R227). -/

namespace Sys2Proof.Machine

open Host (Outcome)

/-! ## The sequencer -/

/-- The micro-operation after each one in the command's fixed sequence (R222, R223): COUNT, BUILD, GENCODES, WRTAG, WRHDR,
ENCODE, CLOSE; RDTAG, RDHDR, DECODE, CLOSE. After CLOSE there is none. -/
def Phase.following : Phase → Phase
  | .none => .none
  | .count => .build
  | .build => .gencodes
  | .gencodes => .wrtag
  | .wrtag => .wrhdr
  | .wrhdr => .encode
  | .encode => .close
  | .rdtag => .rdhdr
  | .rdhdr => .decode
  | .decode => .close
  | .close => .none

/-- Complete (R226): the valid flags 0, PHASE <- 0, STATE <- DONE. -/
def State.complete (s : State) : State :=
  { s.clearValid with phase := .none, state := .done }

/-- What follows a turn (R227): when the micro-operation has run to its last statement without raising (STATE is still BUSY
and no walk is under way), PHASE takes the next code, or the command completes after CLOSE. -/
def State.advance (s : State) : State :=
  if s.state = .busy ∧ s.trav.frames = [] then
    if s.phase = .close then s.complete else { s with phase := s.phase.following }
  else s

/-- The whole micro-operation PHASE names (R33, R116). -/
def microOpTurn (s : State) : Outcome State Fault Refusal :=
  match decodePhase s.phase.code with
  | .ok i => exec i s
  | .error _ => .fault .noMicroOperation

/-- The next token of a header (R180): RDHDR's first statement NEXT <- 0 comes before the first token. -/
def beginHeader (s : State) : State :=
  if s.trav.frames = [] then { s with next := 0 } else s

/-- RDHDR's turn for one token: the token at the read position is decoded and run; where the input ends before the token is
complete, Get raises (R182). -/
def headerTurn (s : State) : Outcome State Fault Refusal :=
  match decodeHeader s.src.remaining with
  | .ok (i, _) => exec i (beginHeader s)
  | .error .leafCut => (leafCutShort (beginHeader s)).outcome
  | .error _ => (tokenMissing (beginHeader s)).outcome

/-- RDTAG's turn for its one token; with fewer than 32 bits left RDTAG itself says what happens (R214). -/
def tagTurn (s : State) : Outcome State Fault Refusal :=
  match decodeTag s.src.remaining with
  | .ok (i, _) => exec i s
  | .error _ => microOpTurn s

/-- A turn of one node or token where the micro-operation walks a tree or reads tokens, else a whole micro-operation. -/
def nodeTurn (s : State) : Outcome State Fault Refusal :=
  match s.phase with
  | .gencodes => (visitGencodes s).outcome
  | .wrhdr => (visitWrhdr s).outcome
  | .rdtag => tagTurn s
  | .rdhdr => headerTurn s
  | .none | .count | .build | .wrtag | .encode | .decode | .close => microOpTurn s

/-- Go on with the next state, if there is one. -/
def andThen (o : Outcome State Fault Refusal) (k : State → Outcome State Fault Refusal) : Outcome State Fault Refusal :=
  match o with
  | .next s => k s
  | .fault f => .fault f
  | .refused r => .refused r

/-- The block's turn: while BUSY, one micro-operation, or one node of it when the turn is of that grain or a walk is under way
(R231); else the block waits (R261, R270). -/
def blockTurn (g : Grain) (s : State) : Outcome State Fault Refusal :=
  if s.state = .busy then
    andThen (if g = .node ∨ s.trav.frames ≠ [] then nodeTurn s else microOpTurn s) (fun t => .next t.advance)
  else .next s

/-! ## The outside world -/

/-- A host write (R39, R40): CMD takes the word, accepted or not, and a command word is run, an illegal one handled as R228 and
R229 say; writes to the other registers are ignored. -/
def hostWrite (r : HostReg) (w : Word) (s : State) : Outcome State Fault Refusal :=
  match r with
  | .cmd =>
    match decodeCommand w with
    | .ok i => exec i { s with cmd := w }
    | .error _ => .next (illegalCommand w { s with cmd := w })
  | .status | .errCause | .errInfo => .next s

/-- The host attaches a fresh source and sink (R275, R276); while BUSY it has no such move (R277, R278). -/
def attach (bits : Bits) (rewound : Option Bits) (s : State) : Outcome State Fault Refusal :=
  if s.state = .busy then .refused .attachWhileBusy
  else .next { s with src := ⟨bits, 0, rewound⟩, sink := ⟨[], false⟩ }

/-- What one move does. -/
def runMove (m : Move) (s : State) : Outcome State Fault Refusal :=
  match m with
  | .block g => blockTurn g s
  | .write r w => hostWrite r w s
  | .read r => .next { s with hostData := s.hostRead r }
  | .attach bits rewound => attach bits rewound s
  | .reset => .next s.hardReset
  | .resetDuring g k => .next (s.resetAfter g k)

/-- One step: the next move, or, when none is listed, the block's turn (log entry 3). -/
def stepMove (s : State) : Outcome State Fault Refusal :=
  match s.moves with
  | [] => blockTurn .microOp s
  | m :: rest => runMove m { s with moves := rest }

/-! ## Placing an operation where the next step fetches it -/

/-- Run operations one after the other for what they leave, going no further than the first that gives no next state. -/
def runAll : List Instr → State → State
  | [], s => s
  | i :: rest, s =>
    match exec i s with
    | .next t => runAll rest t
    | .fault _ | .refused _ => s

/-- The micro-operations whose tables an operation's precondition needs (R150, R165, R176, R190): what the sequencer has run
before it. -/
def preparing : Instr → List Instr
  | .build => [.count]
  | .gencodes | .wrhdr => [.count, .build]
  | .encode => [.count, .build, .gencodes]
  | .compress | .decompress | .clear | .count | .wrtag | .rdtag | .rdhdr | .decode | .close => []
  | .tag _ | .internal | .leaf _ => []

/-- The PHASE a code stands for (R116). -/
def phaseOfCode (p : BitVec 4) : Phase :=
  match p.toNat with
  | 1 => .count
  | 2 => .build
  | 3 => .gencodes
  | 4 => .wrtag
  | 5 => .wrhdr
  | 6 => .encode
  | 7 => .rdtag
  | 8 => .rdhdr
  | 9 => .decode
  | 10 => .close
  | _ => .none

/-- Put token bits at the source's read position, over what was there. -/
def Source.place (bs : Bits) (src : Source) : Source :=
  { src with bits := src.bits.take src.pos ++ bs ++ src.bits.drop (src.pos + bs.length) }

/-- Place an operation's encoding where the next step fetches from: a command word as the host's next write, a PHASE code in
PHASE with the tables its precondition needs, a token at the source's read position with the micro-operation that reads it
running (log entry 13). -/
def placeEncoding (e : Encoding) (s : State) : State :=
  match e with
  | .command w => { s with moves := .write .cmd w :: s.moves }
  | .phase p =>
    let s := match decodePhase p with
      | .ok i => runAll (preparing i) s
      | .error _ => s
    { s with state := .busy, phase := phaseOfCode p, trav := .empty, moves := .block .microOp :: s.moves }
  | .tagBits bs => { s with state := .busy, phase := .rdtag, src := s.src.place bs, moves := .block .node :: s.moves }
  | .headerBits bs => { s with state := .busy, phase := .rdhdr, src := s.src.place bs, moves := .block .node :: s.moves }

/-- Place the operation of an opcode-table word; a word of no row changes nothing. -/
def placeTableWord (nbits w : Nat) (s : State) : State :=
  match encodingOfTable nbits w with
  | some e => placeEncoding e s
  | none => s

end Sys2Proof.Machine
end

