-- ==== Sys2Proof/Machine/Step.lean ====
section
/-! DEFINITION. The step, and where the host places an operation to see it run. Everything is defined in Machine/Turn.lean. -/

namespace Sys2Proof.Machine

/-- One step of the system. -/
def step (s : State) : Host.Outcome State Fault Refusal := stepMove s

/-- The state with an opcode-table word placed where the next step fetches its operation. -/
def State.withFetchWord (s : State) (nbits w : Nat) : State := placeTableWord nbits w s

end Sys2Proof.Machine
end

