-- ==== Sys2Proof/Safety.lean ====
section
/-! DEFINITION. The terms claims are stated in: code trees and the bits they stand for (30_encoding.md R103 to R108), what it is
for the tables to hold a tree or a code table, the composite commands (47_sequencer_commands.md R222, R223), and the invariants
of the machine (10_state.md R25, R33 to R43, R46). -/

namespace Sys2Proof.Safety

open Sys2Proof.Machine
open Host (Outcome)

/-! ## Code trees -/

/-- A binary code tree with symbols at its leaves (R22, R25). -/
inductive Tree where
  | leaf (sym : Sym)
  | node (left right : Tree)
  deriving DecidableEq, Repr

/-- The header of a tree: its preorder, `0` per Internal node, `1` and nine symbol bits per Leaf (R103, R104). -/
def Tree.header : Tree → Bits
  | .leaf sym => true :: msbFirst 9 sym.toNat
  | .node l r => false :: (l.header ++ r.header)

/-- The symbols at the leaves, left to right. -/
def Tree.syms : Tree → List Sym
  | .leaf sym => [sym]
  | .node l r => l.syms ++ r.syms

/-- The number of nodes. -/
def Tree.nodes : Tree → Nat
  | .leaf _ => 1
  | .node l r => l.nodes + r.nodes + 1

/-- The number of edges on the longest path from the root. -/
def Tree.height : Tree → Nat
  | .leaf _ => 0
  | .node l r => max l.height r.height + 1

/-- Every leaf's symbol with the path to it, `0` for a left edge and `1` for a right one, nearest the root first (R107). -/
def Tree.paths : Tree → List (Sym × Bits)
  | .leaf sym => [(sym, [])]
  | .node l r => l.paths.map (fun p => (p.1, false :: p.2)) ++ r.paths.map (fun p => (p.1, true :: p.2))

/-- The code of every symbol of a tree: its path, and the one-bit string `0` in a one-leaf tree (R166, R167). -/
def Tree.codes : Tree → List (Sym × Bits)
  | .leaf sym => [(sym, [false])]
  | .node l r => (Tree.node l r).paths

/-- Where one payload bit leads (R202, R203): to a child, and from a leaf, which can only be a leaf root, nowhere. -/
def Tree.move : Tree → Bool → Tree
  | .leaf sym, _ => .leaf sym
  | .node l r, b => if b then r else l

/-- How many type bits a bit sequence holds when `due` `node`s of a header are read from it, up to its end, and whether it
holds those `node`s whole (R103, R104, R180). A type bit 1 with fewer than nine bits after it counts. -/
def headerTokens : Nat → Bits → Nat × Bool
  | 0, _ => (0, true)
  | _ + 1, [] => (0, false)
  | due + 1, false :: rest => ((headerTokens (due + 2) rest).1 + 1, (headerTokens (due + 2) rest).2)
  | due + 1, true :: _ :: _ :: _ :: _ :: _ :: _ :: _ :: _ :: _ :: rest =>
    ((headerTokens due rest).1 + 1, (headerTokens due rest).2)
  | _ + 1, true :: _ => (1, false)

/-- Walk a payload through a tree from a position in it (R201): the symbols emitted, and the bits left after the sentinel, or
`none` when the bits end first. -/
def Tree.walk (root : Tree) : Tree → Bits → List Sym × Option Bits
  | _, [] => ([], none)
  | here, b :: rest =>
    match here.move b with
    | .leaf sym =>
      if sym.toNat = Config.eos then ([], some rest)
      else (sym :: (Tree.walk root root rest).1, (Tree.walk root root rest).2)
    | .node l r => Tree.walk root (.node l r) rest

/-- The cost of a tree under the counts of the symbols: the sum over the leaves of weight times depth (R156). `depth` is the
depth of the tree's own root. -/
def Tree.cost (weight : Sym → Nat) (depth : Nat) : Tree → Nat
  | .leaf sym => weight sym * depth
  | .node l r => l.cost weight (depth + 1) + r.cost weight (depth + 1)

/-- The sum of the leaves' weights. -/
def Tree.weight (weight : Sym → Nat) : Tree → Nat
  | .leaf sym => weight sym
  | .node l r => l.weight weight + r.weight weight

/-! ## What the tables hold -/

/-- NODE holds a tree at an index: its entries are inside the table and have the tree's shape and leaf symbols (R22, R25). -/
def holdsTree (node : Table Node) : Tree → Idx → Bool
  | .leaf sym, i =>
    match node.read i.toNat with
    | some n => decide (i.toNat < Config.nodeCap) && decide (n.kind = .leaf) && decide (n.sym = sym)
    | none => false
  | .node l r, i =>
    match node.read i.toNat with
    | some n =>
      decide (i.toNat < Config.nodeCap) && decide (n.kind = .internal) && holdsTree node l n.left &&
        holdsTree node r n.right
    | none => false

/-- The Internal nodes that a finished subtree with root `i` completes under a stack, innermost first, each with its entry as
RDHDR writes it: weight 0, the left child at the next index in preorder, the right child the subtree just finished (R180). -/
def completedEntries (i : Idx) : List Frame → List (Idx × Node)
  | ⟨j, true⟩ :: rest => (j, ⟨.internal, 0, 0, j + 1, i⟩) :: completedEntries j rest
  | ⟨_, false⟩ :: _ => []
  | [] => []

/-- NODE's weights agree with the counts: a leaf's weight is its symbol's count, an Internal node's the sum of its children's
(R25 d). -/
def holdsWeights (node : Table Node) (weight : Sym → Nat) : Tree → Idx → Bool
  | .leaf sym, i =>
    match node.read i.toNat with
    | some n => decide (n.weight.toNat = weight sym)
    | none => false
  | .node l r, i =>
    match node.read i.toNat with
    | some n =>
      decide (n.weight.toNat = l.weight weight + r.weight weight) && holdsWeights node weight l n.left &&
        holdsWeights node weight r n.right
    | none => false

/-- A code's bits in stream order (R26, R192). -/
def codeBits (c : CodeEntry) : Bits := msbFirst c.len.toNat c.pat.toNat

/-- The entry that holds a code (R26): its length, and its bits right-aligned. -/
def entryOfBits (bs : Bits) : CodeEntry := ⟨true, BitVec.ofNat 9 bs.length, BitVec.ofNat 256 (fromMsb bs)⟩

/-- The codes of a byte string, one after the other (R107); a byte without an entry in CODE gives no bits. -/
def payloadBits (code : Table CodeEntry) (bytes : List Byte) : Bits :=
  bytes.flatMap (fun b => codeBits ((code.read b.toNat).getD noCodeEntry))

/-- The literals a decode emits: the low 8 bits of each symbol (R204). -/
def literalBits (syms : List Sym) : Bits := syms.flatMap (fun sym => msbFirst 8 sym.toNat)

/-- A symbol's count in FREQ; 0 where nothing is written. -/
def countIn (freq : Table Count) (sym : Sym) : Nat := ((freq.read sym.toNat).getD 0).toNat

/-- The symbols with a nonzero count, ascending (R151). -/
def countedSyms (freq : Table Count) : List Sym :=
  ((List.range Config.nsym).map (BitVec.ofNat 9)).filter (fun sym => countIn freq sym != 0)

/-- FREQ as COUNT leaves it: every entry written, the sentinel's count 1 (R142, R150). -/
def FreqReady (s : State) : Prop :=
  (∀ i < Config.nsym, (s.freq.read i).isSome) ∧ s.freq.read Config.eos = some 1

/-- NODE as BUILD leaves it: a tree at ROOT of height at most 256 whose leaves are Symbols (R25, R168). -/
def TreeReady (s : State) : Prop :=
  ∃ t : Tree, holdsTree s.node t s.root ∧ t.height ≤ 256 ∧ ∀ sym ∈ t.syms, sym.toNat ≤ Config.eos

/-- CODE as GENCODES leaves it: every entry written (R166). -/
def CodeReady (s : State) : Prop :=
  ∀ i < Config.nsym, (s.code.read i).isSome

/-! ## The composite commands -/

/-- Run a command's micro-operations in order, PHASE <- p before each; a raise ends it, and after the last Complete runs
(R222, R223, R226, R227). -/
def runSequence : List (Phase × Instr) → State → Outcome State Fault Refusal
  | [], s => .next s.complete
  | (p, i) :: rest, s =>
    andThen (exec i { s with phase := p }) fun t =>
      if t.state = .error then .next t else runSequence rest t

/-- COMPRESS's sequence (R222). -/
def compressSequence : List (Phase × Instr) :=
  [(.count, .count), (.build, .build), (.gencodes, .gencodes), (.wrtag, .wrtag), (.wrhdr, .wrhdr),
    (.encode, .encode), (.close, .close)]

/-- DECOMPRESS's sequence (R223). -/
def decompressSequence : List (Phase × Instr) :=
  [(.rdtag, .rdtag), (.rdhdr, .rdhdr), (.decode, .decode), (.close, .close)]

/-! ## Invariants -/

/-- The phases in which a tree walk may be under way (R38). -/
def walkPhase : Phase → Bool
  | .gencodes | .wrhdr | .rdhdr => true
  | .none | .count | .build | .wrtag | .encode | .rdtag | .decode | .close => false

/-- What holds after every step from a state where it holds. -/
structure Inv (s : State) : Prop where
  /-- The tables and LIVE keep their canonical form, inside their capacities (R21, R22, R26, R27). -/
  wf : Memory.wf s = true
  /-- NEXT is in 0 to 513 (R29). -/
  nextInRange : s.next.toNat ≤ Config.nodeCap
  /-- NLIVE is in 0 to 257 (R30). -/
  nliveInRange : s.nlive.toNat ≤ Config.nsym
  /-- 0 ≤ in_pos ≤ LIN (R61). -/
  posInRange : s.src.pos ≤ s.src.bits.length
  /-- While a command runs PHASE names a micro-operation (R33). -/
  busyPhase : s.state = .busy → s.phase ≠ .none
  /-- In IDLE and DONE it names none (R33). -/
  restPhase : s.state = .idle ∨ s.state = .done → s.phase = .none
  /-- The valid flags are 0 when no command runs (R35). -/
  restFlags : s.state ≠ .busy → s.freqValid = false ∧ s.treeValid = false ∧ s.codeValid = false
  /-- CAUSE ≠ 0 exactly when STATE = ERROR (R42). -/
  causeIffError : s.errCause ≠ .none ↔ s.state = .error
  /-- With no error recorded ERR_INFO and ERR_EOI are 0 (R243, R226). -/
  noErrorInfo : s.errCause = .none → s.errInfo = 0 ∧ s.errEoi = false
  /-- ERR_EOI is 1 always for the two truncation causes (R37). -/
  truncatedEoi : s.errCause = .headerTruncated ∨ s.errCause = .payloadTruncated → s.errEoi = true
  /-- ERR_EOI is 0 for the causes that are no end of input (R243). -/
  coreFaultEoi : s.errCause = .treeOverflow ∨ s.errCause = .countOverflow ∨ s.errCause = .noCode ∨
    s.errCause = .illegalCommand → s.errEoi = false
  /-- The block has not closed the sink before a command ends (R36, R225, R251). -/
  openBefore : s.state = .idle ∨ s.state = .busy → s.sinkClosed = false
  /-- It has in DONE (R230). -/
  closedDone : s.state = .done → s.sinkClosed = true
  /-- The traversal stack is empty whenever no walking micro-operation is running (R38). -/
  stackOnlyWalking : s.trav.frames ≠ [] → s.state = .busy ∧ walkPhase s.phase = true
  /-- It holds at most NODE_CAP entries (R38). -/
  stackInRange : s.trav.frames.length ≤ Config.nodeCap
  /-- While RDHDR runs its entries are nodes whose index has been taken, no more of them than indexes taken, and an entry was
  taken after those below it (R38, R180). -/
  stackOfHeader : s.phase = .rdhdr →
    s.trav.frames.length ≤ s.next.toNat ∧ (∀ f ∈ s.trav.frames, f.index.toNat < s.next.toNat) ∧
      s.trav.frames.Pairwise (fun above below => below.index.toNat < above.index.toNat)

/-- What each micro-operation finds in the tables when the sequencer reaches it (R46: every micro-operation reads only what an
earlier one of its command has written), between micro-operations. -/
def Prepared (s : State) : Prop :=
  match s.phase with
  | .none => False
  | .count | .rdtag | .rdhdr | .close => True
  | .build => FreqReady s
  | .gencodes => TreeReady s
  | .wrtag | .wrhdr => TreeReady s ∧ CodeReady s
  | .encode => CodeReady s
  | .decode => ∃ t : Tree, holdsTree s.node t s.root = true

/-- A state in which the block's next turn cannot fault: the invariant, no walk half done, and, while BUSY, the tables the
micro-operation reads are written. -/
def Ready (s : State) : Prop :=
  Inv s ∧ s.trav.frames = [] ∧ (s.state = .busy → Prepared s)

/-- The next move leaves the block's turn at the grain of micro-operations and attaches nothing while BUSY. -/
def orderlyMove (s : State) : Bool :=
  match s.moves with
  | .block .node :: _ => false
  | .attach _ _ :: _ => decide (s.state ≠ .busy)
  | _ => true

end Sys2Proof.Safety
end

