-- ==== Sys2Proof/Certificates/Slice0/Obligations.lean ====
section
/-! DEFINITION. The statements for the provers, from the spec's numbered rules. Every conclusion of the form
`exec i s = .next { s with … }` is the completion, the result and the frame of that form at once: a field not named is
unchanged. The frame statements say the same of every next state, the error entry's included. -/

open Sys2Proof Sys2Proof.Machine Sys2Proof.Safety

/-! ## Encodings -/

/-- R114, R116, R103, R104: the words written out in the spec read as the operations they stand for. -/
def Obligations.SpecWordsDecode : Prop :=
  decodeCommand 0x00000001 = .ok .compress ∧ decodeCommand 0x00000002 = .ok .decompress ∧
  decodeCommand 0x00000003 = .ok .clear ∧ decodeCommand 0x00000004 = .error (.illegalCommand 4) ∧
  decodePhase 0b0000 = .error .noMicroOperation ∧ decodePhase 0b0001 = .ok .count ∧
  decodePhase 0b0010 = .ok .build ∧ decodePhase 0b0011 = .ok .gencodes ∧ decodePhase 0b0100 = .ok .wrtag ∧
  decodePhase 0b0101 = .ok .wrhdr ∧ decodePhase 0b0110 = .ok .encode ∧ decodePhase 0b0111 = .ok .rdtag ∧
  decodePhase 0b1000 = .ok .rdhdr ∧ decodePhase 0b1001 = .ok .decode ∧ decodePhase 0b1010 = .ok .close ∧
  decodePhase 0b1011 = .error (.reservedPhase 11) ∧ decodePhase 0b1111 = .error (.reservedPhase 15) ∧
  decodeHeader [false] = .ok (.internal, []) ∧
  decodeHeader [true, false, false, true, false, false, false, false, false, true] = .ok (.leaf 65, []) ∧
  decodeHeader [true, false, true, true, true, true, true, true, true, true] = .ok (.leaf 255, []) ∧
  decodeHeader [true, true, false, false, false, false, false, false, false, false] = .ok (.leaf 256, [])

/-- R114, R116, R102 to R104: no bit of an encoding is dropped, for every operation and every field value. -/
def Obligations.DecodeOfEncode : Prop :=
  ∀ i : Instr, decode (encode i) = .ok (i, [])

/-- R102 to R104: each token is read off the head of a stream bit for bit and leaves the rest, and a header token read is the
encoding of the operation it is read as (LEAF values 257 to 511 included, R117). -/
def Obligations.TokensReadBack : Prop :=
  (∀ (m : Word) (rest : Bits), decodeTag (msbFirst 32 m.toNat ++ rest) = .ok (.tag m, rest)) ∧
  (∀ rest : Bits, decodeHeader (false :: rest) = .ok (.internal, rest)) ∧
  (∀ (sym : Sym) (rest : Bits), decodeHeader (true :: (msbFirst 9 sym.toNat ++ rest)) = .ok (.leaf sym, rest)) ∧
  (∀ (bs rest : Bits) (i : Instr), decodeHeader bs = .ok (i, rest) →
    ∃ token : Bits, encode i = .headerBits token ∧ bs = token ++ rest)

/-! ## The step -/

/-- R33, R40, R227: a step runs exactly the operation fetched. While BUSY between node walks, the block's turn runs the
operation PHASE names and then advances the sequencer; a host write of a command word runs that command with CMD holding the
word. Clauses 3 and 4 are the model's choice: no rule says that a step is one token, R231 only permits a finer grain, and the
turn of one token, its operation and the move that asks for it are log entries 11 and 3 (DESIGN CHOICE): such a turn runs the
header token, or the tag, at the read position. -/
def Obligations.StepRunsDecoded : Prop :=
  (∀ (s : State) (i : Instr), s.state = .busy → s.trav.frames = [] → decodePhase s.phase.code = .ok i →
    (s.moves = [] → step s = andThen (exec i s) (fun t => .next t.advance)) ∧
    (∀ rest, s.moves = .block .microOp :: rest →
      step s = andThen (exec i { s with moves := rest }) (fun t => .next t.advance))) ∧
  (∀ (s : State) (w : Word) (i : Instr) (rest : List Move), s.moves = .write .cmd w :: rest → decodeCommand w = .ok i →
    step s = exec i { s with moves := rest, cmd := w }) ∧
  (∀ (s : State) (i : Instr) (rest : List Move) (bs : Bits), s.state = .busy → s.phase = .rdhdr →
    s.moves = .block .node :: rest → decodeHeader s.src.remaining = .ok (i, bs) →
    step s = andThen (exec i (beginHeader { s with moves := rest })) (fun t => .next t.advance)) ∧
  (∀ (s : State) (i : Instr) (rest : List Move) (bs : Bits), s.state = .busy → s.phase = .rdtag →
    s.moves = .block .node :: rest → decodeTag s.src.remaining = .ok (i, bs) →
    step s = andThen (exec i { s with moves := rest }) (fun t => .next t.advance))

/-- R255, R261, R270: with no command running the block waits, and nothing changes. -/
def Obligations.WaitsForACommand : Prop :=
  ∀ s : State, s.state ≠ .busy → s.moves = [] → step s = .next s

/-! ## Commands and host registers -/

/-- R222, R223, R224: what each command does when it is accepted, and that it does nothing when it is dropped. -/
def Obligations.CommandsAcceptedOrDropped : Prop :=
  (∀ s : State, s.state = .idle →
    exec .compress s = .next { s with
      state := .busy, phase := .count, freqValid := false, treeValid := false, codeValid := false } ∧
    exec .decompress s = .next { s with
      state := .busy, phase := .rdtag, freqValid := false, treeValid := false, codeValid := false }) ∧
  (∀ s : State, s.state ≠ .idle → exec .compress s = .next s ∧ exec .decompress s = .next s) ∧
  (∀ s : State, s.state = .busy → exec .clear s = .next s)

/-- R224: CLEAR puts every register and flag at its reset value but CMD; the tables, the source and the sink stay. -/
def Obligations.ClearLeavesResetValues : Prop :=
  ∀ s : State, s.state ≠ .busy →
    exec .clear s = .next { s with
      state := .idle, phase := .none, freqValid := false, treeValid := false, codeValid := false
      sinkClosed := false, errEoi := false, errCause := .none, errInfo := 0
      root := 0, next := 0, nlive := 0, cur := 0, trav := .empty }

/-- R221, R229: the whole acceptance table, as steps. CMD takes the word in every case; a dropped write changes nothing else. -/
def Obligations.AcceptanceTable : Prop :=
  ∀ (s u : State) (w : Word) (rest : List Move), s.moves = .write .cmd w :: rest → u = { s with moves := rest, cmd := w } →
    (s.state = .idle → w = 1 → step s = .next { u with
      state := .busy, phase := .count, freqValid := false, treeValid := false, codeValid := false }) ∧
    (s.state = .idle → w = 2 → step s = .next { u with
      state := .busy, phase := .rdtag, freqValid := false, treeValid := false, codeValid := false }) ∧
    (s.state ≠ .idle → w ≠ 3 → step s = .next u) ∧
    (s.state = .busy → step s = .next u) ∧
    (s.state ≠ .busy → w = 3 → step s = .next { u with
      state := .idle, phase := .none, freqValid := false, treeValid := false, codeValid := false
      sinkClosed := false, errEoi := false, errCause := .none, errInfo := 0
      root := 0, next := 0, nlive := 0, cur := 0, trav := .empty }) ∧
    (s.state = .idle → w ≠ 1 → w ≠ 2 → w ≠ 3 → ∃ t, step s = .next t ∧ t.state = .error)

/-- R115, R228: every word but 1, 2 and 3 is illegal; in IDLE it raises ILLEGAL_COMMAND without a port transaction, in any
other STATE it is dropped; CLEAR then returns the block to IDLE. -/
def Obligations.IllegalCommandWord : Prop :=
  ∀ (s : State) (w : Word) (rest : List Move), w ≠ 1 → w ≠ 2 → w ≠ 3 → s.moves = .write .cmd w :: rest →
    (s.state = .idle →
      step s = .next { s with
        moves := rest, cmd := w, state := .error, phase := .none
        errCause := .illegalCommand, errInfo := w, errEoi := false } ∧
      ∃ u, exec .clear { s with
        moves := rest, cmd := w, state := .error, phase := .none
        errCause := .illegalCommand, errInfo := w, errEoi := false } = .next u ∧ u.state = .idle) ∧
    (s.state ≠ .idle → step s = .next { s with moves := rest, cmd := w })

/-- R41, R44, R34, R33, R116: STATUS is a live copy of the fields, its bits above 10 are 0, it is 0 after reset; done and error
copy STATE; and the codes that STATE and PHASE read as. -/
def Obligations.StatusCopiesFields : Prop :=
  (∀ s : State,
    (s.hostRead .status).extractLsb' 0 2 = s.state.code ∧ (s.hostRead .status).extractLsb' 2 4 = s.phase.code ∧
    (s.hostRead .status).getLsbD 6 = s.freqValid ∧ (s.hostRead .status).getLsbD 7 = s.treeValid ∧
    (s.hostRead .status).getLsbD 8 = s.codeValid ∧ (s.hostRead .status).getLsbD 9 = s.sinkClosed ∧
    (s.hostRead .status).getLsbD 10 = s.errEoi ∧ (s.hostRead .status).extractLsb' 11 21 = 0 ∧
    (s.doneOut = true ↔ s.state = .done) ∧ (s.errorOut = true ↔ s.state = .error)) ∧
  State.reset.hostRead .status = 0 ∧
  RunState.idle.code = 0 ∧ RunState.busy.code = 1 ∧ RunState.done.code = 2 ∧ RunState.error.code = 3 ∧
  Phase.none.code = 0 ∧ Phase.count.code = 1 ∧ Phase.build.code = 2 ∧ Phase.gencodes.code = 3 ∧
  Phase.wrtag.code = 4 ∧ Phase.wrhdr.code = 5 ∧ Phase.encode.code = 6 ∧ Phase.rdtag.code = 7 ∧
  Phase.rdhdr.code = 8 ∧ Phase.decode.code = 9 ∧ Phase.close.code = 10

/-- R39, R40: a read of a register has no side effect on the block, a write to STATUS, ERR_CAUSE or ERR_INFO is ignored, and a
write to CMD is what a later read of it returns, acted on or not; the registers are numbered 0 to 3; and R42, R243: the codes
that CAUSE reads as. -/
def Obligations.HostRegisterAccess : Prop :=
  (∀ (s : State) (r : HostReg) (rest : List Move), s.moves = .read r :: rest →
    step s = .next { s with moves := rest, hostData := s.hostRead r }) ∧
  (∀ (s : State) (r : HostReg) (w : Word) (rest : List Move), r ≠ .cmd → s.moves = .write r w :: rest →
    step s = .next { s with moves := rest }) ∧
  (∀ (s : State) (w : Word) (rest : List Move), s.moves = .write .cmd w :: rest →
    ∃ t, step s = .next t ∧ t.cmd = w ∧ t.hostRead .cmd = w) ∧
  HostReg.cmd.number = 0 ∧ HostReg.status.number = 1 ∧ HostReg.errCause.number = 2 ∧ HostReg.errInfo.number = 3 ∧
  (∀ s : State, s.hostRead .cmd = s.cmd ∧ s.hostRead .errInfo = s.errInfo ∧
    (s.hostRead .errCause).extractLsb' 0 4 = s.errCause.code ∧ (s.hostRead .errCause).extractLsb' 4 28 = 0) ∧
  Cause.none.code = 0 ∧ Cause.badMagic.code = 1 ∧ Cause.headerTruncated.code = 2 ∧ Cause.payloadTruncated.code = 3 ∧
  Cause.treeOverflow.code = 4 ∧ Cause.countOverflow.code = 5 ∧ Cause.noCode.code = 6 ∧ Cause.illegalCommand.code = 7

/-- R275, R277: the host attaches a fresh source at its start and a fresh open empty sink, while no command runs; while one runs
it has no such move (the model's refusal, log entry 10). -/
def Obligations.AttachOnlyAtRest : Prop :=
  ∀ (s : State) (bits : Bits) (rewound : Option Bits) (rest : List Move), s.moves = .attach bits rewound :: rest →
    (s.state ≠ .busy → step s = .next { s with moves := rest, src := ⟨bits, 0, rewound⟩, sink := ⟨[], false⟩ }) ∧
    (s.state = .busy → step s = .refused .attachWhileBusy)

/-! ## Reset -/

/-- R45: the registers and flags after reset; every table entry is unspecified, which in the model is an entry not listed (log
entry 4: the model's choice). -/
def Obligations.ResetValues : Prop :=
  State.reset.state = .idle ∧ State.reset.phase = .none ∧ State.reset.freqValid = false ∧
  State.reset.treeValid = false ∧ State.reset.codeValid = false ∧ State.reset.sinkClosed = false ∧
  State.reset.errEoi = false ∧ State.reset.errCause = .none ∧ State.reset.errInfo = 0 ∧ State.reset.cmd = 0 ∧
  State.reset.root = 0 ∧ State.reset.next = 0 ∧ State.reset.nlive = 0 ∧ State.reset.cur = 0 ∧
  State.reset.trav.frames = [] ∧
  (∀ i, State.reset.freq.read i = none ∧ State.reset.node.read i = none ∧ State.reset.code.read i = none)

/-- R270, R271: reset, in any state, BUSY included, between two of the block's turns, puts every register and flag at its reset
value and touches neither source nor sink: a running command ends on the spot and its sink is not closed. Two things it says of
the next state are the model's choice: the tables, unspecified in the spec, list nothing (log entry 4), and LIVE, which R45
and R270 leave unspecified too, is the empty set (log entry 5). -/
def Obligations.ResetInput : Prop :=
  ∀ (s : State) (rest : List Move), s.moves = .reset :: rest →
    step s = .next { State.reset with src := s.src, sink := s.sink, hostData := s.hostData, moves := rest }

/-- R270, R271, R74: reset inside the block's turn, after k of its port transactions, ends the command on the spot: registers and
flags at their reset values, the tables as in ResetInput (log entries 4 and 5), the source and the sink as those transactions
have left them, no error entry and no close. The transactions told for a turn are the ones it makes: all of them together
leave the source and the sink as the turn does, and what the first k have written lies between. Inside COUNT, ENCODE and
DECODE the source and the sink stand partway: after k bytes of a count, after j bits of a byte's code, after the payload bits
read. Outside BUSY no transaction is made. -/
def Obligations.ResetOnTheSpot : Prop :=
  (∀ (s u : State) (g : Grain) (k : Nat) (rest : List Move) (io : Source × Sink),
    s.moves = .resetDuring g k :: rest → u = { s with moves := rest } →
    io = runPorts ((turnPorts g u).take k) (s.src, s.sink) →
    step s = .next { State.reset with src := io.1, sink := io.2, hostData := s.hostData, moves := rest }) ∧
  (∀ (s : State) (g : Grain), s.state ≠ .busy → turnPorts g s = []) ∧
  (∀ (s t : State) (g : Grain), blockTurn g s = .next t →
    runPorts (turnPorts g s) (s.src, s.sink) = (t.src, t.sink) ∧
    ∀ k, s.sink.bits <+: (runPorts ((turnPorts g s).take k) (s.src, s.sink)).2.bits ∧
      (runPorts ((turnPorts g s).take k) (s.src, s.sink)).2.bits <+: t.sink.bits) ∧
  (∀ (s : State) (g : Grain) (k : Nat), s.state = .busy → s.trav.frames = [] → s.phase = .count →
    (∀ b : Byte, (bytesOfBits s.src.remaining).count b ≤ 2 ^ 32 - 1) → k ≤ (bytesOfBits s.src.remaining).length →
    runPorts ((turnPorts g s).take k) (s.src, s.sink) = ({ s.src with pos := s.src.pos + 8 * k }, s.sink)) ∧
  (∀ (s : State) (g : Grain) (before after : List Byte) (b : Byte) (c : CodeEntry) (j : Nat), s.state = .busy →
    s.trav.frames = [] → s.phase = .encode → bytesOfBits s.src.rewind.bits = before ++ b :: after →
    (∀ x ∈ before, ∃ cx, s.code.read x.toNat = some cx ∧ cx.valid = true) →
    s.code.read b.toNat = some c → c.valid = true → j ≤ c.len.toNat →
    ∃ k, runPorts ((turnPorts g s).take k) (s.src, s.sink) =
      ({ s.src.rewind with pos := 8 * (before.length + 1) },
        { s.sink with bits := s.sink.bits ++ payloadBits s.code before ++ (codeBits c).take j })) ∧
  (∀ (s : State) (g : Grain) (tree : Tree) (read rest : Bits) (syms : List Sym), s.state = .busy →
    s.trav.frames = [] → s.phase = .decode → holdsTree s.node tree s.root = true → s.src.remaining = read ++ rest →
    tree.walk tree read = (syms, none) →
    ∃ k, runPorts ((turnPorts g s).take k) (s.src, s.sink) =
      ({ s.src with pos := s.src.pos + read.length }, { s.sink with bits := s.sink.bits ++ literalBits syms }))

/-! ## The error entry and the ports -/

/-- R250, R251: what every raise leaves: cause, value and EOI recorded, PHASE kept, valid flags 0, the sink closed exactly if the
block had not closed it, STATE ERROR. The stack is empty because no micro-operation runs (R38). -/
def Obligations.ErrorEntryRecords : Prop :=
  ∀ (s : State) (cause : Cause) (info : Word) (eoi : Bool),
    s.errorEntry cause info eoi = { s with
      errCause := cause, errInfo := info, errEoi := eoi
      freqValid := false, treeValid := false, codeValid := false
      sink := if s.sinkClosed then s.sink else s.sink.close
      sinkClosed := true, trav := .empty, state := .error }

/-- R62, R63: a read with enough bits returns the value whose bits, most significant first, are the next ones on the stream; a
read with too few returns EOI and moves to the end. -/
def Obligations.ReadBitsValue : Prop :=
  ∀ (src : Source) (n : Nat),
    (src.pos + n ≤ src.bits.length →
      ∃ v : BitVec n, src.readBits n = (some v, { src with pos := src.pos + n }) ∧
        msbFirst n v.toNat = src.remaining.take n) ∧
    (¬ src.pos + n ≤ src.bits.length → src.readBits n = (none, { src with pos := src.bits.length }))

/-- R66, R71: bits written with `WriteBits(n, v)` and read with `ReadBits(n)` at the same place give v back; bits of v above the
low n are not written. -/
def Obligations.WrittenBitsReadBack : Prop :=
  ∀ (k : Sink) (n v : Nat) (later : Bits),
    ({ bits := (k.writeBits n v).bits ++ later, pos := k.bits.length, rewound := none } : Source).readBits n =
      (some (BitVec.ofNat n v),
        { bits := (k.writeBits n v).bits ++ later, pos := k.bits.length + n, rewound := none })

/-! ## COUNT -/

/-- R141, and R142 (the spec's own inference from it): COUNT's result when no byte value occurs more than 2^32 − 1 times (R143
otherwise). -/
def Obligations.CountCountsBytes : Prop :=
  ∀ s : State, (∀ b : Byte, (bytesOfBits s.src.remaining).count b ≤ 2 ^ 32 - 1) →
    ∃ freq : Table Count,
      exec .count s = .next { s with
        freq := freq, freqValid := true, src := { s.src with pos := s.src.bits.length } } ∧
      (∀ b : Byte, freq.read b.toNat = some (BitVec.ofNat 32 ((bytesOfBits s.src.remaining).count b))) ∧
      freq.read Config.eos = some 1 ∧
      ((List.range 256).map (fun i => ((freq.read i).getD 0).toNat)).sum = (bytesOfBits s.src.remaining).length

/-- R143: a byte that arrives when its count is full raises COUNT_OVERFLOW, before the count is changed; for every width of a
count, of which COUNT's own is 32 bits. COUNT raises nothing else. -/
def Obligations.CountOverflowRaised : Prop :=
  (∀ (limit : Count) (s : State) (before after : List Byte) (b : Byte),
    bytesOfBits s.src.remaining = before ++ b :: after → before.count b = limit.toNat →
    (∀ c : Byte, before.count c ≤ limit.toNat) →
    ∃ freq : Table Count,
      countRun limit s = .raised
        (State.errorEntry .countOverflow (b.setWidth 32) false
          { s with freq := freq, src := { s.src with pos := s.src.pos + 8 * (before.length + 1) } }) ∧
      freq.read b.toNat = some limit) ∧
  (∀ (limit : Count) (s t : State), countRun limit s = .raised t →
    t.errCause = .countOverflow ∧ t.errEoi = false ∧ t.errInfo.toNat ≤ 255) ∧
  (∀ s : State, exec .count s = (countRun (BitVec.ofNat 32 (2 ^ 32 - 1)) s).outcome)

/-- R142, R143: COUNT changes FREQ, FREQ_VALID and the read position, and in a raise what the error entry does. -/
def Obligations.CountFrame : Prop :=
  ∀ s t : State, exec .count s = .next t →
    ∃ (freq : Table Count) (pos : Nat),
      t = { s with freq := freq, freqValid := true, src := { s.src with pos := pos } } ∨
      ∃ v : Byte, t = State.errorEntry .countOverflow (v.setWidth 32) false
        { s with freq := freq, src := { s.src with pos := pos } }

/-! ## BUILD -/

/-- R152: PopMin takes out the live node that is first in the order (weight, index), and answers whenever a node is live and
every live node's entry is written. -/
def Obligations.PopMinOrder : Prop :=
  (∀ (s u : State) (m : Nat), popMin s = .ok m u →
    m ∈ s.live ∧ u = { s with live := s.live.erase m, nlive := s.nlive - 1 } ∧
    ∀ i ∈ s.live, i ≠ m → ∃ n nm : Node, s.node.read i = some n ∧ s.node.read m = some nm ∧
      (nm.weight < n.weight ∨ (nm.weight = n.weight ∧ m < i))) ∧
  (∀ s : State, s.live ≠ [] → (∀ i ∈ s.live, i < Config.nodeCap ∧ (s.node.read i).isSome) →
    ∃ m u, popMin s = .ok m u)

/-- R154 (whose counting is the spec's own inference from R151 and R153): with L symbols counted BUILD ends with ROOT = 255 + L
(256 when L = 1) and NEXT = 256 + L, only the root live, and has written NODE only at counted symbols and at 257 to 255 + L. -/
def Obligations.BuildEndsAtRoot : Prop :=
  ∀ (s : State) (L r : Nat), FreqReady s → L = (countedSyms s.freq).length → r = (if L = 1 then 256 else 255 + L) →
    ∃ node : Table Node,
      exec .build s = .next { s with
        node := node, live := [r], nlive := 1, next := BitVec.ofNat 10 (256 + L), root := BitVec.ofNat 10 r
        treeValid := true } ∧
      (∀ i, i < 257 → BitVec.ofNat 9 i ∉ countedSyms s.freq → node.read i = s.node.read i) ∧
      (∀ i, 256 + L ≤ i → 257 ≤ i → node.read i = s.node.read i)

/-- R25, R151, R153: what BUILD builds is a tree over exactly the counted symbols, with each leaf's weight its count and each
Internal node's the sum of its children's. -/
def Obligations.BuildMakesATree : Prop :=
  ∀ s : State, FreqReady s →
    ∃ (t : State) (tree : Tree),
      exec .build s = .next t ∧ holdsTree t.node tree t.root = true ∧
      tree.syms.Perm (countedSyms s.freq) ∧ holdsWeights t.node (countIn s.freq) tree t.root = true

/-- R156: the tree BUILD builds has the least weighted path length of all trees with the same leaves. -/
def Obligations.BuildIsOptimal : Prop :=
  ∀ (s t : State) (tree : Tree), FreqReady s → exec .build s = .next t → holdsTree t.node tree t.root = true →
    ∀ other : Tree, other.syms.Perm tree.syms → tree.cost (countIn s.freq) 0 ≤ other.cost (countIn s.freq) 0

/-- R150 to R155: BUILD changes NODE, LIVE, NLIVE, NEXT, ROOT and TREE_VALID only, and of NODE only the entries of the symbols
with a nonzero count and those from 257 up to the final NEXT. -/
def Obligations.BuildFrame : Prop :=
  ∀ s t : State, exec .build s = .next t →
    ∃ (node : Table Node) (live : List Nat) (nlive next root : Idx),
      t = { s with node := node, live := live, nlive := nlive, next := next, root := root, treeValid := true } ∧
      (∀ i < 257, s.freq.read i = some 0 → node.read i = s.node.read i) ∧
      (∀ i, 257 ≤ i → next.toNat ≤ i → node.read i = s.node.read i)

/-! ## GENCODES -/

/-- R166, R167: over a tree of height at most 256 with distinct leaf symbols at most 256, GENCODES gives each symbol the path to
its leaf (in a one-leaf tree the string `0`) and every other symbol an entry with valid = 0. -/
def Obligations.GencodesAssignsPaths : Prop :=
  ∀ (s : State) (tree : Tree), holdsTree s.node tree s.root = true → tree.height ≤ 256 → tree.syms.Nodup →
    (∀ sym ∈ tree.syms, sym.toNat ≤ 256) →
    ∃ code : Table CodeEntry,
      exec .gencodes s = .next { s with code := code, codeValid := true } ∧
      (∀ p ∈ tree.codes, code.read p.1.toNat = some (entryOfBits p.2)) ∧
      (∀ i < 257, BitVec.ofNat 9 i ∉ tree.syms → code.read i = some ⟨false, 0, 0⟩)

/-- R168 (the spec's own inference from R166, R167 and R25): after COUNT's table, BUILD and GENCODES: valid exactly for the
counted symbols, each code the path to the symbol's leaf, 1 ≤ len ≤ 256, no code a prefix of another. -/
def Obligations.CodeTableIsPrefixFree : Prop :=
  ∀ s : State, FreqReady s →
    ∃ (t u : State) (tree : Tree),
      exec .build s = .next t ∧ exec .gencodes t = .next u ∧ holdsTree t.node tree t.root = true ∧
      (∀ i < 257, ∃ c, u.code.read i = some c ∧ (c.valid = true ↔ countIn s.freq (BitVec.ofNat 9 i) ≠ 0) ∧
        (c.valid = true → 1 ≤ c.len.toNat ∧ c.len.toNat ≤ 256 ∧ (BitVec.ofNat 9 i, codeBits c) ∈ tree.codes)) ∧
      (∀ (i j : Nat) (c d : CodeEntry), u.code.read i = some c → u.code.read j = some d → i ≠ j →
        c.valid = true → d.valid = true → ¬ codeBits c <+: codeBits d) ∧
      u.codeValid = true ∧ u.node = t.node ∧ u.root = t.root ∧ u.freq = t.freq

/-- R166, R168: GENCODES changes CODE and CODE_VALID only. -/
def Obligations.GencodesFrame : Prop :=
  ∀ s t : State, exec .gencodes s = .next t →
    ∃ code : Table CodeEntry, t = { s with code := code, codeValid := true }

/-! ## The tag -/

/-- R211: WRTAG appends MAGIC's 32 bits, most significant first, and does nothing else; it is PHASE code 4, after GENCODES and
right before WRHDR. -/
def Obligations.WrtagWritesMagic : Prop :=
  (∀ s : State, exec .wrtag s = .next { s with
    sink := { s.sink with bits := s.sink.bits ++ msbFirst 32 Config.magic.toNat } }) ∧
  decodePhase 4 = .ok .wrtag ∧ Phase.gencodes.following = .wrtag ∧ Phase.wrtag.following = .wrhdr

/-- R212, R213, R214: RDTAG passes on MAGIC, raises BAD_MAGIC naming any other value, and BAD_MAGIC with ERR_EOI when fewer than
32 bits are left; nothing further is read. -/
def Obligations.RdtagChecksMagic : Prop :=
  (∀ (s : State) (rest : Bits), s.src.remaining = msbFirst 32 Config.magic.toNat ++ rest →
    exec .rdtag s = .next { s with src := { s.src with pos := s.src.pos + 32 } }) ∧
  (∀ (s : State) (v : Word) (rest : Bits), s.src.remaining = msbFirst 32 v.toNat ++ rest → v ≠ Config.magic →
    exec .rdtag s = .next (State.errorEntry .badMagic v false
      { s with src := { s.src with pos := s.src.pos + 32 } })) ∧
  (∀ s : State, s.src.remaining.length < 32 →
    exec .rdtag s = .next (State.errorEntry .badMagic 0 true
      { s with src := { s.src with pos := s.src.bits.length } })) ∧
  Cause.badMagic.code = 1

/-- TAG as RDTAG takes it (R102, R212, R213), and that RDTAG over a TAG is the TAG's own effect. That TAG is an operation with an
effect of its own, which moves past 32 bits whatever the source holds and then compares, is the model's choice (log entry 11,
DESIGN CHOICE): the rules give the tag's bits and RDTAG's effect, and the third clause ties the two. -/
def Obligations.TagTokenIsRdtag : Prop :=
  (∀ s : State, exec (.tag Config.magic) s = .next { s with src := s.src.skip 32 }) ∧
  (∀ (s : State) (m : Word), m ≠ Config.magic →
    exec (.tag m) s = .next (State.errorEntry .badMagic m false { s with src := s.src.skip 32 })) ∧
  (∀ (s : State) (m : Word) (rest : Bits), s.src.remaining = msbFirst 32 m.toNat ++ rest →
    exec .rdtag s = exec (.tag m) s)

/-! ## The header codec -/

/-- R176, and R106 and R177 (the spec's own inferences from it): WRHDR appends the preorder of the tree at ROOT, 11·L − 1 bits for
L leaves, and changes nothing else. -/
def Obligations.WrhdrWritesPreorder : Prop :=
  ∀ (s : State) (tree : Tree), holdsTree s.node tree s.root = true → tree.height ≤ Config.nodeCap →
    exec .wrhdr s = .next { s with sink := { s.sink with bits := s.sink.bits ++ tree.header } } ∧
    tree.header.length + 1 = 11 * tree.syms.length ∧ tree.nodes + 1 = 2 * tree.syms.length

/-- R177 (the spec's own inference from R176): WRHDR only appends to OUT. -/
def Obligations.WrhdrFrame : Prop :=
  ∀ s t : State, exec .wrhdr s = .next t →
    ∃ bits : Bits, t = { s with sink := { s.sink with bits := s.sink.bits ++ bits } }

/-- R180, and R181 (the spec's own inference from R176 and R180): RDHDR reads exactly one header: ROOT = 0, NEXT the number of
nodes, NODE holds the tree with every weight 0 and the indices in preorder (an Internal node's left child is the next index),
the other entries stay, the position stands after it; and it ends without raising only over a header that fits. -/
def Obligations.RdhdrReadsTree : Prop :=
  (∀ (s : State) (tree : Tree) (rest : Bits), s.src.remaining = tree.header ++ rest → tree.nodes ≤ Config.nodeCap →
    ∃ node : Table Node,
      exec .rdhdr s = .next { s with
        node := node, root := 0, next := BitVec.ofNat 10 tree.nodes, treeValid := true
        src := { s.src with pos := s.src.pos + tree.header.length } } ∧
      holdsTree node tree 0 = true ∧
      (∀ i < tree.nodes, ∃ n, node.read i = some n ∧ n.weight = 0 ∧ (n.kind = .internal → n.left.toNat = i + 1)) ∧
      (∀ i, tree.nodes ≤ i → node.read i = s.node.read i)) ∧
  (∀ s t : State, exec .rdhdr s = .next t → t.treeValid = true →
    ∃ (tree : Tree) (rest : Bits), s.src.remaining = tree.header ++ rest ∧ tree.nodes ≤ Config.nodeCap)

/-- R182, R183: input that ends before the header is complete raises HEADER_TRUNCATED, the position at the end, TREE_VALID 0:
the beginning of a header of at most 513 nodes, and any input, completed by a tree or by none, that holds fewer than 514 type
bits, which is how R183 and R246 let HEADER_TRUNCATED win where the input ends at the 514th node. -/
def Obligations.RdhdrTruncated : Prop :=
  (∀ (s : State) (tree : Tree) (k : Nat), k < tree.header.length → s.src.remaining = tree.header.take k →
    tree.nodes ≤ Config.nodeCap →
    ∃ (node : Table Node) (next : Idx),
      exec .rdhdr s = .next (State.errorEntry .headerTruncated 0 true
        { s with node := node, next := next, src := { s.src with pos := s.src.bits.length } })) ∧
  (∀ (s : State) (n : Nat), headerTokens 1 s.src.remaining = (n, false) → n < 514 →
    ∃ node : Table Node,
      exec .rdhdr s = .next (State.errorEntry .headerTruncated 0 true
        { s with node := node, next := BitVec.ofNat 10 n, src := { s.src with pos := s.src.bits.length } }))

/-- R183: a header of more than 513 nodes raises TREE_OVERFLOW with ERR_INFO = 513: a complete one, and any input that holds a
514th type bit, whether or not it goes on to complete a header. -/
def Obligations.RdhdrOverflow : Prop :=
  (∀ (s : State) (tree : Tree) (rest : Bits), s.src.remaining = tree.header ++ rest → Config.nodeCap < tree.nodes →
    ∃ (node : Table Node) (pos : Nat),
      exec .rdhdr s = .next (State.errorEntry .treeOverflow 513 false
        { s with node := node, next := 513, src := { s.src with pos := pos } })) ∧
  (∀ (s : State) (n : Nat) (whole : Bool), headerTokens 1 s.src.remaining = (n, whole) → 514 ≤ n →
    ∃ (node : Table Node) (pos : Nat),
      exec .rdhdr s = .next (State.errorEntry .treeOverflow 513 false
        { s with node := node, next := 513, src := { s.src with pos := pos } }))

/-- R180 to R183: RDHDR changes NODE, NEXT, ROOT, TREE_VALID and the read position, and in a raise what the error entry does; of
NODE it changes only entries below the final NEXT. -/
def Obligations.RdhdrFrame : Prop :=
  ∀ s t : State, exec .rdhdr s = .next t →
    ∃ (node : Table Node) (next : Idx) (pos : Nat),
      (∀ i, next.toNat ≤ i → node.read i = s.node.read i) ∧
      ((∃ root : Idx, t = { s with
        node := node, next := next, root := root, treeValid := true, src := { s.src with pos := pos } }) ∨
      t = State.errorEntry .headerTruncated 0 true
        { s with node := node, next := next, src := { s.src with pos := pos } } ∨
      t = State.errorEntry .treeOverflow 513 false
        { s with node := node, next := next, src := { s.src with pos := pos } })

/-- INTERNAL, as Get takes it (R180, R183), takes the index NEXT and goes on the traversal stack with its left subtree to come;
with the table full it raises TREE_OVERFLOW after its type bit. That INTERNAL is an operation of its own is the model's choice
(log entry 11, DESIGN CHOICE), and what it puts on the stack is read from R38 by inference (log entry 6, DEDUCED, unsafe for a
claim about the stack's content): no rule says either. -/
def Obligations.InternalToken : Prop :=
  (∀ s : State, s.next.toNat ≠ Config.nodeCap → s.trav.frames.length < Config.nodeCap →
    exec .internal s = .next { s with
      src := s.src.skip 1, next := s.next + 1
      trav := { s.trav with frames := ⟨s.next, false⟩ :: s.trav.frames } }) ∧
  (∀ s : State, s.next.toNat = Config.nodeCap →
    exec .internal s = .next (State.errorEntry .treeOverflow 513 false { s with src := s.src.skip 1 }))

/-- LEAF, as Get takes it (R180, R183, R117), writes its entry at NEXT with any 9-bit value and completes the subtrees it ends:
each Internal node that completes is written with kind 0, weight 0, its left child at the index after its own and its right
child the subtree just finished, and every other entry, those of the nodes still on the stack included, stays. When that
empties the stack ROOT and TREE_VALID are set. The stack's entries are earlier nodes, each taken after those below it (Inv).
That LEAF is an operation of its own is the model's choice (log entry 11, DESIGN CHOICE), and the stack's content is read from
R38 by inference (log entry 6, DEDUCED, unsafe for a claim about the stack's content): no rule says either. -/
def Obligations.LeafToken : Prop :=
  (∀ (s : State) (sym : Sym), s.next.toNat < Config.nodeCap →
    (∀ f ∈ s.trav.frames, f.index.toNat < s.next.toNat) →
    s.trav.frames.Pairwise (fun above below => below.index.toNat < above.index.toNat) →
    ∃ (node : Table Node) (trav : Traversal) (root : Idx) (valid : Bool),
      exec (.leaf sym) s = .next { s with
        src := (s.src.skip 1).skip 9, next := s.next + 1, node := node, trav := trav, root := root
        treeValid := valid } ∧
      node.read s.next.toNat = some ⟨.leaf, sym, 0, 0, 0⟩ ∧
      trav.frames = (unwind s.trav.frames).2 ∧
      (∀ e ∈ completedEntries s.next s.trav.frames, node.read e.1.toNat = some e.2) ∧
      (∀ i, i ≠ s.next.toNat → (∀ e ∈ completedEntries s.next s.trav.frames, e.1.toNat ≠ i) →
        node.read i = s.node.read i) ∧
      (∀ f ∈ (unwind s.trav.frames).2, node.read f.index.toNat = s.node.read f.index.toNat) ∧
      ((unwind s.trav.frames).2 = [] →
        valid = true ∧ root = ((s.trav.frames.getLast?).map Frame.index).getD s.next) ∧
      ((unwind s.trav.frames).2 ≠ [] → valid = s.treeValid ∧ root = s.root)) ∧
  (∀ (s : State) (sym : Sym), s.next.toNat = Config.nodeCap →
    exec (.leaf sym) s = .next (State.errorEntry .treeOverflow 513 false { s with src := s.src.skip 1 }))

/-- R38, R180, R231: reading a header one token a step, by the tokens' own effects (log entry 11, the model's choice), leaves
exactly what RDHDR leaves, and PHASE advances at its end; where RDHDR raises, the tokens come to the same error entry. The
turns that meet the end of the input, one by one (R180, R182, R183): with no type bit left HEADER_TRUNCATED; with a type bit 1
and fewer than nine bits after it HEADER_TRUNCATED, the index taken, or TREE_OVERFLOW when none is free; with fewer than 32
bits of a tag BAD_MAGIC, as RDTAG (R214). -/
def Obligations.TokensRunRdhdr : Prop :=
  (∀ (s t : State) (tree : Tree) (rest : Bits), s.state = .busy → s.phase = .rdhdr → s.trav = .empty →
    s.src.remaining = tree.header ++ rest → tree.nodes ≤ Config.nodeCap → exec .rdhdr s = .next t →
    Sys2Proof.core.run tree.nodes { s with moves := List.replicate tree.nodes (.block .node) } =
      .next { t.advance with moves := [] }) ∧
  (∀ s t : State, s.state = .busy → s.phase = .rdhdr → s.trav = .empty → exec .rdhdr s = .next t → t.state = .error →
    Sys2Proof.core.run 514 { s with moves := List.replicate 514 (.block .node) } = .next { t with moves := [] }) ∧
  (∀ (s : State) (rest : List Move) (n : Idx), s.state = .busy → s.phase = .rdhdr → s.moves = .block .node :: rest →
    n = (if s.trav.frames = [] then 0 else s.next) →
    (decodeHeader s.src.remaining = .error .tokenMissing →
      step s = .next (State.errorEntry .headerTruncated 0 true
        { s with moves := rest, next := n, src := { s.src with pos := s.src.bits.length } })) ∧
    (decodeHeader s.src.remaining = .error .leafCut → n ≠ 513 →
      step s = .next (State.errorEntry .headerTruncated 0 true
        { s with moves := rest, next := n + 1, src := { s.src with pos := s.src.bits.length } })) ∧
    (decodeHeader s.src.remaining = .error .leafCut → n = 513 →
      step s = .next (State.errorEntry .treeOverflow 513 false
        { s with moves := rest, next := n, src := { s.src with pos := s.src.pos + 1 } }))) ∧
  (∀ (s : State) (rest : List Move), s.state = .busy → s.phase = .rdtag → s.moves = .block .node :: rest →
    s.src.remaining.length < 32 →
    step s = .next (State.errorEntry .badMagic 0 true
      { s with moves := rest, src := { s.src with pos := s.src.bits.length } }) ∧
    step s = exec .rdtag { s with moves := rest })

/-- R38, R166, R176, R231: walking the tree one node a step, GENCODES and WRHDR leave exactly what they leave whole. -/
def Obligations.NodeWalksAgree : Prop :=
  ∀ (s t : State) (tree : Tree), s.state = .busy → s.trav = .empty → holdsTree s.node tree s.root = true →
    tree.height ≤ 256 → (∀ sym ∈ tree.syms, sym.toNat ≤ 256) →
    ((s.phase = .gencodes ∧ exec .gencodes s = .next t) ∨ (s.phase = .wrhdr ∧ exec .wrhdr s = .next t)) →
    Sys2Proof.core.run tree.nodes { s with moves := List.replicate tree.nodes (.block .node) } =
      .next { t.advance with moves := [] }

/-! ## ENCODE -/

/-- R191 to R194: ENCODE rewinds, writes the code of every byte and the sentinel's once; the first byte without a code raises
NO_CODE with that byte, after the codes of the bytes before it and before anything is written for it. -/
def Obligations.EncodeWritesCodes : Prop :=
  (∀ (s : State) (bytes : List Byte) (eosCode : CodeEntry), bytes = bytesOfBits s.src.rewind.bits →
    (∀ b ∈ bytes, ∃ c, s.code.read b.toNat = some c ∧ c.valid = true) → s.code.read Config.eos = some eosCode →
    exec .encode s = .next { s with
      src := { s.src.rewind with pos := s.src.rewind.bits.length }
      sink := { s.sink with bits := s.sink.bits ++ payloadBits s.code bytes ++ codeBits eosCode } }) ∧
  (∀ (s : State) (before after : List Byte) (b : Byte) (c : CodeEntry),
    bytesOfBits s.src.rewind.bits = before ++ b :: after →
    (∀ x ∈ before, ∃ cx, s.code.read x.toNat = some cx ∧ cx.valid = true) →
    s.code.read b.toNat = some c → c.valid = false →
    exec .encode s = .next (State.errorEntry .noCode (b.setWidth 32) false
      { s with
        src := { s.src.rewind with pos := 8 * (before.length + 1) }
        sink := { s.sink with bits := s.sink.bits ++ payloadBits s.code before } }))

/-- R193, R194: ENCODE changes the source's position (and, for a source that breaks its contract, its bits) and appends to OUT,
and in a raise does what the error entry does. -/
def Obligations.EncodeFrame : Prop :=
  ∀ s t : State, exec .encode s = .next t →
    ∃ (pos : Nat) (bits : Bits),
      t = { s with
        src := { s.src.rewind with pos := pos }, sink := { s.sink with bits := s.sink.bits ++ bits } } ∨
      ∃ v : Byte, t = State.errorEntry .noCode (v.setWidth 32) false
        { s with
          src := { s.src.rewind with pos := pos }, sink := { s.sink with bits := s.sink.bits ++ bits } }

/-! ## DECODE -/

/-- R201 to R206: DECODE follows the tree at ROOT bit by bit: each leaf but the sentinel emits its low 8 bits; at the sentinel it
ends, reading nothing more, CUR left there; when the bits end first it raises PAYLOAD_TRUNCATED, what it has written staying. -/
def Obligations.DecodeFollowsTree : Prop :=
  (∀ (s : State) (tree : Tree) (syms : List Sym) (rest : Bits), holdsTree s.node tree s.root = true →
    tree.walk tree s.src.remaining = (syms, some rest) →
    ∃ (cur : Idx) (n : Node),
      exec .decode s = .next { s with
        cur := cur, src := { s.src with pos := s.src.bits.length - rest.length }
        sink := { s.sink with bits := s.sink.bits ++ literalBits syms } } ∧
      s.node.read cur.toNat = some n ∧ n.kind = .leaf ∧ n.sym = 256) ∧
  (∀ (s : State) (tree : Tree) (syms : List Sym), holdsTree s.node tree s.root = true →
    tree.walk tree s.src.remaining = (syms, none) →
    ∃ cur : Idx,
      exec .decode s = .next (State.errorEntry .payloadTruncated 0 true
        { s with
          cur := cur, src := { s.src with pos := s.src.bits.length }
          sink := { s.sink with bits := s.sink.bits ++ literalBits syms } }))

/-- R203, R110: at a leaf root each symbol costs one payload bit of either value; the sentinel as root ends DECODE after one bit
with no output. -/
def Obligations.DecodeLeafRoot : Prop :=
  ∀ (s : State) (n : Node) (b : Bool) (rest : Bits), s.root.toNat < Config.nodeCap →
    s.node.read s.root.toNat = some n → n.kind = .leaf → n.sym = 256 → s.src.remaining = b :: rest →
    exec .decode s = .next { s with cur := s.root, src := { s.src with pos := s.src.pos + 1 } }

/-- R107, R108: the codes of a tree, one after another and ended by the sentinel's, are read back by the walk as the symbols they
stand for, and what follows them is left. -/
def Obligations.PayloadIsUnambiguous : Prop :=
  ∀ (tree : Tree) (msg : List (Sym × Bits)) (eosCode rest : Bits),
    (∀ p ∈ msg, p ∈ tree.codes ∧ p.1 ≠ 256) → (256, eosCode) ∈ tree.codes →
    tree.walk tree (msg.flatMap (fun p => p.2) ++ eosCode ++ rest) = (msg.map (fun p => p.1), some rest)

/-- R201, R206: DECODE changes CUR and the read position and appends to OUT, and in a raise does what the error entry does. -/
def Obligations.DecodeFrame : Prop :=
  ∀ s t : State, exec .decode s = .next t →
    ∃ (cur : Idx) (pos : Nat) (bits : Bits),
      t = { s with
        cur := cur, src := { s.src with pos := pos }, sink := { s.sink with bits := s.sink.bits ++ bits } } ∨
      t = State.errorEntry .payloadTruncated 0 true
        { s with
          cur := cur, src := { s.src with pos := pos }, sink := { s.sink with bits := s.sink.bits ++ bits } }

/-! ## CLOSE -/

/-- R225, R67: CLOSE closes the sink unless the block already has: zero bits to a whole byte, fewer than 8 of them. -/
def Obligations.CloseOnlyOnce : Prop :=
  (∀ s : State, s.sinkClosed = false →
    ∃ k, k < 8 ∧ (s.sink.bits.length + k) % 8 = 0 ∧
      exec .close s = .next { s with
        sink := ⟨s.sink.bits ++ List.replicate k false, true⟩, sinkClosed := true }) ∧
  (∀ s : State, s.sinkClosed = true → exec .close s = .next s)

/-! ## The whole machine -/

/-- R222, R223, R226, R227: COMPRESS and DECOMPRESS are exactly their sequences: started from IDLE and left alone, the machine
runs the micro-operations in order, each after PHASE has taken its code, stops at the first raise, and else completes. -/
def Obligations.CommandsAreTheirSequences : Prop :=
  (∀ s : State, s.state = .idle → s.trav.frames = [] →
    Sys2Proof.core.run 8 { s with moves := [.write .cmd 1] } =
      runSequence compressSequence { s with
        moves := [], cmd := 1, state := .busy, freqValid := false, treeValid := false, codeValid := false }) ∧
  (∀ s : State, s.state = .idle → s.trav.frames = [] →
    Sys2Proof.core.run 5 { s with moves := [.write .cmd 2] } =
      runSequence decompressSequence { s with
        moves := [], cmd := 2, state := .busy, freqValid := false, treeValid := false, codeValid := false })

/-- R33, R227 (the spec's own inference from R222 and R223): a turn of the block over a whole micro-operation moves PHASE to the
next of its command, the orders of R222 and R223 written out, or from CLOSE to NONE with the command done, or, when it raises,
leaves PHASE where it is. -/
def Obligations.PhaseAdvances : Prop :=
  ∀ s t : State, s.state = .busy → s.trav.frames = [] → s.moves = [] → step s = .next t →
    (t.state = .error ∧ t.phase = s.phase) ∨
    (t.state = .busy ∧
      ((s.phase = .count ∧ t.phase = .build) ∨ (s.phase = .build ∧ t.phase = .gencodes) ∨
        (s.phase = .gencodes ∧ t.phase = .wrtag) ∨ (s.phase = .wrtag ∧ t.phase = .wrhdr) ∨
        (s.phase = .wrhdr ∧ t.phase = .encode) ∨ (s.phase = .encode ∧ t.phase = .close) ∨
        (s.phase = .rdtag ∧ t.phase = .rdhdr) ∨ (s.phase = .rdhdr ∧ t.phase = .decode) ∨
        (s.phase = .decode ∧ t.phase = .close))) ∨
    (t.state = .done ∧ s.phase = .close ∧ t.phase = .none)

/-- R34: the transitions of STATE and no other. -/
def Obligations.StateTransitions : Prop :=
  ∀ s t : State, step s = .next t → t.state ≠ s.state →
    (s.state = .idle ∧ t.state = .busy ∧ ∃ w rest, s.moves = .write .cmd w :: rest ∧ (w = 1 ∨ w = 2)) ∨
    (s.state = .idle ∧ t.state = .error ∧ ∃ w rest, s.moves = .write .cmd w :: rest ∧ w ≠ 1 ∧ w ≠ 2 ∧ w ≠ 3) ∨
    (s.state = .busy ∧ (t.state = .done ∨ t.state = .error) ∧ (s.moves = [] ∨ ∃ g rest, s.moves = .block g :: rest)) ∨
    ((s.state = .done ∨ s.state = .error) ∧ t.state = .idle ∧ ∃ rest, s.moves = .write .cmd 3 :: rest) ∨
    (t.state = .idle ∧ ((∃ rest, s.moves = .reset :: rest) ∨ ∃ g k rest, s.moves = .resetDuring g k :: rest))

/-- R36: SINK_CLOSED is cleared only by CLEAR and reset; while it is 1 the block leaves the sink alone; when a step sets it, that
step has closed the sink. -/
def Obligations.SinkClosedOnce : Prop :=
  (∀ s t : State, step s = .next t → s.sinkClosed = true → t.sinkClosed = false →
    (∃ rest, s.moves = .write .cmd 3 :: rest) ∨ (∃ rest, s.moves = .reset :: rest) ∨
      ∃ g k rest, s.moves = .resetDuring g k :: rest) ∧
  (∀ s t : State, Inv s → step s = .next t → s.sinkClosed = true →
    t.sink = s.sink ∨ ∃ bits rewound rest, s.moves = .attach bits rewound :: rest) ∧
  (∀ s t : State, step s = .next t → s.sinkClosed = false → t.sinkClosed = true →
    ∃ k : Sink, t.sink = k.close ∧ s.sink.bits <+: k.bits)

/-- R21, R22, R25 c, R26, R27: FREQ is written by COUNT only, NODE by BUILD and RDHDR (and RDHDR's tokens) only, CODE by GENCODES
only, LIVE by BUILD only. -/
def Obligations.TablesWrittenByTheirUnits : Prop :=
  ∀ (i : Instr) (s t : State), exec i s = .next t →
    (i ≠ .count → t.freq = s.freq) ∧
    (i ≠ .build → i ≠ .rdhdr → i ≠ .internal → (∀ sym, i ≠ .leaf sym) → t.node = s.node) ∧
    (i ≠ .gencodes → t.code = s.code) ∧
    (i ≠ .build → t.live = s.live)

/-- R60, R61, R64: no operation takes back a bit of OUT or changes the input; only ENCODE, which rewinds, can meet other bits. -/
def Obligations.PortsOnlyMoveForward : Prop :=
  ∀ (i : Instr) (s t : State), exec i s = .next t →
    s.sink.bits <+: t.sink.bits ∧ (s.sink.closed = true → t.sink.closed = true) ∧
    (i ≠ .encode → t.src.bits = s.src.bits ∧ (s.src.pos ≤ s.src.bits.length → s.src.pos ≤ t.src.pos)) ∧
    t.src.rewound = s.src.rewound ∧ t.moves = s.moves ∧ t.cmd = s.cmd ∧ t.hostData = s.hostData

/-- R45: the invariant holds after reset. -/
def Obligations.InvAtReset : Prop := Inv State.reset

/-- R21 to R43, R38, R61: every step keeps the invariant. -/
def Obligations.InvKept : Prop :=
  ∀ s t : State, Inv s → step s = .next t → Inv t

/-- R46: no state the machine reaches between micro-operations lets it read an entry nothing has written, leave a table or lose
its way: from a ready state every orderly step gives a next state, and that is ready again. -/
def Obligations.NoModelFaultIsReached : Prop :=
  Ready State.reset ∧
  ∀ s : State, Ready s → orderlyMove s = true → ∃ t, step s = .next t ∧ Ready t

/-- R101, R107, R109, R110: what a COMPRESS of the bytes S writes is a container: the tag, the preorder of a tree whose leaves are
the symbols of S and the sentinel, the codes of the bytes of S and the sentinel's, fewer than 8 zero bits to a whole byte. -/
def Obligations.CompressWritesContainer : Prop :=
  ∀ (s : State) (S : List Byte), s.state = .idle → s.trav.frames = [] → s.sinkClosed = false →
    s.src = ⟨bitsOfBytes S, 0, none⟩ → s.sink = ⟨[], false⟩ → (∀ b : Byte, S.count b ≤ 2 ^ 32 - 1) →
    ∃ (t : State) (tree : Tree) (msg : List (Sym × Bits)) (eosCode : Bits) (k : Nat),
      Sys2Proof.core.run 8 { s with moves := [.write .cmd 1] } = .next t ∧ t.state = .done ∧
      t.sink = ⟨msbFirst 32 Config.magic.toNat ++ tree.header ++ msg.flatMap (fun p => p.2) ++ eosCode ++
        List.replicate k false, true⟩ ∧
      k < 8 ∧ t.sink.bits.length % 8 = 0 ∧
      tree.header.length + 1 = 11 * tree.syms.length ∧ tree.syms.Nodup ∧
      (∀ sym : Sym, sym ∈ tree.syms ↔ sym = 256 ∨ ∃ b ∈ S, sym = b.setWidth 9) ∧
      msg.map (fun p => p.1) = S.map (fun b => b.setWidth 9) ∧
      (∀ p ∈ msg, p ∈ tree.codes) ∧ (256, eosCode) ∈ tree.codes

/-- R207 f (the spec's own inference from R201), S3: decompressing what a COMPRESS of the bytes S wrote gives exactly S. -/
def Obligations.RoundTrip : Prop :=
  ∀ (s u : State) (S : List Byte), s.state = .idle → s.trav.frames = [] → s.sinkClosed = false →
    s.src = ⟨bitsOfBytes S, 0, none⟩ → s.sink = ⟨[], false⟩ → (∀ b : Byte, S.count b ≤ 2 ^ 32 - 1) →
    u.state = .idle → u.trav.frames = [] → u.sinkClosed = false → u.sink = ⟨[], false⟩ →
    ∃ t v : State,
      Sys2Proof.core.run 8 { s with moves := [.write .cmd 1] } = .next t ∧ t.state = .done ∧
      Sys2Proof.core.run 5 { u with moves := [.write .cmd 2], src := ⟨t.sink.bits, 0, none⟩ } = .next v ∧
      v.state = .done ∧ v.sink.file = some S
end

