-- ==== Sys2Proof/Laws/Config.lean ====
section
/-! SUPPORT. The configuration record and the types of Word.lean and State.lean agree, and its entries agree with each other as
00_scope.md R5 and R6 write them. -/

namespace Sys2Proof.Config

open Sys2Proof.Machine

/-! ## Types -/

theorem byte_width : Byte = BitVec wordW := rfl

theorem sym_width : Sym = BitVec symW := rfl

theorem tag_width : Word = BitVec tagW := rfl

theorem count_width : Count = BitVec cntW := rfl

theorem weight_width : Weight = BitVec weightW := rfl

theorem idx_width : Idx = BitVec idxW := rfl

theorem len_width : Len = BitVec lenW := rfl

theorem pat_width : Pat = BitVec codeMaxLen := rfl

/-! ## Entries -/

theorem alph_eq : alph = 2 ^ wordW := rfl

theorem nsym_eq : nsym = alph + 1 := rfl

/-- The sentinel is the one symbol that is no literal. -/
theorem eos_eq : eos = alph := rfl

/-- Nine bits hold every symbol. -/
theorem nsym_fits : nsym ≤ 2 ^ symW := by decide

theorem leafBits_eq : leafBits = intBits + symW := rfl

theorem weightW_eq : weightW = cntW + 9 := rfl

theorem nodeCap_eq : nodeCap = 2 * nsym - 1 := rfl

theorem nodeCap_fits : nodeCap ≤ 2 ^ idxW := by decide

theorem codeMaxLen_eq : codeMaxLen = nsym - 1 := rfl

theorem codeMaxLen_fits : codeMaxLen < 2 ^ lenW := by decide

theorem countMax_toNat : countMax.toNat = 2 ^ cntW - 1 := by decide

/-! ## Reads and writes at the record's widths

The definitions pass a width by its name in the record. These rewrite the name to the numeral inside an operation. -/

theorem readBits_wordW (s : State) : s.readBits wordW = s.readBits 8 := rfl

theorem readBits_tagW (s : State) : s.readBits tagW = s.readBits 32 := rfl

theorem readBits_symW (s : State) : s.readBits symW = s.readBits 9 := rfl

theorem readBits_intBits (s : State) : s.readBits intBits = s.readBits 1 := rfl

theorem msbFirst_symW (v : Nat) : msbFirst symW v = msbFirst 9 v := rfl

theorem msbFirst_tagW (v : Nat) : msbFirst tagW v = msbFirst 32 v := rfl

theorem msbFirst_wordW (v : Nat) : msbFirst wordW v = msbFirst 8 v := rfl

end Sys2Proof.Config
end

