-- ==== Sys2Proof/Laws/State.lean ====
section
/-! SUPPORT. One lemma per field per named update of the state, so that no proof unfolds an update. -/

namespace Sys2Proof.Machine

/-! ### State.rewind -/

@[simp] theorem State.rewind_freq (s : State) : (s.rewind).freq = s.freq := rfl
@[simp] theorem State.rewind_node (s : State) : (s.rewind).node = s.node := rfl
@[simp] theorem State.rewind_code (s : State) : (s.rewind).code = s.code := rfl
@[simp] theorem State.rewind_live (s : State) : (s.rewind).live = s.live := rfl
@[simp] theorem State.rewind_root (s : State) : (s.rewind).root = s.root := rfl
@[simp] theorem State.rewind_next (s : State) : (s.rewind).next = s.next := rfl
@[simp] theorem State.rewind_nlive (s : State) : (s.rewind).nlive = s.nlive := rfl
@[simp] theorem State.rewind_cur (s : State) : (s.rewind).cur = s.cur := rfl
@[simp] theorem State.rewind_phase (s : State) : (s.rewind).phase = s.phase := rfl
@[simp] theorem State.rewind_state (s : State) : (s.rewind).state = s.state := rfl
@[simp] theorem State.rewind_freqValid (s : State) : (s.rewind).freqValid = s.freqValid := rfl
@[simp] theorem State.rewind_treeValid (s : State) : (s.rewind).treeValid = s.treeValid := rfl
@[simp] theorem State.rewind_codeValid (s : State) : (s.rewind).codeValid = s.codeValid := rfl
@[simp] theorem State.rewind_sinkClosed (s : State) : (s.rewind).sinkClosed = s.sinkClosed := rfl
@[simp] theorem State.rewind_errEoi (s : State) : (s.rewind).errEoi = s.errEoi := rfl
@[simp] theorem State.rewind_errCause (s : State) : (s.rewind).errCause = s.errCause := rfl
@[simp] theorem State.rewind_errInfo (s : State) : (s.rewind).errInfo = s.errInfo := rfl
@[simp] theorem State.rewind_cmd (s : State) : (s.rewind).cmd = s.cmd := rfl
@[simp] theorem State.rewind_trav (s : State) : (s.rewind).trav = s.trav := rfl
@[simp] theorem State.rewind_src (s : State) : (s.rewind).src = s.src.rewind := rfl
@[simp] theorem State.rewind_sink (s : State) : (s.rewind).sink = s.sink := rfl
@[simp] theorem State.rewind_hostData (s : State) : (s.rewind).hostData = s.hostData := rfl
@[simp] theorem State.rewind_moves (s : State) : (s.rewind).moves = s.moves := rfl

/-! ### State.skip -/

@[simp] theorem State.skip_freq (n : Nat) (s : State) : (s.skip n).freq = s.freq := rfl
@[simp] theorem State.skip_node (n : Nat) (s : State) : (s.skip n).node = s.node := rfl
@[simp] theorem State.skip_code (n : Nat) (s : State) : (s.skip n).code = s.code := rfl
@[simp] theorem State.skip_live (n : Nat) (s : State) : (s.skip n).live = s.live := rfl
@[simp] theorem State.skip_root (n : Nat) (s : State) : (s.skip n).root = s.root := rfl
@[simp] theorem State.skip_next (n : Nat) (s : State) : (s.skip n).next = s.next := rfl
@[simp] theorem State.skip_nlive (n : Nat) (s : State) : (s.skip n).nlive = s.nlive := rfl
@[simp] theorem State.skip_cur (n : Nat) (s : State) : (s.skip n).cur = s.cur := rfl
@[simp] theorem State.skip_phase (n : Nat) (s : State) : (s.skip n).phase = s.phase := rfl
@[simp] theorem State.skip_state (n : Nat) (s : State) : (s.skip n).state = s.state := rfl
@[simp] theorem State.skip_freqValid (n : Nat) (s : State) : (s.skip n).freqValid = s.freqValid := rfl
@[simp] theorem State.skip_treeValid (n : Nat) (s : State) : (s.skip n).treeValid = s.treeValid := rfl
@[simp] theorem State.skip_codeValid (n : Nat) (s : State) : (s.skip n).codeValid = s.codeValid := rfl
@[simp] theorem State.skip_sinkClosed (n : Nat) (s : State) : (s.skip n).sinkClosed = s.sinkClosed := rfl
@[simp] theorem State.skip_errEoi (n : Nat) (s : State) : (s.skip n).errEoi = s.errEoi := rfl
@[simp] theorem State.skip_errCause (n : Nat) (s : State) : (s.skip n).errCause = s.errCause := rfl
@[simp] theorem State.skip_errInfo (n : Nat) (s : State) : (s.skip n).errInfo = s.errInfo := rfl
@[simp] theorem State.skip_cmd (n : Nat) (s : State) : (s.skip n).cmd = s.cmd := rfl
@[simp] theorem State.skip_trav (n : Nat) (s : State) : (s.skip n).trav = s.trav := rfl
@[simp] theorem State.skip_src (n : Nat) (s : State) : (s.skip n).src = s.src.skip n := rfl
@[simp] theorem State.skip_sink (n : Nat) (s : State) : (s.skip n).sink = s.sink := rfl
@[simp] theorem State.skip_hostData (n : Nat) (s : State) : (s.skip n).hostData = s.hostData := rfl
@[simp] theorem State.skip_moves (n : Nat) (s : State) : (s.skip n).moves = s.moves := rfl

/-! ### State.readBits -/

@[simp] theorem State.readBits_freq (n : Nat) (s : State) : (s.readBits n).2.freq = s.freq := rfl
@[simp] theorem State.readBits_node (n : Nat) (s : State) : (s.readBits n).2.node = s.node := rfl
@[simp] theorem State.readBits_code (n : Nat) (s : State) : (s.readBits n).2.code = s.code := rfl
@[simp] theorem State.readBits_live (n : Nat) (s : State) : (s.readBits n).2.live = s.live := rfl
@[simp] theorem State.readBits_root (n : Nat) (s : State) : (s.readBits n).2.root = s.root := rfl
@[simp] theorem State.readBits_next (n : Nat) (s : State) : (s.readBits n).2.next = s.next := rfl
@[simp] theorem State.readBits_nlive (n : Nat) (s : State) : (s.readBits n).2.nlive = s.nlive := rfl
@[simp] theorem State.readBits_cur (n : Nat) (s : State) : (s.readBits n).2.cur = s.cur := rfl
@[simp] theorem State.readBits_phase (n : Nat) (s : State) : (s.readBits n).2.phase = s.phase := rfl
@[simp] theorem State.readBits_state (n : Nat) (s : State) : (s.readBits n).2.state = s.state := rfl
@[simp] theorem State.readBits_freqValid (n : Nat) (s : State) : (s.readBits n).2.freqValid = s.freqValid := rfl
@[simp] theorem State.readBits_treeValid (n : Nat) (s : State) : (s.readBits n).2.treeValid = s.treeValid := rfl
@[simp] theorem State.readBits_codeValid (n : Nat) (s : State) : (s.readBits n).2.codeValid = s.codeValid := rfl
@[simp] theorem State.readBits_sinkClosed (n : Nat) (s : State) : (s.readBits n).2.sinkClosed = s.sinkClosed := rfl
@[simp] theorem State.readBits_errEoi (n : Nat) (s : State) : (s.readBits n).2.errEoi = s.errEoi := rfl
@[simp] theorem State.readBits_errCause (n : Nat) (s : State) : (s.readBits n).2.errCause = s.errCause := rfl
@[simp] theorem State.readBits_errInfo (n : Nat) (s : State) : (s.readBits n).2.errInfo = s.errInfo := rfl
@[simp] theorem State.readBits_cmd (n : Nat) (s : State) : (s.readBits n).2.cmd = s.cmd := rfl
@[simp] theorem State.readBits_trav (n : Nat) (s : State) : (s.readBits n).2.trav = s.trav := rfl
@[simp] theorem State.readBits_src (n : Nat) (s : State) : (s.readBits n).2.src = (s.src.readBits n).2 := rfl
@[simp] theorem State.readBits_sink (n : Nat) (s : State) : (s.readBits n).2.sink = s.sink := rfl
@[simp] theorem State.readBits_hostData (n : Nat) (s : State) : (s.readBits n).2.hostData = s.hostData := rfl
@[simp] theorem State.readBits_moves (n : Nat) (s : State) : (s.readBits n).2.moves = s.moves := rfl

/-! ### State.writeBits -/

@[simp] theorem State.writeBits_freq (n v : Nat) (s : State) : (s.writeBits n v).freq = s.freq := rfl
@[simp] theorem State.writeBits_node (n v : Nat) (s : State) : (s.writeBits n v).node = s.node := rfl
@[simp] theorem State.writeBits_code (n v : Nat) (s : State) : (s.writeBits n v).code = s.code := rfl
@[simp] theorem State.writeBits_live (n v : Nat) (s : State) : (s.writeBits n v).live = s.live := rfl
@[simp] theorem State.writeBits_root (n v : Nat) (s : State) : (s.writeBits n v).root = s.root := rfl
@[simp] theorem State.writeBits_next (n v : Nat) (s : State) : (s.writeBits n v).next = s.next := rfl
@[simp] theorem State.writeBits_nlive (n v : Nat) (s : State) : (s.writeBits n v).nlive = s.nlive := rfl
@[simp] theorem State.writeBits_cur (n v : Nat) (s : State) : (s.writeBits n v).cur = s.cur := rfl
@[simp] theorem State.writeBits_phase (n v : Nat) (s : State) : (s.writeBits n v).phase = s.phase := rfl
@[simp] theorem State.writeBits_state (n v : Nat) (s : State) : (s.writeBits n v).state = s.state := rfl
@[simp] theorem State.writeBits_freqValid (n v : Nat) (s : State) : (s.writeBits n v).freqValid = s.freqValid := rfl
@[simp] theorem State.writeBits_treeValid (n v : Nat) (s : State) : (s.writeBits n v).treeValid = s.treeValid := rfl
@[simp] theorem State.writeBits_codeValid (n v : Nat) (s : State) : (s.writeBits n v).codeValid = s.codeValid := rfl
@[simp] theorem State.writeBits_sinkClosed (n v : Nat) (s : State) : (s.writeBits n v).sinkClosed = s.sinkClosed := rfl
@[simp] theorem State.writeBits_errEoi (n v : Nat) (s : State) : (s.writeBits n v).errEoi = s.errEoi := rfl
@[simp] theorem State.writeBits_errCause (n v : Nat) (s : State) : (s.writeBits n v).errCause = s.errCause := rfl
@[simp] theorem State.writeBits_errInfo (n v : Nat) (s : State) : (s.writeBits n v).errInfo = s.errInfo := rfl
@[simp] theorem State.writeBits_cmd (n v : Nat) (s : State) : (s.writeBits n v).cmd = s.cmd := rfl
@[simp] theorem State.writeBits_trav (n v : Nat) (s : State) : (s.writeBits n v).trav = s.trav := rfl
@[simp] theorem State.writeBits_src (n v : Nat) (s : State) : (s.writeBits n v).src = s.src := rfl
@[simp] theorem State.writeBits_sink (n v : Nat) (s : State) : (s.writeBits n v).sink = s.sink.writeBits n v := rfl
@[simp] theorem State.writeBits_hostData (n v : Nat) (s : State) : (s.writeBits n v).hostData = s.hostData := rfl
@[simp] theorem State.writeBits_moves (n v : Nat) (s : State) : (s.writeBits n v).moves = s.moves := rfl

/-! ### State.clearValid -/

@[simp] theorem State.clearValid_freq (s : State) : (s.clearValid).freq = s.freq := rfl
@[simp] theorem State.clearValid_node (s : State) : (s.clearValid).node = s.node := rfl
@[simp] theorem State.clearValid_code (s : State) : (s.clearValid).code = s.code := rfl
@[simp] theorem State.clearValid_live (s : State) : (s.clearValid).live = s.live := rfl
@[simp] theorem State.clearValid_root (s : State) : (s.clearValid).root = s.root := rfl
@[simp] theorem State.clearValid_next (s : State) : (s.clearValid).next = s.next := rfl
@[simp] theorem State.clearValid_nlive (s : State) : (s.clearValid).nlive = s.nlive := rfl
@[simp] theorem State.clearValid_cur (s : State) : (s.clearValid).cur = s.cur := rfl
@[simp] theorem State.clearValid_phase (s : State) : (s.clearValid).phase = s.phase := rfl
@[simp] theorem State.clearValid_state (s : State) : (s.clearValid).state = s.state := rfl
@[simp] theorem State.clearValid_freqValid (s : State) : (s.clearValid).freqValid = false := rfl
@[simp] theorem State.clearValid_treeValid (s : State) : (s.clearValid).treeValid = false := rfl
@[simp] theorem State.clearValid_codeValid (s : State) : (s.clearValid).codeValid = false := rfl
@[simp] theorem State.clearValid_sinkClosed (s : State) : (s.clearValid).sinkClosed = s.sinkClosed := rfl
@[simp] theorem State.clearValid_errEoi (s : State) : (s.clearValid).errEoi = s.errEoi := rfl
@[simp] theorem State.clearValid_errCause (s : State) : (s.clearValid).errCause = s.errCause := rfl
@[simp] theorem State.clearValid_errInfo (s : State) : (s.clearValid).errInfo = s.errInfo := rfl
@[simp] theorem State.clearValid_cmd (s : State) : (s.clearValid).cmd = s.cmd := rfl
@[simp] theorem State.clearValid_trav (s : State) : (s.clearValid).trav = s.trav := rfl
@[simp] theorem State.clearValid_src (s : State) : (s.clearValid).src = s.src := rfl
@[simp] theorem State.clearValid_sink (s : State) : (s.clearValid).sink = s.sink := rfl
@[simp] theorem State.clearValid_hostData (s : State) : (s.clearValid).hostData = s.hostData := rfl
@[simp] theorem State.clearValid_moves (s : State) : (s.clearValid).moves = s.moves := rfl

/-! ### State.complete -/

@[simp] theorem State.complete_freq (s : State) : (s.complete).freq = s.freq := rfl
@[simp] theorem State.complete_node (s : State) : (s.complete).node = s.node := rfl
@[simp] theorem State.complete_code (s : State) : (s.complete).code = s.code := rfl
@[simp] theorem State.complete_live (s : State) : (s.complete).live = s.live := rfl
@[simp] theorem State.complete_root (s : State) : (s.complete).root = s.root := rfl
@[simp] theorem State.complete_next (s : State) : (s.complete).next = s.next := rfl
@[simp] theorem State.complete_nlive (s : State) : (s.complete).nlive = s.nlive := rfl
@[simp] theorem State.complete_cur (s : State) : (s.complete).cur = s.cur := rfl
@[simp] theorem State.complete_phase (s : State) : (s.complete).phase = .none := rfl
@[simp] theorem State.complete_state (s : State) : (s.complete).state = .done := rfl
@[simp] theorem State.complete_freqValid (s : State) : (s.complete).freqValid = false := rfl
@[simp] theorem State.complete_treeValid (s : State) : (s.complete).treeValid = false := rfl
@[simp] theorem State.complete_codeValid (s : State) : (s.complete).codeValid = false := rfl
@[simp] theorem State.complete_sinkClosed (s : State) : (s.complete).sinkClosed = s.sinkClosed := rfl
@[simp] theorem State.complete_errEoi (s : State) : (s.complete).errEoi = s.errEoi := rfl
@[simp] theorem State.complete_errCause (s : State) : (s.complete).errCause = s.errCause := rfl
@[simp] theorem State.complete_errInfo (s : State) : (s.complete).errInfo = s.errInfo := rfl
@[simp] theorem State.complete_cmd (s : State) : (s.complete).cmd = s.cmd := rfl
@[simp] theorem State.complete_trav (s : State) : (s.complete).trav = s.trav := rfl
@[simp] theorem State.complete_src (s : State) : (s.complete).src = s.src := rfl
@[simp] theorem State.complete_sink (s : State) : (s.complete).sink = s.sink := rfl
@[simp] theorem State.complete_hostData (s : State) : (s.complete).hostData = s.hostData := rfl
@[simp] theorem State.complete_moves (s : State) : (s.complete).moves = s.moves := rfl

/-! ### startCommand -/

@[simp] theorem startCommand_freq (p : Phase) (s : State) : (startCommand p s).freq = s.freq := rfl
@[simp] theorem startCommand_node (p : Phase) (s : State) : (startCommand p s).node = s.node := rfl
@[simp] theorem startCommand_code (p : Phase) (s : State) : (startCommand p s).code = s.code := rfl
@[simp] theorem startCommand_live (p : Phase) (s : State) : (startCommand p s).live = s.live := rfl
@[simp] theorem startCommand_root (p : Phase) (s : State) : (startCommand p s).root = s.root := rfl
@[simp] theorem startCommand_next (p : Phase) (s : State) : (startCommand p s).next = s.next := rfl
@[simp] theorem startCommand_nlive (p : Phase) (s : State) : (startCommand p s).nlive = s.nlive := rfl
@[simp] theorem startCommand_cur (p : Phase) (s : State) : (startCommand p s).cur = s.cur := rfl
@[simp] theorem startCommand_phase (p : Phase) (s : State) : (startCommand p s).phase = p := rfl
@[simp] theorem startCommand_state (p : Phase) (s : State) : (startCommand p s).state = .busy := rfl
@[simp] theorem startCommand_freqValid (p : Phase) (s : State) : (startCommand p s).freqValid = false := rfl
@[simp] theorem startCommand_treeValid (p : Phase) (s : State) : (startCommand p s).treeValid = false := rfl
@[simp] theorem startCommand_codeValid (p : Phase) (s : State) : (startCommand p s).codeValid = false := rfl
@[simp] theorem startCommand_sinkClosed (p : Phase) (s : State) : (startCommand p s).sinkClosed = s.sinkClosed := rfl
@[simp] theorem startCommand_errEoi (p : Phase) (s : State) : (startCommand p s).errEoi = s.errEoi := rfl
@[simp] theorem startCommand_errCause (p : Phase) (s : State) : (startCommand p s).errCause = s.errCause := rfl
@[simp] theorem startCommand_errInfo (p : Phase) (s : State) : (startCommand p s).errInfo = s.errInfo := rfl
@[simp] theorem startCommand_cmd (p : Phase) (s : State) : (startCommand p s).cmd = s.cmd := rfl
@[simp] theorem startCommand_trav (p : Phase) (s : State) : (startCommand p s).trav = s.trav := rfl
@[simp] theorem startCommand_src (p : Phase) (s : State) : (startCommand p s).src = s.src := rfl
@[simp] theorem startCommand_sink (p : Phase) (s : State) : (startCommand p s).sink = s.sink := rfl
@[simp] theorem startCommand_hostData (p : Phase) (s : State) : (startCommand p s).hostData = s.hostData := rfl
@[simp] theorem startCommand_moves (p : Phase) (s : State) : (startCommand p s).moves = s.moves := rfl

/-! ### State.clearRegisters -/

@[simp] theorem State.clearRegisters_freq (s : State) : (s.clearRegisters).freq = s.freq := rfl
@[simp] theorem State.clearRegisters_node (s : State) : (s.clearRegisters).node = s.node := rfl
@[simp] theorem State.clearRegisters_code (s : State) : (s.clearRegisters).code = s.code := rfl
@[simp] theorem State.clearRegisters_live (s : State) : (s.clearRegisters).live = s.live := rfl
@[simp] theorem State.clearRegisters_root (s : State) : (s.clearRegisters).root = 0 := rfl
@[simp] theorem State.clearRegisters_next (s : State) : (s.clearRegisters).next = 0 := rfl
@[simp] theorem State.clearRegisters_nlive (s : State) : (s.clearRegisters).nlive = 0 := rfl
@[simp] theorem State.clearRegisters_cur (s : State) : (s.clearRegisters).cur = 0 := rfl
@[simp] theorem State.clearRegisters_phase (s : State) : (s.clearRegisters).phase = .none := rfl
@[simp] theorem State.clearRegisters_state (s : State) : (s.clearRegisters).state = .idle := rfl
@[simp] theorem State.clearRegisters_freqValid (s : State) : (s.clearRegisters).freqValid = false := rfl
@[simp] theorem State.clearRegisters_treeValid (s : State) : (s.clearRegisters).treeValid = false := rfl
@[simp] theorem State.clearRegisters_codeValid (s : State) : (s.clearRegisters).codeValid = false := rfl
@[simp] theorem State.clearRegisters_sinkClosed (s : State) : (s.clearRegisters).sinkClosed = false := rfl
@[simp] theorem State.clearRegisters_errEoi (s : State) : (s.clearRegisters).errEoi = false := rfl
@[simp] theorem State.clearRegisters_errCause (s : State) : (s.clearRegisters).errCause = .none := rfl
@[simp] theorem State.clearRegisters_errInfo (s : State) : (s.clearRegisters).errInfo = 0 := rfl
@[simp] theorem State.clearRegisters_cmd (s : State) : (s.clearRegisters).cmd = s.cmd := rfl
@[simp] theorem State.clearRegisters_trav (s : State) : (s.clearRegisters).trav = .empty := rfl
@[simp] theorem State.clearRegisters_src (s : State) : (s.clearRegisters).src = s.src := rfl
@[simp] theorem State.clearRegisters_sink (s : State) : (s.clearRegisters).sink = s.sink := rfl
@[simp] theorem State.clearRegisters_hostData (s : State) : (s.clearRegisters).hostData = s.hostData := rfl
@[simp] theorem State.clearRegisters_moves (s : State) : (s.clearRegisters).moves = s.moves := rfl

/-! ### State.hardReset -/

@[simp] theorem State.hardReset_freq (s : State) : (s.hardReset).freq = [] := rfl
@[simp] theorem State.hardReset_node (s : State) : (s.hardReset).node = [] := rfl
@[simp] theorem State.hardReset_code (s : State) : (s.hardReset).code = [] := rfl
@[simp] theorem State.hardReset_live (s : State) : (s.hardReset).live = [] := rfl
@[simp] theorem State.hardReset_root (s : State) : (s.hardReset).root = 0 := rfl
@[simp] theorem State.hardReset_next (s : State) : (s.hardReset).next = 0 := rfl
@[simp] theorem State.hardReset_nlive (s : State) : (s.hardReset).nlive = 0 := rfl
@[simp] theorem State.hardReset_cur (s : State) : (s.hardReset).cur = 0 := rfl
@[simp] theorem State.hardReset_phase (s : State) : (s.hardReset).phase = .none := rfl
@[simp] theorem State.hardReset_state (s : State) : (s.hardReset).state = .idle := rfl
@[simp] theorem State.hardReset_freqValid (s : State) : (s.hardReset).freqValid = false := rfl
@[simp] theorem State.hardReset_treeValid (s : State) : (s.hardReset).treeValid = false := rfl
@[simp] theorem State.hardReset_codeValid (s : State) : (s.hardReset).codeValid = false := rfl
@[simp] theorem State.hardReset_sinkClosed (s : State) : (s.hardReset).sinkClosed = false := rfl
@[simp] theorem State.hardReset_errEoi (s : State) : (s.hardReset).errEoi = false := rfl
@[simp] theorem State.hardReset_errCause (s : State) : (s.hardReset).errCause = .none := rfl
@[simp] theorem State.hardReset_errInfo (s : State) : (s.hardReset).errInfo = 0 := rfl
@[simp] theorem State.hardReset_cmd (s : State) : (s.hardReset).cmd = 0 := rfl
@[simp] theorem State.hardReset_trav (s : State) : (s.hardReset).trav = .empty := rfl
@[simp] theorem State.hardReset_src (s : State) : (s.hardReset).src = s.src := rfl
@[simp] theorem State.hardReset_sink (s : State) : (s.hardReset).sink = s.sink := rfl
@[simp] theorem State.hardReset_hostData (s : State) : (s.hardReset).hostData = s.hostData := rfl
@[simp] theorem State.hardReset_moves (s : State) : (s.hardReset).moves = s.moves := rfl

/-! ### State.ports -/

@[simp] theorem State.ports_freq (ops : List PortOp) (s : State) : (s.ports ops).freq = s.freq := rfl
@[simp] theorem State.ports_node (ops : List PortOp) (s : State) : (s.ports ops).node = s.node := rfl
@[simp] theorem State.ports_code (ops : List PortOp) (s : State) : (s.ports ops).code = s.code := rfl
@[simp] theorem State.ports_live (ops : List PortOp) (s : State) : (s.ports ops).live = s.live := rfl
@[simp] theorem State.ports_root (ops : List PortOp) (s : State) : (s.ports ops).root = s.root := rfl
@[simp] theorem State.ports_next (ops : List PortOp) (s : State) : (s.ports ops).next = s.next := rfl
@[simp] theorem State.ports_nlive (ops : List PortOp) (s : State) : (s.ports ops).nlive = s.nlive := rfl
@[simp] theorem State.ports_cur (ops : List PortOp) (s : State) : (s.ports ops).cur = s.cur := rfl
@[simp] theorem State.ports_phase (ops : List PortOp) (s : State) : (s.ports ops).phase = s.phase := rfl
@[simp] theorem State.ports_state (ops : List PortOp) (s : State) : (s.ports ops).state = s.state := rfl
@[simp] theorem State.ports_freqValid (ops : List PortOp) (s : State) : (s.ports ops).freqValid = s.freqValid := rfl
@[simp] theorem State.ports_treeValid (ops : List PortOp) (s : State) : (s.ports ops).treeValid = s.treeValid := rfl
@[simp] theorem State.ports_codeValid (ops : List PortOp) (s : State) : (s.ports ops).codeValid = s.codeValid := rfl
@[simp] theorem State.ports_sinkClosed (ops : List PortOp) (s : State) : (s.ports ops).sinkClosed = s.sinkClosed := rfl
@[simp] theorem State.ports_errEoi (ops : List PortOp) (s : State) : (s.ports ops).errEoi = s.errEoi := rfl
@[simp] theorem State.ports_errCause (ops : List PortOp) (s : State) : (s.ports ops).errCause = s.errCause := rfl
@[simp] theorem State.ports_errInfo (ops : List PortOp) (s : State) : (s.ports ops).errInfo = s.errInfo := rfl
@[simp] theorem State.ports_cmd (ops : List PortOp) (s : State) : (s.ports ops).cmd = s.cmd := rfl
@[simp] theorem State.ports_trav (ops : List PortOp) (s : State) : (s.ports ops).trav = s.trav := rfl
@[simp] theorem State.ports_src (ops : List PortOp) (s : State) : (s.ports ops).src = (runPorts ops (s.src, s.sink)).1 := rfl
@[simp] theorem State.ports_sink (ops : List PortOp) (s : State) : (s.ports ops).sink = (runPorts ops (s.src, s.sink)).2 := rfl
@[simp] theorem State.ports_hostData (ops : List PortOp) (s : State) : (s.ports ops).hostData = s.hostData := rfl
@[simp] theorem State.ports_moves (ops : List PortOp) (s : State) : (s.ports ops).moves = s.moves := rfl

/-! ### State.closeOnce -/

@[simp] theorem State.closeOnce_freq (s : State) : s.closeOnce.freq = s.freq := by
  unfold State.closeOnce; split <;> rfl
@[simp] theorem State.closeOnce_node (s : State) : s.closeOnce.node = s.node := by
  unfold State.closeOnce; split <;> rfl
@[simp] theorem State.closeOnce_code (s : State) : s.closeOnce.code = s.code := by
  unfold State.closeOnce; split <;> rfl
@[simp] theorem State.closeOnce_live (s : State) : s.closeOnce.live = s.live := by
  unfold State.closeOnce; split <;> rfl
@[simp] theorem State.closeOnce_root (s : State) : s.closeOnce.root = s.root := by
  unfold State.closeOnce; split <;> rfl
@[simp] theorem State.closeOnce_next (s : State) : s.closeOnce.next = s.next := by
  unfold State.closeOnce; split <;> rfl
@[simp] theorem State.closeOnce_nlive (s : State) : s.closeOnce.nlive = s.nlive := by
  unfold State.closeOnce; split <;> rfl
@[simp] theorem State.closeOnce_cur (s : State) : s.closeOnce.cur = s.cur := by
  unfold State.closeOnce; split <;> rfl
@[simp] theorem State.closeOnce_phase (s : State) : s.closeOnce.phase = s.phase := by
  unfold State.closeOnce; split <;> rfl
@[simp] theorem State.closeOnce_state (s : State) : s.closeOnce.state = s.state := by
  unfold State.closeOnce; split <;> rfl
@[simp] theorem State.closeOnce_freqValid (s : State) : s.closeOnce.freqValid = s.freqValid := by
  unfold State.closeOnce; split <;> rfl
@[simp] theorem State.closeOnce_treeValid (s : State) : s.closeOnce.treeValid = s.treeValid := by
  unfold State.closeOnce; split <;> rfl
@[simp] theorem State.closeOnce_codeValid (s : State) : s.closeOnce.codeValid = s.codeValid := by
  unfold State.closeOnce; split <;> rfl
@[simp] theorem State.closeOnce_sinkClosed (s : State) : s.closeOnce.sinkClosed = true := by
  unfold State.closeOnce; split <;> simp_all
@[simp] theorem State.closeOnce_errEoi (s : State) : s.closeOnce.errEoi = s.errEoi := by
  unfold State.closeOnce; split <;> rfl
@[simp] theorem State.closeOnce_errCause (s : State) : s.closeOnce.errCause = s.errCause := by
  unfold State.closeOnce; split <;> rfl
@[simp] theorem State.closeOnce_errInfo (s : State) : s.closeOnce.errInfo = s.errInfo := by
  unfold State.closeOnce; split <;> rfl
@[simp] theorem State.closeOnce_cmd (s : State) : s.closeOnce.cmd = s.cmd := by
  unfold State.closeOnce; split <;> rfl
@[simp] theorem State.closeOnce_trav (s : State) : s.closeOnce.trav = s.trav := by
  unfold State.closeOnce; split <;> rfl
@[simp] theorem State.closeOnce_src (s : State) : s.closeOnce.src = s.src := by
  unfold State.closeOnce; split <;> rfl
@[simp] theorem State.closeOnce_sink (s : State) : s.closeOnce.sink = if s.sinkClosed then s.sink else s.sink.close := by
  unfold State.closeOnce; split <;> simp_all
@[simp] theorem State.closeOnce_hostData (s : State) : s.closeOnce.hostData = s.hostData := by
  unfold State.closeOnce; split <;> rfl
@[simp] theorem State.closeOnce_moves (s : State) : s.closeOnce.moves = s.moves := by
  unfold State.closeOnce; split <;> rfl

/-! ### State.errorEntry -/

@[simp] theorem State.errorEntry_freq (c : Cause) (info : Word) (eoi : Bool) (s : State) :
    (s.errorEntry c info eoi).freq = s.freq := by simp [State.errorEntry]
@[simp] theorem State.errorEntry_node (c : Cause) (info : Word) (eoi : Bool) (s : State) :
    (s.errorEntry c info eoi).node = s.node := by simp [State.errorEntry]
@[simp] theorem State.errorEntry_code (c : Cause) (info : Word) (eoi : Bool) (s : State) :
    (s.errorEntry c info eoi).code = s.code := by simp [State.errorEntry]
@[simp] theorem State.errorEntry_live (c : Cause) (info : Word) (eoi : Bool) (s : State) :
    (s.errorEntry c info eoi).live = s.live := by simp [State.errorEntry]
@[simp] theorem State.errorEntry_root (c : Cause) (info : Word) (eoi : Bool) (s : State) :
    (s.errorEntry c info eoi).root = s.root := by simp [State.errorEntry]
@[simp] theorem State.errorEntry_next (c : Cause) (info : Word) (eoi : Bool) (s : State) :
    (s.errorEntry c info eoi).next = s.next := by simp [State.errorEntry]
@[simp] theorem State.errorEntry_nlive (c : Cause) (info : Word) (eoi : Bool) (s : State) :
    (s.errorEntry c info eoi).nlive = s.nlive := by simp [State.errorEntry]
@[simp] theorem State.errorEntry_cur (c : Cause) (info : Word) (eoi : Bool) (s : State) :
    (s.errorEntry c info eoi).cur = s.cur := by simp [State.errorEntry]
@[simp] theorem State.errorEntry_phase (c : Cause) (info : Word) (eoi : Bool) (s : State) :
    (s.errorEntry c info eoi).phase = s.phase := by simp [State.errorEntry]
@[simp] theorem State.errorEntry_state (c : Cause) (info : Word) (eoi : Bool) (s : State) :
    (s.errorEntry c info eoi).state = .error := by simp [State.errorEntry]
@[simp] theorem State.errorEntry_freqValid (c : Cause) (info : Word) (eoi : Bool) (s : State) :
    (s.errorEntry c info eoi).freqValid = false := by simp [State.errorEntry]
@[simp] theorem State.errorEntry_treeValid (c : Cause) (info : Word) (eoi : Bool) (s : State) :
    (s.errorEntry c info eoi).treeValid = false := by simp [State.errorEntry]
@[simp] theorem State.errorEntry_codeValid (c : Cause) (info : Word) (eoi : Bool) (s : State) :
    (s.errorEntry c info eoi).codeValid = false := by simp [State.errorEntry]
@[simp] theorem State.errorEntry_sinkClosed (c : Cause) (info : Word) (eoi : Bool) (s : State) :
    (s.errorEntry c info eoi).sinkClosed = true := by simp [State.errorEntry]
@[simp] theorem State.errorEntry_errEoi (c : Cause) (info : Word) (eoi : Bool) (s : State) :
    (s.errorEntry c info eoi).errEoi = eoi := by simp [State.errorEntry]
@[simp] theorem State.errorEntry_errCause (c : Cause) (info : Word) (eoi : Bool) (s : State) :
    (s.errorEntry c info eoi).errCause = c := by simp [State.errorEntry]
@[simp] theorem State.errorEntry_errInfo (c : Cause) (info : Word) (eoi : Bool) (s : State) :
    (s.errorEntry c info eoi).errInfo = info := by simp [State.errorEntry]
@[simp] theorem State.errorEntry_cmd (c : Cause) (info : Word) (eoi : Bool) (s : State) :
    (s.errorEntry c info eoi).cmd = s.cmd := by simp [State.errorEntry]
@[simp] theorem State.errorEntry_trav (c : Cause) (info : Word) (eoi : Bool) (s : State) :
    (s.errorEntry c info eoi).trav = .empty := by simp [State.errorEntry]
@[simp] theorem State.errorEntry_src (c : Cause) (info : Word) (eoi : Bool) (s : State) :
    (s.errorEntry c info eoi).src = s.src := by simp [State.errorEntry]
@[simp] theorem State.errorEntry_sink (c : Cause) (info : Word) (eoi : Bool) (s : State) :
    (s.errorEntry c info eoi).sink = if s.sinkClosed then s.sink else s.sink.close := by simp [State.errorEntry]
@[simp] theorem State.errorEntry_hostData (c : Cause) (info : Word) (eoi : Bool) (s : State) :
    (s.errorEntry c info eoi).hostData = s.hostData := by simp [State.errorEntry]
@[simp] theorem State.errorEntry_moves (c : Cause) (info : Word) (eoi : Bool) (s : State) :
    (s.errorEntry c info eoi).moves = s.moves := by simp [State.errorEntry]

/-! ### State.advance, beginHeader -/

@[simp] theorem State.advance_freq (s : State) : s.advance.freq = s.freq := by
  unfold State.advance; split <;> [split <;> rfl; rfl]
@[simp] theorem State.advance_node (s : State) : s.advance.node = s.node := by
  unfold State.advance; split <;> [split <;> rfl; rfl]
@[simp] theorem State.advance_code (s : State) : s.advance.code = s.code := by
  unfold State.advance; split <;> [split <;> rfl; rfl]
@[simp] theorem State.advance_live (s : State) : s.advance.live = s.live := by
  unfold State.advance; split <;> [split <;> rfl; rfl]
@[simp] theorem State.advance_root (s : State) : s.advance.root = s.root := by
  unfold State.advance; split <;> [split <;> rfl; rfl]
@[simp] theorem State.advance_next (s : State) : s.advance.next = s.next := by
  unfold State.advance; split <;> [split <;> rfl; rfl]
@[simp] theorem State.advance_nlive (s : State) : s.advance.nlive = s.nlive := by
  unfold State.advance; split <;> [split <;> rfl; rfl]
@[simp] theorem State.advance_cur (s : State) : s.advance.cur = s.cur := by
  unfold State.advance; split <;> [split <;> rfl; rfl]
@[simp] theorem State.advance_sinkClosed (s : State) : s.advance.sinkClosed = s.sinkClosed := by
  unfold State.advance; split <;> [split <;> rfl; rfl]
@[simp] theorem State.advance_errEoi (s : State) : s.advance.errEoi = s.errEoi := by
  unfold State.advance; split <;> [split <;> rfl; rfl]
@[simp] theorem State.advance_errCause (s : State) : s.advance.errCause = s.errCause := by
  unfold State.advance; split <;> [split <;> rfl; rfl]
@[simp] theorem State.advance_errInfo (s : State) : s.advance.errInfo = s.errInfo := by
  unfold State.advance; split <;> [split <;> rfl; rfl]
@[simp] theorem State.advance_cmd (s : State) : s.advance.cmd = s.cmd := by
  unfold State.advance; split <;> [split <;> rfl; rfl]
@[simp] theorem State.advance_trav (s : State) : s.advance.trav = s.trav := by
  unfold State.advance; split <;> [split <;> rfl; rfl]
@[simp] theorem State.advance_src (s : State) : s.advance.src = s.src := by
  unfold State.advance; split <;> [split <;> rfl; rfl]
@[simp] theorem State.advance_sink (s : State) : s.advance.sink = s.sink := by
  unfold State.advance; split <;> [split <;> rfl; rfl]
@[simp] theorem State.advance_hostData (s : State) : s.advance.hostData = s.hostData := by
  unfold State.advance; split <;> [split <;> rfl; rfl]
@[simp] theorem State.advance_moves (s : State) : s.advance.moves = s.moves := by
  unfold State.advance; split <;> [split <;> rfl; rfl]
@[simp] theorem beginHeader_freq (s : State) : (beginHeader s).freq = s.freq := by
  unfold beginHeader; split <;> rfl
@[simp] theorem beginHeader_node (s : State) : (beginHeader s).node = s.node := by
  unfold beginHeader; split <;> rfl
@[simp] theorem beginHeader_code (s : State) : (beginHeader s).code = s.code := by
  unfold beginHeader; split <;> rfl
@[simp] theorem beginHeader_live (s : State) : (beginHeader s).live = s.live := by
  unfold beginHeader; split <;> rfl
@[simp] theorem beginHeader_root (s : State) : (beginHeader s).root = s.root := by
  unfold beginHeader; split <;> rfl
@[simp] theorem beginHeader_nlive (s : State) : (beginHeader s).nlive = s.nlive := by
  unfold beginHeader; split <;> rfl
@[simp] theorem beginHeader_cur (s : State) : (beginHeader s).cur = s.cur := by
  unfold beginHeader; split <;> rfl
@[simp] theorem beginHeader_phase (s : State) : (beginHeader s).phase = s.phase := by
  unfold beginHeader; split <;> rfl
@[simp] theorem beginHeader_state (s : State) : (beginHeader s).state = s.state := by
  unfold beginHeader; split <;> rfl
@[simp] theorem beginHeader_freqValid (s : State) : (beginHeader s).freqValid = s.freqValid := by
  unfold beginHeader; split <;> rfl
@[simp] theorem beginHeader_treeValid (s : State) : (beginHeader s).treeValid = s.treeValid := by
  unfold beginHeader; split <;> rfl
@[simp] theorem beginHeader_codeValid (s : State) : (beginHeader s).codeValid = s.codeValid := by
  unfold beginHeader; split <;> rfl
@[simp] theorem beginHeader_sinkClosed (s : State) : (beginHeader s).sinkClosed = s.sinkClosed := by
  unfold beginHeader; split <;> rfl
@[simp] theorem beginHeader_errEoi (s : State) : (beginHeader s).errEoi = s.errEoi := by
  unfold beginHeader; split <;> rfl
@[simp] theorem beginHeader_errCause (s : State) : (beginHeader s).errCause = s.errCause := by
  unfold beginHeader; split <;> rfl
@[simp] theorem beginHeader_errInfo (s : State) : (beginHeader s).errInfo = s.errInfo := by
  unfold beginHeader; split <;> rfl
@[simp] theorem beginHeader_cmd (s : State) : (beginHeader s).cmd = s.cmd := by
  unfold beginHeader; split <;> rfl
@[simp] theorem beginHeader_trav (s : State) : (beginHeader s).trav = s.trav := by
  unfold beginHeader; split <;> rfl
@[simp] theorem beginHeader_src (s : State) : (beginHeader s).src = s.src := by
  unfold beginHeader; split <;> rfl
@[simp] theorem beginHeader_sink (s : State) : (beginHeader s).sink = s.sink := by
  unfold beginHeader; split <;> rfl
@[simp] theorem beginHeader_hostData (s : State) : (beginHeader s).hostData = s.hostData := by
  unfold beginHeader; split <;> rfl
@[simp] theorem beginHeader_moves (s : State) : (beginHeader s).moves = s.moves := by
  unfold beginHeader; split <;> rfl

end Sys2Proof.Machine
end

