-- ==== Sys2Proof/Laws/Ops.lean ====
section
/-! SUPPORT. What each shared operation can do, said once: sequencing of runs, tables and their canonical form, the ports, table
operands, popping and unwinding. -/

namespace Sys2Proof.Machine

/-! ## Runs -/

@[simp] theorem Run.bind_ok {α β : Type} (a : α) (s : State) (k : α → State → Run β) :
    (Run.ok a s).bind k = k a s := rfl

@[simp] theorem Run.bind_raised {α β : Type} (s : State) (k : α → State → Run β) :
    (Run.raised s : Run α).bind k = .raised s := rfl

@[simp] theorem Run.bind_bad {α β : Type} (f : Fault) (k : α → State → Run β) :
    (Run.bad f : Run α).bind k = .bad f := rfl

/-- Two stretches end at the last statement when both do. -/
theorem Run.bind_eq_ok {α β : Type} {r : Run α} {k : α → State → Run β} {b : β} {t : State} :
    r.bind k = .ok b t ↔ ∃ a u, r = .ok a u ∧ k a u = .ok b t := by
  cases r <;> simp [Run.bind]

/-- They raise when the first does, or when it ends and the second raises. -/
theorem Run.bind_eq_raised {α β : Type} {r : Run α} {k : α → State → Run β} {t : State} :
    r.bind k = .raised t ↔ r = .raised t ∨ ∃ a u, r = .ok a u ∧ k a u = .raised t := by
  cases r <;> simp [Run.bind]

/-- A micro-operation answers a next state when it ends or raises. -/
theorem Run.outcome_eq_next {r : Run Unit} {t : State} :
    r.outcome = .next t ↔ r = .ok () t ∨ r = .raised t := by
  cases r <;> simp [Run.outcome]

@[simp] theorem Run.outcome_ok (u : Unit) (s : State) : (Run.ok u s).outcome = .next s := rfl

@[simp] theorem Run.outcome_raised (s : State) : (Run.raised s : Run Unit).outcome = .next s := rfl

@[simp] theorem Run.raise_ne_ok {α : Type} (c : Cause) (w : Word) (e : Bool) (s t : State) (a : α) :
    (Run.raise c w e s : Run α) ≠ .ok a t := by simp [Run.raise]

theorem andThen_eq_next {o : Host.Outcome State Fault Refusal}
    {k : State → Host.Outcome State Fault Refusal} {t : State} :
    andThen o k = .next t ↔ ∃ u, o = .next u ∧ k u = .next t := by
  cases o <;> simp [andThen]

/-! ## Tables -/

/-- A read after a write to the same index gives the entry written. -/
theorem Table.read_write_same {α : Type} (t : Table α) (i : Nat) (v : α) :
    (Table.write t i v).read i = some v := by
  induction t with
  | nil => simp [Table.write, Table.read]
  | cons e rest ih =>
    obtain ⟨k, u⟩ := e
    simp only [Table.write]
    split
    · simp [Table.read]
    · split
      · simp [Table.read]
      · simp [Table.read, ih, Ne.symm ‹¬ i = k›]

/-- A write leaves every other entry alone. -/
theorem Table.read_write_other {α : Type} (t : Table α) {i j : Nat} (v : α) (h : i ≠ j) :
    (Table.write t i v).read j = t.read j := by
  induction t with
  | nil => simp [Table.write, Table.read, h]
  | cons e rest ih =>
    obtain ⟨k, u⟩ := e
    simp only [Table.write]
    split
    · simp [Table.read, h]
    · split
      · next hk => subst hk; simp [Table.read, h]
      · simp [Table.read, ih]

/-- A write inside the capacity keeps the canonical form. -/
theorem Table.rising_write {α : Type} {cap : Nat} (t : Table α) {lo i : Nat} (v : α)
    (h : Table.risingFrom cap lo t = true) (hlo : lo ≤ i) (hcap : i < cap) :
    Table.risingFrom cap lo (Table.write t i v) = true := by
  induction t generalizing lo with
  | nil => simp [Table.write, Table.risingFrom, hlo, hcap]
  | cons e rest ih =>
    obtain ⟨k, u⟩ := e
    simp only [Table.risingFrom, Bool.and_eq_true, decide_eq_true_eq] at h
    obtain ⟨⟨h1, h2⟩, h3⟩ := h
    simp only [Table.write]
    split
    · simp [Table.risingFrom, hlo, hcap, h2, h3]; omega
    · split
      · subst i; simp [Table.risingFrom, hlo, hcap, h3]
      · simp [Table.risingFrom, h1, h2]; exact ih h3 (by omega)

theorem Table.rising_fill_aux {α : Type} (v : α) (k n cap : Nat) (h : k + n ≤ cap) :
    Table.risingFrom cap k ((List.range' k n).map (fun i => (i, v))) = true := by
  induction n generalizing k with
  | zero => rfl
  | succ n ih =>
    simp only [List.range'_succ, List.map_cons, Table.risingFrom, Bool.and_eq_true, decide_eq_true_eq]
    exact ⟨⟨Nat.le_refl _, by omega⟩, ih (k + 1) (by omega)⟩

/-- A cleared table has the canonical form. -/
theorem Table.rising_fill {α : Type} (n cap : Nat) (v : α) (h : n ≤ cap) :
    Table.risingFrom cap 0 (Table.fill n v) = true := by
  unfold Table.fill
  rw [List.range_eq_range']
  exact Table.rising_fill_aux v 0 n cap (by omega)

theorem Table.read_fill_aux {α : Type} (v : α) (k n i : Nat) :
    Table.read ((List.range' k n).map (fun i => (i, v))) i = if k ≤ i ∧ i < k + n then some v else none := by
  induction n generalizing k with
  | zero => simp [Table.read]
  | succ n ih =>
    simp only [List.range'_succ, List.map_cons, Table.read, ih]
    by_cases hk : k = i
    · simp [hk]
    · simp only [hk, if_false]; congr 1; simp; omega

/-- What a cleared table reads as. -/
theorem Table.read_fill {α : Type} (n i : Nat) (v : α) :
    Table.read (Table.fill n v) i = if i < n then some v else none := by
  unfold Table.fill
  rw [List.range_eq_range', Table.read_fill_aux]
  simp

/-- An index at or above the capacity is never listed. -/
theorem Table.read_outside {α : Type} {cap : Nat} (t : Table α) {lo i : Nat}
    (h : Table.risingFrom cap lo t = true) (hi : cap ≤ i) : t.read i = none := by
  induction t generalizing lo with
  | nil => rfl
  | cons e rest ih =>
    obtain ⟨k, u⟩ := e
    simp only [Table.risingFrom, Bool.and_eq_true, decide_eq_true_eq] at h
    simp only [Table.read]
    rw [if_neg (by omega)]
    exact ih h.2

/-! ## LIVE -/

/-- Inserting an index inside the capacity keeps LIVE's form. -/
theorem liveRising_insert {cap : Nat} (l : List Nat) {lo i : Nat}
    (h : liveRisingFrom cap lo l = true) (hlo : lo ≤ i) (hcap : i < cap) :
    liveRisingFrom cap lo (liveInsert i l) = true := by
  induction l generalizing lo with
  | nil => simp [liveInsert, liveRisingFrom, hlo, hcap]
  | cons k rest ih =>
    simp only [liveRisingFrom, Bool.and_eq_true, decide_eq_true_eq] at h
    obtain ⟨⟨h1, h2⟩, h3⟩ := h
    simp only [liveInsert]
    split
    · simp [liveRisingFrom, hlo, hcap, h2, h3]; omega
    · split
      · simp [liveRisingFrom, h1, h2, h3]
      · simp [liveRisingFrom, h1, h2]; exact ih h3 (by omega)

theorem liveRising_weaken {cap : Nat} (l : List Nat) {lo lo' : Nat}
    (h : liveRisingFrom cap lo' l = true) (hl : lo ≤ lo') : liveRisingFrom cap lo l = true := by
  cases l with
  | nil => rfl
  | cons k rest =>
    simp only [liveRisingFrom, Bool.and_eq_true, decide_eq_true_eq] at h ⊢
    exact ⟨⟨by omega, h.1.2⟩, h.2⟩

/-- Taking an index out keeps LIVE's form. -/
theorem liveRising_erase {cap : Nat} (l : List Nat) {lo : Nat} (i : Nat)
    (h : liveRisingFrom cap lo l = true) : liveRisingFrom cap lo (l.erase i) = true := by
  induction l generalizing lo with
  | nil => exact h
  | cons k rest ih =>
    simp only [liveRisingFrom, Bool.and_eq_true, decide_eq_true_eq] at h
    obtain ⟨⟨h1, h2⟩, h3⟩ := h
    rw [List.erase_cons]
    split
    · exact liveRising_weaken rest h3 (by omega)
    · simp [liveRisingFrom, h1, h2]; exact ih h3

theorem mem_liveInsert {i j : Nat} (l : List Nat) : j ∈ liveInsert i l ↔ j = i ∨ j ∈ l := by
  induction l with
  | nil => simp [liveInsert]
  | cons k rest ih =>
    simp only [liveInsert]
    split
    · simp
    · split
      · subst i; simp
      · simp [ih]; tauto

/-! ## Table operands -/

/-- A table read that ends leaves the state alone and gives the entry listed. -/
theorem readEntry_eq_ok {α : Type} {name : TableName} {cap i : Nat} {t : Table α} {s u : State} {v : α} :
    readEntry name cap t i s = .ok v u ↔ i < cap ∧ t.read i = some v ∧ u = s := by
  unfold readEntry
  split
  · next hi =>
    cases hr : t.read i with
    | none => simp
    | some w => simp [hi, eq_comm]
  · next hi => simp [hi]

theorem readEntry_ne_raised {α : Type} {name : TableName} {cap i : Nat} {t : Table α} {s u : State} :
    (readEntry name cap t i s) ≠ (.raised u : Run α) := by
  unfold readEntry
  split
  · split <;> simp
  · simp

theorem readFreq_eq_ok {i : Nat} {s u : State} {v : Count} :
    readFreq i s = .ok v u ↔ i < Config.nsym ∧ s.freq.read i = some v ∧ u = s := readEntry_eq_ok

theorem readNode_eq_ok {i : Nat} {s u : State} {v : Node} :
    readNode i s = .ok v u ↔ i < Config.nodeCap ∧ s.node.read i = some v ∧ u = s := readEntry_eq_ok

theorem readCode_eq_ok {i : Nat} {s u : State} {v : CodeEntry} :
    readCode i s = .ok v u ↔ i < Config.nsym ∧ s.code.read i = some v ∧ u = s := readEntry_eq_ok

theorem readFreq_ne_raised {i : Nat} {s u : State} : readFreq i s ≠ .raised u := readEntry_ne_raised

theorem readNode_ne_raised {i : Nat} {s u : State} : readNode i s ≠ .raised u := readEntry_ne_raised

theorem readCode_ne_raised {i : Nat} {s u : State} : readCode i s ≠ .raised u := readEntry_ne_raised

theorem writeFreq_eq_ok {i : Nat} {v : Count} {s u : State} :
    writeFreq i v s = .ok () u ↔ i < Config.nsym ∧ u = { s with freq := s.freq.write i v } := by
  unfold writeFreq
  split <;> simp_all [eq_comm]

theorem writeNode_eq_ok {i : Nat} {v : Node} {s u : State} :
    writeNode i v s = .ok () u ↔ i < Config.nodeCap ∧ u = { s with node := s.node.write i v } := by
  unfold writeNode
  split <;> simp_all [eq_comm]

theorem writeCode_eq_ok {i : Nat} {v : CodeEntry} {s u : State} :
    writeCode i v s = .ok () u ↔ i < Config.nsym ∧ u = { s with code := s.code.write i v } := by
  unfold writeCode
  split <;> simp_all [eq_comm]

theorem writeFreq_ne_raised {i : Nat} {v : Count} {s u : State} : writeFreq i v s ≠ .raised u := by
  unfold writeFreq; split <;> simp

theorem writeNode_ne_raised {i : Nat} {v : Node} {s u : State} : writeNode i v s ≠ .raised u := by
  unfold writeNode; split <;> simp

theorem writeCode_ne_raised {i : Nat} {v : CodeEntry} {s u : State} : writeCode i v s ≠ .raised u := by
  unfold writeCode; split <;> simp

/-! ## The canonical form under the named writes -/

/-- What the canonical form says of each table. -/
theorem Memory.wf_iff (s : State) :
    Memory.wf s = true ↔ Table.risingFrom Config.nsym 0 s.freq = true ∧
      Table.risingFrom Config.nodeCap 0 s.node = true ∧ Table.risingFrom Config.nsym 0 s.code = true ∧
      liveRisingFrom Config.nodeCap 0 s.live = true := by
  simp [Memory.wf, and_assoc]

/-- The canonical form looks at the four tables only. -/
theorem Memory.wf_congr {s t : State} (hf : t.freq = s.freq) (hn : t.node = s.node) (hc : t.code = s.code)
    (hl : t.live = s.live) : Memory.wf t = Memory.wf s := by
  simp [Memory.wf, hf, hn, hc, hl]

theorem writeFreq_wf {i : Nat} {v : Count} {s t : State} (h : writeFreq i v s = .ok () t)
    (w : Memory.wf s = true) : Memory.wf t = true := by
  obtain ⟨hi, rfl⟩ := writeFreq_eq_ok.1 h
  rw [Memory.wf_iff] at w ⊢
  exact ⟨Table.rising_write _ v w.1 (Nat.zero_le _) hi, w.2⟩

theorem writeNode_wf {i : Nat} {v : Node} {s t : State} (h : writeNode i v s = .ok () t)
    (w : Memory.wf s = true) : Memory.wf t = true := by
  rw [writeNode_eq_ok] at h; obtain ⟨hi, rfl⟩ := h
  rw [Memory.wf_iff] at w ⊢
  exact ⟨w.1, Table.rising_write _ v w.2.1 (Nat.zero_le _) hi, w.2.2⟩

theorem writeCode_wf {i : Nat} {v : CodeEntry} {s t : State} (h : writeCode i v s = .ok () t)
    (w : Memory.wf s = true) : Memory.wf t = true := by
  obtain ⟨hi, rfl⟩ := writeCode_eq_ok.1 h
  rw [Memory.wf_iff] at w ⊢
  exact ⟨w.1, w.2.1, Table.rising_write _ v w.2.2.1 (Nat.zero_le _) hi, w.2.2.2⟩

theorem reset_wf : Memory.wf State.reset = true := by decide

/-! ## Ports -/

/-- `ReadBits(n)` with enough bits left (R62). -/
theorem Source.readBits_enough {n : Nat} {src : Source} (h : src.pos + n ≤ src.bits.length) :
    src.readBits n =
      (some (BitVec.ofNat n (fromMsb (src.remaining.take n))), { src with pos := src.pos + n }) := by
  simp [Source.readBits, h]

/-- `ReadBits(n)` with too few (R63). -/
theorem Source.readBits_short {n : Nat} {src : Source} (h : ¬ src.pos + n ≤ src.bits.length) :
    src.readBits n = (none, { src with pos := src.bits.length }) := by
  simp [Source.readBits, h]

@[simp] theorem Source.readBits_bits (n : Nat) (src : Source) : (src.readBits n).2.bits = src.bits := by
  unfold Source.readBits; split <;> rfl

@[simp] theorem Source.readBits_rewound (n : Nat) (src : Source) : (src.readBits n).2.rewound = src.rewound := by
  unfold Source.readBits; split <;> rfl

theorem Source.readBits_pos_le (n : Nat) (src : Source) : (src.readBits n).2.pos ≤ src.bits.length := by
  unfold Source.readBits; split <;> simp_all

theorem Source.skip_pos_le (n : Nat) (src : Source) : (src.skip n).pos ≤ (src.skip n).bits.length := by
  simp [Source.skip]

theorem Source.rewind_pos_le (src : Source) : src.rewind.pos ≤ src.rewind.bits.length := by
  simp [Source.rewind]

@[simp] theorem Sink.writeBits_bits (n v : Nat) (k : Sink) : (k.writeBits n v).bits = k.bits ++ msbFirst n v := rfl

@[simp] theorem Sink.writeBits_closed (n v : Nat) (k : Sink) : (k.writeBits n v).closed = k.closed := rfl

@[simp] theorem Sink.close_closed (k : Sink) : k.close.closed = true := rfl

@[simp] theorem msbFirst_length (n v : Nat) : (msbFirst n v).length = n := by
  induction n with
  | zero => rfl
  | succ n ih => simp [msbFirst, ih]

theorem fromMsb_append (as bs : Bits) : fromMsb (as ++ bs) = fromMsb as * 2 ^ bs.length + fromMsb bs := by
  have key : ∀ (bs : Bits) (a : Nat),
      bs.foldl (fun a b => 2 * a + b.toNat) a = a * 2 ^ bs.length + fromMsb bs := by
    intro bs
    induction bs with
    | nil => intro a; simp [fromMsb]
    | cons b rest ih =>
      intro a
      simp only [List.foldl_cons, List.length_cons, fromMsb]
      rw [ih, ih (2 * 0 + b.toNat)]
      rw [Nat.pow_succ]
      ring
  unfold fromMsb
  rw [List.foldl_append, key]
  rfl

/-- Reading back what was written most significant bit first: the low `n` bits (R69, R71). -/
theorem fromMsb_msbFirst (n v : Nat) : fromMsb (msbFirst n v) = v % 2 ^ n := by
  induction n with
  | zero => simp [msbFirst, fromMsb, Nat.mod_one]
  | succ n ih =>
    have h : msbFirst (n + 1) v = [v.testBit n] ++ msbFirst n v := rfl
    rw [h, fromMsb_append, ih, msbFirst_length]
    have h1 : fromMsb [v.testBit n] = v / 2 ^ n % 2 := by
      simp only [fromMsb, List.foldl_cons, List.foldl_nil, Nat.mul_zero, Nat.zero_add]
      rw [Nat.testBit_eq_decide_div_mod_eq]
      rcases Nat.mod_two_eq_zero_or_one (v / 2 ^ n) with h | h <;> simp [h]
    rw [h1, Nat.pow_succ, Nat.mod_mul, Nat.add_comm, Nat.mul_comm]

/-! ## PopMin and the stack -/

/-- Scanning LIVE for the first node leaves the state alone and gives one of the indexes scanned. -/
theorem firstInOrder_eq_ok {l : List Nat} {w : Weight} {m r : Nat} {s u : State}
    (h : firstInOrder w m l s = .ok r u) : u = s ∧ (r = m ∨ r ∈ l) := by
  induction l generalizing w m with
  | nil => simp only [firstInOrder, Run.ok.injEq] at h; exact ⟨h.2.symm, .inl h.1.symm⟩
  | cons i rest ih =>
    simp only [firstInOrder] at h
    rw [Run.bind_eq_ok] at h; obtain ⟨n, s', hn, h⟩ := h
    rw [readNode_eq_ok] at hn; obtain ⟨-, -, rfl⟩ := hn
    split at h
    · obtain ⟨hu, hr⟩ := ih h
      exact ⟨hu, by rcases hr with rfl | hr <;> simp_all⟩
    · obtain ⟨hu, hr⟩ := ih h
      exact ⟨hu, by rcases hr with rfl | hr <;> simp_all⟩

theorem firstInOrder_ne_raised {l : List Nat} {w : Weight} {m : Nat} {s u : State} :
    firstInOrder w m l s ≠ .raised u := by
  induction l generalizing w m with
  | nil => simp [firstInOrder]
  | cons i rest ih =>
    intro h
    simp only [firstInOrder] at h
    rw [Run.bind_eq_raised] at h; rcases h with h | ⟨n, s', hn, h⟩
    · exact readNode_ne_raised h
    · rw [readNode_eq_ok] at hn; obtain ⟨-, -, rfl⟩ := hn
      split at h <;> exact ih h

/-- PopMin takes one live node out and counts it off; nothing else changes. -/
theorem popMin_eq_ok {m : Nat} {s u : State} (h : popMin s = .ok m u) :
    m ∈ s.live ∧ u = { s with live := s.live.erase m, nlive := s.nlive - 1 } := by
  unfold popMin at h
  split at h
  · simp at h
  · next i rest hl =>
    rw [Run.bind_eq_ok] at h; obtain ⟨n, s', hn, h⟩ := h
    rw [readNode_eq_ok] at hn; obtain ⟨-, -, rfl⟩ := hn
    rw [Run.bind_eq_ok] at h; obtain ⟨r, s'', hr, h⟩ := h
    replace hr := firstInOrder_eq_ok hr; obtain ⟨rfl, hm⟩ := hr
    simp only [Run.ok.injEq] at h
    obtain ⟨rfl, rfl⟩ := h
    exact ⟨by rw [hl]; rcases hm with rfl | hm <;> simp_all, rfl⟩

theorem popMin_ne_raised {s u : State} : popMin s ≠ .raised u := by
  intro h
  unfold popMin at h
  split at h
  · simp at h
  · rw [Run.bind_eq_raised] at h; rcases h with h | ⟨n, s', hn, h⟩
    · exact readNode_ne_raised h
    · rw [Run.bind_eq_raised] at h; rcases h with h | ⟨r, s'', hr, h⟩
      · exact firstInOrder_ne_raised h
      · simp at h

/-- One merge: two live nodes are replaced by a new Internal node at NEXT. -/
theorem mergeOnce_eq_ok {s u : State} (h : mergeOnce s = .ok () u) :
    ∃ a b na nb,
      a ∈ s.live ∧ b ∈ s.live.erase a ∧ s.node.read a = some na ∧ s.node.read b = some nb ∧
      s.next.toNat < Config.nodeCap ∧
      u = { s with
        node := s.node.write s.next.toNat
          (internalNode (na.weight + nb.weight) (BitVec.ofNat 10 a) (BitVec.ofNat 10 b))
        live := liveInsert s.next.toNat ((s.live.erase a).erase b)
        nlive := s.nlive - 1 - 1 + 1, next := s.next + 1 } := by
  unfold mergeOnce at h
  rw [Run.bind_eq_ok] at h; obtain ⟨a, s1, ha, h⟩ := h
  replace ha := popMin_eq_ok ha; obtain ⟨ha, rfl⟩ := ha
  rw [Run.bind_eq_ok] at h; obtain ⟨b, s2, hb, h⟩ := h
  replace hb := popMin_eq_ok hb; obtain ⟨hb, rfl⟩ := hb
  rw [Run.bind_eq_ok] at h; obtain ⟨na, s3, hna, h⟩ := h
  rw [readNode_eq_ok] at hna; obtain ⟨-, hna, rfl⟩ := hna
  rw [Run.bind_eq_ok] at h; obtain ⟨nb, s4, hnb, h⟩ := h
  rw [readNode_eq_ok] at hnb; obtain ⟨-, hnb, rfl⟩ := hnb
  rw [Run.bind_eq_ok] at h; obtain ⟨_, s5, hw, h⟩ := h
  rw [writeNode_eq_ok] at hw; obtain ⟨hn, rfl⟩ := hw
  simp only [Run.ok.injEq] at h
  exact ⟨a, b, na, nb, ha, hb, hna, hnb, hn, h.2.symm⟩

theorem mergeOnce_ne_raised {s u : State} : mergeOnce s ≠ .raised u := by
  intro h
  unfold mergeOnce at h
  rw [Run.bind_eq_raised] at h; rcases h with h | ⟨a, s1, -, h⟩
  · exact popMin_ne_raised h
  rw [Run.bind_eq_raised] at h; rcases h with h | ⟨b, s2, -, h⟩
  · exact popMin_ne_raised h
  rw [Run.bind_eq_raised] at h; rcases h with h | ⟨na, s3, -, h⟩
  · exact readNode_ne_raised h
  rw [Run.bind_eq_raised] at h; rcases h with h | ⟨nb, s4, -, h⟩
  · exact readNode_ne_raised h
  rw [Run.bind_eq_raised] at h; rcases h with h | ⟨_, s5, -, h⟩
  · exact writeNode_ne_raised h
  simp at h

/-- Taking an index: the table is full and TREE_OVERFLOW is raised, or NEXT goes up by one. -/
theorem takeIndex_cases (s : State) :
    (s.next.toNat = Config.nodeCap ∧
      takeIndex s = Run.raise .treeOverflow (BitVec.ofNat 32 Config.nodeCap) false s) ∨
    (s.next.toNat ≠ Config.nodeCap ∧ takeIndex s = .ok s.next { s with next := s.next + 1 }) := by
  unfold takeIndex
  split
  · exact .inl ⟨‹_›, rfl⟩
  · exact .inr ⟨‹_›, rfl⟩

theorem pushFrame_eq_ok {i : Idx} {s u : State} :
    pushFrame i s = .ok () u ↔ s.trav.frames.length < Config.nodeCap ∧
      u = { s with trav := { s.trav with frames := ⟨i, false⟩ :: s.trav.frames } } := by
  unfold pushFrame
  split <;> simp_all [eq_comm]

/-- Unwinding never makes the stack longer. -/
theorem unwind_length (fs : List Frame) : (unwind fs).2.length ≤ fs.length := by
  induction fs with
  | nil => simp [unwind]
  | cons f rest ih =>
    obtain ⟨i, d⟩ := f
    cases d
    · simp [unwind]
    · simp [unwind]; omega

/-- Emit appends a code's bits in path order and changes nothing else (R192). -/
theorem emitCode_eq (c : CodeEntry) (k : Nat) (s : State) :
    emitCode c.pat k s = { s with sink := { s.sink with bits := s.sink.bits ++ msbFirst k c.pat.toNat } } := by
  induction k generalizing s with
  | zero => simp [emitCode, msbFirst]
  | succ k ih =>
    have hb : msbFirst 1 (c.pat.getLsbD k).toNat = [c.pat.toNat.testBit k] := by
      simp only [BitVec.getLsbD]
      cases c.pat.toNat.testBit k <;> rfl
    simp only [emitCode]
    rw [ih]
    simp only [State.writeBits, Sink.writeBits, hb, List.append_assoc]
    rfl

end Sys2Proof.Machine
end

