-- ==== Sys2Proof/Laws/PerInstr.lean ====
section
/-! SUPPORT. The per-instruction family RowWidth: an operation's encoding has as many bits as its format and row have
(30_encoding.md R102 to R104, R113, R116). -/

namespace Sys2Proof.Laws.RowWidth

open Sys2Proof.Machine (msbFirst_length)

/-- How many bits an encoding has. -/
def encodingBits : Encoding → Nat
  | .command _ => 32
  | .phase _ => 4
  | .tagBits bs => bs.length
  | .headerBits bs => bs.length

/-- How many bits an operation's row has: CMD32, PHASE4, TAG's 32, INTERNAL's 1, LEAF's 10. -/
def rowBits : Instr → Nat
  | .compress | .decompress | .clear => 32
  | .count | .build | .gencodes | .wrtag | .wrhdr | .encode | .rdtag | .rdhdr | .decode | .close => 4
  | .tag _ => 32
  | .internal => 1
  | .leaf _ => 10

/-- The encoding of the operation has its row's width. -/
def Statement (i : Instr) : Prop := encodingBits (Sys2Proof.encode i) = rowBits i

theorem compress : Statement .compress := rfl
theorem decompress : Statement .decompress := rfl
theorem clear : Statement .clear := rfl
theorem count : Statement .count := rfl
theorem build : Statement .build := rfl
theorem gencodes : Statement .gencodes := rfl
theorem wrtag : Statement .wrtag := rfl
theorem wrhdr : Statement .wrhdr := rfl
theorem encode : Statement .encode := rfl
theorem rdtag : Statement .rdtag := rfl
theorem rdhdr : Statement .rdhdr := rfl
theorem decode : Statement .decode := rfl
theorem close : Statement .close := rfl
theorem tag (m : Word) : Statement (.tag m) := msbFirst_length 32 m.toNat
theorem internal : Statement .internal := rfl
theorem leaf (sym : Sym) : Statement (.leaf sym) := by
  simp [Statement, encodingBits, rowBits, Sys2Proof.encode, msbFirst_length]

end Sys2Proof.Laws.RowWidth
end

