-- ==== Sys2Proof/Laws/Units.lean ====
section
/-! SUPPORT. What each loop and recursion inside a micro-operation can do, said once: the form of the state where it ends and
where it raises. The provers cite these instead of unfolding the loops. -/

namespace Sys2Proof.Machine

/-! ## Decoding -/

theorem decodeCommand_other {w : Word} (h1 : w ≠ 1) (h2 : w ≠ 2) (h3 : w ≠ 3) :
    decodeCommand w = .error (.illegalCommand w) := by
  unfold decodeCommand
  rw [if_neg h1, if_neg h2, if_neg h3]

theorem decodeCommand_eq_ok {w : Word} {i : Instr} (h : decodeCommand w = .ok i) :
    (w = 1 ∧ i = .compress) ∨ (w = 2 ∧ i = .decompress) ∨ (w = 3 ∧ i = .clear) := by
  unfold decodeCommand at h
  split at h
  · exact .inl ⟨‹_›, by simpa using h.symm⟩
  · split at h
    · exact .inr (.inl ⟨‹_›, by simpa using h.symm⟩)
    · split at h
      · exact .inr (.inr ⟨‹_›, by simpa using h.symm⟩)
      · simp at h

/-- The fetch of PHASE's own code. -/
theorem decodePhase_code (p : Phase) :
    decodePhase p.code = match p with
      | .none => .error .noMicroOperation
      | .count => .ok .count
      | .build => .ok .build
      | .gencodes => .ok .gencodes
      | .wrtag => .ok .wrtag
      | .wrhdr => .ok .wrhdr
      | .encode => .ok .encode
      | .rdtag => .ok .rdtag
      | .rdhdr => .ok .rdhdr
      | .decode => .ok .decode
      | .close => .ok .close := by
  cases p <;> rfl

/-- A header token is INTERNAL or LEAF. -/
theorem decodeHeader_eq_ok {bs rest : Bits} {i : Instr} (h : decodeHeader bs = .ok (i, rest)) :
    i = .internal ∨ ∃ sym, i = .leaf sym := by
  unfold decodeHeader at h
  split at h
  · simp at h
  · simp at h; exact .inl h.1.symm
  · split at h
    · simp at h; exact .inr ⟨_, h.1.symm⟩
    · simp at h

/-! ## COUNT -/

theorem countLoop_frame {limit : Count} {fuel : Nat} {s : State} :
    (∀ t, countLoop limit fuel s = .ok () t →
      ∃ freq pos, t = { s with freq := freq, src := { s.src with pos := pos } }) ∧
    (∀ t, countLoop limit fuel s = .raised t →
      ∃ freq pos, ∃ v : Byte, t = State.errorEntry .countOverflow (v.setWidth 32) false
        { s with freq := freq, src := { s.src with pos := pos } }) := by
  induction fuel generalizing s with
  | zero => simp [countLoop]
  | succ fuel ih =>
    simp only [countLoop]
    cases hr : s.readBits 8 with
    | mk o s1 =>
      have h1 : s1 = { s with src := { s.src with pos := s1.src.pos } } := by
        have := congrArg Prod.snd hr
        simp only [State.readBits, Source.readBits] at this
        split at this <;> (subst this; rfl)
      cases o with
      | none =>
        refine ⟨fun t h => ?_, fun t h => ?_⟩
        · simp only [Run.ok.injEq, true_and] at h; subst h; exact ⟨s.freq, _, h1⟩
        · simp at h
      | some v =>
        refine ⟨fun t h => ?_, fun t h => ?_⟩
        · dsimp only at h
          rw [Run.bind_eq_ok] at h; obtain ⟨c, s2, h2, h⟩ := h
          rw [readFreq_eq_ok] at h2; obtain ⟨-, -, rfl⟩ := h2
          split at h
          · simp at h
          · rw [Run.bind_eq_ok] at h; obtain ⟨_u, s3, h3, h⟩ := h
            rw [writeFreq_eq_ok] at h3; obtain ⟨-, rfl⟩ := h3
            obtain ⟨freq, pos, rfl⟩ := ih.1 t h
            rw [h1]; exact ⟨freq, pos, rfl⟩
        · dsimp only at h
          rw [Run.bind_eq_raised] at h
          rcases h with h | ⟨c, s2, h2, h⟩
          · exact absurd h readFreq_ne_raised
          rw [readFreq_eq_ok] at h2; obtain ⟨-, -, rfl⟩ := h2
          split at h
          · simp only [Run.raise, Run.raised.injEq] at h
            rw [h1] at h; exact ⟨_, _, v, h.symm⟩
          · rw [Run.bind_eq_raised] at h
            rcases h with h | ⟨_u, s3, h3, h⟩
            · exact absurd h writeFreq_ne_raised
            rw [writeFreq_eq_ok] at h3; obtain ⟨-, rfl⟩ := h3
            obtain ⟨freq, pos, w, rfl⟩ := ih.2 t h
            rw [h1]; exact ⟨freq, pos, w, rfl⟩

theorem countLoop_wf {limit : Count} {fuel : Nat} {s t : State} (w : Memory.wf s = true)
    (h : countLoop limit fuel s = .ok () t ∨ countLoop limit fuel s = .raised t) : Memory.wf t = true := by
  induction fuel generalizing s with
  | zero => simp [countLoop] at h
  | succ fuel ih =>
    simp only [countLoop] at h
    cases hr : s.readBits 8 with
    | mk o s1 =>
      have h1 : Memory.wf s1 = true := by
        have := congrArg Prod.snd hr; dsimp only at this; subst this
        rw [Memory.wf_congr rfl rfl rfl rfl]; exact w
      cases o with
      | none => simp only [hr] at h; rcases h with h | h <;> simp at h; subst h; exact h1
      | some v =>
        simp only [hr] at h
        cases h2 : readFreq v.toNat s1 with
        | bad f => simp [h2] at h
        | raised u => exact absurd h2 readFreq_ne_raised
        | ok c s2 =>
          rw [readFreq_eq_ok] at h2; obtain ⟨a, b, rfl⟩ := h2
          have h2 : readFreq v.toNat s2 = .ok c s2 := by rw [readFreq_eq_ok]; exact ⟨a, b, rfl⟩
          simp only [h2, Run.bind_ok] at h
          split at h
          · rcases h with h | h
            · simp at h
            · simp only [Run.raise, Run.raised.injEq] at h; subst h
              exact (Memory.wf_congr (s := s2) (by simp) (by simp) (by simp) (by simp)).trans h1
          · cases h3 : writeFreq v.toNat (c + 1) s2 with
            | bad f =>
              have h3' : writeFreq v.toNat (c + 1#32) s2 = .bad f := h3
              simp [h3'] at h
            | raised u => exact absurd h3 writeFreq_ne_raised
            | ok x s3 =>
              simp only [h3, Run.bind_ok] at h
              exact ih (writeFreq_wf h3 h1) h

/-! ## BUILD -/

theorem buildLeaves_frame {l : List Nat} {s t : State} (h : buildLeaves l s = .ok () t) :
    ∃ node live nlive, t = { s with node := node, live := live, nlive := nlive } := by
  induction l generalizing s with
  | nil => simp only [buildLeaves, Run.ok.injEq, true_and] at h; subst h; exact ⟨_, _, _, rfl⟩
  | cons i rest ih =>
    simp only [buildLeaves] at h
    rw [Run.bind_eq_ok] at h; obtain ⟨c, s2, h2, h⟩ := h
    rw [readFreq_eq_ok] at h2; obtain ⟨-, -, rfl⟩ := h2
    split at h
    · exact ih h
    · rw [Run.bind_eq_ok] at h; obtain ⟨_u, s3, h3, h⟩ := h
      rw [writeNode_eq_ok] at h3; obtain ⟨-, rfl⟩ := h3
      obtain ⟨node, live, nlive, rfl⟩ := ih h
      exact ⟨node, live, nlive, rfl⟩

theorem buildLeaves_ne_raised {l : List Nat} {s t : State} : buildLeaves l s ≠ .raised t := by
  induction l generalizing s with
  | nil => simp [buildLeaves]
  | cons i rest ih =>
    intro h
    simp only [buildLeaves] at h
    rw [Run.bind_eq_raised] at h
    rcases h with h | ⟨c, s2, -, h⟩
    · exact readFreq_ne_raised h
    split at h
    · exact ih h
    · rw [Run.bind_eq_raised] at h
      rcases h with h | ⟨_u, s3, -, h⟩
      · exact writeNode_ne_raised h
      · exact ih h

/-- The leaves keep the canonical form, and NLIVE grows by at most one a symbol. -/
theorem buildLeaves_wf {l : List Nat} {s t : State} (h : buildLeaves l s = .ok () t) (w : Memory.wf s = true) :
    Memory.wf t = true := by
  induction l generalizing s with
  | nil => simp only [buildLeaves, Run.ok.injEq, true_and] at h; subst h; exact w
  | cons i rest ih =>
    simp only [buildLeaves] at h
    rw [Run.bind_eq_ok] at h; obtain ⟨c, s2, h2, h⟩ := h
    rw [readFreq_eq_ok] at h2; obtain ⟨hi, -, rfl⟩ := h2
    split at h
    · exact ih h w
    · rw [Run.bind_eq_ok] at h; obtain ⟨_u, s3, h3, h⟩ := h
      have w3 := writeNode_wf h3 w
      rw [writeNode_eq_ok] at h3; obtain ⟨hn, rfl⟩ := h3
      refine ih h ?_
      rw [Memory.wf_iff] at w3 ⊢
      exact ⟨w3.1, w3.2.1, w3.2.2.1, liveRising_insert _ w3.2.2.2 (Nat.zero_le _) hn⟩

theorem buildLeaves_nlive {l : List Nat} {s t : State} (h : buildLeaves l s = .ok () t)
    (hb : s.nlive.toNat + l.length < 1024) :
    t.nlive.toNat ≤ s.nlive.toNat + l.length := by
  induction l generalizing s with
  | nil => simp only [buildLeaves, Run.ok.injEq, true_and] at h; subst h; simp
  | cons i rest ih =>
    simp only [buildLeaves] at h
    rw [Run.bind_eq_ok] at h; obtain ⟨c, s2, h2, h⟩ := h
    rw [readFreq_eq_ok] at h2; obtain ⟨-, -, rfl⟩ := h2
    simp only [List.length_cons] at hb ⊢
    split at h
    · have := ih h (by omega); omega
    · rw [Run.bind_eq_ok] at h; obtain ⟨_u, s3, h3, h⟩ := h
      rw [writeNode_eq_ok] at h3; obtain ⟨-, rfl⟩ := h3
      have e : (s2.nlive + 1 : Idx).toNat = s2.nlive.toNat + 1 := by
        rw [BitVec.toNat_add]; simp; omega
      have := ih h (by dsimp only; omega)
      dsimp only at this; omega

/-- The leaves of a list are placed a part at a time. -/
theorem buildLeaves_append (l m : List Nat) (s : State) :
    buildLeaves (l ++ m) s = (buildLeaves l s).bind fun _ s => buildLeaves m s := by
  induction l generalizing s with
  | nil => rfl
  | cons i rest ih =>
    simp only [List.cons_append, buildLeaves]
    cases readFreq i s with
    | bad f => rfl
    | raised u => rfl
    | ok c u =>
      simp only [Run.bind_ok]
      split
      · exact ih u
      · cases writeNode i (leafNode (BitVec.ofNat 9 i) (c.setWidth 41)) u with
        | bad f => rfl
        | raised v => rfl
        | ok x v => exact ih _

/-- Symbols with count 0 place nothing. -/
theorem buildLeaves_zero {l : List Nat} {s : State} (h : ∀ i ∈ l, i < Config.nsym ∧ s.freq.read i = some 0) :
    buildLeaves l s = .ok () s := by
  induction l with
  | nil => rfl
  | cons i rest ih =>
    have hi := h i (List.mem_cons_self ..)
    have hr : readFreq i s = .ok 0 s := readFreq_eq_ok.2 ⟨hi.1, hi.2, rfl⟩
    simp only [buildLeaves, hr, Run.bind_ok, if_pos]
    exact ih fun j hj => h j (List.mem_cons_of_mem _ hj)

theorem mergeLoop_frame {fuel : Nat} {s t : State} (h : mergeLoop fuel s = .ok () t) :
    ∃ node live nlive next, t = { s with node := node, live := live, nlive := nlive, next := next } := by
  induction fuel generalizing s with
  | zero => simp [mergeLoop] at h
  | succ fuel ih =>
    simp only [mergeLoop] at h
    split at h
    · simp only [Run.ok.injEq, true_and] at h; subst h; exact ⟨_, _, _, _, rfl⟩
    · rw [Run.bind_eq_ok] at h; obtain ⟨_u, s2, h2, h⟩ := h
      obtain ⟨a, b, na, nb, -, -, -, -, -, rfl⟩ := mergeOnce_eq_ok h2
      obtain ⟨node, live, nlive, next, rfl⟩ := ih h
      exact ⟨node, live, nlive, next, rfl⟩

theorem mergeLoop_ne_raised {fuel : Nat} {s t : State} : mergeLoop fuel s ≠ .raised t := by
  induction fuel generalizing s with
  | zero => simp [mergeLoop]
  | succ fuel ih =>
    intro h
    simp only [mergeLoop] at h
    split at h
    · simp at h
    · rw [Run.bind_eq_raised] at h
      rcases h with h | ⟨_u, s2, -, h⟩
      · exact mergeOnce_ne_raised h
      · exact ih h

theorem mergeLoop_wf {fuel : Nat} {s t : State} (h : mergeLoop fuel s = .ok () t) (w : Memory.wf s = true) :
    Memory.wf t = true := by
  induction fuel generalizing s with
  | zero => simp [mergeLoop] at h
  | succ fuel ih =>
    simp only [mergeLoop] at h
    split at h
    · simp only [Run.ok.injEq, true_and] at h; subst h; exact w
    · rw [Run.bind_eq_ok] at h; obtain ⟨_u, s2, h2, h⟩ := h
      obtain ⟨a, b, na, nb, -, -, -, -, hn, rfl⟩ := mergeOnce_eq_ok h2
      refine ih h ?_
      rw [Memory.wf_iff] at w ⊢
      exact ⟨w.1, Table.rising_write _ _ w.2.1 (Nat.zero_le _) hn, w.2.2.1,
        liveRising_insert _ (liveRising_erase _ _ (liveRising_erase _ _ w.2.2.2)) (Nat.zero_le _) hn⟩

/-- The merge loop ends with one live node, NEXT one higher for each merge. -/
theorem mergeLoop_counts {fuel : Nat} {s t : State} (h : mergeLoop fuel s = .ok () t)
    (hf : fuel = s.nlive.toNat) (hb : s.next.toNat + s.nlive.toNat < 1024) :
    t.nlive = 1 ∧ t.next.toNat + 1 = s.next.toNat + s.nlive.toNat := by
  induction fuel generalizing s with
  | zero => simp [mergeLoop] at h
  | succ fuel ih =>
    simp only [mergeLoop] at h
    split at h
    · next h1 =>
      simp only [Run.ok.injEq, true_and] at h; subst h
      refine ⟨h1, ?_⟩; rw [h1]; rfl
    · next h1 =>
      rw [Run.bind_eq_ok] at h; obtain ⟨_u, s2, h2, h⟩ := h
      obtain ⟨a, b, na, nb, -, -, -, -, hn, rfl⟩ := mergeOnce_eq_ok h2
      have hne : s.nlive.toNat ≠ 1 := by
        intro e; exact h1 (BitVec.eq_of_toNat_eq (by simpa using e))
      have e1 : (s.nlive - 1 - 1 + 1 : Idx).toNat = s.nlive.toNat - 1 := by bv_omega
      have e2 : (s.next + 1 : Idx).toNat = s.next.toNat + 1 := by bv_omega
      have := ih h (by dsimp only; omega) (by dsimp only; omega)
      dsimp only at this
      exact ⟨this.1, by omega⟩

theorem buildFinish_eq_ok {s t : State} (h : buildFinish s = .ok () t) :
    ∃ r, s.live = [r] ∧ t = { s with root := BitVec.ofNat 10 r, treeValid := true } := by
  unfold buildFinish at h
  split at h
  · next r hr => simp only [Run.ok.injEq, true_and] at h; exact ⟨r, hr, h.symm⟩
  · simp at h

theorem buildFinish_ne_raised {s t : State} : buildFinish s ≠ .raised t := by
  unfold buildFinish; split <;> simp

/-! ## GENCODES and WRHDR -/

theorem walkCodes_frame {fuel : Nat} {i : Idx} {len : Len} {pat : Pat} {s t : State}
    (h : walkCodes fuel i len pat s = .ok () t) : ∃ code, t = { s with code := code } := by
  induction fuel generalizing i len pat s t with
  | zero => simp [walkCodes] at h
  | succ fuel ih =>
    simp only [walkCodes] at h
    rw [Run.bind_eq_ok] at h; obtain ⟨n, s2, h2, h⟩ := h
    rw [readNode_eq_ok] at h2; obtain ⟨-, -, rfl⟩ := h2
    split at h
    · rw [writeCode_eq_ok] at h; obtain ⟨-, rfl⟩ := h; exact ⟨_, rfl⟩
    · rw [Run.bind_eq_ok] at h; obtain ⟨_u, s3, h3, h⟩ := h
      obtain ⟨c1, rfl⟩ := ih h3
      obtain ⟨c2, rfl⟩ := ih h
      exact ⟨c2, rfl⟩

theorem walkCodes_ne_raised {fuel : Nat} {i : Idx} {len : Len} {pat : Pat} {s t : State} :
    walkCodes fuel i len pat s ≠ .raised t := by
  induction fuel generalizing i len pat s t with
  | zero => simp [walkCodes]
  | succ fuel ih =>
    intro h
    simp only [walkCodes] at h
    rw [Run.bind_eq_raised] at h
    rcases h with h | ⟨n, s2, -, h⟩
    · exact readNode_ne_raised h
    split at h
    · exact writeCode_ne_raised h
    · rw [Run.bind_eq_raised] at h
      rcases h with h | ⟨_u, s3, -, h⟩ <;> exact ih h

theorem walkCodes_wf {fuel : Nat} {i : Idx} {len : Len} {pat : Pat} {s t : State}
    (h : walkCodes fuel i len pat s = .ok () t) (w : Memory.wf s = true) : Memory.wf t = true := by
  induction fuel generalizing i len pat s t with
  | zero => simp [walkCodes] at h
  | succ fuel ih =>
    simp only [walkCodes] at h
    rw [Run.bind_eq_ok] at h; obtain ⟨n, s2, h2, h⟩ := h
    rw [readNode_eq_ok] at h2; obtain ⟨-, -, rfl⟩ := h2
    split at h
    · exact writeCode_wf h w
    · rw [Run.bind_eq_ok] at h; obtain ⟨_u, s3, h3, h⟩ := h
      exact ih h (ih h3 w)

theorem putNode_frame {fuel : Nat} {i : Idx} {s t : State} (h : putNode fuel i s = .ok () t) :
    ∃ bits, t = { s with sink := { s.sink with bits := s.sink.bits ++ bits } } := by
  induction fuel generalizing i s t with
  | zero => simp [putNode] at h
  | succ fuel ih =>
    simp only [putNode] at h
    rw [Run.bind_eq_ok] at h; obtain ⟨n, s2, h2, h⟩ := h
    rw [readNode_eq_ok] at h2; obtain ⟨-, -, rfl⟩ := h2
    split at h
    · rw [Run.bind_eq_ok] at h; obtain ⟨_u, s3, h3, h⟩ := h
      obtain ⟨b1, rfl⟩ := ih h3
      obtain ⟨b2, rfl⟩ := ih h
      exact ⟨msbFirst 1 0 ++ b1 ++ b2, by simp [State.writeBits, Sink.writeBits, List.append_assoc]⟩
    · simp only [Run.ok.injEq, true_and] at h; subst h
      exact ⟨msbFirst 1 1 ++ msbFirst 9 n.sym.toNat, by
        simp [State.writeBits, Sink.writeBits, List.append_assoc]⟩

theorem putNode_ne_raised {fuel : Nat} {i : Idx} {s t : State} : putNode fuel i s ≠ .raised t := by
  induction fuel generalizing i s t with
  | zero => simp [putNode]
  | succ fuel ih =>
    intro h
    simp only [putNode] at h
    rw [Run.bind_eq_raised] at h
    rcases h with h | ⟨n, s2, -, h⟩
    · exact readNode_ne_raised h
    split at h
    · rw [Run.bind_eq_raised] at h
      rcases h with h | ⟨_u, s3, -, h⟩ <;> exact ih h
    · simp at h

/-! ## RDHDR -/

/-- A block read moves the read position and nothing else. -/
theorem State.readBits_only_pos (n : Nat) (s : State) :
    ∃ pos, (s.readBits n).2 = { s with src := { s.src with pos := pos } } := by
  simp only [State.readBits, Source.readBits]
  split <;> exact ⟨_, rfl⟩

theorem getNode_frame {fuel : Nat} {s : State} :
    (∀ i t, getNode fuel s = .ok i t →
      ∃ node next pos, t = { s with node := node, next := next, src := { s.src with pos := pos } }) ∧
    (∀ t, getNode fuel s = .raised t →
      ∃ node next pos,
        t = State.errorEntry .headerTruncated 0 true
          { s with node := node, next := next, src := { s.src with pos := pos } } ∨
        t = State.errorEntry .treeOverflow 513 false
          { s with node := node, next := next, src := { s.src with pos := pos } }) := by
  induction fuel generalizing s with
  | zero => simp [getNode]
  | succ fuel ih =>
    simp only [getNode]
    obtain ⟨pos, hp⟩ := s.readBits_only_pos 1
    cases hr : s.readBits 1 with
    | mk o s1 =>
      rw [hr] at hp; dsimp only at hp; subst hp
      cases o with
      | none =>
        refine ⟨fun i t h => by simp at h, fun t h => ?_⟩
        simp only [Run.raise, Run.raised.injEq] at h
        exact ⟨s.node, s.next, pos, .inl h.symm⟩
      | some b =>
        dsimp only
        rcases takeIndex_cases { s with src := { s.src with pos := pos } } with ⟨-, e⟩ | ⟨-, e⟩
        · rw [e]
          refine ⟨fun i t h => by simp [Run.raise] at h, fun t h => ?_⟩
          simp only [Run.raise, Run.bind_raised, Run.raised.injEq] at h
          exact ⟨s.node, s.next, pos, .inr h.symm⟩
        · rw [e]
          simp only [Run.bind_ok]
          split
          · refine ⟨fun i t h => ?_, fun t h => ?_⟩
            · rw [Run.bind_eq_ok] at h; obtain ⟨l, s2, h2, h⟩ := h
              obtain ⟨n2, x2, p2, rfl⟩ := ih.1 _ _ h2
              rw [Run.bind_eq_ok] at h; obtain ⟨r, s3, h3, h⟩ := h
              obtain ⟨n3, x3, p3, rfl⟩ := ih.1 _ _ h3
              rw [Run.bind_eq_ok] at h; obtain ⟨_u, s4, h4, h⟩ := h
              rw [writeNode_eq_ok] at h4; obtain ⟨-, rfl⟩ := h4
              simp only [Run.ok.injEq] at h
              obtain ⟨-, rfl⟩ := h
              exact ⟨_, x3, p3, rfl⟩
            · rw [Run.bind_eq_raised] at h
              rcases h with h | ⟨l, s2, h2, h⟩
              · obtain ⟨n2, x2, p2, h⟩ := ih.2 _ h; exact ⟨n2, x2, p2, h⟩
              obtain ⟨n2, x2, p2, rfl⟩ := ih.1 _ _ h2
              rw [Run.bind_eq_raised] at h
              rcases h with h | ⟨r, s3, h3, h⟩
              · obtain ⟨n3, x3, p3, h⟩ := ih.2 _ h; exact ⟨n3, x3, p3, h⟩
              rw [Run.bind_eq_raised] at h
              rcases h with h | ⟨_u, s4, -, h⟩
              · exact absurd h writeNode_ne_raised
              · simp at h
          · obtain ⟨pos2, hp2⟩ := State.readBits_only_pos 9
              { s with src := { s.src with pos := pos }, next := s.next + 1 }
            cases hr2 : State.readBits 9 { s with src := { s.src with pos := pos }, next := s.next + 1 } with
            | mk o2 s2 =>
              rw [hr2] at hp2; dsimp only at hp2; subst hp2
              cases o2 with
              | none =>
                refine ⟨fun i t h => by simp at h, fun t h => ?_⟩
                simp only [Run.raise, Run.raised.injEq] at h
                exact ⟨s.node, s.next + 1, pos2, .inl h.symm⟩
              | some v =>
                refine ⟨fun i t h => ?_, fun t h => ?_⟩
                · dsimp only at h
                  rw [Run.bind_eq_ok] at h; obtain ⟨_u, s4, h4, h⟩ := h
                  rw [writeNode_eq_ok] at h4; obtain ⟨-, rfl⟩ := h4
                  simp only [Run.ok.injEq] at h
                  obtain ⟨-, rfl⟩ := h
                  exact ⟨_, s.next + 1, pos2, rfl⟩
                · dsimp only at h
                  rw [Run.bind_eq_raised] at h
                  rcases h with h | ⟨_u, s4, -, h⟩
                  · exact absurd h writeNode_ne_raised
                  · simp at h

/-- Completing a subtree changes NODE, the stack, ROOT and TREE_VALID only. -/
theorem completeSubtree_frame {i : Idx} {frames : List Frame} {s t : State}
    (h : completeSubtree i frames s = .ok () t) :
    ∃ node root valid, t = { s with
      node := node, trav := t.trav, root := root, treeValid := valid } ∧ t.trav.frames = (unwind frames).2 ∧
      (t.trav.frames ≠ [] → valid = s.treeValid) := by
  induction frames generalizing i s with
  | nil =>
    simp only [completeSubtree, Run.ok.injEq, true_and] at h; subst h
    exact ⟨_, _, true, rfl, rfl, by simp [Traversal.empty]⟩
  | cons f rest ih =>
    obtain ⟨j, d⟩ := f
    cases d with
    | false =>
      simp only [completeSubtree, Run.ok.injEq, true_and] at h; subst h
      exact ⟨_, _, s.treeValid, rfl, rfl, fun _ => rfl⟩
    | true =>
      simp only [completeSubtree] at h
      rw [Run.bind_eq_ok] at h; obtain ⟨_u, s2, h2, h⟩ := h
      rw [writeNode_eq_ok] at h2; obtain ⟨-, rfl⟩ := h2
      obtain ⟨node, root, valid, e, hf, hv⟩ := ih h
      refine ⟨node, root, valid, ?_, ?_, ?_⟩
      · rw [e]
      · rw [hf]; simp [unwind]
      · exact hv

theorem completeSubtree_ne_raised {i : Idx} {frames : List Frame} {s t : State} :
    completeSubtree i frames s ≠ .raised t := by
  induction frames generalizing i s with
  | nil => simp [completeSubtree]
  | cons f rest ih =>
    obtain ⟨j, d⟩ := f
    cases d with
    | false => simp [completeSubtree]
    | true =>
      intro h
      simp only [completeSubtree] at h
      rw [Run.bind_eq_raised] at h
      rcases h with h | ⟨_u, s2, -, h⟩
      · exact writeNode_ne_raised h
      · exact ih h

theorem completeSubtree_wf {i : Idx} {frames : List Frame} {s t : State}
    (h : completeSubtree i frames s = .ok () t) (w : Memory.wf s = true) : Memory.wf t = true := by
  induction frames generalizing i s with
  | nil => simp only [completeSubtree, Run.ok.injEq, true_and] at h; subst h; exact w
  | cons f rest ih =>
    obtain ⟨j, d⟩ := f
    cases d with
    | false => simp only [completeSubtree, Run.ok.injEq, true_and] at h; subst h; exact w
    | true =>
      simp only [completeSubtree] at h
      rw [Run.bind_eq_ok] at h; obtain ⟨_u, s2, h2, h⟩ := h
      exact ih h (writeNode_wf h2 w)

/-! ## The traversal stack -/

/-- Finding the next node of a walk leaves the state alone. -/
theorem walkPosition_eq_ok {i : Idx} {s t : State} (h : walkPosition s = .ok i t) : t = s := by
  unfold walkPosition at h
  split at h
  · simp only [Run.ok.injEq] at h; exact h.2.symm
  · rw [Run.bind_eq_ok] at h; obtain ⟨n, s2, h2, h⟩ := h
    rw [readNode_eq_ok] at h2; obtain ⟨-, -, rfl⟩ := h2
    simp only [Run.ok.injEq] at h; exact h.2.symm

theorem walkPosition_ne_raised {s t : State} : walkPosition s ≠ .raised t := by
  intro h
  unfold walkPosition at h
  split at h
  · simp at h
  · rw [Run.bind_eq_raised] at h
    rcases h with h | ⟨n, s2, -, h⟩
    · exact readNode_ne_raised h
    · simp at h

theorem pushFrame_ne_raised {i : Idx} {s t : State} : pushFrame i s ≠ .raised t := by
  unfold pushFrame; split <;> simp

/-- Unwinding puts no new node on the stack. -/
theorem unwind_mem (frames : List Frame) : ∀ f ∈ (unwind frames).2, ∃ g ∈ frames, g.index = f.index := by
  induction frames with
  | nil => simp [unwind]
  | cons g rest ih =>
    obtain ⟨i, d⟩ := g
    cases d with
    | false =>
      simp only [unwind, List.mem_cons]
      rintro f (rfl | hf)
      · exact ⟨_, .inl rfl, rfl⟩
      · exact ⟨f, .inr hf, rfl⟩
    | true =>
      simp only [unwind]
      intro f hf
      obtain ⟨g, hg, e⟩ := ih f hf
      exact ⟨g, List.mem_cons_of_mem _ hg, e⟩

/-- Unwinding keeps a relation between the indexes of the stack's entries. -/
theorem unwind_pairwise {r : Idx → Idx → Prop} (frames : List Frame)
    (h : frames.Pairwise (fun above below => r above.index below.index)) :
    (unwind frames).2.Pairwise (fun above below => r above.index below.index) := by
  induction frames with
  | nil => exact h
  | cons g rest ih =>
    obtain ⟨i, d⟩ := g
    cases d with
    | false => exact List.pairwise_cons.2 (List.pairwise_cons.1 h)
    | true => exact ih (List.pairwise_cons.1 h).2

/-! ## ENCODE and DECODE -/

theorem encodeLoop_frame {fuel : Nat} {s : State} :
    (∀ t, encodeLoop fuel s = .ok () t →
      ∃ pos bits, t = { s with
        src := { s.src with pos := pos }, sink := { s.sink with bits := s.sink.bits ++ bits } }) ∧
    (∀ t, encodeLoop fuel s = .raised t →
      ∃ pos bits, ∃ v : Byte, t = State.errorEntry .noCode (v.setWidth 32) false
        { s with
          src := { s.src with pos := pos }, sink := { s.sink with bits := s.sink.bits ++ bits } }) := by
  induction fuel generalizing s with
  | zero => simp [encodeLoop]
  | succ fuel ih =>
    simp only [encodeLoop]
    obtain ⟨pos, hp⟩ := s.readBits_only_pos 8
    cases hr : s.readBits 8 with
    | mk o s1 =>
      rw [hr] at hp; dsimp only at hp; subst hp
      cases o with
      | none =>
        refine ⟨fun t h => ?_, fun t h => by simp at h⟩
        simp only [Run.ok.injEq, true_and] at h; subst h
        exact ⟨pos, [], by simp⟩
      | some v =>
        refine ⟨fun t h => ?_, fun t h => ?_⟩
        · dsimp only at h
          rw [Run.bind_eq_ok] at h; obtain ⟨c, s2, h2, h⟩ := h
          rw [readCode_eq_ok] at h2; obtain ⟨-, -, rfl⟩ := h2
          split at h
          · rw [emitCode_eq] at h
            obtain ⟨p2, b2, rfl⟩ := ih.1 t h
            exact ⟨p2, msbFirst c.len.toNat c.pat.toNat ++ b2, by simp⟩
          · simp at h
        · dsimp only at h
          rw [Run.bind_eq_raised] at h
          rcases h with h | ⟨c, s2, h2, h⟩
          · exact absurd h readCode_ne_raised
          rw [readCode_eq_ok] at h2; obtain ⟨-, -, rfl⟩ := h2
          split at h
          · rw [emitCode_eq] at h
            obtain ⟨p2, b2, w, rfl⟩ := ih.2 t h
            exact ⟨p2, msbFirst c.len.toNat c.pat.toNat ++ b2, w, by simp⟩
          · simp only [Run.raise, Run.raised.injEq] at h; subst h
            exact ⟨pos, [], v, by simp⟩

theorem decodeMove_eq_ok {b : Bool} {s t : State} (h : decodeMove b s = .ok () t) :
    ∃ cur, t = { s with cur := cur } := by
  unfold decodeMove at h
  rw [Run.bind_eq_ok] at h; obtain ⟨n, s2, h2, h⟩ := h
  rw [readNode_eq_ok] at h2; obtain ⟨-, -, rfl⟩ := h2
  split at h <;> simp only [Run.ok.injEq, true_and] at h <;> subst h
  · exact ⟨_, rfl⟩
  · exact ⟨_, rfl⟩

theorem decodeMove_ne_raised {b : Bool} {s t : State} : decodeMove b s ≠ .raised t := by
  intro h
  unfold decodeMove at h
  rw [Run.bind_eq_raised] at h
  rcases h with h | ⟨n, s2, -, h⟩
  · exact readNode_ne_raised h
  · split at h <;> simp at h

theorem decodeLoop_frame {fuel : Nat} {s : State} :
    (∀ t, decodeLoop fuel s = .ok () t →
      ∃ cur pos bits, t = { s with
        cur := cur, src := { s.src with pos := pos }, sink := { s.sink with bits := s.sink.bits ++ bits } }) ∧
    (∀ t, decodeLoop fuel s = .raised t →
      ∃ cur pos bits, t = State.errorEntry .payloadTruncated 0 true
        { s with
          cur := cur, src := { s.src with pos := pos }, sink := { s.sink with bits := s.sink.bits ++ bits } }) := by
  induction fuel generalizing s with
  | zero => simp [decodeLoop]
  | succ fuel ih =>
    simp only [decodeLoop]
    obtain ⟨pos, hp⟩ := s.readBits_only_pos 1
    cases hr : s.readBits 1 with
    | mk o s1 =>
      rw [hr] at hp; dsimp only at hp; subst hp
      cases o with
      | none =>
        refine ⟨fun t h => by simp at h, fun t h => ?_⟩
        simp only [Run.raise, Run.raised.injEq] at h; subst h
        exact ⟨s.cur, pos, [], by simp⟩
      | some b =>
        refine ⟨fun t h => ?_, fun t h => ?_⟩
        · dsimp only at h
          rw [Run.bind_eq_ok] at h; obtain ⟨_u, s2, h2, h⟩ := h
          obtain ⟨cur, rfl⟩ := decodeMove_eq_ok h2
          rw [Run.bind_eq_ok] at h; obtain ⟨n, s3, h3, h⟩ := h
          rw [readNode_eq_ok] at h3; obtain ⟨-, -, rfl⟩ := h3
          split at h
          · obtain ⟨c2, p2, b2, rfl⟩ := ih.1 t h; exact ⟨c2, p2, b2, rfl⟩
          · split at h
            · simp only [Run.ok.injEq, true_and] at h; subst h; exact ⟨cur, pos, [], by simp⟩
            · obtain ⟨c2, p2, b2, rfl⟩ := ih.1 t h
              exact ⟨c2, p2, msbFirst 8 (n.sym.setWidth 8).toNat ++ b2, by simp [State.writeBits, Sink.writeBits]⟩
        · dsimp only at h
          rw [Run.bind_eq_raised] at h
          rcases h with h | ⟨_u, s2, h2, h⟩
          · exact absurd h decodeMove_ne_raised
          obtain ⟨cur, rfl⟩ := decodeMove_eq_ok h2
          rw [Run.bind_eq_raised] at h
          rcases h with h | ⟨n, s3, h3, h⟩
          · exact absurd h readNode_ne_raised
          rw [readNode_eq_ok] at h3; obtain ⟨-, -, rfl⟩ := h3
          split at h
          · obtain ⟨c2, p2, b2, rfl⟩ := ih.2 t h; exact ⟨c2, p2, b2, rfl⟩
          · split at h
            · simp at h
            · obtain ⟨c2, p2, b2, rfl⟩ := ih.2 t h
              exact ⟨c2, p2, msbFirst 8 (n.sym.setWidth 8).toNat ++ b2, by simp [State.writeBits, Sink.writeBits]⟩

end Sys2Proof.Machine
end

