-- ==== Sys2Proof/Laws/Transactions.lean ====
section
/-! SUPPORT. The port transactions of a turn: what a list of them can do, and, for each loop and recursion of a
micro-operation, that its transactions one after the other leave the source and the sink as the whole of it does. -/

namespace Sys2Proof.Machine

/-! ## Lists of transactions -/

@[simp] theorem runPorts_nil (io : Source × Sink) : runPorts [] io = io := rfl

@[simp] theorem runPorts_cons (op : PortOp) (ops : List PortOp) (io : Source × Sink) :
    runPorts (op :: ops) io = runPorts ops (op.run io) := rfl

theorem runPorts_append (ops later : List PortOp) (io : Source × Sink) :
    runPorts (ops ++ later) io = runPorts later (runPorts ops io) := by
  simp [runPorts]

/-- A transaction only appends to the sink. -/
theorem PortOp.run_sink (op : PortOp) (io : Source × Sink) :
    io.2.bits <+: (op.run io).2.bits ∧ (io.2.closed = true → (op.run io).2.closed = true) := by
  cases op <;> simp [PortOp.run, Sink.writeBits, Sink.close]

/-- A transaction never leaves the source past its end. -/
theorem PortOp.run_pos (op : PortOp) (io : Source × Sink) (h : io.1.pos ≤ io.1.bits.length) :
    (op.run io).1.pos ≤ (op.run io).1.bits.length := by
  cases op with
  | read n => simp only [PortOp.run, Source.readBits]; split <;> simp_all
  | rewind => exact Nat.zero_le _
  | write n v => exact h
  | close => exact h

theorem runPorts_sink (ops : List PortOp) (io : Source × Sink) :
    io.2.bits <+: (runPorts ops io).2.bits ∧ (io.2.closed = true → (runPorts ops io).2.closed = true) := by
  induction ops generalizing io with
  | nil => exact ⟨List.prefix_rfl, id⟩
  | cons op ops ih =>
    have h := op.run_sink io
    exact ⟨h.1.trans (ih _).1, fun c => (ih _).2 (h.2 c)⟩

theorem runPorts_pos (ops : List PortOp) (io : Source × Sink) (h : io.1.pos ≤ io.1.bits.length) :
    (runPorts ops io).1.pos ≤ (runPorts ops io).1.bits.length := by
  induction ops generalizing io with
  | nil => exact h
  | cons op ops ih => exact ih _ (op.run_pos io h)

/-- What has been written when some of the transactions have happened is the beginning of what all of them write. -/
theorem runPorts_take (ops : List PortOp) (k : Nat) (io : Source × Sink) :
    (runPorts (ops.take k) io).2.bits <+: (runPorts ops io).2.bits := by
  have := (runPorts_sink (ops.drop k) (runPorts (ops.take k) io)).1
  rwa [← runPorts_append, List.take_append_drop] at this

/-! ## The transactions of a raise -/

theorem closing_errorEntry (s : State) (c : Cause) (info : Word) (eoi : Bool) :
    runPorts (closing s) (s.src, s.sink) = ((s.errorEntry c info eoi).src, (s.errorEntry c info eoi).sink) := by
  cases h : s.sinkClosed <;> simp [closing, h, PortOp.run]

theorem closing_closeOnce (s : State) : runPorts (closing s) (s.src, s.sink) = (s.closeOnce.src, s.closeOnce.sink) := by
  cases h : s.sinkClosed <;> simp [closing, h, PortOp.run]

theorem closing_congr {s u : State} (h : u.sinkClosed = s.sinkClosed) : closing u = closing s := by
  unfold closing; rw [h]

/-! ## Agreement -/

/-- A stretch that has ended or raised has left the source and the sink as its transactions do. -/
def Run.Agrees {α : Type} (r : Run α) (ops : List PortOp) (s : State) : Prop :=
  (∀ a t, r = .ok a t → runPorts ops (s.src, s.sink) = (t.src, t.sink)) ∧
    ∀ t, r = .raised t → runPorts ops (s.src, s.sink) = (t.src, t.sink)

theorem Run.agrees_ok {α : Type} {a : α} {t s : State} {ops : List PortOp}
    (h : runPorts ops (s.src, s.sink) = (t.src, t.sink)) : (Run.ok a t).Agrees ops s :=
  ⟨by rintro _ _ ⟨⟩; exact h, by simp⟩

theorem Run.agrees_raise {α : Type} (c : Cause) (info : Word) (eoi : Bool) (s : State) :
    (Run.raise (α := α) c info eoi s).Agrees (closing s) s :=
  ⟨by simp [Run.raise], by rintro _ ⟨⟩; exact closing_errorEntry s c info eoi⟩

theorem Run.agrees_bad {α : Type} (f : Fault) (ops : List PortOp) (s : State) : (Run.bad (α := α) f).Agrees ops s :=
  ⟨by simp, by simp⟩

/-- A first transaction before a stretch. -/
theorem Run.Agrees.after {α : Type} {r : Run α} {op : PortOp} {ops : List PortOp} {s u : State} (h : r.Agrees ops u)
    (e : op.run (s.src, s.sink) = (u.src, u.sink)) : r.Agrees (op :: ops) s :=
  ⟨fun a t k => by rw [runPorts_cons, e]; exact h.1 a t k, fun t k => by rw [runPorts_cons, e]; exact h.2 t k⟩

/-- A stretch without transactions before another. -/
theorem Run.agrees_bind {α β : Type} {r : Run α} {k : α → State → Run β} {ops : α → State → List PortOp} {s : State}
    (hr : ∀ t, r ≠ .raised t) (ho : ∀ a t, r = .ok a t → t.src = s.src ∧ t.sink = s.sink)
    (h : ∀ a t, r = .ok a t → (k a t).Agrees (ops a t) t) : (r.bind k).Agrees (r.portsAfter [] ops) s := by
  cases r with
  | bad f => exact Run.agrees_bad ..
  | raised t => exact absurd rfl (hr t)
  | ok a t =>
    have e := ho a t rfl
    have g := h a t rfl
    simp only [Run.bind_ok, Run.portsAfter, Run.Agrees, ← e.1, ← e.2]
    exact g

/-- A read before a stretch. -/
theorem Run.Agrees.afterRead {α : Type} {r : Run α} {n : Nat} {ops : List PortOp} {s : State}
    (h : r.Agrees ops (s.readBits n).2) : r.Agrees (.read n :: ops) s :=
  h.after rfl

theorem agrees_count (limit : Count) (fuel : Nat) (s : State) :
    (countLoop limit fuel s).Agrees (countPorts limit fuel s) s := by
  induction fuel generalizing s with
  | zero => exact Run.agrees_bad ..
  | succ fuel ih =>
    simp only [countLoop, countPorts]
    rw [show s.readBits Config.wordW = ((s.readBits Config.wordW).1, (s.readBits Config.wordW).2) from rfl]
    refine Run.Agrees.afterRead ?_
    generalize (State.readBits Config.wordW s).2 = u
    cases (State.readBits Config.wordW s).1 with
    | none => exact Run.agrees_ok rfl
    | some v =>
      refine Run.agrees_bind (fun _ => readFreq_ne_raised) (fun c t h => by simp [(readFreq_eq_ok.1 h).2.2]) fun c t h => ?_
      split
      · exact Run.agrees_raise ..
      · exact Run.agrees_bind (fun _ => writeFreq_ne_raised) (fun c t h => by simp [writeFreq_eq_ok.1 h]) fun c t h => ih t

theorem runPorts_codePorts (c : CodeEntry) (io : Source × Sink) :
    runPorts (codePorts c) io = (io.1, { io.2 with bits := io.2.bits ++ msbFirst c.len.toNat c.pat.toNat }) := by
  unfold codePorts
  generalize msbFirst c.len.toNat c.pat.toNat = bs
  induction bs generalizing io with
  | nil => simp
  | cons b bs ih =>
    rw [List.map_cons, runPorts_cons, ih]
    cases b <;> simp [PortOp.run, Sink.writeBits, msbFirst]

/-- ENCODE after its Rewind. The transactions do not depend on what has been written. -/
theorem agrees_encode (fuel : Nat) (s u : State) (hs : u.src = s.src) (hc : u.code = s.code)
    (hk : u.sinkClosed = s.sinkClosed) :
    ((encodeLoop fuel s).bind fun _ s =>
      (readCode Config.eos s).bind fun c s => .ok () (emitCode c.pat c.len.toNat s)).Agrees (encodePorts fuel u) s := by
  induction fuel generalizing s u with
  | zero => exact Run.agrees_bad ..
  | succ fuel ih =>
    simp only [encodeLoop, encodePorts]
    rw [show s.readBits Config.wordW = ((s.readBits Config.wordW).1, (s.readBits Config.wordW).2) from rfl,
      show u.readBits Config.wordW = ((s.readBits Config.wordW).1, (u.readBits Config.wordW).2) from by
        simp only [State.readBits, hs]]
    refine Run.Agrees.afterRead ?_
    replace hs : (u.readBits Config.wordW).2.src = (s.readBits Config.wordW).2.src := by simp [hs]
    replace hc : (u.readBits Config.wordW).2.code = (s.readBits Config.wordW).2.code := hc
    replace hk : (u.readBits Config.wordW).2.sinkClosed = (s.readBits Config.wordW).2.sinkClosed := hk
    generalize (u.readBits Config.wordW).2 = u at hs hc hk
    generalize (s.readBits Config.wordW).2 = s at hs hc hk
    have reads : ∀ i c v, readCode i s = .ok c v → s = v ∧ readCode i u = .ok c u := fun i c v h => by
      obtain ⟨hi, hr, rfl⟩ := readCode_eq_ok.1 h
      exact ⟨rfl, readCode_eq_ok.2 ⟨hi, by rw [hc]; exact hr, rfl⟩⟩
    cases (State.readBits Config.wordW _).1 with
    | none =>
      simp only [Run.bind_ok]
      cases h : readCode Config.eos s with
      | bad f => exact Run.agrees_bad ..
      | raised t => exact absurd h readCode_ne_raised
      | ok c v =>
        obtain ⟨rfl, hu⟩ := reads _ _ _ h
        rw [hu]
        refine Run.agrees_ok ?_
        simp [Run.portsAfter, runPorts_codePorts, emitCode_eq]
    | some v =>
      dsimp only
      cases h : readCode v.toNat s with
      | bad f => simp only [Run.bind_bad]; exact Run.agrees_bad ..
      | raised t => exact absurd h readCode_ne_raised
      | ok c w =>
        obtain ⟨rfl, hu⟩ := reads _ _ _ h
        rw [hu]
        simp only [Run.bind_ok, Run.portsAfter]
        split
        · have g := ih (emitCode c.pat c.len.toNat s) u (by simp [hs, emitCode_eq]) (by simp [hc, emitCode_eq])
            (by simp [hk, emitCode_eq])
          simp only [Run.Agrees, runPorts_append, runPorts_codePorts]
          simpa [Run.Agrees, emitCode_eq] using g
        · simp only [Run.raise, Run.bind_raised]
          have := Run.agrees_raise (α := Unit) .noCode (v.setWidth 32) false s
          simpa [closing, hk, Run.raise] using this

/-- WRHDR's Put. The transactions depend on NODE alone. -/
theorem agrees_put (fuel : Nat) (i : Idx) (s u : State) (hn : u.node = s.node) :
    (putNode fuel i s).Agrees (putPorts fuel i u) s := by
  induction fuel generalizing i s u with
  | zero => exact Run.agrees_bad ..
  | succ fuel ih =>
    simp only [putNode, putPorts]
    cases h : readNode i.toNat s with
    | bad f => exact Run.agrees_bad ..
    | raised t => exact absurd h readNode_ne_raised
    | ok n v =>
      obtain ⟨hi, hr, rfl⟩ := readNode_eq_ok.1 h
      rw [readNode_eq_ok.2 ⟨hi, by rw [hn]; exact hr, rfl⟩]
      simp only [Run.bind_ok, Run.portsAfter]
      cases n.kind with
      | internal =>
        refine ⟨fun a t h => ?_, fun t h => ?_⟩
        · rw [Run.bind_eq_ok] at h; obtain ⟨x, w, hl, h⟩ := h
          obtain ⟨bits, hw⟩ := putNode_frame hl
          rw [runPorts_cons, runPorts_append]
          have e := (ih n.left (v.writeBits Config.intBits 0) u hn).1 _ _ hl
          simp only [State.writeBits_src] at e
          have g := (ih n.right w u (by rw [hw]; exact hn)).1 _ _ h
          rw [← g, ← e]; rfl
        · rw [Run.bind_eq_raised] at h
          rcases h with h | ⟨x, w, -, h⟩ <;> exact absurd h putNode_ne_raised
      | leaf => exact Run.agrees_ok rfl

/-- DECODE's loop. The transactions do not depend on what has been written. -/
theorem agrees_decode (fuel : Nat) (s u : State) (hs : u.src = s.src) (hn : u.node = s.node) (hc : u.cur = s.cur)
    (hr : u.root = s.root) (hk : u.sinkClosed = s.sinkClosed) :
    (decodeLoop fuel s).Agrees (decodePorts fuel u) s := by
  induction fuel generalizing s u with
  | zero => exact Run.agrees_bad ..
  | succ fuel ih =>
    simp only [decodeLoop, decodePorts]
    rw [show s.readBits 1 = ((s.readBits 1).1, (s.readBits 1).2) from rfl,
      show u.readBits 1 = ((s.readBits 1).1, (u.readBits 1).2) from by simp only [State.readBits, hs]]
    refine Run.Agrees.afterRead ?_
    replace hs : (u.readBits 1).2.src = (s.readBits 1).2.src := by simp [hs]
    replace hn : (u.readBits 1).2.node = (s.readBits 1).2.node := hn
    replace hc : (u.readBits 1).2.cur = (s.readBits 1).2.cur := hc
    replace hr : (u.readBits 1).2.root = (s.readBits 1).2.root := hr
    replace hk : (u.readBits 1).2.sinkClosed = (s.readBits 1).2.sinkClosed := hk
    generalize (u.readBits 1).2 = u at hs hn hc hr hk
    generalize (s.readBits 1).2 = s at hs hn hc hr hk
    cases (State.readBits 1 _).1 with
    | none =>
      have := Run.agrees_raise (α := Unit) .payloadTruncated 0 true s
      simpa [closing, hk] using this
    | some b =>
      dsimp only
      cases h : decodeMove (decide (b = 1)) s with
      | bad f => exact Run.agrees_bad ..
      | raised t => exact absurd h decodeMove_ne_raised
      | ok x w =>
        obtain ⟨cur, rfl⟩ := decodeMove_eq_ok h
        have h' : decodeMove (decide (b = 1)) u = .ok x { u with cur := cur } := by
          unfold decodeMove at h ⊢
          rw [Run.bind_eq_ok] at h; obtain ⟨n, v, hv, h⟩ := h
          obtain ⟨hi, hv, rfl⟩ := readNode_eq_ok.1 hv
          rw [readNode_eq_ok.2 ⟨by rw [hc]; exact hi, by rw [hn, hc]; exact hv, rfl⟩, Run.bind_ok]
          split at h
          · simp only [Run.ok.injEq, true_and] at h
            have := congrArg State.cur h; dsimp only at this
            simp
            exact this
          · simp only [Run.ok.injEq, true_and] at h
            have := congrArg State.cur h; dsimp only at this
            simp [← this, ← hc]
        rw [h']
        simp only [Run.bind_ok, Run.portsAfter]
        cases h2 : readNode cur.toNat { s with cur := cur } with
        | bad f => exact Run.agrees_bad ..
        | raised t => exact absurd h2 readNode_ne_raised
        | ok n v =>
          obtain ⟨hi, hv, rfl⟩ := readNode_eq_ok.1 h2
          rw [(readNode_eq_ok (u := { u with cur := cur })).2 ⟨hi, by dsimp only; rw [hn]; exact hv, rfl⟩]
          simp only [Run.bind_ok]
          cases n.kind with
          | internal => exact ih _ _ hs hn rfl hr hk
          | leaf =>
            dsimp only
            split
            · exact Run.agrees_ok rfl
            · refine Run.Agrees.after (ih _ _ ?_ ?_ ?_ ?_ ?_) rfl
              exacts [hs, hn, hr, hr, hk]

/-- RDHDR's transactions depend on the source and SINK_CLOSED alone. -/
theorem headerPorts_congr (free due : Nat) {s u : State} (hs : u.src = s.src) (hk : u.sinkClosed = s.sinkClosed) :
    headerPorts free due u = headerPorts free due s := by
  induction free generalizing due s u with
  | zero => cases due <;> simp [headerPorts, closing, hk]
  | succ free ih =>
    cases due with
    | zero => simp [headerPorts]
    | succ due =>
      simp only [headerPorts, List.cons.injEq, true_and]
      rw [show s.readBits Config.intBits = ((s.readBits Config.intBits).1, (s.readBits Config.intBits).2) from rfl,
        show u.readBits Config.intBits = ((s.readBits Config.intBits).1, (u.readBits Config.intBits).2) from by
          simp only [State.readBits, hs]]
      replace hs : (u.readBits Config.intBits).2.src = (s.readBits Config.intBits).2.src := by simp [hs]
      replace hk : (u.readBits Config.intBits).2.sinkClosed = (s.readBits Config.intBits).2.sinkClosed := hk
      generalize (u.readBits Config.intBits).2 = u at hs hk
      generalize (s.readBits Config.intBits).2 = s at hs hk
      cases (State.readBits Config.intBits _).1 with
      | none => exact closing_congr hk
      | some b =>
        dsimp only
        split
        · exact ih _ hs hk
        · rw [show s.readBits Config.symW = ((s.readBits Config.symW).1, (s.readBits Config.symW).2) from rfl,
            show u.readBits Config.symW = ((s.readBits Config.symW).1, (u.readBits Config.symW).2) from by
              simp only [State.readBits, hs]]
          cases (State.readBits Config.symW s).1 with
          | none => simp only [List.cons.injEq, true_and]; exact closing_congr hk
          | some v => simp only [List.cons.injEq, true_and]; exact ih _ (by simp [hs]) hk

/-- RDHDR's Get, with `due` more `node`s to come after it. -/
theorem agrees_header (fuel free : Nat) (s : State) (hn : s.next.toNat + free = Config.nodeCap) (hf : free < fuel) :
    (∀ i t, getNode fuel s = .ok i t → ∃ left ≤ free, t.next.toNat + left = Config.nodeCap ∧ ∀ due,
      runPorts (headerPorts free (due + 1) s) (s.src, s.sink) = runPorts (headerPorts left due t) (t.src, t.sink)) ∧
    ∀ t due, getNode fuel s = .raised t →
      runPorts (headerPorts free (due + 1) s) (s.src, s.sink) = (t.src, t.sink) := by
  induction fuel generalizing free s with
  | zero => omega
  | succ fuel ih =>
    simp only [getNode]
    rw [show s.readBits 1 = ((s.readBits 1).1, (s.readBits 1).2) from rfl]
    have hio : (PortOp.read Config.intBits).run (s.src, s.sink) = ((s.readBits 1).2.src, (s.readBits 1).2.sink) := rfl
    have hnx : (s.readBits 1).2.next = s.next := rfl
    cases free with
    | zero =>
      have full : (s.readBits 1).2.next.toNat = Config.nodeCap := by rw [hnx]; omega
      simp only [headerPorts, runPorts_cons, hio]
      cases (s.readBits 1).1 with
      | none =>
        refine ⟨by simp, fun t _ h => ?_⟩
        simp only [Run.raise, Run.raised.injEq] at h; subst h
        exact closing_errorEntry ..
      | some b =>
        dsimp only
        rcases takeIndex_cases (s.readBits 1).2 with ⟨-, e⟩ | ⟨ne, -⟩
        · rw [e]
          refine ⟨by simp [Run.raise], fun t _ h => ?_⟩
          simp only [Run.raise, Run.bind_raised, Run.raised.injEq] at h; subst h
          exact closing_errorEntry ..
        · exact absurd full ne
    | succ free =>
      have room : (s.readBits 1).2.next.toNat ≠ Config.nodeCap := by rw [hnx]; omega
      simp only [headerPorts, runPorts_cons, hio]
      rw [show s.readBits Config.intBits = ((s.readBits 1).1, (s.readBits 1).2) from rfl]
      generalize (s.readBits 1).2 = u at hnx room
      cases (s.readBits 1).1 with
      | none =>
        refine ⟨by simp, fun t _ h => ?_⟩
        simp only [Run.raise, Run.raised.injEq] at h; subst h
        exact closing_errorEntry ..
      | some b =>
        dsimp only
        rcases takeIndex_cases u with ⟨full, -⟩ | ⟨-, e⟩
        · exact absurd full room
        rw [e]
        simp only [Run.bind_ok]
        have nx : (u.next + 1 : Idx).toNat + free = Config.nodeCap := by
          have : u.next.toNat + free + 1 = 513 := by rw [hnx]; exact hn
          show _ = 513
          bv_omega
        have hc : ∀ due, headerPorts free due { u with next := u.next + 1 } = headerPorts free due u :=
          fun due => headerPorts_congr _ _ rfl rfl
        by_cases hb : b = 0
        · simp only [if_pos hb]
          obtain ⟨ihl, ihlr⟩ := ih free { u with next := u.next + 1 } nx (by omega)
          refine ⟨fun i t h => ?_, fun t due h => ?_⟩
          · rw [Run.bind_eq_ok] at h; obtain ⟨l, v, hl, h⟩ := h
            obtain ⟨fl, hle, nv, el⟩ := ihl _ _ hl
            rw [Run.bind_eq_ok] at h; obtain ⟨r, w, hr, h⟩ := h
            obtain ⟨fr, hre, nw, er⟩ := (ih fl v nv (by omega)).1 _ _ hr
            rw [Run.bind_eq_ok] at h; obtain ⟨x, y, hy, h⟩ := h
            rw [writeNode_eq_ok] at hy; obtain ⟨-, rfl⟩ := hy
            simp only [Run.ok.injEq] at h; obtain ⟨-, rfl⟩ := h
            refine ⟨fr, by omega, nw, fun due => ?_⟩
            rw [← hc]
            refine (el (due + 1)).trans ((er due).trans ?_)
            refine congrArg (fun ops => runPorts ops (w.src, w.sink)) (headerPorts_congr fr due ?_ ?_) <;> rfl
          · rw [Run.bind_eq_raised] at h
            rcases h with h | ⟨l, v, hl, h⟩
            · rw [← hc]; exact ihlr _ _ h
            obtain ⟨fl, hle, nv, el⟩ := ihl _ _ hl
            rw [Run.bind_eq_raised] at h
            rcases h with h | ⟨r, w, hr, h⟩
            · rw [← hc]; exact (el (due + 1)).trans ((ih fl v nv (by omega)).2 _ _ h)
            rw [Run.bind_eq_raised] at h
            rcases h with h | ⟨x, y, hy, h⟩
            · exact absurd h writeNode_ne_raised
            · simp at h
        · simp only [if_neg hb]
          have hr : State.readBits Config.symW { u with next := u.next + 1 } =
              ((u.readBits Config.symW).1, { (u.readBits Config.symW).2 with next := u.next + 1 }) := rfl
          rw [hr, show u.readBits Config.symW = ((u.readBits Config.symW).1, (u.readBits Config.symW).2) from rfl]
          have hio : (PortOp.read Config.symW).run (u.src, u.sink) =
            ((u.readBits Config.symW).2.src, (u.readBits Config.symW).2.sink) := rfl
          simp only [runPorts_cons, hio]
          generalize (u.readBits Config.symW).2 = v
          cases (u.readBits Config.symW).1 with
          | none =>
            refine ⟨by simp, fun t _ h => ?_⟩
            simp only [Run.raise, Run.raised.injEq] at h; subst h
            exact closing_errorEntry { v with next := u.next + 1 } .headerTruncated 0 true
          | some x =>
            dsimp only
            refine ⟨fun i t h => ?_, fun t _ h => ?_⟩
            · rw [Run.bind_eq_ok] at h; obtain ⟨x, y, hy, h⟩ := h
              rw [writeNode_eq_ok] at hy; obtain ⟨-, rfl⟩ := hy
              simp only [Run.ok.injEq] at h; obtain ⟨-, rfl⟩ := h
              refine ⟨free, by omega, nx, fun due => ?_⟩
              refine congrArg (fun ops => runPorts ops (v.src, v.sink)) (headerPorts_congr free due ?_ ?_) <;> rfl
            · rw [Run.bind_eq_raised] at h
              rcases h with h | ⟨x, y, hy, h⟩
              · exact absurd h writeNode_ne_raised
              · simp at h

/-! ## Whole turns -/

theorem agrees_rdhdr (s : State) : (rdhdrRun s).Agrees (headerPorts Config.nodeCap 1 s) s := by
  have hc : headerPorts Config.nodeCap 1 s = headerPorts Config.nodeCap 1 { s with next := 0 } :=
    headerPorts_congr _ _ rfl rfl
  obtain ⟨g, gr⟩ := agrees_header (Config.nodeCap + 1) Config.nodeCap { s with next := 0 } rfl (Nat.lt_succ_self _)
  rw [hc]
  refine ⟨fun a t h => ?_, fun t h => ?_⟩
  · unfold rdhdrRun at h
    rw [Run.bind_eq_ok] at h; obtain ⟨r, v, hv, h⟩ := h
    obtain ⟨left, -, -, e⟩ := g _ _ hv
    simp only [Run.ok.injEq] at h; obtain ⟨-, rfl⟩ := h
    refine (e 0).trans ?_
    cases left <;> simp [headerPorts]
  · unfold rdhdrRun at h
    rw [Run.bind_eq_raised] at h
    rcases h with h | ⟨r, v, hv, h⟩
    · exact gr _ 0 h
    · simp at h

theorem agrees_readTag (s : State) :
    runPorts (tagPorts s) (s.src, s.sink) = ((readTag Config.magic s).src, (readTag Config.magic s).sink) := by
  unfold tagPorts readTag
  rw [show s.readBits Config.tagW = ((s.readBits Config.tagW).1, (s.readBits Config.tagW).2) from rfl]
  have hio : (PortOp.read Config.tagW).run (s.src, s.sink) =
    ((s.readBits Config.tagW).2.src, (s.readBits Config.tagW).2.sink) := rfl
  simp only [runPorts_cons, hio]
  generalize (s.readBits Config.tagW).2 = u
  cases (s.readBits Config.tagW).1 with
  | none => exact closing_errorEntry ..
  | some v =>
    dsimp only
    unfold checkTag
    split
    · rfl
    · exact closing_errorEntry ..

/-- The outcome of a whole stretch. -/
theorem agrees_outcome {r : Run Unit} {ops : List PortOp} {s t : State} (h : r.Agrees ops s) (e : r.outcome = .next t) :
    runPorts ops (s.src, s.sink) = (t.src, t.sink) := by
  rw [Run.outcome_eq_next] at e
  rcases e with e | e
  · exact h.1 _ _ e
  · exact h.2 _ e

/-- The turn of a whole micro-operation. -/
theorem agrees_microOp {s t : State} (h : microOpTurn s = .next t) :
    runPorts (microOpPorts s) (s.src, s.sink) = (t.src, t.sink) := by
  unfold microOpTurn at h
  rw [decodePhase_code] at h
  unfold microOpPorts
  split <;> rename_i hp <;> simp only [hp] at h <;> try simp only [exec] at h
  · simp at h
  · unfold execBuild buildRun at h
    rw [Run.outcome_eq_next] at h
    rcases h with h | h
    · rw [Run.bind_eq_ok] at h; obtain ⟨_, u, hu, h⟩ := h
      obtain ⟨_, _, _, rfl⟩ := buildLeaves_frame hu
      rw [Run.bind_eq_ok] at h; obtain ⟨_, v, hv, h⟩ := h
      obtain ⟨_, _, _, _, rfl⟩ := mergeLoop_frame hv
      obtain ⟨_, -, rfl⟩ := buildFinish_eq_ok h
      rfl
    · rw [Run.bind_eq_raised] at h
      rcases h with h | ⟨_, u, -, h⟩
      · exact absurd h buildLeaves_ne_raised
      rw [Run.bind_eq_raised] at h
      rcases h with h | ⟨_, u, -, h⟩
      · exact absurd h mergeLoop_ne_raised
      · exact absurd h buildFinish_ne_raised
  · unfold execGencodes gencodesRun at h
    rw [Run.outcome_eq_next] at h
    rcases h with h | h
    · rw [Run.bind_eq_ok] at h; obtain ⟨n, u, hu, h⟩ := h
      obtain ⟨-, -, rfl⟩ := readNode_eq_ok.1 hu
      rw [Run.bind_eq_ok] at h; obtain ⟨_, v, hv, h⟩ := h
      split at hv
      · rw [writeCode_eq_ok] at hv; obtain ⟨-, rfl⟩ := hv
        simp at h; subst h; rfl
      · obtain ⟨c, rfl⟩ := walkCodes_frame hv
        simp at h; subst h; rfl
    · rw [Run.bind_eq_raised] at h
      rcases h with h | ⟨n, u, hu, h⟩
      · exact absurd h readNode_ne_raised
      rw [Run.bind_eq_raised] at h
      rcases h with h | ⟨_, v, -, h⟩
      · split at h
        · exact absurd h writeCode_ne_raised
        · exact absurd h walkCodes_ne_raised
      · simp at h
  · have := agrees_count Config.countMax (s.src.remaining.length + 1) { s with freq := Table.fill Config.nsym 0 }
    refine agrees_outcome (r := countRun Config.countMax s) ?_ h
    unfold countRun
    generalize countLoop _ _ _ = r at this
    cases r with
    | bad f => exact Run.agrees_bad ..
    | raised t => exact ⟨by simp, fun u e => by simp at e; subst e; exact this.2 _ rfl⟩
    | ok a t =>
      have := this.1 _ _ rfl
      refine ⟨fun a u e => ?_, fun u e => ?_⟩
      · simp only [Run.bind_ok, Run.bind_eq_ok] at e
        obtain ⟨x, v, hv, e⟩ := e
        rw [writeFreq_eq_ok] at hv; obtain ⟨-, rfl⟩ := hv
        simp at e; subst e; exact this
      · simp only [Run.bind_ok] at e
        rw [Run.bind_eq_raised] at e
        rcases e with e | ⟨x, v, -, e⟩
        · exact absurd e writeFreq_ne_raised
        · simp at e
  · simp only [execWrtag, Host.Outcome.next.injEq] at h; subst h; rfl
  · exact agrees_outcome (agrees_put _ _ s s rfl) h
  · have := agrees_encode (s.rewind.src.remaining.length + 1) s.rewind s.rewind rfl rfl rfl
    exact agrees_outcome (this.after rfl) h
  · simp only [execRdtag, Host.Outcome.next.injEq] at h; subst h; exact agrees_readTag s
  · exact agrees_outcome (agrees_rdhdr s) h
  · refine agrees_outcome (s := s) (r := decodeRun s) ?_ h
    exact agrees_decode _ { s with cur := s.root } { s with cur := s.root } rfl rfl rfl rfl rfl
  · simp only [execClose, Host.Outcome.next.injEq] at h; subst h; exact closing_closeOnce s

/-- Moving past bits that are there is what reading them does. -/
theorem readBits_eq_skip {n : Nat} {src : Source} (h : src.pos + n ≤ src.bits.length) : (src.readBits n).2 = src.skip n := by
  simp [Source.readBits, Source.skip, h]

theorem completeSubtree_io {i : Idx} {frames : List Frame} {s t : State} (h : completeSubtree i frames s = .ok () t) :
    t.src = s.src ∧ t.sink = s.sink := by
  obtain ⟨_, _, _, e, -, -⟩ := completeSubtree_frame h
  rw [e]; exact ⟨rfl, rfl⟩

/-- RDHDR's turn of one token. -/
theorem agrees_token {s t : State} (h : headerTurn s = .next t) :
    runPorts (tokenPorts (decide (s.trav.frames ≠ [] ∧ s.next.toNat = Config.nodeCap)) s) (s.src, s.sink) = (t.src, t.sink) := by
  have hfull : (beginHeader s).next.toNat = Config.nodeCap ↔ (s.trav.frames ≠ [] ∧ s.next.toNat = Config.nodeCap) := by
    unfold beginHeader; split
    · next e => simp [e, Config.nodeCap]
    · next e => simp [e]
  have bsrc : (beginHeader s).src = s.src := by simp
  have bsink : (beginHeader s).sink = s.sink := by simp
  have bk : (beginHeader s).sinkClosed = s.sinkClosed := by simp
  have hlen : s.src.remaining.length = s.src.bits.length - s.src.pos := by simp [Source.remaining]
  unfold headerTurn at h
  unfold tokenPorts
  rw [show s.src.remaining = (beginHeader s).src.remaining from by simp] at h
  rw [← bsrc, ← bsink, ← closing_congr bk]
  rw [← bsrc] at hlen
  clear bsrc bsink bk
  simp only [← decide_eq_decide.2 hfull]
  generalize beginHeader s = u at *
  have e1 : u.src.remaining ≠ [] → (u.src.readBits 1).2 = u.src.skip 1 := by
    intro h; apply readBits_eq_skip
    have : u.src.remaining.length ≠ 0 := by simpa using h
    omega
  have io1 : (PortOp.read Config.intBits).run (u.src, u.sink) = ((u.src.readBits 1).2, u.sink) := rfl
  rw [runPorts_cons, io1]
  have tk := takeIndex_cases (u.skip 1)
  have tk' := takeIndex_cases (u.readBits 1).2
  rcases hr : u.src.remaining with _ | ⟨b, rest⟩
  · rw [hr] at h
    simp only [decodeHeader, tokenMissing, Run.raise, Run.outcome_raised, Host.Outcome.next.injEq] at h ⊢
    subst h; exact closing_errorEntry (u.readBits 1).2 ..
  · have e1 := e1 (by simp [hr])
    rw [hr] at h
    cases b with
    | false =>
      simp only [decodeHeader] at h ⊢
      simp only [exec, execInternal, internalToken] at h
      rcases tk with ⟨f, e⟩ | ⟨f, e⟩
      · rw [e] at h
        rw [show u.next.toNat = Config.nodeCap from f]
        simp only [Run.raise, Run.bind_raised, Run.outcome_raised, Host.Outcome.next.injEq] at h
        subst h; simp only [decide_true, if_true, e1]; exact closing_errorEntry (u.skip 1) ..
      · rw [e] at h
        rw [show decide (u.next.toNat = Config.nodeCap) = false from by simpa using f]
        simp only [Run.bind_ok, Run.outcome_eq_next] at h
        rcases h with h | h
        · rw [pushFrame_eq_ok] at h; obtain ⟨-, rfl⟩ := h
          simp [e1]
        · exact absurd h pushFrame_ne_raised
    | true =>
      simp only [decodeHeader] at h ⊢
      by_cases h9 : Config.symW ≤ rest.length
      · simp only [if_pos h9] at h ⊢
        simp only [exec, execLeaf, leafToken] at h
        rcases tk with ⟨f, e⟩ | ⟨f, e⟩
        · rw [e] at h
          rw [show u.next.toNat = Config.nodeCap from f]
          simp only [Run.raise, Run.bind_raised, Run.outcome_raised, Host.Outcome.next.injEq] at h
          subst h; simp only [decide_true, if_true, e1]; exact closing_errorEntry (u.skip 1) ..
        · rw [e] at h
          rw [show decide (u.next.toNat = Config.nodeCap) = false from by simpa using f]
          have e9 : ((u.src.skip 1).readBits 9).2 = (u.src.skip 1).skip 9 := by
            apply readBits_eq_skip
            have : u.src.remaining.length = rest.length + 1 := by simp [hr]
            simp [Source.skip]; simp only [Config.symW] at h9; omega
          simp only [Run.bind_ok, Run.outcome_eq_next] at h
          rcases h with h | h
          · rw [Run.bind_eq_ok] at h; obtain ⟨_, v, hv, h⟩ := h
            rw [writeNode_eq_ok] at hv; obtain ⟨-, rfl⟩ := hv
            obtain ⟨a, b⟩ := completeSubtree_io h
            rw [a, b]; simp [e1, PortOp.run, e9]
          · rw [Run.bind_eq_raised] at h
            rcases h with h | ⟨_, v, hv, h⟩
            · exact absurd h writeNode_ne_raised
            · exact absurd h completeSubtree_ne_raised
      · simp only [if_neg h9] at h ⊢
        simp only [leafCutShort] at h
        rcases tk' with ⟨f, e⟩ | ⟨f, e⟩
        · rw [e] at h
          rw [show u.next.toNat = Config.nodeCap from f]
          simp only [Run.raise, Run.bind_raised, Run.outcome_raised, Host.Outcome.next.injEq] at h
          subst h; simp only [decide_true, if_true]; exact closing_errorEntry (u.readBits 1).2 ..
        · rw [e] at h
          rw [show decide (u.next.toNat = Config.nodeCap) = false from by simpa using f]
          simp only [Run.bind_ok, Run.raise, Run.outcome_raised, Host.Outcome.next.injEq] at h
          subst h
          exact closing_errorEntry (State.readBits 9 { (u.readBits 1).2 with next := _ }).2 .headerTruncated 0 true

/-- WRHDR's turn of one node. -/
theorem agrees_visit {s t : State} (h : (visitWrhdr s).outcome = .next t) :
    runPorts (visitPorts s) (s.src, s.sink) = (t.src, t.sink) := by
  refine agrees_outcome (r := visitWrhdr s) (s := s) ?_ h
  unfold visitWrhdr visitPorts
  refine Run.agrees_bind (fun _ => walkPosition_ne_raised)
    (fun i t h => by rw [walkPosition_eq_ok h]; exact ⟨rfl, rfl⟩) fun i u hu => ?_
  refine Run.agrees_bind (fun _ => readNode_ne_raised)
    (fun c t h => by simp [(readNode_eq_ok.1 h).2.2]) fun c t h => ?_
  cases c.kind with
  | internal =>
    refine ⟨fun a v e => ?_, fun v e => absurd e pushFrame_ne_raised⟩
    rw [pushFrame_eq_ok] at e; obtain ⟨-, rfl⟩ := e; rfl
  | leaf => exact Run.agrees_ok rfl

/-- GENCODES' turn of one node has no transaction. -/
theorem visitGencodes_io {s t : State} (h : (visitGencodes s).outcome = .next t) :
    (s.src, s.sink) = (t.src, t.sink) := by
  rw [Run.outcome_eq_next] at h
  unfold visitGencodes at h
  dsimp only at h
  have hu : (s.src, s.sink) = ((if s.trav.frames.isEmpty = true then
      { s with code := Table.fill Config.nsym noCodeEntry, trav := Traversal.empty } else s).src,
      (if s.trav.frames.isEmpty = true then
      { s with code := Table.fill Config.nsym noCodeEntry, trav := Traversal.empty } else s).sink) := by
    split <;> rfl
  rw [hu]
  clear hu
  generalize (if s.trav.frames.isEmpty = true then
    { s with code := Table.fill Config.nsym noCodeEntry, trav := Traversal.empty } else s) = u at h
  rcases h with h | h
  · rw [Run.bind_eq_ok] at h; obtain ⟨i, s2, h2, h⟩ := h
    obtain rfl := walkPosition_eq_ok h2
    rw [Run.bind_eq_ok] at h; obtain ⟨j, s2, h2, h⟩ := h
    rw [readNode_eq_ok] at h2; obtain ⟨-, -, rfl⟩ := h2
    split at h
    · rw [Run.bind_eq_ok] at h; obtain ⟨_u, s3, h3, h⟩ := h
      rw [pushFrame_eq_ok] at h3; obtain ⟨hl, rfl⟩ := h3
      simp only [Run.ok.injEq, true_and] at h; subst h; rfl
    · rw [Run.bind_eq_ok] at h; obtain ⟨_u, s3, h3, h⟩ := h
      rw [writeCode_eq_ok] at h3; obtain ⟨-, rfl⟩ := h3
      simp only [Run.ok.injEq, true_and] at h; subst h; rfl
  · rw [Run.bind_eq_raised] at h
    rcases h with h | ⟨i, s2, h2, h⟩
    · exact absurd h walkPosition_ne_raised
    · rw [Run.bind_eq_raised] at h
      rcases h with h | ⟨i, s2, h2, h⟩
      · exact absurd h readNode_ne_raised
      · split at h
        · rw [Run.bind_eq_raised] at h
          rcases h with h | ⟨i, s2, h2, h⟩
          · unfold pushFrame at h; split at h <;> simp at h
          · simp at h
        · rw [Run.bind_eq_raised] at h
          rcases h with h | ⟨i, s2, h2, h⟩
          · exact absurd h writeCode_ne_raised
          · simp at h

end Sys2Proof.Machine
end

