-- ==== Sys2Proof/Tests/Slice0.lean ====
section
/-! SUPPORT. Tests of single operations against the vectors of 95_test_vectors.md (V and P numbers in the comments), decoding of
words written out from 30_encoding.md, well-formedness, and a witness for the hypotheses of every statement. -/

namespace Sys2Proof.Tests

open Sys2Proof.Machine Sys2Proof.Safety
open Host (Outcome)

-- Checked one after another: many theorems waiting for the kernel at once cost a thread and its stack each.
set_option Elab.async false

/-! ## Helpers -/

/-- A file's bytes. -/
def bytes (l : List Nat) : List Byte := l.map (BitVec.ofNat 8)

/-- The state after reset with a source holding a file. -/
def onBytes (l : List Nat) : State := { State.reset with src := ⟨bitsOfBytes (bytes l), 0, none⟩ }

/-- The outcome is a next state with a property. -/
def onNext (o : Outcome State Fault Refusal) (p : State → Bool) : Bool :=
  match o with
  | .next t => p t
  | .fault _ | .refused _ => false

theorem exists_of_onNext {o : Outcome State Fault Refusal} {p : State → Bool} (h : onNext o p = true) :
    ∃ t, o = .next t ∧ p t = true := by
  cases o with
  | next t => exact ⟨t, rfl, h⟩
  | fault f => simp [onNext] at h
  | refused r => simp [onNext] at h

/-- A stretch of a micro-operation raised, and left a property. -/
def onRaised (r : Run Unit) (p : State → Bool) : Bool :=
  match r with
  | .raised t => p t
  | .ok _ _ | .bad _ => false

/-- A stretch of a micro-operation ended, and left a property. -/
def onOk (r : Run Unit) (p : State → Bool) : Bool :=
  match r with
  | .ok _ t => p t
  | .raised _ | .bad _ => false

/-- The byte file of the sink once closed. -/
def fileOf (s : State) : List Byte := bytesOfBits s.sink.close.bits

/-- FREQ of V10 (R142's form): 65 three times, 66 once, the sentinel once. -/
def freqV10 : Table Count := (((Table.fill 257 0).write 65 3).write 66 1).write 256 1

/-- FREQ of V11: the sentinel alone. -/
def freqV11 : Table Count := (Table.fill 257 0).write 256 1

/-- NODE of V40: the tree of V10 as RDHDR numbers it. -/
def nodeV40 : Table Node :=
  [(0, internalNode 0 1 4), (1, internalNode 0 2 3), (2, leafNode 66 0), (3, leafNode 256 0), (4, leafNode 65 0)]

/-- The tree of V10 and V40. -/
def treeV40 : Tree := .node (.node (.leaf 66) (.leaf 256)) (.leaf 65)

/-- The tree of V40 in NODE, with a file at the source. -/
def sV40 (l : List Nat) : State := { onBytes l with node := nodeV40 }

/-- CODE of V10. -/
def codeV10 : Table CodeEntry :=
  (((Table.fill 257 noCodeEntry).write 65 ⟨true, 1, 1⟩).write 66 ⟨true, 2, 0⟩).write 256 ⟨true, 2, 1⟩

/-- A right comb with n leaves of symbol 0 and one sentinel: 2n + 1 nodes. -/
def comb : Nat → Tree
  | 0 => .leaf 256
  | n + 1 => .node (.leaf 0) (comb n)

/-! ## Well-formedness (R112, R104, R117) -/

theorem test_leaf_256_wellFormed : (Instr.leaf 256).wellFormed = true := by decide
theorem test_leaf_257_illFormed : (Instr.leaf 257).wellFormed = false := by decide
theorem test_leaf_511_illFormed : (Instr.leaf 511).wellFormed = false := by decide

/-! ## Decoding: words written out bit by bit from R114, R116, R102 to R104 -/

theorem test_decode_commands :
    decodeCommand 0b00000000000000000000000000000001 = .ok .compress ∧
    decodeCommand 0b00000000000000000000000000000010 = .ok .decompress ∧
    decodeCommand 0b00000000000000000000000000000011 = .ok .clear ∧
    decodeCommand 0b10000000000000000000000000000001 = .error (.illegalCommand 0x80000001) := by decide

theorem test_decode_phases :
    (List.range 16).map (fun p => decodePhase (BitVec.ofNat 4 p)) =
      [.error .noMicroOperation, .ok .count, .ok .build, .ok .gencodes, .ok .wrtag, .ok .wrhdr, .ok .encode,
        .ok .rdtag, .ok .rdhdr, .ok .decode, .ok .close, .error (.reservedPhase 11), .error (.reservedPhase 12),
        .error (.reservedPhase 13), .error (.reservedPhase 14), .error (.reservedPhase 15)] := by decide

/-- The tag 0xAABBCCDD, its bytes AA BB CC DD in stream order (R102, V2). -/
theorem test_decode_tag :
    decodeTag (bitsOfBytes (bytes [0xAA, 0xBB, 0xCC, 0xDD, 0x24])) =
      .ok (.tag 0xAABBCCDD, [false, false, true, false, false, true, false, false]) := by decide +kernel

theorem test_decode_tag_cut : decodeTag (bitsOfBytes (bytes [0xAA, 0xBB])) = .error .tagCut := by decide

/-- INTERNAL is the single bit 0 (R103). -/
theorem test_decode_internal : decodeHeader [false, true] = .ok (.internal, [true]) := by decide

/-- LEAF 66 of V10's header is 1 001000010 (R104). -/
theorem test_decode_leaf :
    decodeHeader [true, false, false, true, false, false, false, false, true, false, true] = .ok (.leaf 66, [true]) := by
  decide

theorem test_decode_header_cut :
    decodeHeader [] = .error .tokenMissing ∧ decodeHeader [true, false, false] = .error .leafCut := by decide

/-- The opcode table's own words, one of each row, are read as the rows' operations. -/
theorem test_table_words :
    [(32, 1), (32, 2), (32, 3), (8, 1), (8, 2), (8, 3), (8, 4), (8, 5), (8, 6), (8, 7), (8, 8), (8, 9), (8, 10),
        (32, 0xAABBCCDD), (8, 0), (16, 0x242)].map (fun p => decodeTableWord p.1 p.2) =
      [some .compress, some .decompress, some .clear, some .count, some .build, some .gencodes, some .wrtag,
        some .wrhdr, some .encode, some .rdtag, some .rdhdr, some .decode, some .close,
        some (.tag 0xAABBCCDD), some .internal, some (.leaf 66)] := by decide +kernel

/-- Placed after reset, a row's word runs as the first step (the rows that need no tables, and COUNT). -/
theorem test_table_words_run :
    [(32, 1), (32, 2), (32, 3), (8, 1), (8, 4), (8, 8), (8, 9), (8, 10), (8, 0), (16, 0x242)].all
      (fun p => onNext (step (State.reset.withFetchWord p.1 p.2)) (fun _ => true)) = true := by decide +kernel

/-! ## Ports (R62 to R71) -/

/-- V1: a one bit and a 9-bit 256, closed: C0 00. -/
theorem test_write_and_close :
    fileOf ((State.reset.writeBits 1 1).writeBits 9 256) = bytes [0xC0, 0x00] := by decide

/-- V3: only the low 8 bits are written. -/
theorem test_write_low_bits : fileOf (State.reset.writeBits 8 0x12C) = bytes [0x2C] := by decide

/-- V6: one bit, nine bits, then EOI with six bits left, and the position at the end. -/
theorem test_read_bits :
    let s := onBytes [0xA5, 0x3C]
    let r1 := s.readBits 1
    let r2 := r1.2.readBits 9
    let r3 := r2.2.readBits 8
    r1.1 = some 1 ∧ r2.1 = some 148 ∧ r2.2.src.pos = 10 ∧ r3.1 = none ∧ r3.2.src.pos = 16 ∧
      (r3.2.rewind.readBits 8).1 = some 0xA5 := by decide

/-! ## Commands and host moves -/

/-- COMPRESS accepted in IDLE: BUSY with PHASE 1 (R222, P1). -/
theorem test_compress_accepted :
    onNext (step { State.reset with moves := [.write .cmd 1] })
      (fun t => t.status = 0x00000005 ∧ t.cmd = 1) = true := by decide

/-- COMPRESS dropped in DONE; CMD takes the word all the same (P4). -/
theorem test_compress_dropped :
    onNext (step { State.reset with state := .done, sinkClosed := true, moves := [.write .cmd 1] })
      (fun t => t.status = 0x00000202 ∧ t.cmd = 1) = true := by decide

/-- DECOMPRESS accepted in IDLE: BUSY with PHASE 7 (R223, P2). -/
theorem test_decompress_accepted :
    onNext (step { State.reset with moves := [.write .cmd 2] })
      (fun t => t.status = 0x0000001D ∧ t.cmd = 2) = true := by decide

/-- CLEAR from DONE: STATUS reads 0, CMD reads 3 (P4). -/
theorem test_clear_from_done :
    onNext (step { State.reset with state := .done, sinkClosed := true, moves := [.write .cmd 3] })
      (fun t => t.status = 0 ∧ t.cmd = 3) = true := by decide

/-- P7: an illegal word makes STATUS 3, ERR_CAUSE 7 and ERR_INFO the word, the sink open. -/
theorem test_illegal_word :
    onNext (step { State.reset with moves := [.write .cmd 4] })
      (fun t => t.status = 3 ∧ t.hostRead .errCause = 7 ∧ t.errInfo = 4 ∧ t.sink = ⟨[], false⟩) = true := by decide

/-! ## Compression's micro-operations -/

/-- V10's counts. -/
theorem test_count :
    onNext (exec .count (onBytes [0x41, 0x41, 0x41, 0x42]))
      (fun t => t.freq.read 65 = some 3 ∧ t.freq.read 66 = some 1 ∧ t.freq.read 256 = some 1 ∧ t.freq.read 67 = some 0 ∧
        t.freqValid = true ∧ t.src.pos = 32) = true := by decide +kernel

/-- V70: with counts of 2 bits the fourth equal byte overflows: ERR_INFO the byte, STATUS 0x207. -/
theorem test_count_overflow :
    onRaised (countRun 3 { onBytes [0x41, 0x41, 0x41, 0x41] with state := .busy, phase := .count })
      (fun t => t.status = 0x00000207 ∧ t.hostRead .errCause = 5 ∧ t.errInfo = 0x41 ∧ t.freq.read 65 = some 3 ∧
        t.src.pos = 32 ∧ t.sink = ⟨[], true⟩) = true := by decide +kernel

/-- V10's merges: BUILD's three parts over the symbols V10 counts. -/
theorem test_build :
    onOk ((buildLeaves [65, 66, 256] { State.reset with freq := [(65, 3), (66, 1), (256, 1)] }).bind fun _ s =>
        (mergeLoop s.nlive.toNat { s with next := 257 }).bind fun _ s => buildFinish s)
      (fun t => t.root = 258 ∧ t.next = 259 ∧ t.node.read 257 = some (internalNode 2 66 256) ∧
        t.node.read 258 = some (internalNode 5 257 65) ∧ holdsTree t.node treeV40 t.root = true) = true := by
  decide +kernel

/-- V20: a leaf goes before an Internal node of equal weight. -/
theorem test_build_tie :
    onOk (mergeLoop 3 { State.reset with
        node := [(10, leafNode 10 2), (20, leafNode 20 1), (256, leafNode 256 1)], live := [10, 20, 256]
        nlive := 3, next := 257 })
      (fun t => t.node.read 257 = some (internalNode 2 20 256) ∧
        t.node.read 258 = some (internalNode 4 10 257)) = true := by decide +kernel

/-- V30's codes. -/
theorem test_gencodes :
    onNext (exec .gencodes (sV40 []))
      (fun t => t.code.read 65 = some ⟨true, 1, 1⟩ ∧ t.code.read 66 = some ⟨true, 2, 0⟩ ∧
        t.code.read 256 = some ⟨true, 2, 1⟩ ∧ t.code.read 67 = some ⟨false, 0, 0⟩ ∧ t.codeValid = true) = true := by
  decide +kernel

/-- V31: a leaf root gets the code 0. -/
theorem test_gencodes_leaf_root :
    onNext (exec .gencodes { State.reset with node := [(256, leafNode 256 1)], root := 256 })
      (fun t => t.code.read 256 = some ⟨true, 1, 0⟩) = true := by decide +kernel

/-- R211: 32 bits, MAGIC's. -/
theorem test_wrtag : exec .wrtag State.reset =
    .next { State.reset with sink := ⟨msbFirst 32 Config.magic.toNat, false⟩ } := rfl

/-- V2: the tag 0xAABBCCDD is written as AA BB CC DD. -/
theorem test_wrtag_order : fileOf (writeTag 0xAABBCCDD State.reset) = bytes [0xAA, 0xBB, 0xCC, 0xDD] := by decide

/-- V40: the header of V10 is 24 2C 02 41. -/
theorem test_wrhdr :
    onNext (exec .wrhdr (sV40 [])) (fun t => fileOf t = bytes [0x24, 0x2C, 0x02, 0x41]) = true := by decide +kernel

/-- V10's payload: 1110001, then one zero bit. -/
theorem test_encode :
    onNext (exec .encode { onBytes [0x41, 0x41, 0x41, 0x42] with code := codeV10 })
      (fun t => t.sink.bits.length = 7 ∧ fileOf t = bytes [0xE2] ∧ t.src.pos = 32) = true := by decide +kernel

/-- V71: the second pass delivers a byte the first did not. -/
theorem test_encode_no_code :
    onNext (exec .encode
      { onBytes [0x41, 0x41] with
        src := ⟨bitsOfBytes (bytes [0x41, 0x41]), 16, some (bitsOfBytes (bytes [0x41, 0x42]))⟩
        code := ((Table.fill 257 noCodeEntry).write 65 ⟨true, 1, 1⟩).write 256 ⟨true, 1, 0⟩
        state := .busy, phase := .encode })
      (fun t => t.status = 0x0000021B ∧ t.hostRead .errCause = 6 ∧ t.errInfo = 0x42 ∧
        t.sink.bits = [true, false, false, false, false, false, false, false]) = true := by decide +kernel

/-- V1 through CLOSE, and a second CLOSE that changes nothing. -/
theorem test_close :
    onNext (exec .close ((State.reset.writeBits 1 1).writeBits 9 256))
      (fun t => t.sink.file = some (bytes [0xC0, 0x00]) ∧ onNext (exec .close t) (fun u => u = t)) = true := by
  decide

/-! ## Decompression's micro-operations -/

/-- V62: two bytes where the tag is due. -/
theorem test_rdtag_cut :
    onNext (exec .rdtag { onBytes [0xAA, 0xBB] with state := .busy, phase := .rdtag })
      (fun t => t.status = 0x0000061F ∧ t.hostRead .errCause = 1 ∧ t.errInfo = 0 ∧ t.src.pos = 16) = true := by decide

/-- V61, with MAGIC = 0xAABBCCDD for illustration. -/
theorem test_rdtag_bad :
    let t := readTag 0xAABBCCDD
      { onBytes [0xAA, 0xBB, 0xCC, 0xDE, 0x24] with state := .busy, phase := .rdtag }
    t.status = 0x0000021F ∧ t.errInfo = 0xAABBCCDE ∧ t.src.pos = 32 := by decide +kernel

/-- V40: the tree, its indices in preorder, and the position after it. -/
theorem test_rdhdr :
    onNext (exec .rdhdr (onBytes [0x24, 0x2C, 0x02, 0x41]))
      (fun t => t.node = nodeV40 ∧ t.root = 0 ∧ t.next = 5 ∧ t.src.pos = 32 ∧ t.treeValid = true) = true := by
  decide +kernel

/-- P8 without its tag: a leaf value cut short; nodes 1, 2 and 3 are written, 0 and 4 are not. -/
theorem test_rdhdr_truncated :
    onNext (exec .rdhdr { onBytes [0x24, 0x2C, 0x02] with state := .busy, phase := .rdhdr })
      (fun t => t.status = 0x00000623 ∧ t.hostRead .errCause = 2 ∧ t.next = 5 ∧ t.src.pos = 24 ∧
        t.node.map (fun e => e.1) = [1, 2, 3]) = true := by decide +kernel

/-- V42 and V43 (R185 b): 513 zero bits end in HEADER_TRUNCATED, the index of each taken; the 514th overflows the table. -/
theorem test_rdhdr_zero_bits :
    onNext (exec .rdhdr { State.reset with src := ⟨List.replicate 513 false, 0, none⟩ })
      (fun t => t.hostRead .errCause = 2 ∧ t.errEoi = true ∧ t.next = 513 ∧ t.src.pos = 513) = true ∧
    onNext (exec .rdhdr { State.reset with src := ⟨List.replicate 514 false, 0, none⟩ })
      (fun t => t.hostRead .errCause = 4 ∧ t.errEoi = false ∧ t.errInfo = 513 ∧ t.next = 513 ∧ t.src.pos = 514) = true := by
  decide +kernel

/-- V50: the padding bit is not read. -/
theorem test_decode :
    onNext (exec .decode (sV40 [0xE2]))
      (fun t => fileOf t = bytes [0x41, 0x41, 0x41, 0x42] ∧ t.src.pos = 7 ∧ t.cur = 3) = true := by decide +kernel

/-- P6: the payload ends before the sentinel; what was written stays. -/
theorem test_decode_truncated :
    onNext (exec .decode { sV40 [0xE0] with state := .busy, phase := .decode })
      (fun t => t.status = 0x00000627 ∧ t.hostRead .errCause = 3 ∧
        t.sink.file = some (bytes [0x41, 0x41, 0x41, 0x42, 0x42])) = true := by decide +kernel

/-! ## Container tokens -/

/-- R213 through the token: a tag that is not the expected one is named. -/
theorem test_tag_bad :
    (checkTag 0xAABBCCDD 0xAABBCCDE { onBytes [0xAA, 0xBB, 0xCC, 0xDE] with state := .busy, phase := .rdtag }).errInfo =
      0xAABBCCDE := by decide

/-- The first token of V40's header: index 0 is taken and goes on the stack. -/
theorem test_internal :
    onNext (step { onBytes [0x24, 0x2C, 0x02, 0x41] with state := .busy, phase := .rdhdr, moves := [.block .node] })
      (fun t => t.next = 1 ∧ t.trav.frames = [⟨0, false⟩] ∧ t.src.pos = 1 ∧ t.state = .busy) = true := by decide

/-- V43: the type bit of a 514th node is read, then the table is full. -/
theorem test_internal_overflow :
    onNext (exec .internal { onBytes [0x00] with state := .busy, phase := .rdhdr, next := 513 })
      (fun t => t.status = 0x00000223 ∧ t.hostRead .errCause = 4 ∧ t.errInfo = 0x00000201 ∧ t.src.pos = 1) = true := by
  decide

/-- V41: a header of one leaf is complete after its token. -/
theorem test_leaf :
    onNext (step { onBytes [0xC0, 0x00] with state := .busy, phase := .rdhdr, moves := [.block .node] })
      (fun t => t.node = [(0, leafNode 256 0)] ∧ t.root = 0 ∧ t.next = 1 ∧ t.src.pos = 10 ∧ t.treeValid = true ∧
        t.phase = .decode) = true := by decide +kernel

/-! ## Reset inside a turn (R271), by hand from the pseudocode of R141, R191 and R201 -/

/-- COUNT, after two of four bytes: IDLE, PHASE 0, FREQ unspecified, the source two bytes in, the sink open and empty. -/
theorem test_reset_during_count :
    onNext (step { onBytes [0x41, 0x41, 0x41, 0x42] with
        state := .busy, phase := .count, cmd := 1, moves := [.resetDuring .microOp 2] })
      (fun t => t.status = 0 ∧ t.cmd = 0 ∧ t.freq = [] ∧ t.src.pos = 16 ∧ t.sink = ⟨[], false⟩) = true := by decide +kernel

/-- ENCODE with V10's codes, after Rewind, a byte, its bit and the next byte: one bit of OUT is there, and it stays open. -/
theorem test_reset_during_encode :
    onNext (step { onBytes [0x41, 0x41, 0x41, 0x42] with
        src := ⟨bitsOfBytes (bytes [0x41, 0x41, 0x41, 0x42]), 32, none⟩
        code := [(65, ⟨true, 1, 1⟩), (66, ⟨true, 2, 0⟩), (256, ⟨true, 2, 1⟩)]
        state := .busy, phase := .encode, moves := [.resetDuring .microOp 4] })
      (fun t => t.status = 0 ∧ t.errCause = .none ∧ t.src.pos = 16 ∧ t.sink = ⟨[true], false⟩) = true := by decide +kernel

/-- DECODE of V50's payload, after a bit, the literal 41 and the next bit. -/
theorem test_reset_during_decode :
    onNext (step { sV40 [0xE2] with state := .busy, phase := .decode, moves := [.resetDuring .microOp 3] })
      (fun t => t.status = 0 ∧ t.cur = 0 ∧ t.node = [] ∧ t.src.pos = 2 ∧
        t.sink = ⟨[false, true, false, false, false, false, false, true], false⟩) = true := by decide +kernel

/-! ## Witnesses: the hypotheses of every statement can be met -/

/-- A step of this state answers a next state with the property given. -/
theorem next_exists {s : State} {i : Instr} (p : State → Bool) (h : onNext (exec i s) p = true) :
    ∃ t, exec i s = .next t ∧ p t = true := exists_of_onNext h

theorem step_exists {s : State} (p : State → Bool) (h : onNext (step s) p = true) :
    ∃ t, step s = .next t ∧ p t = true := exists_of_onNext h

/-- TokensReadBack, clause 4: an INTERNAL, and the greatest LEAF with nothing after it. -/
theorem test_witness_TokensReadBack :
    decodeHeader [false] = .ok (.internal, []) ∧
    decodeHeader (List.replicate 10 true) = .ok (.leaf 511, []) := by decide

/-- StepRunsDecoded: all four clauses. -/
theorem test_witness_StepRunsDecoded :
    (∃ (s : State) (i : Instr), s.state = .busy ∧ s.trav.frames = [] ∧ decodePhase s.phase.code = .ok i ∧ s.moves = []) ∧
    (∃ (s : State) (i : Instr) (rest : List Move), s.state = .busy ∧ s.trav.frames = [] ∧ decodePhase s.phase.code = .ok i ∧
      s.moves = Move.block .microOp :: rest) ∧
    (∃ (s : State) (w : Word) (i : Instr) (rest : List Move), s.moves = .write .cmd w :: rest ∧ decodeCommand w = .ok i) ∧
    (∃ (s : State) (i : Instr) (rest : List Move) (bs : Bits), s.state = .busy ∧ s.phase = .rdhdr ∧
      s.moves = .block .node :: rest ∧ decodeHeader s.src.remaining = .ok (i, bs)) ∧
    (∃ (s : State) (i : Instr) (rest : List Move) (bs : Bits), s.state = .busy ∧ s.phase = .rdtag ∧
      s.moves = .block .node :: rest ∧ decodeTag s.src.remaining = .ok (i, bs)) := by
  refine ⟨⟨{ State.reset with state := .busy, phase := .close }, .close, by decide⟩,
    ⟨{ State.reset with state := .busy, phase := .count, moves := [.block .microOp] }, .count, [], by decide⟩,
    ⟨{ State.reset with moves := [.write .cmd 3] }, 3, .clear, [], by decide⟩,
    ⟨{ onBytes [0x00] with state := .busy, phase := .rdhdr, moves := [.block .node] }, .internal, [],
      List.replicate 7 false, by decide⟩,
    ⟨{ onBytes [0, 0, 0, 1] with state := .busy, phase := .rdtag, moves := [.block .node] }, .tag 1, [], [], by decide⟩⟩

theorem test_witness_WaitsForACommand : State.reset.state ≠ .busy ∧ State.reset.moves = [] := by decide

/-- CommandsAcceptedOrDropped: IDLE, not IDLE, BUSY; ClearLeavesResetValues: each STATE but BUSY. -/
theorem test_witness_Commands :
    State.reset.state = .idle ∧ ({ State.reset with state := .done } : State).state ≠ .idle ∧
    ({ State.reset with state := .busy } : State).state = .busy ∧ State.reset.state ≠ .busy ∧
    ({ State.reset with state := .error } : State).state ≠ .busy := by decide

/-- AcceptanceTable and IllegalCommandWord: every clause, at the words next to the legal ones and the greatest one. -/
theorem test_witness_AcceptanceTable :
    (∃ s u : State, ∃ w rest, s.moves = .write .cmd w :: rest ∧ u = { s with moves := rest, cmd := w } ∧
      s.state = .idle ∧ w = 1) ∧
    (∃ s u : State, ∃ w rest, s.moves = .write .cmd w :: rest ∧ u = { s with moves := rest, cmd := w } ∧
      s.state = .idle ∧ w = 2) ∧
    (∃ s u : State, ∃ w rest, s.moves = .write .cmd w :: rest ∧ u = { s with moves := rest, cmd := w } ∧
      s.state ≠ .idle ∧ w ≠ 3) ∧
    (∃ s u : State, ∃ w rest, s.moves = .write .cmd w :: rest ∧ u = { s with moves := rest, cmd := w } ∧
      s.state = .busy) ∧
    (∃ s u : State, ∃ w rest, s.moves = .write .cmd w :: rest ∧ u = { s with moves := rest, cmd := w } ∧
      s.state ≠ .busy ∧ w = 3) ∧
    (∃ s u : State, ∃ w rest, s.moves = .write .cmd w :: rest ∧ u = { s with moves := rest, cmd := w } ∧
      s.state = .idle ∧ w ≠ 1 ∧ w ≠ 2 ∧ w ≠ 3) :=
  ⟨⟨{ State.reset with moves := [.write .cmd 1] }, _, 1, [], rfl, rfl, rfl, rfl⟩,
    ⟨{ State.reset with moves := [.write .cmd 2] }, _, 2, [], rfl, rfl, rfl, rfl⟩,
    ⟨{ State.reset with state := .error, moves := [.write .cmd 4] }, _, 4, [], rfl, rfl, by decide, by decide⟩,
    ⟨{ State.reset with state := .busy, moves := [.write .cmd 3] }, _, 3, [], rfl, rfl, rfl⟩,
    ⟨{ State.reset with state := .error, moves := [.write .cmd 3] }, _, 3, [], rfl, rfl, by decide, rfl⟩,
    ⟨{ State.reset with moves := [.write .cmd 0] }, _, 0, [], rfl, rfl, rfl, by decide, by decide, by decide⟩⟩

theorem test_witness_IllegalCommandWord :
    (∃ (s : State) (w : Word) (rest : List Move), w ≠ 1 ∧ w ≠ 2 ∧ w ≠ 3 ∧ s.moves = .write .cmd w :: rest ∧
      s.state = .idle) ∧
    (∃ (s : State) (w : Word) (rest : List Move), w ≠ 1 ∧ w ≠ 2 ∧ w ≠ 3 ∧ s.moves = .write .cmd w :: rest ∧
      s.state ≠ .idle) :=
  ⟨⟨{ State.reset with moves := [.write .cmd 0xFFFFFFFF] }, 0xFFFFFFFF, [], by decide⟩,
    ⟨{ State.reset with state := .busy, moves := [.write .cmd 4] }, 4, [], by decide⟩⟩

theorem test_witness_HostRegisterAccess :
    ({ State.reset with moves := [.read .errInfo] } : State).moves = .read .errInfo :: [] ∧
    (HostReg.status ≠ .cmd ∧
      ({ State.reset with moves := [.write .status 0xFFFFFFFF] } : State).moves = .write .status 0xFFFFFFFF :: []) := by
  decide

theorem test_witness_AttachOnlyAtRest :
    (∃ (s : State) (bits : Bits) (rewound : Option Bits) (rest : List Move),
      s.moves = .attach bits rewound :: rest ∧ s.state ≠ .busy) ∧
    (∃ (s : State) (bits : Bits) (rewound : Option Bits) (rest : List Move),
      s.moves = .attach bits rewound :: rest ∧ s.state = .busy) :=
  ⟨⟨{ State.reset with moves := [.attach [true] none] }, [true], none, [], by decide⟩,
    ⟨{ State.reset with state := .busy, moves := [.attach [] (some [])] }, [], some [], [], by decide⟩⟩

/-- ResetInput, in the middle of a command. -/
theorem test_witness_ResetInput :
    ({ State.reset with state := .busy, phase := .encode, moves := [.reset] } : State).moves = .reset :: [] := rfl

theorem count_le_of_short {l : List Byte} {n : Nat} (h : l.length ≤ n) : ∀ b : Byte, l.count b ≤ n :=
  fun b => (List.count_le_length (a := b) (l := l)).trans h

/-- ResetOnTheSpot: its move in a count; no command; a turn that ends; then COUNT after all of its bytes, ENCODE inside the second
byte's code and DECODE after the first literal. -/
theorem test_witness_ResetOnTheSpot :
    (∃ (s u : State) (g : Grain) (k : Nat) (rest : List Move) (io : Source × Sink),
      s.moves = .resetDuring g k :: rest ∧ u = { s with moves := rest } ∧
      io = runPorts ((turnPorts g u).take k) (s.src, s.sink) ∧ s.state = .busy) ∧
    State.reset.state ≠ .busy ∧
    (∃ (s t : State) (g : Grain), blockTurn g s = .next t ∧ s.state = .busy) ∧
    (∃ (s : State) (k : Nat), s.state = .busy ∧ s.trav.frames = [] ∧ s.phase = .count ∧
      (∀ b : Byte, (bytesOfBits s.src.remaining).count b ≤ 2 ^ 32 - 1) ∧ k ≤ (bytesOfBits s.src.remaining).length ∧
      k = 2) ∧
    (∃ (s : State) (before after : List Byte) (b : Byte) (c : CodeEntry) (j : Nat), s.state = .busy ∧
      s.trav.frames = [] ∧ s.phase = .encode ∧ bytesOfBits s.src.rewind.bits = before ++ b :: after ∧
      (∀ x ∈ before, ∃ cx, s.code.read x.toNat = some cx ∧ cx.valid = true) ∧
      s.code.read b.toNat = some c ∧ c.valid = true ∧ j ≤ c.len.toNat ∧ j = 1 ∧ before ≠ []) ∧
    (∃ (s : State) (tree : Tree) (read rest : Bits) (syms : List Sym), s.state = .busy ∧ s.trav.frames = [] ∧
      s.phase = .decode ∧ holdsTree s.node tree s.root = true ∧ s.src.remaining = read ++ rest ∧
      tree.walk tree read = (syms, none) ∧ syms = [65]) := by
  have e : bytesOfBits (onBytes [0x41, 0x42]).src.remaining = bytes [0x41, 0x42] := by decide +kernel
  refine ⟨⟨{ State.reset with state := .busy, phase := .count, moves := [.resetDuring .microOp 1] }, _, .microOp, 1, [], _,
      rfl, rfl, rfl, rfl⟩, by decide,
    ⟨{ State.reset with state := .busy, phase := .close }, _, .microOp, rfl, rfl⟩,
    ⟨{ onBytes [0x41, 0x42] with state := .busy, phase := .count }, 2, rfl, rfl, rfl, ?_, by decide +kernel, rfl⟩,
    ⟨{ onBytes [0x41, 0x42] with
      code := [(65, ⟨true, 1, 1⟩), (66, ⟨true, 2, 0⟩)], state := .busy, phase := .encode }, bytes [0x41], [], 0x42,
      ⟨true, 2, 0⟩, 1, rfl, rfl, rfl, by decide +kernel, ?_, by decide, rfl, by decide, rfl, by decide⟩,
    ⟨{ sV40 [0xE2] with state := .busy, phase := .decode }, treeV40, [true],
      [true, true, false, false, false, true, false], [65], rfl, rfl, rfl, by decide, by decide, by decide, rfl⟩⟩
  · rw [show bytesOfBits (State.src _).remaining = bytes [0x41, 0x42] from e]
    exact count_le_of_short (by decide)
  · intro b hb
    rcases List.mem_cons.1 hb with rfl | hb
    · exact ⟨⟨true, 1, 1⟩, by decide, rfl⟩
    · simp at hb

/-- ReadBitsValue: exactly enough bits, and one too few. -/
theorem test_witness_ReadBitsValue :
    (onBytes [0xA5]).src.pos + 8 ≤ (onBytes [0xA5]).src.bits.length ∧
    ¬ (onBytes [0xA5]).src.pos + 9 ≤ (onBytes [0xA5]).src.bits.length := by decide

/-- CountCountsBytes: V10's input. -/
theorem test_witness_CountCountsBytes :
    ∀ b : Byte, (bytesOfBits (onBytes [0x41, 0x41, 0x41, 0x42]).src.remaining).count b ≤ 2 ^ 32 - 1 := by
  have e : bytesOfBits (onBytes [0x41, 0x41, 0x41, 0x42]).src.remaining = bytes [0x41, 0x41, 0x41, 0x42] := by decide +kernel
  rw [e]
  exact count_le_of_short (by decide)

/-- CountOverflowRaised: V70, and a limit of 0, which the first byte reaches. -/
theorem test_witness_CountOverflowRaised :
    (∃ (limit : Count) (s : State) (before after : List Byte) (b : Byte),
      bytesOfBits s.src.remaining = before ++ b :: after ∧ before.count b = limit.toNat ∧
      (∀ c : Byte, before.count c ≤ limit.toNat) ∧ limit = 3) ∧
    (∃ (limit : Count) (s : State) (before after : List Byte) (b : Byte),
      bytesOfBits s.src.remaining = before ++ b :: after ∧ before.count b = limit.toNat ∧
      (∀ c : Byte, before.count c ≤ limit.toNat) ∧ limit = 0) :=
  ⟨⟨3, onBytes [0x41, 0x41, 0x41, 0x41], bytes [0x41, 0x41, 0x41], [], 0x41, by decide +kernel, by decide,
      count_le_of_short (by decide), rfl⟩,
    ⟨0, onBytes [0x41], [], [], 0x41, by decide +kernel, by decide, count_le_of_short (by decide), rfl⟩⟩

theorem test_witness_CountFrame : ∃ s t, exec .count s = .next t :=
  ⟨_, (next_exists _ test_count).imp fun _ h => h.1⟩

/-- PopMinOrder: two live nodes of equal weight, both clauses. -/
theorem test_witness_PopMinOrder :
    (∃ (s u : State) (m : Nat), popMin s = .ok m u ∧ ∃ i ∈ s.live, i ≠ m) ∧
    (∃ s : State, s.live ≠ [] ∧ ∀ i ∈ s.live, i < Config.nodeCap ∧ (s.node.read i).isSome) :=
  ⟨⟨{ State.reset with node := [(3, leafNode 3 1), (512, leafNode 4 1)], live := [3, 512], nlive := 2 }, _, 3, rfl,
      512, by decide, by decide⟩,
    ⟨{ State.reset with node := [(3, leafNode 3 1), (512, leafNode 4 1)], live := [3, 512], nlive := 2 }, by decide,
      by decide⟩⟩

theorem freqReady_write {freq : Table Count} (h : ∀ i < 257, (freq.read i).isSome) (k : Nat) (c : Count) :
    ∀ i < 257, ((freq.write k c).read i).isSome := by
  intro i hi
  by_cases e : k = i
  · subst e; simp [Table.read_write_same]
  · rw [Table.read_write_other _ _ e]; exact h i hi

theorem freqReady_fill : ∀ i < 257, ((Table.fill 257 (0 : Count)).read i).isSome := by
  intro i hi; simp [Table.read_fill, hi]

theorem freqReadyV10 : FreqReady { State.reset with freq := freqV10 } :=
  ⟨freqReady_write (freqReady_write (freqReady_write freqReady_fill _ _) _ _) _ _, Table.read_write_same _ _ _⟩

theorem freqReadyV11 : FreqReady { State.reset with freq := freqV11 } :=
  ⟨freqReady_write freqReady_fill 256 1, Table.read_write_same _ _ _⟩

/-- BuildEndsAtRoot: three symbols, and the sentinel alone. -/
theorem test_witness_BuildEndsAtRoot :
    (∃ (s : State) (L r : Nat), FreqReady s ∧ L = (countedSyms s.freq).length ∧ r = (if L = 1 then 256 else 255 + L) ∧
      s.freq = freqV10) ∧
    (∃ (s : State) (L r : Nat), FreqReady s ∧ L = (countedSyms s.freq).length ∧ r = (if L = 1 then 256 else 255 + L) ∧
      s.freq = freqV11) :=
  ⟨⟨_, _, _, freqReadyV10, rfl, rfl, rfl⟩, ⟨_, _, _, freqReadyV11, rfl, rfl, rfl⟩⟩

/-- BuildMakesATree and CodeTableIsPrefixFree. -/
theorem test_witness_FreqReady : ∃ s : State, FreqReady s := ⟨_, freqReadyV10⟩

/-- V11's BUILD: the sentinel is the whole tree. -/
theorem build_v11 :
    exec .build { State.reset with freq := freqV11 } =
      .next { State.reset with
        freq := freqV11, node := [(256, leafNode 256 1)], live := [256], nlive := 1, next := 257, root := 256
        treeValid := true } := by
  have zero : ∀ i ∈ List.range 256, i < Config.nsym ∧ freqV11.read i = some 0 := by
    intro i hi
    have hi := List.mem_range.1 hi
    refine ⟨Nat.lt_succ_of_lt hi, ?_⟩
    show ((Table.fill 257 (0 : Count)).write 256 1).read i = some 0
    rw [Table.read_write_other _ _ (by omega), Table.read_fill, if_pos (by omega)]
  have last : readFreq 256 ({ State.reset with freq := freqV11, live := [], nlive := 0 } : State) =
      .ok 1 { State.reset with freq := freqV11, live := [], nlive := 0 } :=
    readFreq_eq_ok.2 ⟨by decide, Table.read_write_same _ _ _, rfl⟩
  simp only [exec, execBuild, buildRun]
  rw [show List.range Config.nsym = List.range 256 ++ [256] from List.range_succ, buildLeaves_append,
    buildLeaves_zero zero]
  simp only [Run.bind_ok, buildLeaves]
  rw [last]
  rfl

/-- BuildIsOptimal: V11's tree. -/
theorem test_witness_BuildIsOptimal :
    ∃ (s t : State) (tree other : Tree), FreqReady s ∧ exec .build s = .next t ∧ holdsTree t.node tree t.root = true ∧
      other.syms.Perm tree.syms :=
  ⟨_, _, .leaf 256, .leaf 256, freqReadyV11, build_v11, by decide, by decide⟩

theorem test_witness_BuildFrame : ∃ s t, exec .build s = .next t := ⟨_, _, build_v11⟩

/-- GencodesAssignsPaths, WrhdrWritesPreorder: V40's tree; and a tree of one leaf. -/
theorem test_witness_GencodesAssignsPaths :
    (∃ (s : State) (tree : Tree), holdsTree s.node tree s.root = true ∧ tree.height ≤ 256 ∧ tree.syms.Nodup ∧
      (∀ sym ∈ tree.syms, sym.toNat ≤ 256) ∧ tree.height ≤ Config.nodeCap ∧ tree.height = 2) ∧
    (∃ (s : State) (tree : Tree), holdsTree s.node tree s.root = true ∧ tree.height ≤ 256 ∧ tree.syms.Nodup ∧
      (∀ sym ∈ tree.syms, sym.toNat ≤ 256) ∧ tree.height ≤ Config.nodeCap ∧ tree.height = 0) :=
  ⟨⟨sV40 [], treeV40, by decide⟩, ⟨{ State.reset with node := [(0, leafNode 256 0)] }, .leaf 256, by decide⟩⟩

theorem test_witness_GencodesFrame : ∃ s t, exec .gencodes s = .next t :=
  ⟨_, (next_exists _ test_gencodes).imp fun _ h => h.1⟩

theorem test_witness_WrhdrFrame : ∃ s t, exec .wrhdr s = .next t :=
  ⟨_, (next_exists _ test_wrhdr).imp fun _ h => h.1⟩

theorem magic_succ_ne : Config.magic + 1 ≠ Config.magic := by
  intro h
  have h2 := congrArg (fun w : Word => w - Config.magic) h
  simp at h2

/-- RdtagChecksMagic and TagTokenIsRdtag: MAGIC and nothing after it, another value, 31 bits. -/
theorem test_witness_RdtagChecksMagic :
    (∃ (s : State) (rest : Bits), s.src.remaining = msbFirst 32 Config.magic.toNat ++ rest) ∧
    (∃ (s : State) (v : Word) (rest : Bits), s.src.remaining = msbFirst 32 v.toNat ++ rest ∧ v ≠ Config.magic) ∧
    (∃ s : State, s.src.remaining.length < 32 ∧ s.src.remaining.length = 31) :=
  ⟨⟨{ State.reset with src := ⟨msbFirst 32 Config.magic.toNat, 0, none⟩ }, [], by simp [Source.remaining]⟩,
    ⟨{ State.reset with src := ⟨msbFirst 32 (Config.magic + 1).toNat, 0, none⟩ }, Config.magic + 1, [],
      by simp [Source.remaining], magic_succ_ne⟩,
    ⟨{ State.reset with src := ⟨List.replicate 31 true, 0, none⟩ }, by decide⟩⟩

/-- RdhdrReadsTree: the greatest tree that fits, 513 nodes, with nothing after it; and a header that ends without a raise. -/
theorem test_witness_RdhdrReadsTree :
    (∃ (s : State) (tree : Tree) (rest : Bits), s.src.remaining = tree.header ++ rest ∧ tree.nodes ≤ Config.nodeCap ∧
      tree.nodes = 513) ∧
    (∃ s t : State, exec .rdhdr s = .next t ∧ t.treeValid = true) :=
  ⟨⟨{ State.reset with src := ⟨(comb 256).header, 0, none⟩ }, comb 256, [], by simp [Source.remaining], by decide +kernel,
      by decide +kernel⟩,
    ⟨onBytes [0xC0, 0x00], next_exists (fun t => t.treeValid) (by decide +kernel)⟩⟩

/-- RdhdrTruncated: no bit at all, and all but the last; the most type bits that still end in HEADER_TRUNCATED, which no tree of
at most 513 nodes completes (V42), and a LEAF cut short. -/
theorem test_witness_RdhdrTruncated :
    (∃ (s : State) (tree : Tree) (k : Nat), k < tree.header.length ∧ s.src.remaining = tree.header.take k ∧
      tree.nodes ≤ Config.nodeCap ∧ k = 0) ∧
    (∃ (s : State) (tree : Tree) (k : Nat), k < tree.header.length ∧ s.src.remaining = tree.header.take k ∧
      tree.nodes ≤ Config.nodeCap ∧ k + 1 = tree.header.length) ∧
    (∃ (s : State) (n : Nat), headerTokens 1 s.src.remaining = (n, false) ∧ n < 514 ∧ n = 513) ∧
    (∃ (s : State) (n : Nat), headerTokens 1 s.src.remaining = (n, false) ∧ n < 514 ∧ n = 1) :=
  ⟨⟨State.reset, treeV40, 0, by decide⟩,
    ⟨{ State.reset with src := ⟨treeV40.header.take 31, 0, none⟩ }, treeV40, 31, by decide⟩,
    ⟨{ State.reset with src := ⟨List.replicate 513 false, 0, none⟩ }, 513, by decide +kernel⟩,
    ⟨{ State.reset with src := ⟨[true, false], 0, none⟩ }, 1, by decide⟩⟩

/-- RdhdrOverflow: the least tree that does not fit, 515 nodes; the fewest type bits that overflow, completing no header (V43). -/
theorem test_witness_RdhdrOverflow :
    (∃ (s : State) (tree : Tree) (rest : Bits), s.src.remaining = tree.header ++ rest ∧ Config.nodeCap < tree.nodes ∧
      tree.nodes = 515) ∧
    (∃ (s : State) (n : Nat) (whole : Bool), headerTokens 1 s.src.remaining = (n, whole) ∧ 514 ≤ n ∧ n = 514 ∧
      whole = false) :=
  ⟨⟨{ State.reset with src := ⟨(comb 257).header, 0, none⟩ }, comb 257, [], by simp [Source.remaining], by decide +kernel,
      by decide +kernel⟩,
    ⟨{ State.reset with src := ⟨List.replicate 514 false, 0, none⟩ }, 514, false, by decide +kernel⟩⟩

theorem test_witness_RdhdrFrame : ∃ s t, exec .rdhdr s = .next t :=
  ⟨_, (next_exists _ test_rdhdr_truncated).imp fun _ h => h.1⟩

/-- InternalToken: the last free index with a stack one below full; the full table. -/
theorem test_witness_InternalToken :
    (∃ s : State, s.next.toNat ≠ Config.nodeCap ∧ s.trav.frames.length < Config.nodeCap ∧ s.next = 512 ∧
      s.trav.frames.length = 512) ∧
    (∃ s : State, s.next.toNat = Config.nodeCap) :=
  ⟨⟨{ State.reset with next := 512, trav := ⟨List.replicate 512 ⟨0, false⟩, 0, 0⟩ }, by decide +kernel⟩,
    ⟨{ State.reset with next := 513 }, by decide⟩⟩

/-- LeafToken: the last free index, completing two subtrees or none; the full table. -/
theorem test_witness_LeafToken :
    (∃ s : State, s.next.toNat < Config.nodeCap ∧ (∀ f ∈ s.trav.frames, f.index.toNat < s.next.toNat) ∧
      s.trav.frames.Pairwise (fun above below => below.index.toNat < above.index.toNat) ∧
      (unwind s.trav.frames).2 = [] ∧ s.next = 512 ∧ (completedEntries s.next s.trav.frames).length = 2) ∧
    (∃ s : State, s.next.toNat < Config.nodeCap ∧ (∀ f ∈ s.trav.frames, f.index.toNat < s.next.toNat) ∧
      s.trav.frames.Pairwise (fun above below => below.index.toNat < above.index.toNat) ∧
      (unwind s.trav.frames).2 ≠ []) ∧
    (∃ s : State, s.next.toNat = Config.nodeCap) :=
  ⟨⟨{ State.reset with next := 512, trav := ⟨[⟨511, true⟩, ⟨0, true⟩], 0, 0⟩ }, by decide⟩,
    ⟨{ State.reset with next := 1, trav := ⟨[⟨0, false⟩], 0, 0⟩ }, by decide⟩,
    ⟨{ State.reset with next := 513 }, by decide⟩⟩

/-- TokensRunRdhdr: V41's header; a header that is cut, as RDHDR; no bit, and a cut LEAF with an index free and with none; 31 bits
of a tag. -/
theorem test_witness_TokensRunRdhdr :
    (∃ (s t : State) (tree : Tree) (rest : Bits), s.state = .busy ∧ s.phase = .rdhdr ∧ s.trav = .empty ∧
      s.src.remaining = tree.header ++ rest ∧ tree.nodes ≤ Config.nodeCap ∧ exec .rdhdr s = .next t) ∧
    (∃ s t : State, s.state = .busy ∧ s.phase = .rdhdr ∧ s.trav = .empty ∧ exec .rdhdr s = .next t ∧ t.state = .error) ∧
    (∃ (s : State) (rest : List Move) (n : Idx), s.state = .busy ∧ s.phase = .rdhdr ∧ s.moves = .block .node :: rest ∧
      n = (if s.trav.frames = [] then 0 else s.next) ∧ decodeHeader s.src.remaining = .error .tokenMissing) ∧
    (∃ (s : State) (rest : List Move) (n : Idx), s.state = .busy ∧ s.phase = .rdhdr ∧ s.moves = .block .node :: rest ∧
      n = (if s.trav.frames = [] then 0 else s.next) ∧ decodeHeader s.src.remaining = .error .leafCut ∧ n ≠ 513) ∧
    (∃ (s : State) (rest : List Move) (n : Idx), s.state = .busy ∧ s.phase = .rdhdr ∧ s.moves = .block .node :: rest ∧
      n = (if s.trav.frames = [] then 0 else s.next) ∧ decodeHeader s.src.remaining = .error .leafCut ∧ n = 513) ∧
    (∃ (s : State) (rest : List Move), s.state = .busy ∧ s.phase = .rdtag ∧ s.moves = .block .node :: rest ∧
      s.src.remaining.length < 32 ∧ s.src.remaining.length = 31) := by
  obtain ⟨u, k, hu⟩ := next_exists (s := { onBytes [0x24] with state := .busy, phase := .rdhdr }) (i := .rdhdr)
    (fun t => decide (t.state = .error)) (by decide +kernel)
  obtain ⟨t, h, -⟩ := next_exists (s := { onBytes [0xC0, 0x00] with state := .busy, phase := .rdhdr }) (i := .rdhdr)
    (fun _ => true) (by decide +kernel)
  exact ⟨⟨_, t, .leaf 256, List.replicate 6 false, rfl, rfl, rfl, by decide, by decide, h⟩,
    ⟨_, u, rfl, rfl, rfl, k, of_decide_eq_true hu⟩,
    ⟨{ State.reset with state := .busy, phase := .rdhdr, moves := [.block .node] }, [], 0, by decide⟩,
    ⟨{ State.reset with src := ⟨[true, true], 0, none⟩, state := .busy, phase := .rdhdr, moves := [.block .node] }, [], 0,
      by decide⟩,
    ⟨{ State.reset with
      src := ⟨[true], 0, none⟩, state := .busy, phase := .rdhdr, next := 513, trav := ⟨[⟨0, false⟩], 0, 0⟩
      moves := [.block .node] }, [], 513, by decide⟩,
    ⟨{ State.reset with
      src := ⟨List.replicate 31 true, 0, none⟩, state := .busy, phase := .rdtag, moves := [.block .node] }, [],
      by decide⟩⟩

/-- NodeWalksAgree: GENCODES and WRHDR over V40's tree. -/
theorem test_witness_NodeWalksAgree :
    (∃ (s t : State) (tree : Tree), s.state = .busy ∧ s.trav = .empty ∧ holdsTree s.node tree s.root = true ∧
      tree.height ≤ 256 ∧ (∀ sym ∈ tree.syms, sym.toNat ≤ 256) ∧ s.phase = .gencodes ∧ exec .gencodes s = .next t) ∧
    (∃ (s t : State) (tree : Tree), s.state = .busy ∧ s.trav = .empty ∧ holdsTree s.node tree s.root = true ∧
      tree.height ≤ 256 ∧ (∀ sym ∈ tree.syms, sym.toNat ≤ 256) ∧ s.phase = .wrhdr ∧ exec .wrhdr s = .next t) := by
  obtain ⟨t, h, -⟩ := next_exists (s := { sV40 [] with state := .busy, phase := .gencodes }) (i := .gencodes)
    (fun _ => true) (by decide +kernel)
  obtain ⟨u, k, -⟩ := next_exists (s := { sV40 [] with state := .busy, phase := .wrhdr }) (i := .wrhdr)
    (fun _ => true) (by decide +kernel)
  exact ⟨⟨_, t, treeV40, rfl, rfl, by decide, by decide, by decide, rfl, h⟩,
    ⟨_, u, treeV40, rfl, rfl, by decide, by decide, by decide, rfl, k⟩⟩

/-- EncodeWritesCodes: V10's bytes, and V71's. -/
theorem test_witness_EncodeWritesCodes :
    (∃ (s : State) (bs : List Byte) (eosCode : CodeEntry), bs = bytesOfBits s.src.rewind.bits ∧
      (∀ b ∈ bs, ∃ c, s.code.read b.toNat = some c ∧ c.valid = true) ∧ s.code.read Config.eos = some eosCode) ∧
    (∃ (s : State) (before after : List Byte) (b : Byte) (c : CodeEntry),
      bytesOfBits s.src.rewind.bits = before ++ b :: after ∧
      (∀ x ∈ before, ∃ cx, s.code.read x.toNat = some cx ∧ cx.valid = true) ∧
      s.code.read b.toNat = some c ∧ c.valid = false) := by
  refine ⟨⟨{ onBytes [0x41, 0x42] with code := codeV10 }, bytes [0x41, 0x42], ⟨true, 2, 1⟩, by decide +kernel, ?_,
      by decide +kernel⟩,
    ⟨{ onBytes [0x41, 0x43] with code := codeV10 }, bytes [0x41], [], 0x43, noCodeEntry, by decide +kernel, ?_,
      by decide +kernel, rfl⟩⟩
  · intro b hb
    rcases List.mem_cons.1 hb with rfl | hb
    · exact ⟨⟨true, 1, 1⟩, by decide +kernel, rfl⟩
    · rcases List.mem_cons.1 hb with rfl | hb
      · exact ⟨⟨true, 2, 0⟩, by decide +kernel, rfl⟩
      · simp at hb
  · intro b hb
    rcases List.mem_cons.1 hb with rfl | hb
    · exact ⟨⟨true, 1, 1⟩, by decide +kernel, rfl⟩
    · simp at hb

theorem test_witness_EncodeFrame : ∃ s t, exec .encode s = .next t :=
  ⟨_, (next_exists _ test_encode_no_code).imp fun _ h => h.1⟩

/-- DecodeFollowsTree: V50's payload ends on the sentinel, P6's does not. -/
theorem test_witness_DecodeFollowsTree :
    (∃ (s : State) (tree : Tree) (syms : List Sym) (rest : Bits), holdsTree s.node tree s.root = true ∧
      tree.walk tree s.src.remaining = (syms, some rest)) ∧
    (∃ (s : State) (tree : Tree) (syms : List Sym), holdsTree s.node tree s.root = true ∧
      tree.walk tree s.src.remaining = (syms, none)) :=
  ⟨⟨sV40 [0xE2], treeV40, [65, 65, 65, 66], [false], by decide, by decide⟩,
    ⟨sV40 [0xE0], treeV40, [65, 65, 65, 66, 66], by decide, by decide⟩⟩

/-- DecodeLeafRoot: V51, the payload bit 1. -/
theorem test_witness_DecodeLeafRoot :
    ∃ (s : State) (n : Node) (b : Bool) (rest : Bits), s.root.toNat < Config.nodeCap ∧
      s.node.read s.root.toNat = some n ∧ n.kind = .leaf ∧ n.sym = 256 ∧ s.src.remaining = b :: rest :=
  ⟨{ State.reset with node := [(0, leafNode 256 0)], src := ⟨[true], 0, none⟩ }, leafNode 256 0, true, [], by decide⟩

theorem test_witness_DecodeFrame : ∃ s t, exec .decode s = .next t :=
  ⟨_, (next_exists _ test_decode_truncated).imp fun _ h => h.1⟩

/-- PayloadIsUnambiguous: V10's payload; and the one-leaf tree, whose sentinel has the code 0. -/
theorem test_witness_PayloadIsUnambiguous :
    (∃ (tree : Tree) (msg : List (Sym × Bits)) (eosCode : Bits),
      (∀ p ∈ msg, p ∈ tree.codes ∧ p.1 ≠ 256) ∧ (256, eosCode) ∈ tree.codes ∧ msg.length = 2) ∧
    (∃ (tree : Tree) (msg : List (Sym × Bits)) (eosCode : Bits),
      (∀ p ∈ msg, p ∈ tree.codes ∧ p.1 ≠ 256) ∧ (256, eosCode) ∈ tree.codes ∧ tree.nodes = 1) :=
  ⟨⟨treeV40, [(65, [true]), (66, [false, false])], [false, true], by decide⟩, ⟨.leaf 256, [], [false], by decide⟩⟩

theorem test_witness_CloseOnlyOnce :
    State.reset.sinkClosed = false ∧ ({ State.reset with sinkClosed := true } : State).sinkClosed = true := by decide

theorem test_witness_CommandsAreTheirSequences : State.reset.state = .idle ∧ State.reset.trav.frames = [] := by decide

/-- PhaseAdvances: a raise, a micro-operation that ends, and CLOSE. -/
theorem test_witness_PhaseAdvances :
    (∃ s t : State, s.state = .busy ∧ s.trav.frames = [] ∧ s.moves = [] ∧ step s = .next t ∧ t.state = .error) ∧
    (∃ s t : State, s.state = .busy ∧ s.trav.frames = [] ∧ s.moves = [] ∧ step s = .next t ∧ t.state = .busy) ∧
    (∃ s t : State, s.state = .busy ∧ s.trav.frames = [] ∧ s.moves = [] ∧ step s = .next t ∧ t.state = .done) := by
  obtain ⟨t, h, ht⟩ := step_exists (s := { State.reset with state := .busy, phase := .rdtag })
    (fun t => decide (t.state = .error)) (by decide)
  obtain ⟨u, k, hu⟩ := step_exists (s := { State.reset with state := .busy, phase := .count })
    (fun t => decide (t.state = .busy)) (by decide +kernel)
  obtain ⟨v, m, hv⟩ := step_exists (s := { State.reset with state := .busy, phase := .close })
    (fun t => decide (t.state = .done)) (by decide)
  exact ⟨⟨_, t, rfl, rfl, rfl, h, of_decide_eq_true ht⟩, ⟨_, u, rfl, rfl, rfl, k, of_decide_eq_true hu⟩,
    ⟨_, v, rfl, rfl, rfl, m, of_decide_eq_true hv⟩⟩

/-- StateTransitions: each of the five transitions is taken. -/
theorem test_witness_StateTransitions :
    onNext (step { State.reset with moves := [.write .cmd 1] }) (fun t => t.state = .busy) = true ∧
    onNext (step { State.reset with moves := [.write .cmd 0] }) (fun t => t.state = .error) = true ∧
    onNext (step { State.reset with state := .busy, phase := .close }) (fun t => t.state = .done) = true ∧
    onNext (step { State.reset with state := .error, moves := [.write .cmd 3] }) (fun t => t.state = .idle) = true ∧
    onNext (step { State.reset with state := .busy, moves := [.reset] }) (fun t => t.state = .idle) = true ∧
    onNext (step { State.reset with state := .busy, phase := .close, moves := [.resetDuring .microOp 0] })
      (fun t => t.state = .idle) = true := by decide

theorem reset_inv : Inv State.reset := by
  constructor <;> decide

/-- The state a command that has ended leaves. -/
def sDone : State := { State.reset with state := .done, sinkClosed := true, sink := ⟨[], true⟩ }

theorem done_inv : Inv sDone := by
  constructor <;> decide

/-- SinkClosedOnce: cleared by CLEAR, left alone by a step, set by CLOSE. -/
theorem test_witness_SinkClosedOnce :
    (∃ s t : State, step s = .next t ∧ s.sinkClosed = true ∧ t.sinkClosed = false) ∧
    (∃ s t : State, Inv s ∧ step s = .next t ∧ s.sinkClosed = true) ∧
    (∃ s t : State, step s = .next t ∧ s.sinkClosed = false ∧ t.sinkClosed = true) := by
  obtain ⟨t, h, ht⟩ := step_exists (s := { sDone with moves := [.write .cmd 3] })
    (fun t => decide (t.sinkClosed = false)) (by decide)
  obtain ⟨u, k, -⟩ := step_exists (s := sDone) (fun _ => true) (by decide)
  obtain ⟨v, m, hv⟩ := step_exists (s := { State.reset with state := .busy, phase := .close })
    (fun t => decide (t.sinkClosed = true)) (by decide)
  exact ⟨⟨_, t, h, rfl, of_decide_eq_true ht⟩, ⟨_, u, done_inv, k, rfl⟩, ⟨_, v, m, rfl, of_decide_eq_true hv⟩⟩

/-- TablesWrittenByTheirUnits and PortsOnlyMoveForward. -/
theorem test_witness_exec_answers :
    (∃ t, exec .rdhdr (onBytes [0xC0, 0x00]) = .next t ∧ (fun _ => true) t = true) ∧
    (onBytes [0xC0, 0x00]).src.pos ≤ (onBytes [0xC0, 0x00]).src.bits.length :=
  ⟨next_exists _ (by decide +kernel), by decide⟩

/-- InvKept: a step that reads a token, from a state with a walk under way. -/
theorem test_witness_InvKept : ∃ s t : State, Inv s ∧ step s = .next t ∧ s.trav.frames ≠ [] := by
  obtain ⟨t, h, -⟩ := step_exists
    (s := { onBytes [0x00] with state := .busy, phase := .rdhdr, next := 1, trav := ⟨[⟨0, false⟩], 0, 0⟩ })
    (fun _ => true) (by decide)
  exact ⟨_, t, by constructor <;> decide, h, by decide⟩

/-- NoModelFaultIsReached: ready and orderly, at rest and while a command runs. -/
theorem test_witness_NoModelFaultIsReached :
    (Ready State.reset ∧ orderlyMove State.reset = true) ∧
    (∃ s : State, Ready s ∧ orderlyMove s = true ∧ s.state = .busy) :=
  ⟨⟨⟨reset_inv, rfl, fun h => RunState.noConfusion h⟩, by decide⟩,
    ⟨{ State.reset with state := .busy, phase := .count }, ⟨by constructor <;> decide, rfl, fun _ => trivial⟩, by decide,
      rfl⟩⟩

/-- CompressWritesContainer and RoundTrip: V10's bytes, and no bytes at all. -/
theorem test_witness_CompressWritesContainer :
    (∃ (s : State) (S : List Byte), s.state = .idle ∧ s.trav.frames = [] ∧ s.sinkClosed = false ∧
      s.src = ⟨bitsOfBytes S, 0, none⟩ ∧ s.sink = ⟨[], false⟩ ∧ (∀ b : Byte, S.count b ≤ 2 ^ 32 - 1) ∧ S.length = 4) ∧
    (∃ (s : State) (S : List Byte), s.state = .idle ∧ s.trav.frames = [] ∧ s.sinkClosed = false ∧
      s.src = ⟨bitsOfBytes S, 0, none⟩ ∧ s.sink = ⟨[], false⟩ ∧ (∀ b : Byte, S.count b ≤ 2 ^ 32 - 1) ∧ S = []) :=
  ⟨⟨onBytes [0x41, 0x41, 0x41, 0x42], bytes [0x41, 0x41, 0x41, 0x42], rfl, rfl, rfl, rfl, rfl,
      count_le_of_short (by decide), rfl⟩,
    ⟨onBytes [], [], rfl, rfl, rfl, rfl, rfl, count_le_of_short (by decide), rfl⟩⟩

theorem test_witness_RoundTrip :
    State.reset.state = .idle ∧ State.reset.trav.frames = [] ∧ State.reset.sinkClosed = false ∧
    State.reset.sink = ⟨[], false⟩ := by decide

end Sys2Proof.Tests
end

section
/-! What one step and one turn of the block come to, by who moves and by STATE. -/

namespace Sys2Proof.Machine

open Host (Outcome)

theorem step_of_no_move {s : State} (h : s.moves = []) : step s = blockTurn .microOp s := by
  simp [step, stepMove, h]

theorem step_of_move {s : State} {m : Move} {rest : List Move} (h : s.moves = m :: rest) :
    step s = runMove m { s with moves := rest } := by
  simp [step, stepMove, h]

/-- Outside BUSY the block's turn changes nothing (R261, R270). -/
theorem blockTurn_waits {g : Grain} {s : State} (h : s.state ≠ .busy) : blockTurn g s = .next s := by
  simp [blockTurn, h]

theorem blockTurn_microOp {s : State} (h : s.state = .busy) (hf : s.trav.frames = []) :
    blockTurn .microOp s = andThen (microOpTurn s) fun t => .next t.advance := by
  simp [blockTurn, h, hf]

theorem blockTurn_node {s : State} (h : s.state = .busy) :
    blockTurn .node s = andThen (nodeTurn s) fun t => .next t.advance := by
  simp [blockTurn, h]

/-- The turn the block takes while BUSY: a whole micro-operation with no walk under way, or one node or token. -/
theorem blockTurn_eq_next {g : Grain} {s t : State} (h : blockTurn g s = .next t) (hb : s.state = .busy) :
    ∃ u, (nodeTurn s = .next u ∨ s.trav.frames = [] ∧ microOpTurn s = .next u) ∧ t = u.advance := by
  unfold blockTurn at h
  rw [if_pos hb, andThen_eq_next] at h
  obtain ⟨u, hu, ht⟩ := h
  refine ⟨u, ?_, (Outcome.next.inj ht).symm⟩
  split at hu
  · exact .inl hu
  · next hg => exact .inr ⟨by simpa using fun e => hg (.inr e), hu⟩

theorem microOpTurn_of_decode {s : State} {i : Instr} (h : decodePhase s.phase.code = .ok i) :
    microOpTurn s = exec i s := by
  simp [microOpTurn, h]

/-- A micro-operation's turn that answers has run the operation of PHASE's code. -/
theorem microOpTurn_eq_next {s t : State} (h : microOpTurn s = .next t) :
    ∃ i, decodePhase s.phase.code = .ok i ∧ exec i s = .next t := by
  unfold microOpTurn at h
  split at h
  · exact ⟨_, ‹_›, h⟩
  · simp at h

theorem headerTurn_of_decode {s : State} {i : Instr} {bs : Bits} (h : decodeHeader s.src.remaining = .ok (i, bs)) :
    headerTurn s = exec i (beginHeader s) := by
  simp [headerTurn, h]

theorem tagTurn_of_decode {s : State} {i : Instr} {bs : Bits} (h : decodeTag s.src.remaining = .ok (i, bs)) :
    tagTurn s = exec i s := by
  simp [tagTurn, h]

theorem nodeTurn_rdhdr {s : State} (h : s.phase = .rdhdr) : nodeTurn s = headerTurn s := by
  simp [nodeTurn, h]

theorem nodeTurn_rdtag {s : State} (h : s.phase = .rdtag) : nodeTurn s = tagTurn s := by
  simp [nodeTurn, h]

theorem nodeTurn_gencodes {s : State} (h : s.phase = .gencodes) : nodeTurn s = (visitGencodes s).outcome := by
  simp [nodeTurn, h]

theorem nodeTurn_wrhdr {s : State} (h : s.phase = .wrhdr) : nodeTurn s = (visitWrhdr s).outcome := by
  simp [nodeTurn, h]

/-- The sequencer does nothing after a raise, or while a walk is under way. -/
theorem State.advance_eq_self {s : State} (h : s.state ≠ .busy ∨ s.trav.frames ≠ []) : s.advance = s := by
  unfold State.advance
  rw [if_neg]
  rintro ⟨hb, hf⟩
  exact h.elim (· hb) (· hf)

theorem State.advance_of_close {s : State} (h : s.state = .busy) (hf : s.trav.frames = []) (hp : s.phase = .close) :
    s.advance = s.complete := by
  simp [State.advance, h, hf, hp]

theorem State.advance_of_not_close {s : State} (h : s.state = .busy) (hf : s.trav.frames = [])
    (hp : s.phase ≠ .close) : s.advance = { s with phase := s.phase.following } := by
  simp [State.advance, h, hf, hp]

/-- A command word or an illegal one, whatever STATE is: the write is an operation of the block, or R228's and R229's. -/
theorem hostWrite_cmd (w : Word) (s : State) :
    (w = 1 ∧ hostWrite .cmd w s = exec .compress { s with cmd := w }) ∨
    (w = 2 ∧ hostWrite .cmd w s = exec .decompress { s with cmd := w }) ∨
    (w = 3 ∧ hostWrite .cmd w s = exec .clear { s with cmd := w }) ∨
    ((w ≠ 1 ∧ w ≠ 2 ∧ w ≠ 3) ∧ hostWrite .cmd w s = .next (illegalCommand w { s with cmd := w })) := by
  by_cases h1 : w = 1
  · subst h1; exact .inl ⟨rfl, rfl⟩
  by_cases h2 : w = 2
  · subst h2; exact .inr (.inl ⟨rfl, rfl⟩)
  by_cases h3 : w = 3
  · subst h3; exact .inr (.inr (.inl ⟨rfl, rfl⟩))
  · refine .inr (.inr (.inr ⟨⟨h1, h2, h3⟩, ?_⟩))
    simp [hostWrite, decodeCommand_other h1 h2 h3]

theorem hostWrite_readOnly {r : HostReg} (h : r ≠ .cmd) (w : Word) (s : State) : hostWrite r w s = .next s := by
  cases r with
  | cmd => exact absurd rfl h
  | status | errCause | errInfo => rfl

end Sys2Proof.Machine
end

section
/-! The statements about the step's shape, the host's registers and reset (10_state.md R33, R39 to R45). -/

open Sys2Proof Sys2Proof.Machine Sys2Proof.Safety

/-- Settles O13: the fields of `State.reset`, read off its definition. -/
theorem resetValues : Obligations.ResetValues := by
  unfold Obligations.ResetValues
  refine ⟨?_, ?_, ?_, ?_, ?_, ?_, ?_, ?_, ?_, ?_, ?_, ?_, ?_, ?_, ?_, fun i => ⟨?_, ?_, ?_⟩⟩ <;> rfl

/-- Settles O55: each clause of `Inv` is a closed fact about `State.reset`. -/
theorem invAtReset : Obligations.InvAtReset := by
  unfold Obligations.InvAtReset
  constructor <;> decide

/-- Settles O4, by the equations of the turn for each kind of operation. -/
theorem stepRunsDecoded : Obligations.StepRunsDecoded := by
  unfold Obligations.StepRunsDecoded
  refine ⟨fun s i hb hf hi => ⟨fun hm => ?_, fun rest hm => ?_⟩, fun s w i rest hm hi => ?_,
    fun s i rest bs hb hp hm hi => ?_, fun s i rest bs hb hp hm hi => ?_⟩
  · rw [step_of_no_move hm, blockTurn_microOp hb hf, microOpTurn_of_decode hi]
  · rw [step_of_move hm, runMove, blockTurn_microOp (by exact hb) (by exact hf), microOpTurn_of_decode (by exact hi)]
  · rw [step_of_move hm]
    simp [runMove, hostWrite, hi]
  · rw [step_of_move hm, runMove, blockTurn_node (by exact hb), nodeTurn_rdhdr (by exact hp),
      headerTurn_of_decode (by exact hi)]
  · rw [step_of_move hm, runMove, blockTurn_node (by exact hb), nodeTurn_rdtag (by exact hp),
      tagTurn_of_decode (by exact hi)]

end

section
/-! The host registers as bit fields, and the statements about them (10_state.md R39 to R44). -/

namespace Sys2Proof.Machine

/-- The low field of a concatenation. -/
theorem extractLsb'_append_low {m n : Nat} (x : BitVec m) (y : BitVec n) : (x ++ y).extractLsb' 0 n = y := by
  simp [BitVec.extractLsb'_append_eq_of_add_le]

/-- A field above the low one is a field of what stands above it. -/
theorem extractLsb'_append_high {m n : Nat} (x : BitVec m) (y : BitVec n) (i k : Nat) :
    (x ++ y).extractLsb' (n + i) k = x.extractLsb' i k := by
  ext j hj
  have h : ¬ n + i + j < n := by omega
  have e : n + i + j - n = i + j := by omega
  simp only [BitVec.getElem_extractLsb', BitVec.getLsbD_append, if_neg h, e]

/-- STATUS above STATE and PHASE: the flags from bit 6 up, and nothing above them (R41). -/
def statusHigh (eoi closed code tree freq : Bool) : BitVec 26 :=
  0#21 ++ BitVec.ofBool eoi ++ BitVec.ofBool closed ++ BitVec.ofBool code ++ BitVec.ofBool tree ++ BitVec.ofBool freq

theorem status_eq (s : State) : s.hostRead .status =
    statusHigh s.errEoi s.sinkClosed s.codeValid s.treeValid s.freqValid ++ s.phase.code ++ s.state.code := rfl

/-- The flags by bit position, one of the 32 settings at a time. -/
theorem statusHigh_bits : ∀ eoi closed code tree freq : Bool,
    (statusHigh eoi closed code tree freq).getLsbD 0 = freq ∧ (statusHigh eoi closed code tree freq).getLsbD 1 = tree ∧
    (statusHigh eoi closed code tree freq).getLsbD 2 = code ∧ (statusHigh eoi closed code tree freq).getLsbD 3 = closed ∧
    (statusHigh eoi closed code tree freq).getLsbD 4 = eoi ∧
    (statusHigh eoi closed code tree freq).extractLsb' 5 21 = 0 := by
  decide

/-- Bits 6 to 10 of STATUS are the flags, and the bits above are 0 (R41). -/
theorem status_flags (s : State) :
    (s.hostRead .status).getLsbD 6 = s.freqValid ∧ (s.hostRead .status).getLsbD 7 = s.treeValid ∧
    (s.hostRead .status).getLsbD 8 = s.codeValid ∧ (s.hostRead .status).getLsbD 9 = s.sinkClosed ∧
    (s.hostRead .status).getLsbD 10 = s.errEoi ∧ (s.hostRead .status).extractLsb' 11 21 = 0 := by
  have bit (i : Nat) (h : 6 ≤ i) : (s.hostRead .status).getLsbD i =
      (statusHigh s.errEoi s.sinkClosed s.codeValid s.treeValid s.freqValid).getLsbD (i - 6) := by
    rw [status_eq, BitVec.getLsbD_append, if_neg (by omega), BitVec.getLsbD_append, if_neg (by omega), Nat.sub_sub]
  obtain ⟨h6, h7, h8, h9, h10, high⟩ := statusHigh_bits s.errEoi s.sinkClosed s.codeValid s.treeValid s.freqValid
  refine ⟨(bit 6 (by decide)).trans h6, (bit 7 (by decide)).trans h7, (bit 8 (by decide)).trans h8,
    (bit 9 (by decide)).trans h9, (bit 10 (by decide)).trans h10, ?_⟩
  rw [status_eq, extractLsb'_append_high (n := 2) (i := 9), extractLsb'_append_high (n := 4) (i := 5)]
  exact high

theorem status_stateField (s : State) : (s.hostRead .status).extractLsb' 0 2 = s.state.code :=
  extractLsb'_append_low _ _

theorem status_phaseField (s : State) : (s.hostRead .status).extractLsb' 2 4 = s.phase.code :=
  (extractLsb'_append_high _ s.state.code 0 4).trans (extractLsb'_append_low _ _)

theorem errCause_causeField (s : State) : (s.hostRead .errCause).extractLsb' 0 4 = s.errCause.code :=
  extractLsb'_append_low _ _

theorem errCause_high (s : State) : (s.hostRead .errCause).extractLsb' 4 28 = 0 :=
  (extractLsb'_append_high _ s.errCause.code 0 28).trans (by decide)

/-- A write to CMD always answers, and CMD then holds the word (R40). -/
theorem hostWrite_cmd_answers (w : Word) (s : State) : ∃ t, hostWrite .cmd w s = .next t ∧ t.cmd = w := by
  obtain ⟨-, e⟩ | ⟨-, e⟩ | ⟨-, e⟩ | ⟨-, e⟩ := hostWrite_cmd w s
  · refine ⟨_, e, ?_⟩; split <;> rfl
  · refine ⟨_, e, ?_⟩; split <;> rfl
  · refine ⟨_, e, ?_⟩; split <;> rfl
  · refine ⟨_, e, ?_⟩; unfold illegalCommand; split <;> rfl

end Sys2Proof.Machine

open Sys2Proof Sys2Proof.Machine Sys2Proof.Safety

/-- Settles O10: STATUS by its layout, the outputs and the codes by their definitions. -/
theorem statusCopiesFields : Obligations.StatusCopiesFields := by
  unfold Obligations.StatusCopiesFields
  refine ⟨fun s => ?_, ?_⟩
  · obtain ⟨hfreq, htree, hcode, hclosed, heoi, high⟩ := status_flags s
    exact ⟨status_stateField s, status_phaseField s, hfreq, htree, hcode, hclosed, heoi, high,
      decide_eq_true_iff, decide_eq_true_iff⟩
  · decide

/-- Settles O11: a move of the host's at each register. -/
theorem hostRegisterAccess : Obligations.HostRegisterAccess := by
  unfold Obligations.HostRegisterAccess
  refine ⟨fun s r rest hm => ?_, fun s r w rest hr hm => ?_, fun s w rest hm => ?_, rfl, rfl, rfl, rfl,
    fun s => ⟨rfl, rfl, errCause_causeField s, errCause_high s⟩, rfl, rfl, rfl, rfl, rfl, rfl, rfl, rfl⟩
  · rw [step_of_move hm]
    cases r <;> rfl
  · rw [step_of_move hm]
    exact hostWrite_readOnly hr w _
  · obtain ⟨t, ht, hw⟩ := hostWrite_cmd_answers w { s with moves := rest }
    exact ⟨t, by rw [step_of_move hm]; exact ht, hw, hw⟩

end

section
/-! The frame of every operation and of every turn, said once: the form of each next state (10_state.md R20 to R38). -/

namespace Sys2Proof.Machine

open Host (Outcome)
open Sys2Proof.Safety (walkPhase)

/-! ## Each operation -/

theorem exec_count_next {s t : State} (h : exec .count s = .next t) :
    ∃ freq pos, t = { s with freq := freq, freqValid := true, src := { s.src with pos := pos } } ∨
      ∃ v : Byte, t = State.errorEntry .countOverflow (v.setWidth 32) false
        { s with freq := freq, src := { s.src with pos := pos } } := by
  obtain ⟨ok, raised⟩ := countLoop_frame (limit := Config.countMax) (fuel := s.src.remaining.length + 1)
    (s := { s with freq := Table.fill Config.nsym 0 })
  rcases Run.outcome_eq_next.1 h with h | h
  · obtain ⟨_, u, hu, h⟩ := Run.bind_eq_ok.1 h
    obtain ⟨freq, pos, rfl⟩ := ok u hu
    obtain ⟨_, v, hv, h⟩ := Run.bind_eq_ok.1 h
    obtain ⟨-, rfl⟩ := writeFreq_eq_ok.1 hv
    obtain ⟨-, rfl⟩ := Run.ok.inj h
    exact ⟨_, pos, .inl rfl⟩
  · rcases Run.bind_eq_raised.1 h with h | ⟨_, u, -, h⟩
    · obtain ⟨freq, pos, v, rfl⟩ := raised t h
      exact ⟨freq, pos, .inr ⟨v, rfl⟩⟩
    · rcases Run.bind_eq_raised.1 h with h | ⟨_, v, -, h⟩
      · exact absurd h writeFreq_ne_raised
      · exact absurd h (by simp)

theorem buildRun_ne_raised {s t : State} : buildRun s ≠ .raised t := by
  intro h
  rcases Run.bind_eq_raised.1 h with h | ⟨_, u, -, h⟩
  · exact buildLeaves_ne_raised h
  · rcases Run.bind_eq_raised.1 h with h | ⟨_, v, -, h⟩
    · exact mergeLoop_ne_raised h
    · exact buildFinish_ne_raised h

/-- BUILD's three parts, each from where the one before it ended (R151, R153, R154). -/
theorem buildRun_eq_ok {s t : State} (h : buildRun s = .ok () t) :
    ∃ u v, buildLeaves (List.range Config.nsym) { s with live := [], nlive := 0 } = .ok () u ∧
      mergeLoop u.nlive.toNat { u with next := 257 } = .ok () v ∧ buildFinish v = .ok () t := by
  obtain ⟨_, u, hu, h⟩ := Run.bind_eq_ok.1 h
  obtain ⟨_, v, hv, h⟩ := Run.bind_eq_ok.1 h
  exact ⟨u, v, hu, hv, h⟩

theorem exec_build_eq_next {s t : State} : exec .build s = .next t ↔ buildRun s = .ok () t := by
  refine (Run.outcome_eq_next (r := buildRun s)).trans ⟨fun h => ?_, .inl⟩
  exact h.resolve_right buildRun_ne_raised

theorem exec_build_next {s t : State} (h : exec .build s = .next t) :
    ∃ node live nlive next root,
      t = { s with node := node, live := live, nlive := nlive, next := next, root := root, treeValid := true } := by
  obtain ⟨u, v, hu, hv, h⟩ := buildRun_eq_ok (exec_build_eq_next.1 h)
  obtain ⟨_, _, _, rfl⟩ := buildLeaves_frame hu
  obtain ⟨_, _, _, _, rfl⟩ := mergeLoop_frame hv
  obtain ⟨_, -, rfl⟩ := buildFinish_eq_ok h
  exact ⟨_, _, _, _, _, rfl⟩

theorem gencodesRun_ne_raised {s t : State} : gencodesRun s ≠ .raised t := by
  intro h
  rcases Run.bind_eq_raised.1 h with h | ⟨n, u, -, h⟩
  · exact readNode_ne_raised h
  · rcases Run.bind_eq_raised.1 h with h | ⟨_, v, -, h⟩
    · split at h
      · exact writeCode_ne_raised h
      · exact walkCodes_ne_raised h
    · simp at h

theorem exec_gencodes_eq_next {s t : State} : exec .gencodes s = .next t ↔ gencodesRun s = .ok () t := by
  refine (Run.outcome_eq_next (r := gencodesRun s)).trans ⟨fun h => ?_, .inl⟩
  exact h.resolve_right gencodesRun_ne_raised

theorem exec_gencodes_next {s t : State} (h : exec .gencodes s = .next t) :
    ∃ code, t = { s with code := code, codeValid := true } := by
  obtain ⟨n, u, hu, h⟩ := Run.bind_eq_ok.1 (exec_gencodes_eq_next.1 h)
  obtain ⟨-, -, rfl⟩ := readNode_eq_ok.1 hu
  obtain ⟨_, v, hv, h⟩ := Run.bind_eq_ok.1 h
  obtain ⟨-, rfl⟩ := Run.ok.inj h
  split at hv
  · obtain ⟨-, rfl⟩ := writeCode_eq_ok.1 hv; exact ⟨_, rfl⟩
  · obtain ⟨code, rfl⟩ := walkCodes_frame hv; exact ⟨code, rfl⟩

theorem exec_wrtag_eq (s : State) : exec .wrtag s = .next (s.writeBits Config.tagW Config.magic.toNat) := rfl

theorem exec_wrhdr_next {s t : State} (h : exec .wrhdr s = .next t) :
    ∃ bits, t = { s with sink := { s.sink with bits := s.sink.bits ++ bits } } := by
  rcases Run.outcome_eq_next.1 h with h | h
  · exact putNode_frame h
  · exact absurd h putNode_ne_raised

theorem exec_encode_next {s t : State} (h : exec .encode s = .next t) :
    ∃ pos bits,
      t = { s with src := { s.src.rewind with pos := pos }, sink := { s.sink with bits := s.sink.bits ++ bits } } ∨
      ∃ v : Byte, t = State.errorEntry .noCode (v.setWidth 32) false
        { s with src := { s.src.rewind with pos := pos }, sink := { s.sink with bits := s.sink.bits ++ bits } } := by
  obtain ⟨ok, raised⟩ := encodeLoop_frame (fuel := s.rewind.src.remaining.length + 1) (s := s.rewind)
  rcases Run.outcome_eq_next.1 h with h | h
  · obtain ⟨_, u, hu, h⟩ := Run.bind_eq_ok.1 h
    obtain ⟨pos, bits, rfl⟩ := ok u hu
    obtain ⟨c, v, hv, h⟩ := Run.bind_eq_ok.1 h
    obtain ⟨-, -, rfl⟩ := readCode_eq_ok.1 hv
    obtain ⟨-, rfl⟩ := Run.ok.inj h
    rw [emitCode_eq]
    exact ⟨pos, bits ++ msbFirst c.len.toNat c.pat.toNat, .inl (by simp [State.rewind])⟩
  · rcases Run.bind_eq_raised.1 h with h | ⟨_, u, -, h⟩
    · obtain ⟨pos, bits, v, rfl⟩ := raised t h
      exact ⟨pos, bits, .inr ⟨v, rfl⟩⟩
    · rcases Run.bind_eq_raised.1 h with h | ⟨_, v, -, h⟩
      · exact absurd h readCode_ne_raised
      · exact absurd h (by simp)

/-- Comparing a tag passes it on or raises BAD_MAGIC (R212, R213). -/
theorem checkTag_cases (magic m : Word) (s : State) :
    checkTag magic m s = s ∨ checkTag magic m s = s.errorEntry .badMagic m false := by
  unfold checkTag
  split
  · exact .inl rfl
  · exact .inr rfl

theorem exec_rdtag_next {s t : State} (h : exec .rdtag s = .next t) :
    ∃ pos, t = { s with src := { s.src with pos := pos } } ∨
      ∃ v eoi, t = State.errorEntry .badMagic v eoi { s with src := { s.src with pos := pos } } := by
  obtain rfl := Outcome.next.inj h
  obtain ⟨pos, hp⟩ := s.readBits_only_pos Config.tagW
  refine ⟨pos, ?_⟩
  unfold readTag
  split
  · next hr => rw [hr] at hp; obtain rfl := hp; exact .inr ⟨0, true, rfl⟩
  · next v u hr =>
    rw [hr] at hp; obtain rfl := hp
    rcases checkTag_cases Config.magic v { s with src := { s.src with pos := pos } } with e | e
    · exact .inl e
    · exact .inr ⟨v, false, e⟩

theorem exec_rdhdr_next {s t : State} (h : exec .rdhdr s = .next t) :
    ∃ node next pos,
      (∃ root, t = { s with
        node := node, next := next, root := root, treeValid := true, src := { s.src with pos := pos } }) ∨
      t = State.errorEntry .headerTruncated 0 true
        { s with node := node, next := next, src := { s.src with pos := pos } } ∨
      t = State.errorEntry .treeOverflow 513 false
        { s with node := node, next := next, src := { s.src with pos := pos } } := by
  obtain ⟨ok, raised⟩ := getNode_frame (fuel := Config.nodeCap + 1) (s := { s with next := 0 })
  rcases Run.outcome_eq_next.1 h with h | h
  · obtain ⟨r, u, hu, h⟩ := Run.bind_eq_ok.1 h
    obtain ⟨node, next, pos, rfl⟩ := ok r u hu
    obtain ⟨-, rfl⟩ := Run.ok.inj h
    exact ⟨node, next, pos, .inl ⟨r, rfl⟩⟩
  · rcases Run.bind_eq_raised.1 h with h | ⟨_, u, -, h⟩
    · obtain ⟨node, next, pos, h⟩ := raised t h
      exact ⟨node, next, pos, .inr h⟩
    · exact absurd h (by simp)

theorem exec_decode_next {s t : State} (h : exec .decode s = .next t) :
    ∃ cur pos bits,
      t = { s with
        cur := cur, src := { s.src with pos := pos }, sink := { s.sink with bits := s.sink.bits ++ bits } } ∨
      t = State.errorEntry .payloadTruncated 0 true
        { s with
          cur := cur, src := { s.src with pos := pos }, sink := { s.sink with bits := s.sink.bits ++ bits } } := by
  obtain ⟨ok, raised⟩ := decodeLoop_frame (fuel := s.src.remaining.length + 1) (s := { s with cur := s.root })
  rcases Run.outcome_eq_next.1 h with h | h
  · obtain ⟨cur, pos, bits, rfl⟩ := ok t h; exact ⟨cur, pos, bits, .inl rfl⟩
  · obtain ⟨cur, pos, bits, rfl⟩ := raised t h; exact ⟨cur, pos, bits, .inr rfl⟩

theorem exec_close_eq (s : State) : exec .close s = .next s.closeOnce := rfl

theorem exec_tag_next {m : Word} {s t : State} (h : exec (.tag m) s = .next t) :
    t = s.skip Config.tagW ∨ t = (s.skip Config.tagW).errorEntry .badMagic m false := by
  obtain rfl := Outcome.next.inj h
  exact checkTag_cases ..

theorem exec_internal_next {s t : State} (h : exec .internal s = .next t) :
    (s.next.toNat ≠ Config.nodeCap ∧ s.trav.frames.length < Config.nodeCap ∧
      t = { s.skip 1 with next := s.next + 1, trav := { s.trav with frames := ⟨s.next, false⟩ :: s.trav.frames } }) ∨
    (s.next.toNat = Config.nodeCap ∧ t = (s.skip 1).errorEntry .treeOverflow 513 false) := by
  replace h := Run.outcome_eq_next.1 h
  unfold internalToken at h
  obtain ⟨hn, e⟩ | ⟨hn, e⟩ := takeIndex_cases (s.skip 1)
  · rw [e] at h
    exact .inr ⟨hn, (Run.raised.inj (h.resolve_left (by simp [Run.raise]))).symm⟩
  · rw [e, Run.bind_ok] at h
    obtain ⟨hl, rfl⟩ := pushFrame_eq_ok.1 (h.resolve_right pushFrame_ne_raised)
    exact .inl ⟨hn, hl, rfl⟩

theorem exec_leaf_next {sym : Sym} {s t : State} (h : exec (.leaf sym) s = .next t) :
    (s.next.toNat < Config.nodeCap ∧
      completeSubtree s.next s.trav.frames
        { (s.skip 1).skip 9 with next := s.next + 1, node := s.node.write s.next.toNat (leafNode sym 0) } = .ok () t) ∨
    (s.next.toNat = Config.nodeCap ∧ t = (s.skip 1).errorEntry .treeOverflow 513 false) := by
  replace h := Run.outcome_eq_next.1 h
  unfold leafToken at h
  obtain ⟨hn, e⟩ | ⟨hn, e⟩ := takeIndex_cases (s.skip 1)
  · rw [e] at h
    exact .inr ⟨hn, (Run.raised.inj (h.resolve_left (by simp [Run.raise]))).symm⟩
  · rw [e, Run.bind_ok] at h
    rcases h with h | h
    · obtain ⟨_, u, hu, h⟩ := Run.bind_eq_ok.1 h
      obtain ⟨hi, rfl⟩ := writeNode_eq_ok.1 hu
      exact .inl ⟨hi, h⟩
    · rcases Run.bind_eq_raised.1 h with h | ⟨_, u, -, h⟩
      · exact absurd h writeNode_ne_raised
      · exact absurd h completeSubtree_ne_raised

/-! ## Each turn of one node

GENCODES' first visit clears CODE and the path (R166); what the visit then does is `visitCode`. -/

/-- One node of GENCODES after CODE has been cleared; `first` says that the node is ROOT. -/
def visitCode (first : Bool) (s : State) : Run Unit :=
  (walkPosition s).bind fun i s =>
    (readNode i.toNat s).bind fun n s =>
      match n.kind with
      | .internal =>
        (pushFrame i s).bind fun _ s =>
          .ok () { s with trav := { s.trav with len := s.trav.len + 1, pat := appendBit s.trav.pat false } }
      | .leaf =>
        (writeCode n.sym.toNat (if first then ⟨true, 1, 0⟩ else ⟨true, s.trav.len, s.trav.pat⟩) s).bind fun _ s =>
          .ok () { s with
            trav := unwindPath s.trav, codeValid := s.codeValid || (unwindPath s.trav).frames.isEmpty }

theorem visitGencodes_first {s : State} (h : s.trav.frames = []) :
    visitGencodes s = visitCode true { s with code := Table.fill Config.nsym noCodeEntry, trav := .empty } := by
  unfold visitGencodes visitCode
  simp only [h, List.isEmpty_nil, if_true] <;> rfl

theorem visitGencodes_walking {s : State} (h : s.trav.frames ≠ []) : visitGencodes s = visitCode false s := by
  have e : s.trav.frames.isEmpty = false := by simpa using h
  unfold visitGencodes visitCode
  simp only [e, Bool.false_eq_true, if_false] <;> rfl

theorem unwindPath_frames (t : Traversal) : (unwindPath t).frames = (unwind t.frames).2 := by
  unfold unwindPath
  split
  · next h => rw [h]; rfl
  · next h => rw [h]

theorem visitCode_eq_ok {first : Bool} {s t : State} (h : visitCode first s = .ok () t) :
    (∃ i, s.trav.frames.length < Config.nodeCap ∧
      t = { s with trav := ⟨⟨i, false⟩ :: s.trav.frames, s.trav.len + 1, appendBit s.trav.pat false⟩ }) ∨
    (∃ sym entry, sym < Config.nsym ∧
      t = { s with
        code := s.code.write sym entry, trav := unwindPath s.trav
        codeValid := s.codeValid || (unwindPath s.trav).frames.isEmpty }) := by
  replace h := Run.bind_eq_ok.1 h
  obtain ⟨i, u, hu, h⟩ := h
  obtain rfl := walkPosition_eq_ok hu
  rw [Run.bind_eq_ok] at h
  obtain ⟨n, v, hv, h⟩ := h
  obtain ⟨-, -, rfl⟩ := readNode_eq_ok.1 hv
  split at h
  · obtain ⟨_, w, hw, h⟩ := Run.bind_eq_ok.1 h
    obtain ⟨hl, rfl⟩ := pushFrame_eq_ok.1 hw
    exact .inl ⟨i, hl, (Run.ok.inj h).2.symm⟩
  · obtain ⟨_, w, hw, h⟩ := Run.bind_eq_ok.1 h
    obtain ⟨hi, rfl⟩ := writeCode_eq_ok.1 hw
    exact .inr ⟨_, _, hi, (Run.ok.inj h).2.symm⟩

theorem visitCode_ne_raised {first : Bool} {s t : State} : visitCode first s ≠ .raised t := by
  intro h
  rcases Run.bind_eq_raised.1 h with h | ⟨i, u, -, h⟩
  · exact walkPosition_ne_raised h
  rcases Run.bind_eq_raised.1 h with h | ⟨n, v, -, h⟩
  · exact readNode_ne_raised h
  split at h
  · rcases Run.bind_eq_raised.1 h with h | ⟨_, w, -, h⟩
    · exact pushFrame_ne_raised h
    · simp at h
  · rcases Run.bind_eq_raised.1 h with h | ⟨_, w, -, h⟩
    · exact writeCode_ne_raised h
    · simp at h

/-- One node of GENCODES changes CODE, CODE_VALID and the traversal; the last two keep their form. -/
theorem visitGencodes_next {s t : State} (h : (visitGencodes s).outcome = .next t) :
    ∃ code trav valid, t = { s with code := code, trav := trav, codeValid := valid } ∧
      (Table.risingFrom Config.nsym 0 s.code = true → Table.risingFrom Config.nsym 0 code = true) ∧
      (s.trav.frames.length ≤ Config.nodeCap → trav.frames.length ≤ Config.nodeCap) := by
  have visited {first : Bool} {u : State} (h : visitCode first u = .ok () t) :
      ∃ code trav valid, t = { u with code := code, trav := trav, codeValid := valid } ∧
        (Table.risingFrom Config.nsym 0 u.code = true → Table.risingFrom Config.nsym 0 code = true) ∧
        (u.trav.frames.length ≤ Config.nodeCap → trav.frames.length ≤ Config.nodeCap) := by
    obtain ⟨i, hl, rfl⟩ | ⟨sym, entry, hs, rfl⟩ := visitCode_eq_ok h
    · exact ⟨_, _, _, rfl, id, fun _ => hl⟩
    · refine ⟨_, _, _, rfl, fun w => Table.rising_write _ _ w (Nat.zero_le _) hs, fun w => ?_⟩
      rw [unwindPath_frames]
      exact (unwind_length _).trans w
  rw [Run.outcome_eq_next] at h
  by_cases hf : s.trav.frames = []
  · rw [visitGencodes_first hf] at h
    obtain ⟨code, trav, valid, rfl, hw, hl⟩ := visited (h.resolve_right visitCode_ne_raised)
    exact ⟨code, trav, valid, rfl, fun _ => hw (Table.rising_fill _ _ _ (Nat.le_refl _)), fun _ => hl (Nat.zero_le _)⟩
  · rw [visitGencodes_walking hf] at h
    exact visited (h.resolve_right visitCode_ne_raised)

theorem visitWrhdr_eq_ok {s t : State} (h : visitWrhdr s = .ok () t) :
    (∃ i, s.trav.frames.length < Config.nodeCap ∧
      t = { s.writeBits Config.intBits 0 with trav := { s.trav with frames := ⟨i, false⟩ :: s.trav.frames } }) ∨
    (∃ sym : Sym, t = { (s.writeBits Config.intBits 1).writeBits Config.symW sym.toNat with
      trav := { s.trav with frames := (unwind s.trav.frames).2 } }) := by
  replace h := Run.bind_eq_ok.1 h
  obtain ⟨i, u, hu, h⟩ := h
  obtain rfl := walkPosition_eq_ok hu
  rw [Run.bind_eq_ok] at h
  obtain ⟨n, v, hv, h⟩ := h
  obtain ⟨-, -, rfl⟩ := readNode_eq_ok.1 hv
  split at h
  · obtain ⟨hl, rfl⟩ := pushFrame_eq_ok.1 h
    exact .inl ⟨i, hl, rfl⟩
  · exact .inr ⟨n.sym, (Run.ok.inj h).2.symm⟩

theorem visitWrhdr_ne_raised {s t : State} : visitWrhdr s ≠ .raised t := by
  intro h
  rcases Run.bind_eq_raised.1 h with h | ⟨i, u, -, h⟩
  · exact walkPosition_ne_raised h
  rcases Run.bind_eq_raised.1 h with h | ⟨n, v, -, h⟩
  · exact readNode_ne_raised h
  split at h
  · exact pushFrame_ne_raised h
  · simp at h

/-- One node of WRHDR appends to OUT and moves the stack. -/
theorem visitWrhdr_next {s t : State} (h : (visitWrhdr s).outcome = .next t) :
    ∃ bits frames, t = { s with
        sink := { s.sink with bits := s.sink.bits ++ bits }, trav := { s.trav with frames := frames } } ∧
      (s.trav.frames.length ≤ Config.nodeCap → frames.length ≤ Config.nodeCap) := by
  obtain ⟨i, hl, rfl⟩ | ⟨sym, rfl⟩ := visitWrhdr_eq_ok ((Run.outcome_eq_next.1 h).resolve_right visitWrhdr_ne_raised)
  · exact ⟨_, _, rfl, fun _ => hl⟩
  · refine ⟨msbFirst 1 1 ++ msbFirst 9 sym.toNat, _, ?_, (unwind_length _).trans⟩
    simp [State.writeBits, Sink.writeBits]

/-- RDHDR's turn of one token: a token run, or the raise of an input that ends (R180, R182, R183). -/
theorem headerTurn_next {s t : State} (h : headerTurn s = .next t) :
    exec .internal (beginHeader s) = .next t ∨ (∃ sym, exec (.leaf sym) (beginHeader s) = .next t) ∨
    (∃ pos, t = State.errorEntry .headerTruncated 0 true { beginHeader s with src := { s.src with pos := pos } }) ∨
    ((beginHeader s).next.toNat ≠ Config.nodeCap ∧ ∃ pos, t = State.errorEntry .headerTruncated 0 true
      { beginHeader s with next := (beginHeader s).next + 1, src := { s.src with pos := pos } }) ∨
    (∃ pos, t = State.errorEntry .treeOverflow 513 false { beginHeader s with src := { s.src with pos := pos } }) := by
  unfold headerTurn at h
  obtain ⟨pos, hp⟩ := (beginHeader s).readBits_only_pos Config.intBits
  rw [beginHeader_src] at hp
  split at h
  · next i bs hd =>
    obtain rfl | ⟨sym, rfl⟩ := decodeHeader_eq_ok hd
    · exact .inl h
    · exact .inr (.inl ⟨sym, h⟩)
  · unfold leafCutShort at h
    rw [hp] at h
    obtain ⟨hn, e⟩ | ⟨hn, e⟩ := takeIndex_cases { beginHeader s with src := { s.src with pos := pos } }
    · rw [e] at h
      obtain rfl := Outcome.next.inj h
      exact .inr (.inr (.inr (.inr ⟨pos, rfl⟩)))
    · rw [e, Run.bind_ok] at h
      obtain ⟨pos', hp'⟩ := State.readBits_only_pos Config.symW
        { beginHeader s with src := { s.src with pos := pos }, next := (beginHeader s).next + 1 }
      rw [hp'] at h
      obtain rfl := Outcome.next.inj h
      exact .inr (.inr (.inr (.inl ⟨hn, pos', rfl⟩)))
  · unfold tokenMissing at h
    rw [hp] at h
    obtain rfl := Outcome.next.inj h
    exact .inr (.inr (.inl ⟨pos, rfl⟩))

/-- RDTAG's turn of its one token: the TAG, or RDTAG itself. -/
theorem tagTurn_next {s t : State} (h : tagTurn s = .next t) :
    (∃ m, exec (.tag m) s = .next t) ∨ microOpTurn s = .next t := by
  unfold tagTurn at h
  split at h
  · next i bs hd =>
    unfold decodeTag at hd
    split at hd
    · obtain ⟨rfl, -⟩ := Prod.mk.inj (Except.ok.inj hd)
      exact .inl ⟨_, h⟩
    · simp at hd
  · exact .inr h

/-- What a turn of one node or token runs. -/
theorem nodeTurn_eq_next {s t : State} (h : nodeTurn s = .next t) :
    (s.phase = .gencodes ∧ (visitGencodes s).outcome = .next t) ∨
    (s.phase = .wrhdr ∧ (visitWrhdr s).outcome = .next t) ∨
    (s.phase = .rdtag ∧ ∃ m, exec (.tag m) s = .next t) ∨
    (s.phase = .rdhdr ∧ headerTurn s = .next t) ∨ (walkPhase s.phase = false ∧ microOpTurn s = .next t) := by
  unfold nodeTurn at h
  split at h
  · exact .inl ⟨‹_›, h⟩
  · exact .inr (.inl ⟨‹_›, h⟩)
  · next hp =>
    exact (tagTurn_next h).elim (fun h => .inr (.inr (.inl ⟨hp, h⟩)))
      fun h => .inr (.inr (.inr (.inr ⟨by rw [hp]; rfl, h⟩)))
  · exact .inr (.inr (.inr (.inl ⟨‹_›, h⟩)))
  all_goals
    next hp => exact .inr (.inr (.inr (.inr ⟨by rw [hp]; rfl, h⟩)))

end Sys2Proof.Machine
end

section
/-! How a turn of the block can end: with the sequencer's registers as they were, in CLOSE, or in a raise (10_state.md R33 to
R43; 60_exceptions.md R243, R250). -/

namespace Sys2Proof.Machine

open Host (Outcome)

/-- What no operation of a turn changes before it ends or raises; OUT only grows. -/
structure Kept (s t : State) : Prop where
  phase : t.phase = s.phase
  state : t.state = s.state
  sinkClosed : t.sinkClosed = s.sinkClosed
  errEoi : t.errEoi = s.errEoi
  errCause : t.errCause = s.errCause
  errInfo : t.errInfo = s.errInfo
  trav : t.trav = s.trav
  sink : s.sink.bits <+: t.sink.bits

/-- The causes a raise may record, each with the ERR_EOI it may have (R37, R243). -/
structure Raisable (c : Cause) (eoi : Bool) : Prop where
  cause : c ≠ .none
  truncated : c = .headerTruncated ∨ c = .payloadTruncated → eoi = true
  coreFault : c = .treeOverflow ∨ c = .countOverflow ∨ c = .noCode ∨ c = .illegalCommand → eoi = false

/-- The three ways a turn's operation ends, before the sequencer advances. -/
inductive Ending (s : State) : State → Prop where
  | ended {t : State} (kept : Kept s t) (before : s.phase ≠ .close) : Ending s t
  | closed (at_close : s.phase = .close) : Ending s s.closeOnce
  | raised {u : State} {c : Cause} {info : Word} {eoi : Bool} (kept : Kept s u) (cause : Raisable c eoi) :
    Ending s (u.errorEntry c info eoi)

/-- A state that differs in tables, pointers, valid flags and the source only. -/
theorem kept_of_sameSink {s t : State}
    (h : t = { s with
      freq := t.freq, node := t.node, code := t.code, live := t.live, root := t.root, next := t.next, nlive := t.nlive
      cur := t.cur, freqValid := t.freqValid, treeValid := t.treeValid, codeValid := t.codeValid, src := t.src
      cmd := t.cmd, hostData := t.hostData, moves := t.moves }) : Kept s t := by
  rw [h]
  exact ⟨rfl, rfl, rfl, rfl, rfl, rfl, rfl, List.prefix_rfl⟩

/-- The same after bits have been appended to OUT. -/
theorem kept_of_appended {s t : State} {bits : Bits}
    (h : Kept { s with sink := { s.sink with bits := s.sink.bits ++ bits } } t) : Kept s t :=
  { h with sink := (List.prefix_append ..).trans h.sink }

theorem raisable_badMagic (eoi : Bool) : Raisable .badMagic eoi := ⟨by decide, by simp, by simp⟩

theorem raisable_headerTruncated : Raisable .headerTruncated true := ⟨by decide, by simp, by simp⟩

theorem raisable_payloadTruncated : Raisable .payloadTruncated true := ⟨by decide, by simp, by simp⟩

theorem raisable_treeOverflow : Raisable .treeOverflow false := ⟨by decide, by simp, by simp⟩

theorem raisable_countOverflow : Raisable .countOverflow false := ⟨by decide, by simp, by simp⟩

theorem raisable_noCode : Raisable .noCode false := ⟨by decide, by simp, by simp⟩

/-- The end of every micro-operation, with the traversal as it was. -/
theorem microOpTurn_ending {s t : State} (h : microOpTurn s = .next t) : Ending s t := by
  unfold microOpTurn at h
  rw [decodePhase_code] at h
  have phaseOf {p : Phase} (hp : s.phase = p) (hn : p ≠ .close) : s.phase ≠ .close := by rwa [hp]
  cases hp : s.phase <;> simp only [hp] at h
  case none => simp at h
  case count =>
    obtain ⟨freq, pos, rfl | ⟨v, rfl⟩⟩ := exec_count_next h
    · exact .ended (kept_of_sameSink rfl) (phaseOf hp (by decide))
    · exact .raised (kept_of_sameSink rfl) raisable_countOverflow
  case build =>
    obtain ⟨_, _, _, _, _, rfl⟩ := exec_build_next h
    exact .ended (kept_of_sameSink rfl) (phaseOf hp (by decide))
  case gencodes =>
    obtain ⟨_, rfl⟩ := exec_gencodes_next h
    exact .ended (kept_of_sameSink rfl) (phaseOf hp (by decide))
  case wrtag =>
    obtain rfl := Outcome.next.inj h
    exact .ended (kept_of_appended (kept_of_sameSink rfl)) (phaseOf hp (by decide))
  case wrhdr =>
    obtain ⟨_, rfl⟩ := exec_wrhdr_next h
    exact .ended (kept_of_appended (kept_of_sameSink rfl)) (phaseOf hp (by decide))
  case encode =>
    obtain ⟨_, _, rfl | ⟨v, rfl⟩⟩ := exec_encode_next h
    · exact .ended (kept_of_appended (kept_of_sameSink rfl)) (phaseOf hp (by decide))
    · exact .raised (kept_of_appended (kept_of_sameSink rfl)) raisable_noCode
  case rdtag =>
    obtain ⟨_, rfl | ⟨v, eoi, rfl⟩⟩ := exec_rdtag_next h
    · exact .ended (kept_of_sameSink rfl) (phaseOf hp (by decide))
    · exact .raised (kept_of_sameSink rfl) (raisable_badMagic eoi)
  case rdhdr =>
    obtain ⟨_, _, _, ⟨_, rfl⟩ | rfl | rfl⟩ := exec_rdhdr_next h
    · exact .ended (kept_of_sameSink rfl) (phaseOf hp (by decide))
    · exact .raised (kept_of_sameSink rfl) raisable_headerTruncated
    · exact .raised (kept_of_sameSink rfl) raisable_treeOverflow
  case decode =>
    obtain ⟨_, _, _, rfl | rfl⟩ := exec_decode_next h
    · exact .ended (kept_of_appended (kept_of_sameSink rfl)) (phaseOf hp (by decide))
    · exact .raised (kept_of_appended (kept_of_sameSink rfl)) raisable_payloadTruncated
  case close =>
    obtain rfl := Outcome.next.inj h
    exact .closed hp

/-- The header's first token sets NEXT to 0 and changes nothing else (R180). -/
theorem beginHeader_eq (s : State) : ∃ next, beginHeader s = { s with next := next } := by
  unfold beginHeader
  split
  · exact ⟨0, rfl⟩
  · exact ⟨s.next, rfl⟩

/-- The end of RDHDR's turn of one token. -/
theorem headerTurn_ending {s t : State} (hp : s.phase = .rdhdr) (h : headerTurn s = .next t) :
    ∃ trav, Ending { s with trav := trav } t := by
  have before : s.phase ≠ .close := by simp [hp]
  obtain ⟨next, hb⟩ := beginHeader_eq s
  obtain h | ⟨sym, h⟩ | ⟨pos, rfl⟩ | ⟨-, pos, rfl⟩ | ⟨pos, rfl⟩ := headerTurn_next h <;> rw [hb] at *
  · obtain ⟨-, -, rfl⟩ | ⟨-, rfl⟩ := exec_internal_next h
    · exact ⟨_, .ended (kept_of_sameSink rfl) before⟩
    · exact ⟨s.trav, .raised (kept_of_sameSink rfl) raisable_treeOverflow⟩
  · obtain ⟨-, h⟩ | ⟨-, rfl⟩ := exec_leaf_next h
    · obtain ⟨node, root, valid, e, -, -⟩ := completeSubtree_frame h
      refine ⟨t.trav, .ended (kept_of_sameSink ?_) before⟩
      rw [e]; rfl
    · exact ⟨s.trav, .raised (kept_of_sameSink rfl) raisable_treeOverflow⟩
  · exact ⟨s.trav, .raised (kept_of_sameSink rfl) raisable_headerTruncated⟩
  · exact ⟨s.trav, .raised (kept_of_sameSink rfl) raisable_headerTruncated⟩
  · exact ⟨s.trav, .raised (kept_of_sameSink rfl) raisable_treeOverflow⟩

/-- The end of every turn of one node or token, which may also leave another traversal. -/
theorem nodeTurn_ending {s t : State} (h : nodeTurn s = .next t) : ∃ trav, Ending { s with trav := trav } t := by
  obtain ⟨hp, h⟩ | ⟨hp, h⟩ | ⟨hp, m, h⟩ | ⟨hp, h⟩ | ⟨-, h⟩ := nodeTurn_eq_next h
  · obtain ⟨_, trav, _, rfl, -, -⟩ := visitGencodes_next h
    exact ⟨trav, .ended (kept_of_sameSink rfl) (by simp [hp])⟩
  · obtain ⟨_, frames, rfl, -⟩ := visitWrhdr_next h
    exact ⟨{ s.trav with frames := frames }, .ended (kept_of_appended (kept_of_sameSink rfl)) (by simp [hp])⟩
  · obtain rfl | rfl := exec_tag_next h
    · exact ⟨s.trav, .ended (kept_of_sameSink rfl) (by simp [hp])⟩
    · exact ⟨s.trav, .raised (kept_of_sameSink rfl) (raisable_badMagic false)⟩
  · exact headerTurn_ending hp h
  · exact ⟨s.trav, microOpTurn_ending h⟩

end Sys2Proof.Machine
end

section
/-! PHASE, STATE and SINK_CLOSED over a turn and over a step (10_state.md R33, R34, R36), and who writes which table. -/

namespace Sys2Proof.Machine

open Host (Outcome)

/-! ## The sequencer after a turn -/

theorem State.advance_state_cases (s : State) :
    s.advance.state = s.state ∨ (s.state = .busy ∧ s.advance.state = .done) := by
  unfold State.advance
  split
  · split
    · exact .inr ⟨‹_ ∧ _›.1, rfl⟩
    · exact .inl rfl
  · exact .inl rfl

/-- STATE at the end of a turn's operation: as it was, or ERROR. -/
theorem Ending.state {s t : State} (h : Ending s t) : t.state = s.state ∨ t.state = .error := by
  cases h with
  | ended kept _ => exact .inl kept.state
  | closed _ => exact .inl (by simp)
  | raised kept cause => exact .inr (by simp)

/-- PHASE and STATE after a turn over a whole micro-operation (R227). -/
theorem Ending.advance_phase {s t : State} (h : Ending s t) (hb : s.state = .busy) (hf : s.trav.frames = []) :
    (t.advance.state = .error ∧ t.advance.phase = s.phase) ∨
    (s.phase = .close ∧ t.advance.state = .done ∧ t.advance.phase = .none) ∨
    (s.phase ≠ .close ∧ t.advance.state = .busy ∧ t.advance.phase = s.phase.following) := by
  have advanced (hs : t.state = .busy) (ht : t.trav.frames = []) (hp : t.phase = s.phase) :
      (s.phase = .close ∧ t.advance.state = .done ∧ t.advance.phase = .none) ∨
      (s.phase ≠ .close ∧ t.advance.state = .busy ∧ t.advance.phase = s.phase.following) := by
    by_cases hc : s.phase = .close
    · rw [State.advance_of_close hs ht (hp.trans hc)]
      exact .inl ⟨hc, rfl, rfl⟩
    · rw [State.advance_of_not_close hs ht (by rwa [hp])]
      exact .inr ⟨hc, hs, congrArg Phase.following hp⟩
  cases h with
  | ended kept _ => exact .inr (advanced (kept.state.trans hb) (by rw [kept.trav, hf]) kept.phase)
  | closed _ => exact .inr (advanced (by simpa using hb) (by simpa using hf) (by simp))
  | raised kept cause =>
    rw [State.advance_eq_self (.inl (by simp))]
    exact .inl ⟨by simp, by simpa using kept.phase⟩

/-- How a turn taken while BUSY has ended before the sequencer advanced. -/
theorem blockTurn_ending {g : Grain} {s t : State} (h : blockTurn g s = .next t) (hb : s.state = .busy) :
    ∃ trav u, Ending { s with trav := trav } u ∧ t = u.advance := by
  obtain ⟨u, hu | ⟨-, hu⟩, rfl⟩ := blockTurn_eq_next h hb
  · obtain ⟨trav, e⟩ := nodeTurn_ending hu
    exact ⟨trav, u, e, rfl⟩
  · exact ⟨s.trav, u, microOpTurn_ending hu, rfl⟩

/-- STATE over the block's turn: BUSY may become DONE or ERROR, and nothing else changes. -/
theorem blockTurn_state {g : Grain} {s t : State} (h : blockTurn g s = .next t) :
    t.state = s.state ∨ (s.state = .busy ∧ (t.state = .done ∨ t.state = .error)) := by
  by_cases hb : s.state = .busy
  · obtain ⟨trav, u, e, rfl⟩ := blockTurn_ending h hb
    rcases u.advance_state_cases with ha | ⟨-, ha⟩
    · exact e.state.imp (fun hu => ha.trans hu) fun hu => ⟨hb, .inr (ha.trans hu)⟩
    · exact .inr ⟨hb, .inl ha⟩
  · rw [blockTurn_waits hb] at h
    exact .inl (congrArg State.state (Outcome.next.inj h).symm)

/-! ## The close -/

/-- SINK_CLOSED at the end of a turn's operation: as it was, or set by the close of a sink that still began with OUT. -/
theorem Ending.sinkClosed {s t : State} (h : Ending s t) :
    t.sinkClosed = s.sinkClosed ∨
    (t.sinkClosed = true ∧ (s.sinkClosed = false → ∃ k : Sink, t.sink = k.close ∧ s.sink.bits <+: k.bits)) := by
  cases h with
  | ended kept _ => exact .inl kept.sinkClosed
  | closed _ => exact .inr ⟨by simp, fun hc => ⟨s.sink, by simp [hc], List.prefix_rfl⟩⟩
  | raised kept cause =>
    exact .inr ⟨by simp, fun hc => ⟨_, by simp [kept.sinkClosed, hc], kept.sink⟩⟩

theorem blockTurn_sinkClosed {g : Grain} {s t : State} (h : blockTurn g s = .next t) :
    t.sinkClosed = s.sinkClosed ∨
    (t.sinkClosed = true ∧ (s.sinkClosed = false → ∃ k : Sink, t.sink = k.close ∧ s.sink.bits <+: k.bits)) := by
  by_cases hb : s.state = .busy
  · obtain ⟨trav, u, e, rfl⟩ := blockTurn_ending h hb
    simpa using e.sinkClosed
  · rw [blockTurn_waits hb] at h
    exact .inl (congrArg State.sinkClosed (Outcome.next.inj h).symm)

/-! ## Moves of the host and platform -/

/-- A command started or dropped. -/
theorem exec_start_cases {first : Phase} {s t : State}
    (h : (.next (if s.state = .idle then startCommand first s else s) : Outcome State Fault Refusal) = .next t) :
    (s.state = .idle ∧ t = startCommand first s) ∨ (s.state ≠ .idle ∧ t = s) := by
  obtain rfl := Outcome.next.inj h
  by_cases hi : s.state = .idle
  · exact .inl ⟨hi, if_pos hi⟩
  · exact .inr ⟨hi, if_neg hi⟩

theorem exec_clear_cases {s t : State} (h : exec .clear s = .next t) :
    (s.state ≠ .busy ∧ t = s.clearRegisters) ∨ (s.state = .busy ∧ t = s) := by
  obtain rfl := Outcome.next.inj h
  by_cases hb : s.state = .busy
  · exact .inr ⟨hb, if_pos hb⟩
  · exact .inl ⟨hb, if_neg hb⟩

/-- An illegal word's error entry in IDLE (R228). -/
def illegalEntry (w : Word) (s : State) : State :=
  { s with state := .error, phase := .none, errCause := .illegalCommand, errInfo := w, errEoi := false }

/-- What a host write does: nothing but CMD takes the word, a command starts, CLEAR, or the entry of an illegal word. -/
theorem hostWrite_next {r : HostReg} {w : Word} {s t : State} (h : hostWrite r w s = .next t) :
    t = s ∨ (r = .cmd ∧
      (t = { s with cmd := w } ∨
      (s.state = .idle ∧ (w = 1 ∨ w = 2) ∧
        ∃ first, (first = .count ∨ first = .rdtag) ∧ t = startCommand first { s with cmd := w }) ∨
      (s.state ≠ .busy ∧ w = 3 ∧ t = State.clearRegisters { s with cmd := w }) ∨
      (s.state = .idle ∧ (w ≠ 1 ∧ w ≠ 2 ∧ w ≠ 3) ∧ t = illegalEntry w { s with cmd := w }))) := by
  by_cases hr : r = .cmd
  · subst hr
    refine .inr ⟨rfl, ?_⟩
    obtain ⟨hw, e⟩ | ⟨hw, e⟩ | ⟨hw, e⟩ | ⟨hw, e⟩ := hostWrite_cmd w s <;> rw [e] at h
    · obtain ⟨hi, rfl⟩ | ⟨-, rfl⟩ := exec_start_cases h
      · exact .inr (.inl ⟨hi, .inl hw, .count, .inl rfl, rfl⟩)
      · exact .inl rfl
    · obtain ⟨hi, rfl⟩ | ⟨-, rfl⟩ := exec_start_cases h
      · exact .inr (.inl ⟨hi, .inr hw, .rdtag, .inr rfl, rfl⟩)
      · exact .inl rfl
    · obtain ⟨hb, rfl⟩ | ⟨-, rfl⟩ := exec_clear_cases h
      · exact .inr (.inr (.inl ⟨hb, hw, rfl⟩))
      · exact .inl rfl
    · obtain rfl := Outcome.next.inj h
      unfold illegalCommand
      split
      · next hi => exact .inr (.inr (.inr ⟨hi, hw, rfl⟩))
      · exact .inl rfl
  · rw [hostWrite_readOnly hr] at h
    exact .inl (Outcome.next.inj h).symm

theorem attach_next {bits : Bits} {rewound : Option Bits} {s t : State} (h : attach bits rewound s = .next t) :
    s.state ≠ .busy ∧ t = { s with src := ⟨bits, 0, rewound⟩, sink := ⟨[], false⟩ } := by
  unfold attach at h
  split at h
  · simp at h
  · exact ⟨‹_›, (Outcome.next.inj h).symm⟩

/-- No transaction is made outside BUSY. -/
theorem turnPorts_waits {g : Grain} {s : State} (h : s.state ≠ .busy) : turnPorts g s = [] := by
  simp [turnPorts, h]

/-! ## Whole steps -/

/-- What a step does to SINK_CLOSED: nothing, a clear by a write of word 3 or a reset, or a set with the close. -/
theorem step_sinkClosed {s t : State} (h : step s = .next t) :
    t.sinkClosed = s.sinkClosed ∨
    (t.sinkClosed = false ∧ ((∃ rest, s.moves = .write .cmd 3 :: rest) ∨ (∃ rest, s.moves = .reset :: rest) ∨
      ∃ g k rest, s.moves = .resetDuring g k :: rest)) ∨
    (t.sinkClosed = true ∧ (s.sinkClosed = false → ∃ k : Sink, t.sink = k.close ∧ s.sink.bits <+: k.bits)) := by
  rcases hm : s.moves with _ | ⟨m, rest⟩
  · rw [step_of_no_move hm] at h
    exact (blockTurn_sinkClosed h).imp_right .inr
  rw [step_of_move hm] at h
  cases m with
  | block g => exact (blockTurn_sinkClosed (s := { s with moves := rest }) h).imp_right .inr
  | write r w =>
    obtain rfl | ⟨rfl, rfl | ⟨-, -, first, -, rfl⟩ | ⟨-, rfl, rfl⟩ | ⟨-, -, rfl⟩⟩ := hostWrite_next h
    · exact .inl rfl
    · exact .inl rfl
    · exact .inl rfl
    · exact .inr (.inl ⟨rfl, .inl ⟨rest, rfl⟩⟩)
    · exact .inl rfl
  | read r =>
    obtain rfl := Outcome.next.inj h
    exact .inl rfl
  | attach bits rewound =>
    obtain ⟨-, rfl⟩ := attach_next h
    exact .inl rfl
  | reset =>
    obtain rfl := Outcome.next.inj h
    exact .inr (.inl ⟨rfl, .inr (.inl ⟨rest, rfl⟩)⟩)
  | resetDuring g k =>
    obtain rfl := Outcome.next.inj h
    exact .inr (.inl ⟨rfl, .inr (.inr ⟨g, k, rest, rfl⟩)⟩)

/-- Outside BUSY only the host's attaching changes the sink. -/
theorem step_sink_of_waits {s t : State} (h : step s = .next t) (hb : s.state ≠ .busy) :
    t.sink = s.sink ∨ ∃ bits rewound rest, s.moves = .attach bits rewound :: rest := by
  rcases hm : s.moves with _ | ⟨m, rest⟩
  · rw [step_of_no_move hm, blockTurn_waits hb] at h
    exact .inl (congrArg State.sink (Outcome.next.inj h).symm)
  rw [step_of_move hm] at h
  cases m with
  | block g =>
    rw [runMove, blockTurn_waits (by exact hb)] at h
    obtain rfl := Outcome.next.inj h
    exact .inl rfl
  | write r w =>
    obtain rfl | ⟨rfl, rfl | ⟨-, -, first, -, rfl⟩ | ⟨-, -, rfl⟩ | ⟨-, -, rfl⟩⟩ := hostWrite_next h <;> exact .inl rfl
  | read r =>
    obtain rfl := Outcome.next.inj h
    exact .inl rfl
  | attach bits rewound => exact .inr ⟨bits, rewound, rest, rfl⟩
  | reset =>
    obtain rfl := Outcome.next.inj h
    exact .inl rfl
  | resetDuring g k =>
    obtain rfl := Outcome.next.inj h
    refine .inl ?_
    simp [State.resetAfter, turnPorts_waits (s := { s with moves := rest }) hb]

end Sys2Proof.Machine

open Sys2Proof Sys2Proof.Machine Sys2Proof.Safety

/-- Settles O50: the turn's ending, then the sequencer's order one PHASE at a time. -/
theorem phaseAdvances : Obligations.PhaseAdvances := by
  unfold Obligations.PhaseAdvances
  intro s t hb hf hm h
  rw [step_of_no_move hm, blockTurn_microOp hb hf, andThen_eq_next] at h
  obtain ⟨u, hu, h⟩ := h
  obtain rfl := Host.Outcome.next.inj h
  obtain he | ⟨hc, hs, hp⟩ | ⟨hc, hs, hp⟩ := (microOpTurn_ending hu).advance_phase hb hf
  · exact .inl he
  · exact .inr (.inr ⟨hs, hc, hp⟩)
  · refine .inr (.inl ⟨hs, ?_⟩)
    obtain ⟨i, hi, -⟩ := microOpTurn_eq_next hu
    rw [hp]
    cases hq : s.phase <;> simp_all [decodePhase_code, Phase.following]

/-- Settles O51: what each move does to STATE. -/
theorem stateTransitions : Obligations.StateTransitions := by
  unfold Obligations.StateTransitions
  intro s t h hne
  have turned {g : Grain} {u : State} (hu : u.state = s.state) (h : blockTurn g u = .next t) :
      s.state = .busy ∧ (t.state = .done ∨ t.state = .error) := by
    rw [← hu] at hne ⊢
    exact (blockTurn_state h).resolve_left hne
  rcases hm : s.moves with _ | ⟨m, rest⟩
  · rw [step_of_no_move hm] at h
    obtain ⟨hb, ht⟩ := turned rfl h
    exact .inr (.inr (.inl ⟨hb, ht, .inl rfl⟩))
  rw [step_of_move hm] at h
  cases m with
  | block g =>
    obtain ⟨hb, ht⟩ := turned (u := { s with moves := rest }) rfl h
    exact .inr (.inr (.inl ⟨hb, ht, .inr ⟨g, rest, rfl⟩⟩))
  | write r w =>
    obtain rfl | ⟨rfl, rfl | ⟨hi, hw, first, -, rfl⟩ | ⟨hb, rfl, rfl⟩ | ⟨hi, hw, rfl⟩⟩ := hostWrite_next h
    · exact absurd rfl hne
    · exact absurd rfl hne
    · exact .inl ⟨hi, rfl, w, rest, rfl, hw⟩
    · refine .inr (.inr (.inr (.inl ⟨?_, rfl, rest, rfl⟩)))
      cases hs : s.state with
      | idle => exact absurd hs.symm hne
      | busy => exact absurd hs hb
      | done => exact .inl rfl
      | error => exact .inr rfl
    · exact .inr (.inl ⟨hi, rfl, w, rest, rfl, hw⟩)
  | read r =>
    obtain rfl := Host.Outcome.next.inj h
    exact absurd rfl hne
  | attach bits rewound =>
    obtain ⟨-, rfl⟩ := attach_next h
    exact absurd rfl hne
  | reset =>
    obtain rfl := Host.Outcome.next.inj h
    exact .inr (.inr (.inr (.inr ⟨rfl, .inl ⟨rest, rfl⟩⟩)))
  | resetDuring g k =>
    obtain rfl := Host.Outcome.next.inj h
    exact .inr (.inr (.inr (.inr ⟨rfl, .inr ⟨g, k, rest, rfl⟩⟩)))

/-- Settles O52: a closed sink means that no command runs, and then the block makes no transaction. -/
theorem sinkClosedOnce : Obligations.SinkClosedOnce := by
  unfold Obligations.SinkClosedOnce
  refine ⟨fun s t h hs ht => ?_, fun s t inv h hs => ?_, fun s t h hs ht => ?_⟩
  · obtain e | ⟨-, hm⟩ | ⟨e, -⟩ := step_sinkClosed h
    · simp [e, hs] at ht
    · exact hm
    · simp [e] at ht
  · refine step_sink_of_waits h fun hb => ?_
    simp [inv.openBefore (.inr hb)] at hs
  · obtain e | ⟨e, -⟩ | ⟨-, hk⟩ := step_sinkClosed h
    · simp [e, hs] at ht
    · simp [e] at ht
    · exact hk hs

/-- Settles O53: each operation's frame names the tables it may write. -/
theorem tablesWrittenByTheirUnits : Obligations.TablesWrittenByTheirUnits := by
  unfold Obligations.TablesWrittenByTheirUnits
  intro i s t h
  cases i with
  | compress => obtain ⟨-, rfl⟩ | ⟨-, rfl⟩ := exec_start_cases h <;> simp [startCommand]
  | decompress => obtain ⟨-, rfl⟩ | ⟨-, rfl⟩ := exec_start_cases h <;> simp [startCommand]
  | clear => obtain ⟨-, rfl⟩ | ⟨-, rfl⟩ := exec_clear_cases h <;> simp
  | count => obtain ⟨_, _, rfl | ⟨_, rfl⟩⟩ := exec_count_next h <;> simp
  | build => obtain ⟨_, _, _, _, _, rfl⟩ := exec_build_next h; simp
  | gencodes => obtain ⟨_, rfl⟩ := exec_gencodes_next h; simp
  | wrtag => obtain rfl := Host.Outcome.next.inj h; simp [writeTag]
  | wrhdr => obtain ⟨_, rfl⟩ := exec_wrhdr_next h; simp
  | encode => obtain ⟨_, _, rfl | ⟨_, rfl⟩⟩ := exec_encode_next h <;> simp
  | rdtag => obtain ⟨_, rfl | ⟨_, _, rfl⟩⟩ := exec_rdtag_next h <;> simp
  | rdhdr => obtain ⟨_, _, _, ⟨_, rfl⟩ | rfl | rfl⟩ := exec_rdhdr_next h <;> simp
  | decode => obtain ⟨_, _, _, rfl | rfl⟩ := exec_decode_next h <;> simp
  | close => obtain rfl := Host.Outcome.next.inj h; simp
  | tag m => obtain rfl | rfl := exec_tag_next h <;> simp
  | internal => obtain ⟨-, -, rfl⟩ | ⟨-, rfl⟩ := exec_internal_next h <;> simp
  | leaf sym =>
    obtain ⟨-, h⟩ | ⟨-, rfl⟩ := exec_leaf_next h
    · obtain ⟨_, _, _, e, -, -⟩ := completeSubtree_frame h
      rw [e]; simp
    · simp

end

section
/-! The machine's invariant (10_state.md R29 to R43, R38; 20_memory.md R61): tables and counters in range, the stack in form,
the sequencer's registers consistent, each kept by every turn. -/

namespace Sys2Proof.Machine

open Host (Outcome)
open Sys2Proof.Safety (walkPhase Inv)

/-! ## Tables and counters -/

/-- An index of NODE, or their number, counted up does not wrap. -/
theorem idx_toNat_succ {i : Idx} (h : i.toNat ≤ Config.nodeCap) : (i + 1 : Idx).toNat = i.toNat + 1 := by
  simp only [Config.nodeCap] at h
  bv_omega

/-- The tables in canonical form, NEXT and NLIVE in range (R21 to R30). -/
structure TablesInRange (s : State) : Prop where
  wf : Memory.wf s = true
  next : s.next.toNat ≤ Config.nodeCap
  nlive : s.nlive.toNat ≤ Config.nsym

/-- They look at six fields only. -/
theorem TablesInRange.congr {s t : State} (h : TablesInRange s) (hf : t.freq = s.freq := by simp)
    (hn : t.node = s.node := by simp) (hc : t.code = s.code := by simp) (hl : t.live = s.live := by simp)
    (hx : t.next = s.next := by simp) (hv : t.nlive = s.nlive := by simp) : TablesInRange t :=
  ⟨(Memory.wf_congr hf hn hc hl).trans h.wf, hx ▸ h.next, hv ▸ h.nlive⟩

theorem TablesInRange.errorEntry {s : State} (h : TablesInRange s) (c : Cause) (info : Word) (eoi : Bool) :
    TablesInRange (s.errorEntry c info eoi) :=
  h.congr

theorem TablesInRange.writeNode {s t : State} {i : Nat} {v : Node} (h : TablesInRange s)
    (hw : writeNode i v s = .ok () t) : TablesInRange t := by
  refine ⟨writeNode_wf hw h.wf, ?_, ?_⟩ <;> (obtain ⟨-, rfl⟩ := writeNode_eq_ok.1 hw)
  · exact h.next
  · exact h.nlive

theorem TablesInRange.takeNext {s : State} (h : TablesInRange s) (hn : s.next.toNat ≠ Config.nodeCap) :
    TablesInRange { s with next := s.next + 1 } := by
  refine ⟨(Memory.wf_congr rfl rfl rfl rfl).trans h.wf, ?_, h.nlive⟩
  have hx := h.next
  show (s.next + 1 : Idx).toNat ≤ Config.nodeCap
  rw [idx_toNat_succ hx]
  omega

theorem TablesInRange.withCode {s : State} {code : Table CodeEntry} (h : TablesInRange s)
    (hc : Table.risingFrom Config.nsym 0 code = true) : TablesInRange { s with code := code } := by
  obtain ⟨hf, hn, -, hl⟩ := (Memory.wf_iff s).1 h.wf
  exact ⟨(Memory.wf_iff _).2 ⟨hf, hn, hc, hl⟩, h.next, h.nlive⟩

theorem TablesInRange.withFreq {s : State} {freq : Table Count} (h : TablesInRange s)
    (hf : Table.risingFrom Config.nsym 0 freq = true) : TablesInRange { s with freq := freq } := by
  obtain ⟨-, hn, hc, hl⟩ := (Memory.wf_iff s).1 h.wf
  exact ⟨(Memory.wf_iff _).2 ⟨hf, hn, hc, hl⟩, h.next, h.nlive⟩

/-- Whatever block reads, taken indexes and NODE writes keep is kept by Get, up to its end and up to its raise (R180). -/
theorem getNode_keeps {P : State → Prop} (read : ∀ n s, P s → P (s.readBits n).2)
    (take : ∀ s, P s → s.next.toNat ≠ Config.nodeCap → P { s with next := s.next + 1 })
    (write : ∀ i v s t, writeNode i v s = .ok () t → P s → P t) {fuel : Nat} {s : State} (h : P s) :
    (∀ i t, getNode fuel s = .ok i t → P t) ∧
    ∀ t, getNode fuel s = .raised t → ∃ u c info eoi, P u ∧ t = u.errorEntry c info eoi := by
  induction fuel generalizing s with
  | zero => simp [getNode]
  | succ fuel ih =>
    simp only [getNode]
    rw [show s.readBits Config.intBits = ((s.readBits Config.intBits).1, (s.readBits Config.intBits).2) from rfl]
    have h1 := read Config.intBits s h
    generalize (s.readBits Config.intBits).2 = u at h1
    cases (s.readBits Config.intBits).1 with
    | none => exact ⟨by simp, fun t e => ⟨u, _, _, _, h1, (Run.raised.inj e).symm⟩⟩
    | some b =>
      dsimp only
      rcases takeIndex_cases u with ⟨-, e⟩ | ⟨hn, e⟩ <;> rw [e]
      · exact ⟨by simp [Run.raise], fun t e => ⟨u, _, _, _, h1, (Run.raised.inj e).symm⟩⟩
      have h2 := take u h1 hn
      generalize ({ u with next := u.next + 1 } : State) = v at h2
      rw [Run.bind_ok]
      split
      · refine ⟨fun i t e => ?_, fun t e => ?_⟩
        · obtain ⟨l, w, hl, e⟩ := Run.bind_eq_ok.1 e
          obtain ⟨r, x, hr, e⟩ := Run.bind_eq_ok.1 e
          obtain ⟨_, y, hy, e⟩ := Run.bind_eq_ok.1 e
          obtain ⟨-, rfl⟩ := Run.ok.inj e
          exact write _ _ _ _ hy ((ih ((ih h2).1 _ _ hl)).1 _ _ hr)
        · rcases Run.bind_eq_raised.1 e with e | ⟨l, w, hl, e⟩
          · exact (ih h2).2 _ e
          rcases Run.bind_eq_raised.1 e with e | ⟨r, x, hr, e⟩
          · exact (ih ((ih h2).1 _ _ hl)).2 _ e
          rcases Run.bind_eq_raised.1 e with e | ⟨_, y, hy, e⟩
          · exact absurd e writeNode_ne_raised
          · simp at e
      · rw [show v.readBits Config.symW = ((v.readBits Config.symW).1, (v.readBits Config.symW).2) from rfl]
        have h3 := read Config.symW v h2
        generalize (v.readBits Config.symW).2 = w at h3
        cases (v.readBits Config.symW).1 with
        | none => exact ⟨by simp, fun t e => ⟨w, _, _, _, h3, (Run.raised.inj e).symm⟩⟩
        | some x =>
          refine ⟨fun i t e => ?_, fun t e => ?_⟩
          · obtain ⟨_, y, hy, e⟩ := Run.bind_eq_ok.1 e
            obtain ⟨-, rfl⟩ := Run.ok.inj e
            exact write _ _ _ _ hy h3
          · rcases Run.bind_eq_raised.1 e with e | ⟨_, y, hy, e⟩
            · exact absurd e writeNode_ne_raised
            · simp at e

theorem exec_count_tables {s t : State} (h : exec .count s = .next t) (w : TablesInRange s) : TablesInRange t := by
  have filled := (w.withFreq (Table.rising_fill _ Config.nsym 0 (Nat.le_refl _))).wf
  have wf : Memory.wf t = true := by
    rcases Run.outcome_eq_next.1 h with h | h
    · obtain ⟨_, u, hu, h⟩ := Run.bind_eq_ok.1 h
      obtain ⟨_, v, hv, h⟩ := Run.bind_eq_ok.1 h
      obtain ⟨-, rfl⟩ := Run.ok.inj h
      exact (Memory.wf_congr (s := v) rfl rfl rfl rfl).trans (writeFreq_wf hv (countLoop_wf filled (.inl hu)))
    · rcases Run.bind_eq_raised.1 h with h | ⟨_, u, -, h⟩
      · exact countLoop_wf filled (.inr h)
      · rcases Run.bind_eq_raised.1 h with h | ⟨_, v, -, h⟩
        · exact absurd h writeFreq_ne_raised
        · exact absurd h (by simp)
  obtain ⟨_, _, rfl | ⟨_, rfl⟩⟩ := exec_count_next h
  · exact ⟨wf, w.next, w.nlive⟩
  · exact ⟨wf, by simpa using w.next, by simpa using w.nlive⟩

theorem exec_build_tables {s t : State} (h : exec .build s = .next t) (w : TablesInRange s) : TablesInRange t := by
  obtain ⟨u, v, hu, hv, h⟩ := buildRun_eq_ok (exec_build_eq_next.1 h)
  have cleared : Memory.wf { s with live := [], nlive := 0 } = true := by
    obtain ⟨hf, hn, hc, -⟩ := (Memory.wf_iff s).1 w.wf
    exact (Memory.wf_iff _).2 ⟨hf, hn, hc, rfl⟩
  have hl : u.nlive.toNat ≤ 257 := by
    have := buildLeaves_nlive hu (by simp [Config.nsym])
    simpa [Config.nsym] using this
  obtain ⟨hone, hnext⟩ := mergeLoop_counts hv rfl (by dsimp only; simp; omega)
  have wf := mergeLoop_wf hv ((Memory.wf_congr (s := u) rfl rfl rfl rfl).trans (buildLeaves_wf hu cleared))
  obtain ⟨r, -, rfl⟩ := buildFinish_eq_ok h
  refine ⟨(Memory.wf_congr rfl rfl rfl rfl).trans wf, ?_, ?_⟩
  · simp at hnext
    show v.next.toNat ≤ 513
    omega
  · show v.nlive.toNat ≤ 257
    simp [hone]

theorem exec_gencodes_tables {s t : State} (h : exec .gencodes s = .next t) (w : TablesInRange s) : TablesInRange t := by
  have filled := (w.withCode (Table.rising_fill _ Config.nsym noCodeEntry (Nat.le_refl _))).wf
  have wf : Memory.wf t = true := by
    obtain ⟨n, u, hu, h⟩ := Run.bind_eq_ok.1 (exec_gencodes_eq_next.1 h)
    obtain ⟨-, -, rfl⟩ := readNode_eq_ok.1 hu
    obtain ⟨_, v, hv, h⟩ := Run.bind_eq_ok.1 h
    obtain ⟨-, rfl⟩ := Run.ok.inj h
    refine (Memory.wf_congr rfl rfl rfl rfl).trans (?_ : Memory.wf v = true)
    split at hv
    · exact writeCode_wf hv filled
    · exact walkCodes_wf hv filled
  obtain ⟨_, rfl⟩ := exec_gencodes_next h
  exact ⟨wf, w.next, w.nlive⟩

theorem exec_rdhdr_tables {s t : State} (h : exec .rdhdr s = .next t) (w : TablesInRange s) : TablesInRange t := by
  have start : TablesInRange { s with next := 0 } :=
    ⟨(Memory.wf_congr rfl rfl rfl rfl).trans w.wf, Nat.zero_le _, w.nlive⟩
  obtain ⟨ok, raised⟩ := getNode_keeps (P := TablesInRange) (fuel := Config.nodeCap + 1)
    (fun n s h => h.congr) (fun s h hn => h.takeNext hn)
    (fun i v s t hw h => h.writeNode hw) start
  rcases Run.outcome_eq_next.1 h with h | h
  · obtain ⟨r, u, hu, h⟩ := Run.bind_eq_ok.1 h
    obtain ⟨-, rfl⟩ := Run.ok.inj h
    exact (ok r u hu).congr
  · rcases Run.bind_eq_raised.1 h with h | ⟨r, u, -, h⟩
    · obtain ⟨u, c, info, eoi, hu, rfl⟩ := raised t h
      exact hu.errorEntry c info eoi
    · simp at h

theorem microOpTurn_tables {s t : State} (h : microOpTurn s = .next t) (w : TablesInRange s) : TablesInRange t := by
  unfold microOpTurn at h
  rw [decodePhase_code] at h
  cases hp : s.phase <;> simp only [hp] at h
  case none => simp at h
  case count => exact exec_count_tables h w
  case build => exact exec_build_tables h w
  case gencodes => exact exec_gencodes_tables h w
  case wrtag =>
    obtain rfl := Outcome.next.inj h
    exact w.congr rfl rfl rfl rfl rfl rfl
  case wrhdr =>
    obtain ⟨_, rfl⟩ := exec_wrhdr_next h
    exact w.congr
  case encode =>
    obtain ⟨_, _, rfl | ⟨v, rfl⟩⟩ := exec_encode_next h
    · exact w.congr
    · exact w.congr
  case rdtag =>
    obtain ⟨_, rfl | ⟨v, eoi, rfl⟩⟩ := exec_rdtag_next h
    · exact w.congr
    · exact w.congr
  case rdhdr => exact exec_rdhdr_tables h w
  case decode =>
    obtain ⟨_, _, _, rfl | rfl⟩ := exec_decode_next h
    · exact w.congr
    · exact w.congr
  case close =>
    obtain rfl := Outcome.next.inj h
    exact w.congr

theorem beginHeader_tables {s : State} (w : TablesInRange s) : TablesInRange (beginHeader s) := by
  unfold beginHeader
  split
  · exact ⟨(Memory.wf_congr rfl rfl rfl rfl).trans w.wf, Nat.zero_le _, w.nlive⟩
  · exact w

theorem headerTurn_tables {s t : State} (h : headerTurn s = .next t) (w : TablesInRange s) : TablesInRange t := by
  have wb := beginHeader_tables w
  have moved {pos : Nat} : TablesInRange { beginHeader s with src := { s.src with pos := pos } } :=
    wb.congr
  obtain h | ⟨sym, h⟩ | ⟨pos, rfl⟩ | ⟨hn, pos, rfl⟩ | ⟨pos, rfl⟩ := headerTurn_next h
  · obtain ⟨hn, -, rfl⟩ | ⟨-, rfl⟩ := exec_internal_next h
    · exact (wb.takeNext hn).congr
    · exact wb.congr
  · obtain ⟨hn, h⟩ | ⟨-, rfl⟩ := exec_leaf_next h
    · have written := (wb.takeNext (Nat.ne_of_lt hn)).writeNode (writeNode_eq_ok.2 ⟨hn, rfl⟩) (v := leafNode sym 0)
      have wf := completeSubtree_wf h ((Memory.wf_congr rfl rfl rfl rfl).trans written.wf)
      obtain ⟨_, _, _, e, -, -⟩ := completeSubtree_frame h
      refine ⟨wf, ?_, ?_⟩ <;> rw [e]
      · exact written.next
      · exact written.nlive
    · exact wb.congr
  · exact moved.errorEntry ..
  · refine TablesInRange.errorEntry ?_ _ _ _
    exact (wb.takeNext hn).congr
  · exact moved.errorEntry ..

theorem nodeTurn_tables {s t : State} (h : nodeTurn s = .next t) (w : TablesInRange s) : TablesInRange t := by
  obtain ⟨-, h⟩ | ⟨-, h⟩ | ⟨-, m, h⟩ | ⟨-, h⟩ | ⟨-, h⟩ := nodeTurn_eq_next h
  · obtain ⟨code, _, _, rfl, hc, -⟩ := visitGencodes_next h
    exact (w.withCode (hc ((Memory.wf_iff s).1 w.wf).2.2.1)).congr
  · obtain ⟨_, _, rfl, -⟩ := visitWrhdr_next h
    exact w.congr
  · obtain rfl | rfl := exec_tag_next h
    · exact w.congr
    · exact w.congr
  · exact headerTurn_tables h w
  · exact microOpTurn_tables h w

/-! ## The read position -/

theorem nodeTurn_pos {s t : State} (h : nodeTurn s = .next t) (hp : s.src.pos ≤ s.src.bits.length) :
    t.src.pos ≤ t.src.bits.length := by
  have ported {ops : List PortOp} (e : runPorts ops (s.src, s.sink) = (t.src, t.sink)) :
      t.src.pos ≤ t.src.bits.length := by
    have := runPorts_pos ops (s.src, s.sink) hp
    rwa [e] at this
  obtain ⟨-, h⟩ | ⟨-, h⟩ | ⟨-, m, h⟩ | ⟨-, h⟩ | ⟨-, h⟩ := nodeTurn_eq_next h
  · exact ported (ops := []) (visitGencodes_io h)
  · exact ported (agrees_visit h)
  · obtain rfl | rfl := exec_tag_next h
    · exact Source.skip_pos_le _ _
    · simpa using Source.skip_pos_le Config.tagW s.src
  · exact ported (agrees_token h)
  · exact ported (agrees_microOp h)

theorem microOpTurn_pos {s t : State} (h : microOpTurn s = .next t) (hp : s.src.pos ≤ s.src.bits.length) :
    t.src.pos ≤ t.src.bits.length := by
  have := runPorts_pos (microOpPorts s) (s.src, s.sink) hp
  rwa [agrees_microOp h] at this

/-! ## The traversal stack -/

/-- The stack's part of the invariant (R38). -/
structure StackFits (s : State) : Prop where
  walking : s.trav.frames ≠ [] → walkPhase s.phase = true
  inRange : s.trav.frames.length ≤ Config.nodeCap
  ofHeader : s.phase = .rdhdr →
    s.trav.frames.length ≤ s.next.toNat ∧ (∀ f ∈ s.trav.frames, f.index.toNat < s.next.toNat) ∧
      s.trav.frames.Pairwise (fun above below => below.index.toNat < above.index.toNat)

theorem stackFits_of_empty {s : State} (h : s.trav.frames = []) : StackFits s :=
  ⟨fun hf => absurd h hf, by simp [h], fun _ => by simp [h]⟩

theorem stackFits_of_errorEntry {u : State} {c : Cause} {info : Word} {eoi : Bool} :
    StackFits (u.errorEntry c info eoi) :=
  stackFits_of_empty (by simp [Traversal.empty])

theorem stackFits_of_inv {s : State} (inv : Inv s) : StackFits s :=
  ⟨fun hf => (inv.stackOnlyWalking hf).2, inv.stackInRange, inv.stackOfHeader⟩

/-- With the stack empty the header's NEXT starts over, and nothing is on the stack to compare it with. -/
theorem beginHeader_stackFits {s : State} (f : StackFits s) : StackFits (beginHeader s) := by
  unfold beginHeader
  split
  · next hf => exact stackFits_of_empty hf
  · exact f

/-- The stack after a micro-operation is the one before it, or empty. -/
theorem Ending.stackFits {s t : State} (h : Ending s t) (hf : s.trav.frames = []) : StackFits t := by
  cases h with
  | ended kept _ => exact stackFits_of_empty (by rw [kept.trav, hf])
  | closed _ => exact stackFits_of_empty (by simpa using hf)
  | raised kept cause => exact stackFits_of_errorEntry

theorem exec_internal_stackFits {s t : State} (h : exec .internal s = .next t) (hp : s.phase = .rdhdr)
    (w : TablesInRange s) (f : StackFits s) : StackFits t := by
  obtain ⟨hn, hl, rfl⟩ | ⟨-, rfl⟩ := exec_internal_next h
  · obtain ⟨hlen, hidx, hord⟩ := f.ofHeader hp
    have e := idx_toNat_succ w.next
    refine ⟨fun _ => by simp [hp, walkPhase], hl, fun _ => ⟨?_, ?_, ?_⟩⟩
    · show s.trav.frames.length + 1 ≤ (s.next + 1 : Idx).toNat
      omega
    · rintro g (_ | ⟨_, hg⟩)
      · show s.next.toNat < (s.next + 1 : Idx).toNat
        omega
      · have := hidx g hg
        show g.index.toNat < (s.next + 1 : Idx).toNat
        omega
    · exact List.pairwise_cons.2 ⟨hidx, hord⟩
  · exact stackFits_of_errorEntry

theorem exec_leaf_stackFits {sym : Sym} {s t : State} (h : exec (.leaf sym) s = .next t) (hp : s.phase = .rdhdr)
    (f : StackFits s) : StackFits t := by
  obtain ⟨hn, h⟩ | ⟨-, rfl⟩ := exec_leaf_next h
  · obtain ⟨hlen, hidx, hord⟩ := f.ofHeader hp
    have e := idx_toNat_succ (Nat.le_of_lt hn)
    obtain ⟨_, _, _, ht, hframes, -⟩ := completeSubtree_frame h
    have hlu := unwind_length s.trav.frames
    have hnext : t.next = s.next + 1 := by rw [ht]
    have hphase : t.phase = .rdhdr := by rw [ht]; exact hp
    refine ⟨fun _ => by simp [hphase, walkPhase], ?_, fun _ => ⟨?_, ?_, ?_⟩⟩
    · rw [hframes]; exact hlu.trans f.inRange
    · rw [hframes, hnext, e]; omega
    · intro g hg
      obtain ⟨g', hg', hi⟩ := unwind_mem _ g (hframes ▸ hg)
      have := hidx g' hg'
      rw [hnext, e, ← hi]; omega
    · rw [hframes]
      exact unwind_pairwise (r := fun a b => b.toNat < a.toNat) _ hord
  · exact stackFits_of_errorEntry

theorem headerTurn_stackFits {s t : State} (h : headerTurn s = .next t) (hp : s.phase = .rdhdr) (w : TablesInRange s)
    (f : StackFits s) : StackFits t := by
  have hpb : (beginHeader s).phase = .rdhdr := by simpa using hp
  obtain h | ⟨sym, h⟩ | ⟨pos, rfl⟩ | ⟨-, pos, rfl⟩ | ⟨pos, rfl⟩ := headerTurn_next h
  · exact exec_internal_stackFits h hpb (beginHeader_tables w) (beginHeader_stackFits f)
  · exact exec_leaf_stackFits h hpb (beginHeader_stackFits f)
  all_goals exact stackFits_of_errorEntry

theorem nodeTurn_stackFits {s t : State} (h : nodeTurn s = .next t) (w : TablesInRange s) (f : StackFits s) :
    StackFits t := by
  have empty (hp : walkPhase s.phase = false) : s.trav.frames = [] := by
    by_contra hf
    simp [f.walking hf] at hp
  obtain ⟨hp, h⟩ | ⟨hp, h⟩ | ⟨hp, m, h⟩ | ⟨hp, h⟩ | ⟨hp, h⟩ := nodeTurn_eq_next h
  · obtain ⟨_, _, _, rfl, -, hl⟩ := visitGencodes_next h
    exact ⟨fun _ => by simp [hp, walkPhase], hl f.inRange, fun e => by simp [hp] at e⟩
  · obtain ⟨_, _, rfl, hl⟩ := visitWrhdr_next h
    exact ⟨fun _ => by simp [hp, walkPhase], hl f.inRange, fun e => by simp [hp] at e⟩
  · obtain rfl | rfl := exec_tag_next h
    · exact stackFits_of_empty (empty (by rw [hp]; rfl))
    · exact stackFits_of_errorEntry
  · exact headerTurn_stackFits h hp w f
  · exact (microOpTurn_ending h).stackFits (empty hp)

/-! ## The whole invariant -/

theorem tablesInRange_of_inv {s : State} (inv : Inv s) : TablesInRange s :=
  ⟨inv.wf, inv.nextInRange, inv.nliveInRange⟩

/-- The invariant's sequencer part while a command runs. -/
structure Running (s : State) : Prop where
  state : s.state = .busy
  phase : s.phase ≠ .none
  errCause : s.errCause = .none
  errInfo : s.errInfo = 0
  errEoi : s.errEoi = false
  sinkClosed : s.sinkClosed = false

theorem running_of_inv {s : State} (inv : Inv s) (h : s.state = .busy) : Running s := by
  have hc : s.errCause = .none := by
    by_contra hc
    simp [inv.causeIffError.1 hc] at h
  exact ⟨h, inv.busyPhase h, hc, (inv.noErrorInfo hc).1, (inv.noErrorInfo hc).2, inv.openBefore (.inr h)⟩

theorem inv_of_running {s : State} (r : Running s) (w : TablesInRange s) (f : StackFits s)
    (hp : s.src.pos ≤ s.src.bits.length) : Inv s where
  wf := w.wf
  nextInRange := w.next
  nliveInRange := w.nlive
  posInRange := hp
  busyPhase _ := r.phase
  restPhase h := by simp [r.state] at h
  restFlags h := absurd r.state h
  causeIffError := by simp [r.errCause, r.state]
  noErrorInfo _ := ⟨r.errInfo, r.errEoi⟩
  truncatedEoi h := by simp [r.errCause] at h
  coreFaultEoi _ := r.errEoi
  openBefore _ := r.sinkClosed
  closedDone h := by simp [r.state] at h
  stackOnlyWalking hf := ⟨r.state, f.walking hf⟩
  stackInRange := f.inRange
  stackOfHeader := f.ofHeader

theorem inv_of_raised {u : State} {c : Cause} {info : Word} {eoi : Bool} (cause : Raisable c eoi)
    (w : TablesInRange (u.errorEntry c info eoi)) (hp : u.src.pos ≤ u.src.bits.length) :
    Inv (u.errorEntry c info eoi) where
  wf := w.wf
  nextInRange := w.next
  nliveInRange := w.nlive
  posInRange := by simpa using hp
  busyPhase h := by simp at h
  restPhase h := by simp at h
  restFlags _ := by simp
  causeIffError := by simp [cause.cause]
  noErrorInfo h := absurd (by simpa using h) cause.cause
  truncatedEoi h := by simpa using cause.truncated (by simpa using h)
  coreFaultEoi h := by simpa using cause.coreFault (by simpa using h)
  openBefore h := by simp at h
  closedDone h := by simp at h
  stackOnlyWalking hf := by simp [Traversal.empty] at hf
  stackInRange := by simp [Traversal.empty]
  stackOfHeader _ := by simp [Traversal.empty]

theorem inv_of_complete {u : State} (r : Running u) (w : TablesInRange u) (hp : u.src.pos ≤ u.src.bits.length)
    (hf : u.trav.frames = []) : Inv u.closeOnce.complete where
  wf := (Memory.wf_congr (s := u) (by simp) (by simp) (by simp) (by simp)).trans w.wf
  nextInRange := by simpa using w.next
  nliveInRange := by simpa using w.nlive
  posInRange := by simpa using hp
  busyPhase h := by simp at h
  restPhase _ := by simp
  restFlags _ := by simp
  causeIffError := by simp [r.errCause]
  noErrorInfo _ := by simp [r.errInfo, r.errEoi]
  truncatedEoi h := by simp [r.errCause] at h
  coreFaultEoi h := by simp [r.errCause] at h
  openBefore h := by simp at h
  closedDone _ := by simp
  stackOnlyWalking h := by simp [hf] at h
  stackInRange := by simp [hf]
  stackOfHeader _ := by simp [hf]

theorem Phase.following_ne_none {p : Phase} (h : p ≠ .none) (hc : p ≠ .close) : p.following ≠ .none := by
  cases p <;> simp_all [Phase.following]

/-- The invariant after a turn, from where its operation ended. -/
theorem Ending.advance_inv {s t : State} (h : Ending s t) (r : Running s) (w : TablesInRange t) (f : StackFits t)
    (hp : t.src.pos ≤ t.src.bits.length) : Inv t.advance := by
  cases h with
  | ended kept before =>
    have rt : Running t := ⟨kept.state.trans r.state, kept.phase ▸ r.phase, kept.errCause.trans r.errCause,
      kept.errInfo.trans r.errInfo, kept.errEoi.trans r.errEoi, kept.sinkClosed.trans r.sinkClosed⟩
    by_cases hf : t.trav.frames = []
    · have hc : t.phase ≠ .close := kept.phase ▸ before
      rw [State.advance_of_not_close rt.state hf hc]
      exact inv_of_running { rt with phase := Phase.following_ne_none rt.phase hc } w.congr
        (stackFits_of_empty hf) hp
    · rw [State.advance_eq_self (.inr hf)]
      exact inv_of_running rt w f hp
  | closed at_close =>
    have hf : s.trav.frames = [] := by
      by_contra hf
      have := f.walking (by simpa using hf)
      simp [at_close, walkPhase] at this
    rw [State.advance_of_close (by simpa using r.state) (by simpa using hf) (by simpa using at_close)]
    exact inv_of_complete r w.congr (by simpa using hp) hf
  | raised kept cause =>
    rw [State.advance_eq_self (.inl (by simp))]
    exact inv_of_raised cause w (by simpa using hp)

theorem blockTurn_inv {g : Grain} {s t : State} (inv : Inv s) (h : blockTurn g s = .next t) : Inv t := by
  by_cases hb : s.state = .busy
  · have r := running_of_inv inv hb
    have w := tablesInRange_of_inv inv
    obtain ⟨u, hu | ⟨hf, hu⟩, rfl⟩ := blockTurn_eq_next h hb
    · obtain ⟨trav, e⟩ := nodeTurn_ending hu
      exact e.advance_inv ⟨r.state, r.phase, r.errCause, r.errInfo, r.errEoi, r.sinkClosed⟩ (nodeTurn_tables hu w)
        (nodeTurn_stackFits hu w (stackFits_of_inv inv)) (nodeTurn_pos hu inv.posInRange)
    · have e := microOpTurn_ending hu
      exact e.advance_inv r (microOpTurn_tables hu w) (e.stackFits hf) (microOpTurn_pos hu inv.posInRange)
  · rw [blockTurn_waits hb] at h
    obtain rfl := Outcome.next.inj h
    exact inv

/-- In IDLE, DONE and ERROR no walk is under way. -/
theorem frames_of_inv {s : State} (inv : Inv s) (h : s.state ≠ .busy) : s.trav.frames = [] := by
  by_contra hf
  exact h (inv.stackOnlyWalking hf).1

theorem startCommand_inv {s : State} {first : Phase} (inv : Inv s) (hi : s.state = .idle) (hp : first ≠ .none) :
    Inv (startCommand first s) := by
  have hc : s.errCause = .none := by
    by_contra hc
    simp [inv.causeIffError.1 hc] at hi
  have hf := frames_of_inv inv (by simp [hi])
  exact inv_of_running ⟨rfl, hp, hc, (inv.noErrorInfo hc).1, (inv.noErrorInfo hc).2, inv.openBefore (.inl hi)⟩
    ((tablesInRange_of_inv inv).congr rfl rfl rfl rfl rfl rfl) (stackFits_of_empty hf) inv.posInRange

/-- The registers of IDLE with any tables in canonical form (R45). -/
theorem clearRegisters_inv {s : State} (wf : Memory.wf s = true) (hp : s.src.pos ≤ s.src.bits.length) :
    Inv s.clearRegisters where
  wf := (Memory.wf_congr rfl rfl rfl rfl).trans wf
  nextInRange := Nat.zero_le _
  nliveInRange := Nat.zero_le _
  posInRange := hp
  busyPhase h := by simp at h
  restPhase _ := rfl
  restFlags _ := ⟨rfl, rfl, rfl⟩
  causeIffError := by simp
  noErrorInfo _ := ⟨rfl, rfl⟩
  truncatedEoi h := by simp at h
  coreFaultEoi _ := rfl
  openBefore _ := rfl
  closedDone h := by simp at h
  stackOnlyWalking hf := absurd rfl hf
  stackInRange := Nat.zero_le _
  stackOfHeader h := by simp at h

theorem illegalEntry_inv {s : State} {w : Word} (inv : Inv s) (hi : s.state = .idle) : Inv (illegalEntry w s) where
  wf := (Memory.wf_congr rfl rfl rfl rfl).trans inv.wf
  nextInRange := inv.nextInRange
  nliveInRange := inv.nliveInRange
  posInRange := inv.posInRange
  busyPhase h := by simp [illegalEntry] at h
  restPhase h := by simp [illegalEntry] at h
  restFlags _ := inv.restFlags (by simp [hi])
  causeIffError := by simp [illegalEntry]
  noErrorInfo h := by simp [illegalEntry] at h
  truncatedEoi h := by simp [illegalEntry] at h
  coreFaultEoi _ := rfl
  openBefore h := by simp [illegalEntry] at h
  closedDone h := by simp [illegalEntry] at h
  stackOnlyWalking hf := absurd (frames_of_inv inv (by simp [hi])) hf
  stackInRange := inv.stackInRange
  stackOfHeader h := by simp [illegalEntry] at h

/-- The reset's tables, whatever they held before, are in canonical form. -/
theorem hardReset_inv {s : State} (hp : s.src.pos ≤ s.src.bits.length) : Inv s.hardReset :=
  clearRegisters_inv (s := { s with cmd := 0, freq := [], node := [], code := [], live := [] }) rfl hp

/-- The invariant does not speak of CMD, of the host's copy of a register or of the moves to come. -/
theorem inv_congr_host {s : State} (inv : Inv s) (cmd hostData : Word) (moves : List Move) :
    Inv { s with cmd := cmd, hostData := hostData, moves := moves } :=
  { inv with }

end Sys2Proof.Machine

open Sys2Proof Sys2Proof.Machine Sys2Proof.Safety

/-- Settles O56: the invariant over each kind of move; the block's own turn by the way its operation ends. -/
theorem invKept : Obligations.InvKept := by
  unfold Obligations.InvKept
  intro s t inv h
  rcases hm : s.moves with _ | ⟨m, rest⟩
  · rw [step_of_no_move hm] at h
    exact blockTurn_inv inv h
  rw [step_of_move hm] at h
  have inv' : Inv { s with moves := rest } := inv_congr_host inv s.cmd s.hostData rest
  cases m with
  | block g => exact blockTurn_inv inv' h
  | write r w =>
    have invW : Inv { s with cmd := w, moves := rest } := inv_congr_host inv w s.hostData rest
    obtain rfl | ⟨rfl, rfl | ⟨hi, -, first, hp, rfl⟩ | ⟨-, -, rfl⟩ | ⟨hi, -, rfl⟩⟩ := hostWrite_next h
    · exact inv'
    · exact invW
    · exact startCommand_inv invW hi (by rcases hp with rfl | rfl <;> decide)
    · exact clearRegisters_inv invW.wf inv.posInRange
    · exact illegalEntry_inv invW hi
  | read r =>
    obtain rfl := Host.Outcome.next.inj h
    exact inv_congr_host inv s.cmd (State.hostRead r { s with moves := rest }) rest
  | attach bits rewound =>
    obtain ⟨-, rfl⟩ := attach_next h
    exact { inv' with posInRange := Nat.zero_le _ }
  | reset =>
    obtain rfl := Host.Outcome.next.inj h
    exact hardReset_inv inv.posInRange
  | resetDuring g k =>
    obtain rfl := Host.Outcome.next.inj h
    exact hardReset_inv (runPorts_pos _ _ inv.posInRange)

end

section
/-! BUILD as the growth of a forest (41_tree_builder.md R151 to R154): the leaves of the counted symbols first, then a merge at a
time, until one tree over exactly those symbols is left. -/

namespace Sys2Proof.Machine

open Sys2Proof.Safety

/-! ## A weighted tree in NODE -/

/-- NODE holds at `i` a tree with its weights, in entries below `k` only. -/
def holdsBelow (node : Table Node) (weight : Sym → Nat) (k : Nat) : Tree → Nat → Prop
  | .leaf sym, i => i < k ∧ ∃ n, node.read i = some n ∧ n.kind = .leaf ∧ n.sym = sym ∧ n.weight.toNat = weight sym
  | .node l r, i => i < k ∧ ∃ n, node.read i = some n ∧ n.kind = .internal ∧
      n.weight.toNat = l.weight weight + r.weight weight ∧ holdsBelow node weight k l n.left.toNat ∧
      holdsBelow node weight k r n.right.toNat

/-- The entry of such a tree's root. -/
theorem holdsBelow_root {node : Table Node} {weight : Sym → Nat} {k i : Nat} {tree : Tree}
    (h : holdsBelow node weight k tree i) :
    i < k ∧ ∃ n, node.read i = some n ∧ n.weight.toNat = tree.weight weight := by
  cases tree with
  | leaf sym => obtain ⟨hi, n, hn, -, -, hw⟩ := h; exact ⟨hi, n, hn, hw⟩
  | node l r => obtain ⟨hi, n, hn, -, hw, -⟩ := h; exact ⟨hi, n, hn, hw⟩

/-- A write at or above `k` leaves it alone. -/
theorem holdsBelow_write {node : Table Node} {weight : Sym → Nat} {k k' j i : Nat} {tree : Tree} {v : Node}
    (h : holdsBelow node weight k tree i) (hj : k ≤ j) (hk : k ≤ k') :
    holdsBelow (node.write j v) weight k' tree i := by
  induction tree generalizing i with
  | leaf sym =>
    obtain ⟨hi, n, hn, hrest⟩ := h
    exact ⟨by omega, n, (Table.read_write_other _ _ (by omega)).trans hn, hrest⟩
  | node l r ihl ihr =>
    obtain ⟨hi, n, hn, hkind, hw, hl, hr⟩ := h
    exact ⟨by omega, n, (Table.read_write_other _ _ (by omega)).trans hn, hkind, hw, ihl hl, ihr hr⟩

theorem holdsBelow_mono {node : Table Node} {weight : Sym → Nat} {k k' i : Nat} {tree : Tree}
    (h : holdsBelow node weight k tree i) (hk : k ≤ k') : holdsBelow node weight k' tree i := by
  induction tree generalizing i with
  | leaf sym => exact ⟨by have := h.1; omega, h.2⟩
  | node l r ihl ihr =>
    obtain ⟨hi, n, hn, hkind, hw, hl, hr⟩ := h
    exact ⟨by omega, n, hn, hkind, hw, ihl hl, ihr hr⟩

/-- It is a held tree with its weights in the terms of the statements. -/
theorem holds_of_holdsBelow {node : Table Node} {weight : Sym → Nat} {k : Nat} {tree : Tree} {i : Idx}
    (h : holdsBelow node weight k tree i.toNat) (hk : k ≤ Config.nodeCap) :
    holdsTree node tree i = true ∧ holdsWeights node weight tree i = true := by
  induction tree generalizing i with
  | leaf sym =>
    obtain ⟨hi, n, hn, hkind, hsym, hw⟩ := h
    simp [holdsTree, holdsWeights, hn, hkind, hsym, hw]
    omega
  | node l r ihl ihr =>
    obtain ⟨hi, n, hn, hkind, hw, hl, hr⟩ := h
    simp [holdsTree, holdsWeights, hn, hkind, hw, ihl hl, ihr hr]
    omega

/-- A tree's weight is the sum of its leaves' weights. -/
theorem treeWeight_eq_sum (weight : Sym → Nat) (tree : Tree) : tree.weight weight = (tree.syms.map weight).sum := by
  induction tree with
  | leaf sym => simp [Tree.weight, Tree.syms]
  | node l r ihl ihr => simp [Tree.weight, Tree.syms, ihl, ihr]

/-! ## The forest -/

/-- The leaf symbols of a forest's trees, one tree after the other. -/
def forestSyms (F : List (Nat × Tree)) : List Sym := F.flatMap fun p => p.2.syms

/-- LIVE holds the roots of a forest's trees, each held by NODE in entries below `k`, and NLIVE counts them. -/
structure Forest (s : State) (weight : Sym → Nat) (k : Nat) (F : List (Nat × Tree)) : Prop where
  held : ∀ p ∈ F, holdsBelow s.node weight k p.2 p.1
  live : (F.map Prod.fst).Perm s.live
  nodup : s.live.Nodup
  nlive : s.nlive.toNat = F.length

theorem Forest.live_lt {s : State} {weight : Sym → Nat} {k : Nat} {F : List (Nat × Tree)} (f : Forest s weight k F) :
    ∀ i ∈ s.live, i < k ∧ (s.node.read i).isSome := by
  intro i hi
  obtain ⟨p, hp, rfl⟩ := List.mem_map.1 (f.live.mem_iff.2 hi)
  obtain ⟨hk, n, hn, -⟩ := holdsBelow_root (f.held p hp)
  exact ⟨hk, by simp [hn]⟩

/-- A root of the forest with its tree, and the forest without it. -/
theorem exists_tree_of_root {F : List (Nat × Tree)} {l : List Nat} {a : Nat} (h : (F.map Prod.fst).Perm l) (ha : a ∈ l) :
    ∃ T F', F.Perm ((a, T) :: F') ∧ (F'.map Prod.fst).Perm (l.erase a) := by
  obtain ⟨p, hp, rfl⟩ := List.mem_map.1 (h.mem_iff.2 ha)
  have hF := List.perm_cons_erase hp
  refine ⟨p.2, F.erase p, hF, ?_⟩
  have := ((hF.map Prod.fst).symm.trans h).trans (List.perm_cons_erase ha)
  exact (List.perm_cons _).1 this

theorem liveInsert_perm {i : Nat} {l : List Nat} (h : i ∉ l) : (liveInsert i l).Perm (i :: l) := by
  induction l with
  | nil => exact List.Perm.refl _
  | cons k rest ih =>
    simp only [List.mem_cons, not_or] at h
    simp only [liveInsert, if_neg h.1]
    split
    · exact List.Perm.refl _
    · exact ((ih h.2).cons k).trans (List.Perm.swap i k rest)

/-! ## Part 1: the leaves -/

/-- The state with the leaf of symbol `k`, of count `c`, placed and made live (R151). -/
def addLeaf (k : Nat) (c : Count) (s : State) : State :=
  { s with
    node := s.node.write k (leafNode (BitVec.ofNat _ k) (c.setWidth _))
    live := liveInsert k s.live, nlive := s.nlive + 1 }

theorem buildLeaves_cons {k : Nat} {c : Count} {s : State} (hk : k < Config.nsym) (hc : s.freq.read k = some c)
    (rest : List Nat) :
    buildLeaves (k :: rest) s = if c = 0 then buildLeaves rest s else buildLeaves rest (addLeaf k c s) := by
  have hr : readFreq k s = .ok c s := readFreq_eq_ok.2 ⟨hk, hc, rfl⟩
  have hw (v : Node) : writeNode k v s = .ok () { s with node := s.node.write k v } :=
    writeNode_eq_ok.2 ⟨by simp only [Config.nsym, Config.nodeCap] at *; omega, rfl⟩
  simp only [buildLeaves, hr, hw, Run.bind_ok, addLeaf]

theorem addLeaf_forest {s : State} {weight : Sym → Nat} {k : Nat} {c : Count} {F : List (Nat × Tree)}
    (f : Forest s weight k F) (hw : weight (BitVec.ofNat 9 k) = c.toNat) (hF : F.length ≤ k) (hk : k < Config.nsym) :
    Forest (addLeaf k c s) weight (k + 1) ((k, .leaf (BitVec.ofNat 9 k)) :: F) := by
  have hnew : k ∉ s.live := fun hm => Nat.lt_irrefl k (f.live_lt k hm).1
  have hperm := liveInsert_perm hnew
  refine ⟨fun p hp => ?_, (f.live.cons k).trans hperm.symm, hperm.nodup_iff.2 (List.nodup_cons.2 ⟨hnew, f.nodup⟩), ?_⟩
  · rcases List.mem_cons.1 hp with rfl | hp
    · refine ⟨Nat.lt_succ_self k, _, Table.read_write_same .., rfl, rfl, ?_⟩
      rw [hw]
      simp only [leafNode, BitVec.toNat_setWidth]
      exact Nat.mod_eq_of_lt (by have := c.isLt; omega)
    · exact holdsBelow_write (f.held p hp) (Nat.le_refl k) (Nat.le_succ k)
  · have hlen := f.nlive
    show (s.nlive + 1 : Idx).toNat = F.length + 1
    simp only [Config.nsym] at hk
    bv_omega

/-- A leaf for every counted symbol from `k` on, in the order of their indexes (R151). -/
theorem buildLeaves_forest (m : Nat) {k : Nat} {s : State} {F : List (Nat × Tree)} (hk : k + m ≤ Config.nsym)
    (hread : ∀ i < Config.nsym, (s.freq.read i).isSome) (f : Forest s (countIn s.freq) k F) (hF : F.length ≤ k) :
    ∃ t G, buildLeaves (List.range' k m) s = .ok () t ∧ Forest t (countIn s.freq) (k + m) G ∧
      (forestSyms G).Perm (forestSyms F ++
        ((List.range' k m).map (BitVec.ofNat 9)).filter (fun sym => countIn s.freq sym != 0)) := by
  induction m generalizing k s F with
  | zero => exact ⟨s, F, rfl, f, by simp⟩
  | succ m ih =>
    have hk1 : k + 1 + m ≤ Config.nsym := by omega
    have hks : k < Config.nsym := by omega
    obtain ⟨c, hc⟩ := Option.isSome_iff_exists.1 (hread k hks)
    have hcount : countIn s.freq (BitVec.ofNat 9 k) = c.toNat := by
      have e : (BitVec.ofNat 9 k).toNat = k := by simp only [Config.nsym] at hks; simp; omega
      rw [countIn, e, hc]; rfl
    rw [show k + (m + 1) = k + 1 + m by omega, List.range'_succ, buildLeaves_cons hks hc, List.map_cons,
      List.filter_cons, hcount]
    by_cases h0 : c = 0
    · obtain ⟨t, G, ht, g, hG⟩ := ih (s := s) hk1 hread
        { f with held := fun p hp => holdsBelow_mono (f.held p hp) (Nat.le_succ k) } (by omega)
      exact ⟨t, G, by rw [if_pos h0]; exact ht, g, by rw [if_neg (by simp [h0])]; exact hG⟩
    · have hne : c.toNat ≠ 0 := fun e => h0 (BitVec.eq_of_toNat_eq e)
      obtain ⟨t, G, ht, g, hG⟩ := ih (s := addLeaf k c s) hk1 hread (addLeaf_forest f hcount hF hks)
        (by simp only [List.length_cons]; omega)
      refine ⟨t, G, by rw [if_neg h0]; exact ht, g, ?_⟩
      rw [if_pos (by simpa using hne)]
      exact hG.trans List.perm_middle.symm

/-! ## Part 2: the merges -/

/-- Scanning LIVE answers when every entry it reads is written (R152). -/
theorem firstInOrder_answers {l : List Nat} {w : Weight} {m : Nat} {s : State}
    (h : ∀ i ∈ l, i < Config.nodeCap ∧ (s.node.read i).isSome) : ∃ r, firstInOrder w m l s = .ok r s := by
  induction l generalizing w m with
  | nil => exact ⟨m, rfl⟩
  | cons i rest ih =>
    obtain ⟨hi, hs⟩ := h i (List.mem_cons_self ..)
    obtain ⟨n, hn⟩ := Option.isSome_iff_exists.1 hs
    have hr : readNode i s = .ok n s := readNode_eq_ok.2 ⟨hi, hn, rfl⟩
    simp only [firstInOrder, hr, Run.bind_ok]
    split <;> exact ih fun j hj => h j (List.mem_cons_of_mem _ hj)

/-- PopMin answers when a node is live and every live node's entry is written (R152). -/
theorem popMin_answers {s : State} (hl : s.live ≠ []) (h : ∀ i ∈ s.live, i < Config.nodeCap ∧ (s.node.read i).isSome) :
    ∃ m u, popMin s = .ok m u := by
  obtain ⟨i, rest, e⟩ := List.exists_cons_of_ne_nil hl
  rw [e] at h
  obtain ⟨hi, hs⟩ := h i (List.mem_cons_self ..)
  obtain ⟨n, hn⟩ := Option.isSome_iff_exists.1 hs
  have hr : readNode i s = .ok n s := readNode_eq_ok.2 ⟨hi, hn, rfl⟩
  obtain ⟨r, hf⟩ := firstInOrder_answers (w := n.weight) (m := i) fun j hj => h j (List.mem_cons_of_mem _ hj)
  simp [popMin, e, hr, hf]

/-- A merge answers when two nodes are live, their entries are written and an index is free (R153). -/
theorem mergeOnce_answers {s : State} (h2 : 2 ≤ s.live.length)
    (h : ∀ i ∈ s.live, i < Config.nodeCap ∧ (s.node.read i).isSome) (hn : s.next.toNat < Config.nodeCap) :
    ∃ t, mergeOnce s = .ok () t := by
  obtain ⟨a, u, ha⟩ := popMin_answers (fun e => by simp [e] at h2) h
  obtain ⟨hal, rfl⟩ := popMin_eq_ok ha
  have herase : (s.live.erase a).length + 1 = s.live.length := by
    have := List.length_erase_add_one hal
    exact this
  have h' : ∀ i ∈ s.live.erase a, i < Config.nodeCap ∧ (s.node.read i).isSome := fun i hi => h i (List.mem_of_mem_erase hi)
  obtain ⟨b, v, hb⟩ := popMin_answers (s := { s with live := s.live.erase a, nlive := s.nlive - 1 })
    (fun e => by simp only at e; simp [e] at herase; omega) h'
  obtain ⟨hbl, rfl⟩ := popMin_eq_ok hb
  obtain ⟨na, hna⟩ := Option.isSome_iff_exists.1 (h a hal).2
  obtain ⟨nb, hnb⟩ := Option.isSome_iff_exists.1 (h' b hbl).2
  have ra (s' : State) (e : s'.node = s.node) : readNode a s' = .ok na s' :=
    readNode_eq_ok.2 ⟨(h a hal).1, by rw [e]; exact hna, rfl⟩
  have rb (s' : State) (e : s'.node = s.node) : readNode b s' = .ok nb s' :=
    readNode_eq_ok.2 ⟨(h' b hbl).1, by rw [e]; exact hnb, rfl⟩
  have wr (s' : State) (v : Node) : writeNode s.next.toNat v s' = .ok () { s' with node := s'.node.write s.next.toNat v } :=
    writeNode_eq_ok.2 ⟨hn, rfl⟩
  unfold mergeOnce
  rw [ha, Run.bind_ok, hb, Run.bind_ok, ra, Run.bind_ok, rb, Run.bind_ok, wr, Run.bind_ok]
  exacts [⟨_, rfl⟩, rfl, rfl]

/-- A merge takes two trees of the forest for one with both as its subtrees, the weights added (R153). -/
theorem mergeOnce_forest {s : State} {weight : Sym → Nat} {F : List (Nat × Tree)} (f : Forest s weight s.next.toNat F)
    (h2 : 2 ≤ F.length) (hn : s.next.toNat < Config.nodeCap) (hsum : ((forestSyms F).map weight).sum < 2 ^ 41) :
    ∃ t G, mergeOnce s = .ok () t ∧ Forest t weight t.next.toNat G ∧ (forestSyms G).Perm (forestSyms F) ∧
      G.length + 1 = F.length ∧ t.next.toNat = s.next.toNat + 1 := by
  have hlen : s.live.length = F.length := by simpa using f.live.length_eq.symm
  obtain ⟨t, ht⟩ := mergeOnce_answers (hlen ▸ h2) (fun i hi => ⟨(f.live_lt i hi).1.trans hn, (f.live_lt i hi).2⟩) hn
  obtain ⟨a, b, na, nb, ha, hb, hna, hnb, -, rfl⟩ := mergeOnce_eq_ok ht
  obtain ⟨Ta, Fa, hFa, hla⟩ := exists_tree_of_root f.live ha
  obtain ⟨Tb, Fb, hFb, hlb⟩ := exists_tree_of_root hla hb
  have hF : F.Perm ((a, Ta) :: (b, Tb) :: Fb) := hFa.trans (hFb.cons _)
  have heldA : holdsBelow s.node weight s.next.toNat Ta a := f.held (a, Ta) (hF.mem_iff.2 (by simp))
  have heldB : holdsBelow s.node weight s.next.toNat Tb b := f.held (b, Tb) (hF.mem_iff.2 (by simp))
  obtain ⟨hak, na', hna', hwa⟩ := holdsBelow_root heldA
  obtain ⟨hbk, nb', hnb', hwb⟩ := holdsBelow_root heldB
  obtain rfl : na' = na := Option.some.inj (hna'.symm.trans hna)
  obtain rfl : nb' = nb := Option.some.inj (hnb'.symm.trans hnb)
  have hsyms : (forestSyms F).Perm (Ta.syms ++ (Tb.syms ++ forestSyms Fb)) := hF.flatMap_right _
  have hadd : (na'.weight + nb'.weight).toNat = Ta.weight weight + Tb.weight weight := by
    have hs := (hsyms.map weight).sum_eq
    rw [List.map_append, List.sum_append, List.map_append, List.sum_append, ← treeWeight_eq_sum,
      ← treeWeight_eq_sum] at hs
    rw [BitVec.toNat_add, hwa, hwb]
    exact Nat.mod_eq_of_lt (by omega)
  have hnext := idx_toNat_succ (Nat.le_of_lt hn)
  have hnew : s.next.toNat ∉ (s.live.erase a).erase b := fun hm =>
    Nat.lt_irrefl _ (f.live_lt _ (List.mem_of_mem_erase (List.mem_of_mem_erase hm))).1
  have hperm := liveInsert_perm hnew
  have htoNat {i : Nat} (hi : i < s.next.toNat) : (BitVec.ofNat 10 i).toNat = i := by
    simp only [BitVec.toNat_ofNat]
    exact Nat.mod_eq_of_lt (by have := s.next.isLt; omega)
  refine ⟨_, (s.next.toNat, .node Ta Tb) :: Fb, ht, ⟨fun p hp => ?_, (hlb.cons _).trans hperm.symm,
    hperm.nodup_iff.2 (List.nodup_cons.2 ⟨hnew, (f.nodup.erase a).erase b⟩), ?_⟩, ?_, ?_, hnext⟩
  · show holdsBelow (s.node.write s.next.toNat _) weight (s.next + 1 : Idx).toNat p.2 p.1
    rw [hnext]
    rcases List.mem_cons.1 hp with rfl | hp
    · refine ⟨Nat.lt_succ_self _, _, Table.read_write_same .., rfl, hadd, ?_, ?_⟩
      · show holdsBelow _ _ _ Ta (BitVec.ofNat 10 a).toNat
        rw [htoNat hak]
        exact holdsBelow_write heldA (Nat.le_refl _) (Nat.le_succ _)
      · show holdsBelow _ _ _ Tb (BitVec.ofNat 10 b).toNat
        rw [htoNat hbk]
        exact holdsBelow_write heldB (Nat.le_refl _) (Nat.le_succ _)
    · exact holdsBelow_write (f.held p (hF.mem_iff.2 (by simp [hp]))) (Nat.le_refl _) (Nat.le_succ _)
  · have h1 := f.nlive
    have h3 := hF.length_eq
    simp only [List.length_cons] at h3
    show (s.nlive - 1 - 1 + 1 : Idx).toNat = Fb.length + 1
    bv_omega
  · refine List.Perm.trans ?_ hsyms.symm
    simp [forestSyms, Tree.syms]
  · have h3 := hF.length_eq
    simp only [List.length_cons] at h3 ⊢
    omega

/-- The merges leave one tree over the forest's leaves. -/
theorem mergeLoop_forest {s : State} {weight : Sym → Nat} {F : List (Nat × Tree)} (f : Forest s weight s.next.toNat F)
    (h1 : F ≠ []) (hn : s.next.toNat + F.length ≤ Config.nodeCap + 1) (hsum : ((forestSyms F).map weight).sum < 2 ^ 41) :
    ∃ t r tree, mergeLoop F.length s = .ok () t ∧ Forest t weight t.next.toNat [(r, tree)] ∧
      tree.syms.Perm (forestSyms F) ∧ t.next.toNat ≤ Config.nodeCap := by
  induction hm : F.length generalizing s F with
  | zero => exact absurd (List.length_eq_zero_iff.1 hm) h1
  | succ m ih =>
    simp only [mergeLoop]
    by_cases h0 : m = 0
    · subst h0
      obtain ⟨p, rfl⟩ := List.length_eq_one_iff.1 hm
      have hone : s.nlive = 1 := BitVec.eq_of_toNat_eq (by rw [f.nlive]; rfl)
      refine ⟨s, p.1, p.2, by rw [if_pos hone], f, by simp [forestSyms], ?_⟩
      simp only [List.length_singleton] at hn
      omega
    · have hnot : s.nlive ≠ 1 := fun e => by
        have := f.nlive
        rw [e, hm] at this
        simp at this
        omega
      obtain ⟨u, G, hu, g, hG, hlen, hnext⟩ := mergeOnce_forest f (by omega) (by omega) hsum
      obtain ⟨t, r, tree, ht, ft, hT, hle⟩ := ih g (fun e => by simp [e] at hlen; omega) (by omega)
        (by rwa [(hG.map weight).sum_eq]) (by omega)
      exact ⟨t, r, tree, by rw [if_neg hnot, hu]; exact ht, ft, hT.trans hG, hle⟩

/-! ## The whole of BUILD -/

theorem sentinel_mem_countedSyms {freq : Table Count} (h : freq.read Config.eos = some 1) :
    BitVec.ofNat 9 256 ∈ countedSyms freq := by
  refine List.mem_filter.2 ⟨List.mem_map.2 ⟨256, by simp [Config.nsym], rfl⟩, ?_⟩
  have e : freq.read (BitVec.ofNat 9 256).toNat = some 1 := h
  simp only [countIn, e]
  decide

theorem countedSyms_length_le (freq : Table Count) : (countedSyms freq).length ≤ Config.nsym := by
  refine (List.length_filter_le ..).trans ?_
  simp

/-- The counts fit a weight together: the sums of R153 do not wrap (R155). -/
theorem countedSyms_sum_lt (freq : Table Count) : ((countedSyms freq).map (countIn freq)).sum < 2 ^ 41 := by
  have hle : ∀ x ∈ (countedSyms freq).map (countIn freq), x ≤ 2 ^ 32 := by
    intro x hx
    obtain ⟨sym, -, rfl⟩ := List.mem_map.1 hx
    exact Nat.le_of_lt (BitVec.isLt _)
  have := List.sum_le_card_nsmul _ _ hle
  have hlen := countedSyms_length_le freq
  simp only [List.length_map, smul_eq_mul, Config.nsym] at this hlen
  have : (countedSyms freq).length * 2 ^ 32 ≤ 257 * 2 ^ 32 := Nat.mul_le_mul_right _ hlen
  omega

/-- BUILD answers, and leaves at ROOT one tree over the counted symbols (R151 to R154). -/
theorem buildRun_tree {s : State} (h : FreqReady s) :
    ∃ (t : State) (tree : Tree), buildRun s = .ok () t ∧ holdsTree t.node tree t.root = true ∧
      tree.syms.Perm (countedSyms s.freq) ∧ holdsWeights t.node (countIn s.freq) tree t.root = true := by
  obtain ⟨hread, heos⟩ := h
  have f0 : Forest { s with live := [], nlive := 0 } (countIn s.freq) 0 [] := ⟨by simp, by simp, by simp, rfl⟩
  obtain ⟨u, F, hu, f, hF⟩ := buildLeaves_forest (s := { s with live := [], nlive := 0 }) Config.nsym
    (by omega) hread f0 (Nat.le_refl _)
  rw [← List.range_eq_range'] at hu hF
  replace hF : (forestSyms F).Perm (countedSyms s.freq) := hF
  have hne : F ≠ [] := by
    rintro rfl
    have := hF.symm.subset (sentinel_mem_countedSyms heos)
    simp [forestSyms] at this
  have hlen : F.length ≤ Config.nsym := by
    have := buildLeaves_nlive hu (by simp [Config.nsym])
    simpa [f.nlive, Config.nsym] using this
  obtain ⟨v, r, tree, hv, g, hT, hnext⟩ := mergeLoop_forest (s := { u with next := 257 })
    ⟨f.held, f.live, f.nodup, f.nlive⟩ hne
    (by simp only [Config.nsym, Config.nodeCap] at *; simp; omega)
    (by rw [(hF.map _).sum_eq]; exact countedSyms_sum_lt _)
  have hlive : v.live = [r] := List.perm_singleton.1 g.live.symm
  have held : holdsBelow v.node (countIn s.freq) v.next.toNat tree r := g.held (r, tree) (List.mem_singleton_self _)
  have hr : (BitVec.ofNat 10 r).toNat = r := by
    have := (holdsBelow_root held).1
    simp only [BitVec.toNat_ofNat]
    exact Nat.mod_eq_of_lt (by have := v.next.isLt; omega)
  obtain ⟨htree, hweights⟩ := holds_of_holdsBelow (i := BitVec.ofNat 10 r) (by rw [hr]; exact held) hnext
  refine ⟨{ v with root := BitVec.ofNat 10 r, treeValid := true }, tree, ?_, htree, hT.trans hF, hweights⟩
  rw [← f.nlive] at hv
  unfold buildRun
  rw [hu, Run.bind_ok, hv, Run.bind_ok]
  simp only [buildFinish, hlive]

end Sys2Proof.Machine

open Sys2Proof Sys2Proof.Machine Sys2Proof.Safety

/-- Settles O23, by the forest: its leaves are the counted symbols, and each merge keeps them until one tree is left. -/
theorem buildMakesATree : Obligations.BuildMakesATree := by
  unfold Obligations.BuildMakesATree
  intro s h
  obtain ⟨t, tree, ht, hrest⟩ := buildRun_tree h
  exact ⟨t, tree, exec_build_eq_next.2 ht, hrest⟩

end

section
/-! GENCODES and WRHDR over a held tree, whole and one node a turn (42_code_table_gen.md R166, 43_header_codec.md R176;
10_state.md R38). -/

namespace Sys2Proof.Machine

open Host (Outcome)
open Sys2Proof.Safety

/-! ## A held tree -/

theorem holdsTree_leaf {node : Table Node} {sym : Sym} {i : Idx} (h : holdsTree node (.leaf sym) i = true) :
    i.toNat < Config.nodeCap ∧ ∃ n, node.read i.toNat = some n ∧ n.kind = .leaf ∧ n.sym = sym := by
  unfold holdsTree at h
  split at h
  · next n hn =>
    simp only [Bool.and_eq_true, decide_eq_true_eq] at h
    obtain ⟨⟨hi, hk⟩, hs⟩ := h
    exact ⟨hi, n, hn, hk, hs⟩
  · simp at h

theorem holdsTree_node {node : Table Node} {l r : Tree} {i : Idx} (h : holdsTree node (.node l r) i = true) :
    i.toNat < Config.nodeCap ∧ ∃ n, node.read i.toNat = some n ∧ n.kind = .internal ∧
      holdsTree node l n.left = true ∧ holdsTree node r n.right = true := by
  unfold holdsTree at h
  split at h
  · next n hn =>
    simp only [Bool.and_eq_true, decide_eq_true_eq] at h
    obtain ⟨⟨⟨hi, hk⟩, hl⟩, hr⟩ := h
    exact ⟨hi, n, hn, hk, hl, hr⟩
  · simp at h

theorem treeHeight_lt_leaves (tree : Tree) : tree.height < tree.syms.length := by
  induction tree with
  | leaf sym => simp [Safety.Tree.height, Tree.syms]
  | node l r ihl ihr => simp only [Safety.Tree.height, Tree.syms, List.length_append]; omega

/-! ## The whole micro-operations -/

/-- CODE with the path to each leaf of a tree written at its symbol, from a path to the root on (R166). -/
def writeCodes : Tree → Len → Pat → Table CodeEntry → Table CodeEntry
  | .leaf sym, len, pat, code => code.write sym.toNat ⟨true, len, pat⟩
  | .node l r, len, pat, code =>
    writeCodes r (len + 1) (appendBit pat true) (writeCodes l (len + 1) (appendBit pat false) code)

/-- CODE as GENCODES leaves it over a tree (R166, R167). -/
def treeCodes : Tree → Table CodeEntry
  | .leaf sym => (Table.fill Config.nsym noCodeEntry).write sym.toNat ⟨true, 1, 0⟩
  | .node l r => writeCodes (.node l r) 0 0 (Table.fill Config.nsym noCodeEntry)

theorem readNode_ok {i : Nat} {n : Node} {s : State} (hi : i < Config.nodeCap) (hn : s.node.read i = some n) :
    readNode i s = .ok n s := readNode_eq_ok.2 ⟨hi, hn, rfl⟩

theorem writeCode_ok {i : Nat} {s : State} (hi : i < Config.nsym) (v : CodeEntry) :
    writeCode i v s = .ok () { s with code := s.code.write i v } := writeCode_eq_ok.2 ⟨hi, rfl⟩

theorem walkCodes_of_holdsTree {tree : Tree} {fuel : Nat} {i : Idx} {len : Len} {pat : Pat} {s : State}
    (h : holdsTree s.node tree i = true) (hf : tree.height < fuel) (hs : ∀ sym ∈ tree.syms, sym.toNat ≤ Config.eos) :
    walkCodes fuel i len pat s = .ok () { s with code := writeCodes tree len pat s.code } := by
  obtain ⟨fuel, rfl⟩ := Nat.exists_eq_add_one_of_ne_zero (Nat.ne_zero_of_lt hf)
  induction tree generalizing fuel i len pat s with
  | leaf sym =>
    obtain ⟨hi, n, hn, hk, rfl⟩ := holdsTree_leaf h
    rw [walkCodes, readNode_ok hi hn, Run.bind_ok]
    simp only [hk]
    exact writeCode_ok (Nat.lt_succ_of_le (hs n.sym (by simp [Tree.syms]))) _
  | node l r ihl ihr =>
    obtain ⟨hi, n, hn, hk, hl, hr⟩ := holdsTree_node h
    simp only [Safety.Tree.height] at hf
    obtain ⟨fuel, rfl⟩ := Nat.exists_eq_add_one_of_ne_zero (n := fuel) (by omega)
    have hsl : ∀ sym ∈ l.syms, sym.toNat ≤ Config.eos := fun sym m => hs sym (by simp [Tree.syms, m])
    have hsr : ∀ sym ∈ r.syms, sym.toNat ≤ Config.eos := fun sym m => hs sym (by simp [Tree.syms, m])
    rw [walkCodes, readNode_ok hi hn, Run.bind_ok]
    simp only [hk]
    rw [ihl hl hsl fuel (by omega), Run.bind_ok, ihr (by exact hr) hsr fuel (by omega)]
    rfl

/-- GENCODES over a held tree (R166, R167). -/
theorem gencodesRun_of_holdsTree {tree : Tree} {s : State} (h : holdsTree s.node tree s.root = true)
    (hh : tree.height ≤ Config.nodeCap) (hs : ∀ sym ∈ tree.syms, sym.toNat ≤ Config.eos) :
    gencodesRun s = .ok () { s with code := treeCodes tree, codeValid := true } := by
  cases tree with
  | leaf sym =>
    obtain ⟨hi, n, hn, hk, rfl⟩ := holdsTree_leaf h
    rw [gencodesRun, readNode_ok hi (by exact hn), Run.bind_ok]
    simp only [hk]
    rw [writeCode_ok (Nat.lt_succ_of_le (hs n.sym (by simp [Tree.syms])))]
    rfl
  | node l r =>
    obtain ⟨hi, n, hn, hk, -, -⟩ := holdsTree_node h
    rw [gencodesRun, readNode_ok hi (by exact hn), Run.bind_ok]
    simp only [hk]
    rw [walkCodes_of_holdsTree (by exact h) (by omega) hs]
    rfl

/-- WRHDR's Put over a held tree (R176). -/
theorem putNode_of_holdsTree {tree : Tree} {fuel : Nat} {i : Idx} {s : State}
    (h : holdsTree s.node tree i = true) (hf : tree.height < fuel) :
    putNode fuel i s = .ok () { s with sink := { s.sink with bits := s.sink.bits ++ tree.header } } := by
  obtain ⟨fuel, rfl⟩ := Nat.exists_eq_add_one_of_ne_zero (Nat.ne_zero_of_lt hf)
  induction tree generalizing fuel i s with
  | leaf sym =>
    obtain ⟨hi, n, hn, hk, rfl⟩ := holdsTree_leaf h
    simp [putNode, readNode_ok hi hn, hk, State.writeBits, Sink.writeBits, Tree.header, msbFirst]
  | node l r ihl ihr =>
    obtain ⟨hi, n, hn, hk, hl, hr⟩ := holdsTree_node h
    simp only [Safety.Tree.height] at hf
    obtain ⟨fuel, rfl⟩ := Nat.exists_eq_add_one_of_ne_zero (n := fuel) (by omega)
    rw [putNode, readNode_ok hi hn, Run.bind_ok]
    simp only [hk]
    rw [ihl (by exact hl) fuel (by omega), Run.bind_ok, ihr (by exact hr) fuel (by omega)]
    simp [State.writeBits, Sink.writeBits, Tree.header, msbFirst]

/-! ## Runs of turns of one node -/

/-- A step, then the rest of the run. -/
theorem run_succ {k : Nat} {s t : State} (h : step s = .next t) : core.run (k + 1) s = core.run k t := by
  have h' : core.step s = .next t := h
  simp only [Host.Core.run, h']

/-- A run, then the rest of it. -/
theorem run_add {m n : Nat} {s t : State} (h : core.run m s = .next t) : core.run (m + n) s = core.run n t := by
  induction m generalizing s with
  | zero =>
    obtain rfl : s = t := Outcome.next.inj h
    rw [Nat.zero_add]
  | succ m ih =>
    rw [Nat.add_right_comm]
    cases hs : core.step s with
    | next u =>
      simp only [Host.Core.run, hs] at h ⊢
      exact ih h
    | fault f => simp [Host.Core.run, hs] at h
    | refused f => simp [Host.Core.run, hs] at h

/-- `n` turns of one node or token, then the moves `rest`. -/
def nodeTurns (n : Nat) (rest : List Move) : List Move := List.replicate n (.block .node) ++ rest

theorem nodeTurns_add (m n : Nat) (rest : List Move) : nodeTurns (m + n) rest = nodeTurns m (nodeTurns n rest) := by
  rw [nodeTurns, nodeTurns, nodeTurns, List.replicate_add, List.append_assoc]

theorem nodeTurns_succ (n : Nat) (rest : List Move) : nodeTurns (n + 1) rest = .block .node :: nodeTurns n rest := rfl

/-- One such turn. -/
theorem step_nodeTurn {s u : State} {rest : List Move} (hb : s.state = .busy)
    (h : nodeTurn { s with moves := rest } = .next u) :
    step { s with moves := .block .node :: rest } = .next u.advance := by
  rw [step_of_move rfl, runMove, blockTurn_node (by exact hb), h]
  rfl

/-- The sequencer does not look at the moves to come. -/
theorem State.advance_withMoves (s : State) (moves : List Move) :
    State.advance { s with moves := moves } = { s.advance with moves := moves } := by
  unfold State.advance
  dsimp only
  split
  · split <;> rfl
  · rfl

/-- Where a walk with the stack `frames` stands: at ROOT, or at the child of the top entry's node that is due (R38). -/
def WalkTarget (node : Table Node) (root : Idx) : List Frame → Idx → Prop
  | [], i => i = root
  | f :: _, i => f.index.toNat < Config.nodeCap ∧ ∃ n, node.read f.index.toNat = some n ∧ i = n.child f.leftDone

theorem walkPosition_of_target {s : State} {i : Idx} (h : WalkTarget s.node s.root s.trav.frames i) :
    walkPosition s = .ok i s := by
  unfold walkPosition
  cases hf : s.trav.frames with
  | nil => rw [hf] at h; rw [show i = s.root from h]
  | cons f rest =>
    rw [hf] at h
    obtain ⟨hi, n, hn, rfl⟩ := h
    dsimp only
    rw [readNode_eq_ok.2 ⟨hi, hn, rfl⟩, Run.bind_ok]

/-- The children of a node on top of the stack. -/
theorem walkTarget_child {node : Table Node} {root i : Idx} {n : Node} {frames : List Frame} (hi : i.toNat < Config.nodeCap)
    (hn : node.read i.toNat = some n) (b : Bool) : WalkTarget node root (⟨i, b⟩ :: frames) (n.child b) :=
  ⟨hi, n, hn, rfl⟩

/-! ## GENCODES' path along the stack -/

/-- The path a stack stands for, nearest the root at the high end (R38, R166). -/
def pathPat : List Frame → Pat
  | [] => 0
  | f :: rest => appendBit (pathPat rest) f.leftDone

/-- The traversal of GENCODES with a given stack. -/
def pathOf (frames : List Frame) : Traversal := ⟨frames, BitVec.ofNat 9 frames.length, pathPat frames⟩

theorem appendBit_toNat {p : Pat} {b : Bool} (h : p.toNat < 2 ^ 255) : (appendBit p b).toNat = 2 * p.toNat + b.toNat := by
  have e : (p.toNat <<< 1) % 2 ^ 256 = 2 ^ 1 * p.toNat := by
    rw [Nat.shiftLeft_eq, Nat.mul_comm]
    exact Nat.mod_eq_of_lt (by omega)
  have hb : b.toNat < 2 ^ 1 := by cases b <;> decide
  have hb' : b.toNat % 2 ^ 256 = b.toNat := Nat.mod_eq_of_lt (by omega)
  rw [appendBit, BitVec.toNat_or, BitVec.toNat_shiftLeft, BitVec.toNat_setWidth, BitVec.toNat_ofBool, e, hb',
    ← Nat.two_pow_add_eq_or_of_lt hb, pow_one]

theorem pathPat_lt {frames : List Frame} (h : frames.length ≤ 256) : (pathPat frames).toNat < 2 ^ frames.length := by
  induction frames with
  | nil => simp [pathPat]
  | cons f rest ih =>
    simp only [List.length_cons] at h ⊢
    have hr := ih (by omega)
    have hle : 2 ^ rest.length ≤ 2 ^ 255 := Nat.pow_le_pow_right (by decide) (by omega)
    have hb : f.leftDone.toNat ≤ 1 := Bool.toNat_le _
    rw [pathPat, appendBit_toNat (by omega), Nat.pow_succ]
    omega

/-- Entries that leave the stack are right edges, and the one that stays turns to its right one. -/
theorem pathPat_unwind {frames : List Frame} (h : frames.length ≤ 256) (hne : (unwind frames).2 ≠ []) :
    (pathPat frames >>> (unwind frames).1) ||| 1 = pathPat (unwind frames).2 ∧
      frames.length = (unwind frames).1 + (unwind frames).2.length := by
  induction frames with
  | nil => simp [unwind] at hne
  | cons f rest ih =>
    obtain ⟨i, d⟩ := f
    cases d with
    | false => simp [unwind, pathPat, appendBit]
    | true =>
      simp only [List.length_cons] at h
      obtain ⟨hp, hl⟩ := ih (by omega) hne
      have hlt := pathPat_lt (frames := rest) (by omega)
      have hle : 2 ^ rest.length ≤ 2 ^ 255 := Nat.pow_le_pow_right (by decide) (by omega)
      have hshift : appendBit (pathPat rest) true >>> ((unwind rest).1 + 1) = pathPat rest >>> (unwind rest).1 := by
        apply BitVec.eq_of_toNat_eq
        rw [BitVec.toNat_ushiftRight, BitVec.toNat_ushiftRight, appendBit_toNat (by omega), Nat.add_comm _ 1,
          Nat.shiftRight_add]
        congr 1
        simp [Nat.shiftRight_eq_div_pow]
        omega
      refine ⟨?_, by simp only [unwind, List.length_cons]; omega⟩
      simp only [unwind, pathPat]
      rw [hshift, hp]

theorem unwindPath_pathOf {frames : List Frame} (h : frames.length ≤ 256) :
    unwindPath (pathOf frames) = pathOf (unwind frames).2 := by
  cases hu : (unwind frames).2 with
  | nil =>
    have e : unwind frames = ((unwind frames).1, []) := by rw [← hu]
    simp only [unwindPath, pathOf]
    rw [e]
    rfl
  | cons f rest =>
    obtain ⟨hp, hl⟩ := pathPat_unwind h (by simp [hu])
    have e : unwind frames = ((unwind frames).1, f :: rest) := by rw [← hu]
    rw [hu] at hp hl
    simp only [unwindPath, pathOf]
    rw [e]
    simp only [Traversal.mk.injEq, true_and]
    refine ⟨?_, hp⟩
    apply BitVec.eq_of_toNat_eq
    simp only [BitVec.toNat_sub, BitVec.toNat_ofNat]
    omega

/-! ## One node a turn -/

/-- A walk's turn at an Internal node, then the turns of its two subtrees. -/
theorem run_node {a b : Nat} {s u v w : State} {rest : List Move} (hb : s.state = .busy)
    (enter : nodeTurn { s with moves := nodeTurns (a + b) rest } = .next { u with moves := nodeTurns (a + b) rest })
    (hu : u.trav.frames ≠ [])
    (left : core.run a { u with moves := nodeTurns a (nodeTurns b rest) } =
      .next (State.advance { v with moves := nodeTurns b rest })) (hv : v.trav.frames ≠ [])
    (right : core.run b { v with moves := nodeTurns b rest } = .next w) :
    core.run (a + b + 1) { s with moves := nodeTurns (a + b + 1) rest } = .next w := by
  have first := step_nodeTurn hb enter
  rw [State.advance_eq_self (.inr (by exact hu))] at first
  rw [State.advance_eq_self (.inr (by exact hv)), ← nodeTurns_add] at left
  rw [nodeTurns_succ, run_succ first, run_add left]
  exact right

/-- A walk's turn at a leaf is the whole run. -/
theorem run_leaf {s u : State} {rest : List Move} (hb : s.state = .busy)
    (h : nodeTurn { s with moves := rest } = .next u) :
    core.run 1 { s with moves := nodeTurns 1 rest } = .next u.advance :=
  run_succ (step_nodeTurn hb h)

/-! ### WRHDR -/

/-- The state after WRHDR's turn at the Internal node `i`. -/
def headerEntered (i : Idx) (s : State) : State :=
  { s.writeBits Config.intBits 0 with trav := { s.trav with frames := ⟨i, false⟩ :: s.trav.frames } }

/-- The state when WRHDR's walk has finished a subtree: its header is written and the stack unwound. -/
def headerWalked (tree : Tree) (s : State) : State :=
  { s with
    sink := { s.sink with bits := s.sink.bits ++ tree.header }
    trav := { s.trav with frames := (unwind s.trav.frames).2 } }

theorem headerWalked_node (l r : Tree) (i : Idx) (s : State) :
    headerWalked r (headerWalked l (headerEntered i s)) = headerWalked (.node l r) s := by
  simp [headerWalked, headerEntered, State.writeBits, Sink.writeBits, Tree.header, msbFirst, unwind]

theorem visitWrhdr_internal {s : State} {i : Idx} {n : Node} (ht : WalkTarget s.node s.root s.trav.frames i)
    (hi : i.toNat < Config.nodeCap) (hn : s.node.read i.toNat = some n) (hk : n.kind = .internal)
    (hl : s.trav.frames.length < Config.nodeCap) : visitWrhdr s = .ok () (headerEntered i s) := by
  rw [visitWrhdr, walkPosition_of_target ht, Run.bind_ok, readNode_ok hi hn, Run.bind_ok]
  simp only [hk]
  exact pushFrame_eq_ok.2 ⟨hl, rfl⟩

theorem visitWrhdr_leaf {s : State} {i : Idx} {n : Node} (ht : WalkTarget s.node s.root s.trav.frames i)
    (hi : i.toNat < Config.nodeCap) (hn : s.node.read i.toNat = some n) (hk : n.kind = .leaf) :
    visitWrhdr s = .ok () (headerWalked (.leaf n.sym) s) := by
  rw [visitWrhdr, walkPosition_of_target ht, Run.bind_ok, readNode_ok hi hn, Run.bind_ok]
  simp [hk, headerWalked, State.writeBits, Sink.writeBits, Tree.header, msbFirst]

/-- WRHDR walks a subtree, under any stack, by as many turns as it has nodes. -/
theorem run_wrhdr_subtree (tree : Tree) {s : State} {i : Idx} {rest : List Move} (hb : s.state = .busy)
    (hp : s.phase = .wrhdr) (ht : WalkTarget s.node s.root s.trav.frames i) (hold : holdsTree s.node tree i = true)
    (hh : s.trav.frames.length + tree.height ≤ Config.nodeCap) :
    core.run tree.nodes { s with moves := nodeTurns tree.nodes rest } =
      .next (State.advance { headerWalked tree s with moves := rest }) := by
  induction tree generalizing s i rest with
  | leaf sym =>
    obtain ⟨hi, n, hn, hk, rfl⟩ := holdsTree_leaf hold
    refine run_leaf hb ?_
    rw [nodeTurn_wrhdr (by exact hp), visitWrhdr_leaf (by exact ht) hi (by exact hn) hk]
    rfl
  | node l r ihl ihr =>
    obtain ⟨hi, n, hn, hk, hl, hr⟩ := holdsTree_node hold
    simp only [Safety.Tree.height] at hh
    rw [← headerWalked_node l r i]
    refine run_node hb (u := headerEntered i s) (v := headerWalked l (headerEntered i s)) ?_ (by simp [headerEntered])
      (ihl hb hp (walkTarget_child hi hn false) hl ?_) (by simp [headerWalked, headerEntered, unwind])
      (ihr hb hp (walkTarget_child hi hn true) hr ?_)
    · rw [nodeTurn_wrhdr (by exact hp), visitWrhdr_internal (by exact ht) hi (by exact hn) hk (by dsimp only; omega)]
      rfl
    · simp only [headerEntered, List.length_cons]
      omega
    · simp only [headerWalked, headerEntered, unwind, List.length_cons]
      omega

/-! ### GENCODES -/

/-- The state after GENCODES' turn at the Internal node `i`, under the stack `frames`. -/
def codesEntered (i : Idx) (frames : List Frame) (s : State) : State := { s with trav := pathOf (⟨i, false⟩ :: frames) }

/-- The state when GENCODES' walk has finished a subtree under the stack `frames`. -/
def codesWalked (tree : Tree) (frames : List Frame) (s : State) : State :=
  { s with
    code := writeCodes tree (BitVec.ofNat 9 frames.length) (pathPat frames) s.code
    trav := pathOf (unwind frames).2, codeValid := s.codeValid || (unwind frames).2.isEmpty }

theorem codesWalked_node (l r : Tree) (i : Idx) (frames : List Frame) (s : State) :
    codesWalked r (⟨i, true⟩ :: frames) (codesWalked l (⟨i, false⟩ :: frames) (codesEntered i frames s)) =
      codesWalked (.node l r) frames s := by
  simp [codesWalked, codesEntered, unwind, writeCodes, pathPat, BitVec.ofNat_add]

theorem visitCode_internal {first : Bool} {s : State} {frames : List Frame} {i : Idx} {n : Node}
    (hf : s.trav = pathOf frames) (ht : WalkTarget s.node s.root frames i) (hi : i.toNat < Config.nodeCap)
    (hn : s.node.read i.toNat = some n) (hk : n.kind = .internal) (hl : frames.length < Config.nodeCap) :
    visitCode first s = .ok () (codesEntered i frames s) := by
  have hframes : s.trav.frames = frames := congrArg Traversal.frames hf
  rw [visitCode, walkPosition_of_target (by rwa [hframes]), Run.bind_ok, readNode_ok hi hn, Run.bind_ok]
  simp only [hk]
  rw [pushFrame_eq_ok.2 ⟨by rwa [hframes], rfl⟩, Run.bind_ok]
  simp [hf, codesEntered, pathOf, pathPat, BitVec.ofNat_add]

theorem visitCode_leaf {first : Bool} {s : State} {i : Idx} {n : Node}
    (ht : WalkTarget s.node s.root s.trav.frames i) (hi : i.toNat < Config.nodeCap)
    (hn : s.node.read i.toNat = some n) (hk : n.kind = .leaf) (hs : n.sym.toNat < Config.nsym) :
    visitCode first s = .ok () { s with
      code := s.code.write n.sym.toNat (if first then ⟨true, 1, 0⟩ else ⟨true, s.trav.len, s.trav.pat⟩)
      trav := unwindPath s.trav, codeValid := s.codeValid || (unwindPath s.trav).frames.isEmpty } := by
  rw [visitCode, walkPosition_of_target ht, Run.bind_ok, readNode_ok hi hn, Run.bind_ok]
  simp only [hk]
  rw [writeCode_ok hs]
  rfl

/-- GENCODES walks the subtrees of an Internal node, entered by its turn, by as many turns as they have nodes. -/
theorem run_gencodes_node {l r : Tree} {s u : State} {frames : List Frame} {i : Idx} {rest : List Move}
    (hb : s.state = .busy)
    (enter : ∀ moves, nodeTurn { s with moves := moves } = .next { codesEntered i frames u with moves := moves })
    (left : ∀ moves, core.run l.nodes { codesEntered i frames u with moves := nodeTurns l.nodes moves } =
      .next (State.advance { codesWalked l (⟨i, false⟩ :: frames) (codesEntered i frames u) with moves := moves }))
    (right : core.run r.nodes
        { codesWalked l (⟨i, false⟩ :: frames) (codesEntered i frames u) with moves := nodeTurns r.nodes rest } =
      .next (State.advance { codesWalked r (⟨i, true⟩ :: frames)
        (codesWalked l (⟨i, false⟩ :: frames) (codesEntered i frames u)) with moves := rest })) :
    core.run (Safety.Tree.node l r).nodes { s with moves := nodeTurns (Safety.Tree.node l r).nodes rest } =
      .next (State.advance { codesWalked (.node l r) frames u with moves := rest }) := by
  rw [← codesWalked_node l r i]
  exact run_node hb (enter _) (by simp [codesEntered, pathOf]) (left _) (by simp [codesWalked, unwind, pathOf]) right

/-- GENCODES walks a subtree below the root by as many turns as it has nodes. -/
theorem run_gencodes_subtree (tree : Tree) {s : State} {frames : List Frame} {i : Idx} {rest : List Move}
    (hb : s.state = .busy) (hp : s.phase = .gencodes) (hf : s.trav = pathOf frames) (hne : frames ≠ [])
    (ht : WalkTarget s.node s.root frames i) (hold : holdsTree s.node tree i = true)
    (hh : frames.length + tree.height ≤ 256) (hs : ∀ sym ∈ tree.syms, sym.toNat ≤ Config.eos) :
    core.run tree.nodes { s with moves := nodeTurns tree.nodes rest } =
      .next (State.advance { codesWalked tree frames s with moves := rest }) := by
  induction tree generalizing s frames i rest with
  | leaf sym =>
    obtain ⟨hi, n, hn, hk, rfl⟩ := holdsTree_leaf hold
    have hframes : s.trav.frames = frames := congrArg Traversal.frames hf
    refine run_leaf hb ?_
    rw [nodeTurn_gencodes (by exact hp), visitGencodes_walking (by dsimp only; rwa [hframes]),
      visitCode_leaf (by dsimp only; rwa [hframes]) hi (by exact hn) hk (Nat.lt_succ_of_le (hs n.sym (by simp [Tree.syms])))]
    dsimp only
    rw [hf, unwindPath_pathOf (by omega)]
    rfl
  | node l r ihl ihr =>
    obtain ⟨hi, n, hn, hk, hl, hr⟩ := holdsTree_node hold
    have hframes : s.trav.frames = frames := congrArg Traversal.frames hf
    simp only [Safety.Tree.height] at hh
    refine run_gencodes_node (i := i) hb (fun moves => ?_)
      (fun moves => ihl (frames := ⟨i, false⟩ :: frames) hb hp rfl (by simp) (walkTarget_child hi hn false) hl
        (by simp only [List.length_cons]; omega)
        fun sym m => hs sym (by simp [Tree.syms, m]))
      (ihr (frames := ⟨i, true⟩ :: frames) hb hp rfl (by simp) (walkTarget_child hi hn true) hr
        (by simp only [List.length_cons]; omega)
        fun sym m => hs sym (by simp [Tree.syms, m]))
    rw [nodeTurn_gencodes (by exact hp), visitGencodes_walking (by dsimp only; rwa [hframes]),
      visitCode_internal (by exact hf) (by exact ht) hi (by exact hn) hk (by simp only [Config.nodeCap]; omega)]
    rfl

/-- GENCODES walks the whole tree, clearing CODE at its first turn and setting CODE_VALID at its last. -/
theorem run_gencodes_tree {tree : Tree} {s : State} {rest : List Move} (hb : s.state = .busy) (hp : s.phase = .gencodes)
    (hf : s.trav = .empty) (hold : holdsTree s.node tree s.root = true) (hh : tree.height ≤ 256)
    (hs : ∀ sym ∈ tree.syms, sym.toNat ≤ Config.eos) :
    core.run tree.nodes { s with moves := nodeTurns tree.nodes rest } =
      .next (State.advance { s with code := treeCodes tree, codeValid := true, moves := rest }) := by
  have hframes : s.trav.frames = [] := congrArg Traversal.frames hf
  cases tree with
  | leaf sym =>
    obtain ⟨hi, n, hn, hk, rfl⟩ := holdsTree_leaf hold
    refine run_leaf hb ?_
    rw [nodeTurn_gencodes (by exact hp), visitGencodes_first (by exact hframes),
      visitCode_leaf (by rfl) hi (by exact hn) hk (Nat.lt_succ_of_le (hs n.sym (by simp [Tree.syms])))]
    simp [hf, unwindPath, unwind, Traversal.empty, treeCodes]
  | node l r =>
    obtain ⟨hi, n, hn, hk, hl, hr⟩ := holdsTree_node hold
    simp only [Safety.Tree.height] at hh
    refine (run_gencodes_node (i := s.root) (frames := [])
      (u := { s with code := Table.fill Config.nsym noCodeEntry, trav := .empty }) hb (fun moves => ?_)
      (fun moves => run_gencodes_subtree l (frames := [⟨s.root, false⟩]) hb hp rfl (by simp)
        (walkTarget_child hi hn false) hl (by simp only [List.length_cons, List.length_nil]; omega)
        fun sym m => hs sym (by simp [Tree.syms, m]))
      (run_gencodes_subtree r (frames := [⟨s.root, true⟩]) hb hp rfl (by simp)
        (walkTarget_child hi hn true) hr (by simp only [List.length_cons, List.length_nil]; omega)
        fun sym m => hs sym (by simp [Tree.syms, m]))).trans ?_
    · rw [nodeTurn_gencodes (by exact hp), visitGencodes_first (by exact hframes),
        visitCode_internal (frames := []) (by rfl) (by rfl) hi (by exact hn) hk (by decide)]
      rfl
    · simp [codesWalked, unwind, treeCodes, pathPat, hf]
      rfl

end Sys2Proof.Machine

open Sys2Proof Sys2Proof.Machine Sys2Proof.Safety

/-- Settles O41: over a held tree both micro-operations and both walks come to the same state. -/
theorem nodeWalksAgree : Obligations.NodeWalksAgree := by
  unfold Obligations.NodeWalksAgree
  intro s t tree hb hf hold hh hs h
  have turns : List.replicate tree.nodes (Move.block .node) = nodeTurns tree.nodes [] := (List.append_nil _).symm
  rw [turns]
  obtain ⟨hp, h⟩ | ⟨hp, h⟩ := h
  · have ht := exec_gencodes_eq_next.1 h
    rw [gencodesRun_of_holdsTree hold (by simp only [Config.nodeCap]; omega) hs] at ht
    obtain ⟨-, rfl⟩ := Run.ok.inj ht
    rw [run_gencodes_tree hb hp hf hold hh hs, ← State.advance_withMoves]
  · have ht := Run.outcome_eq_next.1 h
    rw [putNode_of_holdsTree hold (by simp only [Config.nodeCap]; omega)] at ht
    obtain ⟨-, rfl⟩ := Run.ok.inj (ht.resolve_right (by simp))
    have hframes : s.trav.frames = [] := congrArg Traversal.frames hf
    rw [run_wrhdr_subtree tree hb hp (by rw [hframes]; rfl) hold
        (by rw [hframes]; simp only [List.length_nil, Config.nodeCap]; omega),
      ← State.advance_withMoves]
    simp [headerWalked, hf, Traversal.empty, unwind]

end

section
/-! RDHDR and its tokens by the bits at the read position: Get and one turn of a token side by side (43_header_codec.md R180 to
R183), then RDHDR as a run of such turns. -/

namespace Sys2Proof.Machine

open Host (Outcome)
open Sys2Proof.Safety

/-! ## Reading known bits -/

theorem remaining_length (src : Source) : src.remaining.length = src.bits.length - src.pos := by
  simp [Source.remaining]

/-- Moving past the first bits leaves the later ones. -/
theorem remaining_after {src : Source} {bs rest : Bits} (h : src.remaining = bs ++ rest) :
    ({ src with pos := src.pos + bs.length } : Source).remaining = rest := by
  show src.bits.drop (src.pos + bs.length) = rest
  rw [← List.drop_drop, show src.bits.drop src.pos = bs ++ rest from h, List.drop_left]

theorem pos_le_of_remaining {src : Source} {bs rest : Bits} (h : src.remaining = bs ++ rest) (h0 : 0 < bs.length) :
    src.pos + bs.length ≤ src.bits.length := by
  have := congrArg List.length h
  rw [remaining_length, List.length_append] at this
  omega

/-- A state with the read position moved on by `n`. -/
def State.moved (n : Nat) (s : State) : State := { s with src := { s.src with pos := s.src.pos + n } }

/-- A state with the read position at the end of the input. -/
def State.atEnd (s : State) : State := { s with src := { s.src with pos := s.src.bits.length } }

/-- A state with its index NEXT taken. -/
def State.taken (s : State) : State := { s with next := s.next + 1 }

theorem readBits_of_remaining {n : Nat} {s : State} {bs rest : Bits} (h : s.src.remaining = bs ++ rest)
    (hn : bs.length = n) (h0 : 0 < n) : s.readBits n = (some (BitVec.ofNat n (fromMsb bs)), s.moved n) := by
  have hp := pos_le_of_remaining h (by omega)
  rw [State.readBits, Source.readBits_enough (by omega), h, List.take_left' hn]
  rfl

theorem readBits_of_short {n : Nat} {s : State} (h : s.src.remaining.length < n) : s.readBits n = (none, s.atEnd) := by
  rw [remaining_length] at h
  rw [State.readBits, Source.readBits_short (by omega)]
  rfl

theorem skip_of_remaining {n : Nat} {s : State} {bs rest : Bits} (h : s.src.remaining = bs ++ rest)
    (hn : bs.length = n) (h0 : 0 < n) : s.skip n = s.moved n := by
  have hp := pos_le_of_remaining h (by omega)
  rw [State.skip, Source.skip, Nat.min_eq_left (by omega)]
  rfl

/-- A header's type bit (R103, R104). -/
theorem readBits_typeBit {s : State} {b : Bool} {rest : Bits} (h : s.src.remaining = b :: rest) :
    s.readBits Config.intBits = (some (BitVec.ofBool b), s.moved 1) := by
  refine (readBits_of_remaining (n := 1) (bs := [b]) h rfl (by decide)).trans ?_
  cases b <;> rfl

/-- A leaf's symbol (R104). -/
theorem readBits_symbol {s : State} {bs rest : Bits} (h : s.src.remaining = bs ++ rest) (hb : bs.length = 9) :
    s.readBits Config.symW = (some (BitVec.ofNat 9 (fromMsb bs)), s.moved 9) :=
  readBits_of_remaining h hb (by decide)

theorem remaining_moved_one {s : State} {b : Bool} {rest : Bits} (h : s.src.remaining = b :: rest) :
    (s.moved 1).src.remaining = rest :=
  remaining_after (bs := [b]) h

/-! ## Get by the bits at the read position -/

theorem takeIndex_full {s : State} (h : s.next.toNat = Config.nodeCap) :
    takeIndex s = Run.raise .treeOverflow 513 false s := if_pos h

theorem takeIndex_free {s : State} (h : s.next.toNat ≠ Config.nodeCap) : takeIndex s = .ok s.next s.taken := if_neg h

theorem getNode_missing {fuel : Nat} {s : State} (h : s.src.remaining = []) :
    getNode (fuel + 1) s = .raised (s.atEnd.errorEntry .headerTruncated 0 true) := by
  rw [getNode, readBits_of_short (by rw [h]; decide)]
  rfl

theorem getNode_full {fuel : Nat} {s : State} {b : Bool} {rest : Bits} (h : s.src.remaining = b :: rest)
    (hn : s.next.toNat = Config.nodeCap) :
    getNode (fuel + 1) s = .raised ((s.moved 1).errorEntry .treeOverflow 513 false) := by
  rw [getNode, readBits_typeBit h]
  dsimp only
  rw [takeIndex_full (by exact hn)]
  rfl

/-- Get at a type bit 0 (R180). -/
theorem getNode_internal {fuel : Nat} {s : State} {rest : Bits} (h : s.src.remaining = false :: rest)
    (hn : s.next.toNat ≠ Config.nodeCap) :
    getNode (fuel + 1) s = (getNode fuel (s.moved 1).taken).bind fun l u =>
      (getNode fuel u).bind fun r v =>
        (writeNode s.next.toNat (internalNode 0 l r) v).bind fun _ w => .ok s.next w := by
  rw [getNode, readBits_typeBit h]
  dsimp only
  rw [takeIndex_free (by exact hn), Run.bind_ok, if_pos (by decide)]
  rfl

/-- Get at a type bit 1 with its symbol (R180). -/
theorem getNode_leaf {fuel : Nat} {s : State} {bs rest : Bits} (h : s.src.remaining = true :: (bs ++ rest))
    (hb : bs.length = 9) (hn : s.next.toNat < Config.nodeCap) :
    getNode (fuel + 1) s = .ok s.next
      { (s.moved 10).taken with node := s.node.write s.next.toNat (leafNode (BitVec.ofNat 9 (fromMsb bs)) 0) } := by
  rw [getNode, readBits_typeBit h]
  dsimp only
  rw [takeIndex_free (by exact Nat.ne_of_lt hn), Run.bind_ok, if_neg (by decide),
    readBits_symbol (s := (s.moved 1).taken) (remaining_moved_one h) hb]
  dsimp only
  rw [writeNode_eq_ok.2 ⟨by exact hn, rfl⟩]
  rfl

/-- Get at a type bit 1 with fewer than nine bits after it (R182). -/
theorem getNode_cut {fuel : Nat} {s : State} {rest : Bits} (h : s.src.remaining = true :: rest)
    (hb : rest.length < 9) (hn : s.next.toNat ≠ Config.nodeCap) :
    getNode (fuel + 1) s = .raised (s.atEnd.taken.errorEntry .headerTruncated 0 true) := by
  rw [getNode, readBits_typeBit h]
  dsimp only
  rw [takeIndex_free (by exact hn), Run.bind_ok, if_neg (by decide),
    readBits_of_short (s := (s.moved 1).taken) (by rwa [show (s.moved 1).taken.src.remaining = rest from
      remaining_moved_one h])]
  rfl

/-! ## A turn of one token by the bits at the read position -/

theorem beginHeader_remaining (s : State) : (beginHeader s).src.remaining = s.src.remaining := by simp

theorem headerTurn_missing {s : State} (h : s.src.remaining = []) :
    headerTurn s = .next ((beginHeader s).atEnd.errorEntry .headerTruncated 0 true) := by
  rw [headerTurn, h]
  dsimp only [decodeHeader]
  rw [tokenMissing, readBits_of_short (by rw [beginHeader_remaining, h]; decide)]
  rfl

theorem decodeHeader_cut {rest : Bits} (hb : rest.length < 9) :
    decodeHeader (true :: rest) = .error .leafCut := if_neg (Nat.not_le.2 hb)

theorem decodeHeader_leaf {bs rest : Bits} (hb : bs.length = 9) :
    decodeHeader (true :: (bs ++ rest)) = .ok (.leaf (BitVec.ofNat 9 (fromMsb bs)), rest) := by
  have hl : Config.symW ≤ (bs ++ rest).length := by rw [List.length_append, hb]; exact Nat.le_add_right ..
  refine (if_pos hl).trans ?_
  rw [List.take_left' hb, List.drop_left' hb]

theorem headerTurn_full {s : State} {b : Bool} {rest : Bits} (h : s.src.remaining = b :: rest)
    (hn : (beginHeader s).next.toNat = Config.nodeCap) :
    headerTurn s = .next (((beginHeader s).moved 1).errorEntry .treeOverflow 513 false) := by
  have hb : (beginHeader s).src.remaining = [b] ++ rest := by rw [beginHeader_remaining, h]; rfl
  have skipped := skip_of_remaining hb (n := Config.intBits) rfl (by decide)
  have full : takeIndex ((beginHeader s).moved 1) = Run.raise .treeOverflow 513 false ((beginHeader s).moved 1) :=
    takeIndex_full hn
  have cut : leafCutShort (beginHeader s) = .raised (((beginHeader s).moved 1).errorEntry .treeOverflow 513 false) := by
    rw [leafCutShort, readBits_typeBit hb, full]
    rfl
  have internal : internalToken (beginHeader s) =
      .raised (((beginHeader s).moved 1).errorEntry .treeOverflow 513 false) := by
    rw [internalToken, skipped, full]
    rfl
  have leaf (sym : Sym) : leafToken sym (beginHeader s) =
      .raised (((beginHeader s).moved 1).errorEntry .treeOverflow 513 false) := by
    rw [leafToken, skipped, full]
    rfl
  rw [headerTurn, h]
  cases b with
  | false => exact congrArg Run.outcome internal
  | true =>
    by_cases h9 : rest.length < 9
    · rw [decodeHeader_cut h9]
      exact congrArg Run.outcome cut
    · rw [← List.take_append_drop 9 rest, decodeHeader_leaf (by simp; omega)]
      exact congrArg Run.outcome (leaf _)

theorem headerTurn_internal {s : State} {rest : Bits} (h : s.src.remaining = false :: rest)
    (hn : (beginHeader s).next.toNat ≠ Config.nodeCap) (hl : s.trav.frames.length < Config.nodeCap) :
    headerTurn s = .next { ((beginHeader s).moved 1).taken with
      trav := { s.trav with frames := ⟨(beginHeader s).next, false⟩ :: s.trav.frames } } := by
  have hb : (beginHeader s).src.remaining = [false] ++ rest := by rw [beginHeader_remaining, h]; rfl
  rw [headerTurn, h]
  dsimp only [decodeHeader, exec, execInternal]
  rw [internalToken, skip_of_remaining hb (n := Config.intBits) rfl (by decide), takeIndex_free (by exact hn),
    Run.bind_ok, pushFrame_eq_ok.2 ⟨by simpa [State.taken, State.moved] using hl, rfl⟩]
  simp [State.taken, State.moved]

/-- The turn of a LEAF writes its entry and completes what it ends (R180). -/
theorem headerTurn_leaf {s : State} {bs rest : Bits} (h : s.src.remaining = true :: (bs ++ rest))
    (hb : bs.length = 9) (hn : (beginHeader s).next.toNat < Config.nodeCap) :
    headerTurn s = (completeSubtree (beginHeader s).next (beginHeader s).trav.frames
      { ((beginHeader s).moved 10).taken with
        node := (beginHeader s).node.write (beginHeader s).next.toNat (leafNode (BitVec.ofNat 9 (fromMsb bs)) 0) }).outcome := by
  have h1 : (beginHeader s).src.remaining = [true] ++ (bs ++ rest) := by rw [beginHeader_remaining, h]; rfl
  have h9 : ((beginHeader s).moved 1).taken.src.remaining = bs ++ rest := remaining_moved_one h1
  rw [headerTurn, h, decodeHeader_leaf hb]
  dsimp only [exec, execLeaf]
  rw [leafToken, skip_of_remaining h1 (n := Config.intBits) rfl (by decide), takeIndex_free (by exact Nat.ne_of_lt hn),
    Run.bind_ok, skip_of_remaining h9 (n := Config.symW) hb (by decide), writeNode_eq_ok.2 ⟨by exact hn, rfl⟩, Run.bind_ok]
  rfl

/-- The turn at a LEAF cut short, with an index free (R182). -/
theorem headerTurn_cut {s : State} {rest : Bits} (h : s.src.remaining = true :: rest) (h9 : rest.length < 9)
    (hn : (beginHeader s).next.toNat ≠ Config.nodeCap) :
    headerTurn s = .next ((beginHeader s).atEnd.taken.errorEntry .headerTruncated 0 true) := by
  have hb : (beginHeader s).src.remaining = true :: rest := by rw [beginHeader_remaining, h]
  rw [headerTurn, h, decodeHeader_cut h9]
  dsimp only
  rw [leafCutShort, readBits_typeBit hb, takeIndex_free (by exact hn), Run.bind_ok,
    readBits_of_short (s := ((beginHeader s).moved 1).taken) (by
      rwa [show ((beginHeader s).moved 1).taken.src.remaining = rest from remaining_moved_one hb])]
  rfl

/-! ## Get over a header -/

/-- NODE with the entries of a tree as RDHDR writes them, the indexes in preorder from `i` on (R180). -/
def headerNodes : Tree → Idx → Table Node → Table Node
  | .leaf sym, i, node => node.write i.toNat (leafNode sym 0)
  | .node l r, i, node =>
    (headerNodes r (i + 1 + BitVec.ofNat 10 l.nodes) (headerNodes l (i + 1) node)).write i.toNat
      (internalNode 0 (i + 1) (i + 1 + BitVec.ofNat 10 l.nodes))

theorem treeHeight_lt_nodes (tree : Tree) : tree.height < tree.nodes := by
  induction tree with
  | leaf sym => simp [Safety.Tree.height, Tree.nodes]
  | node l r ihl ihr => simp only [Safety.Tree.height, Tree.nodes]; omega

theorem treeNodes_pos (tree : Tree) : 0 < tree.nodes := Nat.zero_lt_of_lt (treeHeight_lt_nodes tree)

/-- An index counted up by a number of nodes that fit. -/
theorem idx_toNat_add {i : Idx} {n : Nat} (h : i.toNat + n ≤ Config.nodeCap) :
    (i + BitVec.ofNat 10 n : Idx).toNat = i.toNat + n := by
  simp only [Config.nodeCap] at h
  rw [BitVec.toNat_add, BitVec.toNat_ofNat, Nat.mod_eq_of_lt (a := n) (by omega)]
  exact Nat.mod_eq_of_lt (by omega)

/-- The state with a tree read from its header: its entries, NEXT, and the read position after it (R180). -/
def headerRead (tree : Tree) (s : State) : State :=
  { s.moved tree.header.length with
    node := headerNodes tree s.next s.node, next := s.next + BitVec.ofNat 10 tree.nodes }

theorem ofNat_fromMsb_symbol (sym : Sym) : BitVec.ofNat 9 (fromMsb (msbFirst 9 sym.toNat)) = sym := by
  rw [fromMsb_msbFirst, Nat.mod_eq_of_lt sym.isLt, BitVec.ofNat_toNat, BitVec.setWidth_eq]

/-- Get over the header of a tree that fits reads the tree (R180). -/
theorem getNode_of_header (tree : Tree) {fuel : Nat} {s : State} {rest : Bits}
    (h : s.src.remaining = tree.header ++ rest) (hn : s.next.toNat + tree.nodes ≤ Config.nodeCap)
    (hf : tree.height < fuel) : getNode fuel s = .ok s.next (headerRead tree s) := by
  obtain ⟨fuel, rfl⟩ := Nat.exists_eq_add_one_of_ne_zero (Nat.ne_zero_of_lt hf)
  induction tree generalizing fuel s rest with
  | leaf sym =>
    simp only [Tree.nodes] at hn
    rw [getNode_leaf (bs := msbFirst 9 sym.toNat) (rest := rest) h (msbFirst_length ..) (by omega), ofNat_fromMsb_symbol]
    simp [headerRead, Tree.header, Tree.nodes, headerNodes, State.taken, State.moved]
  | node l r ihl ihr =>
    simp only [Safety.Tree.height, Tree.nodes] at hf hn
    obtain ⟨fuel, rfl⟩ := Nat.exists_eq_add_one_of_ne_zero (n := fuel) (by omega)
    have h0 : s.src.remaining = false :: (l.header ++ (r.header ++ rest)) := by
      rw [h]; simp [Tree.header]
    have hs1 : (s.next + 1 : Idx).toNat = s.next.toNat + 1 := idx_toNat_succ (by omega)
    have h1 : (s.moved 1).taken.src.remaining = l.header ++ (r.header ++ rest) := remaining_moved_one h0
    have hn1 : (s.moved 1).taken.next.toNat + l.nodes ≤ Config.nodeCap := by
      show (s.next + 1 : Idx).toNat + _ ≤ _
      omega
    have h2 : (headerRead l (s.moved 1).taken).src.remaining = r.header ++ rest := remaining_after h1
    have hn2 : (headerRead l (s.moved 1).taken).next.toNat + r.nodes ≤ Config.nodeCap := by
      rw [show (headerRead l (s.moved 1).taken).next = (s.moved 1).taken.next + BitVec.ofNat 10 l.nodes from rfl,
        idx_toNat_add hn1]
      show (s.next + 1 : Idx).toNat + _ + _ ≤ _
      omega
    rw [getNode_internal h0 (by omega), ihl h1 hn1 fuel (by omega), Run.bind_ok, ihr h2 hn2 fuel (by omega), Run.bind_ok,
      writeNode_eq_ok.2 ⟨by omega, rfl⟩, Run.bind_ok]
    simp [headerRead, State.moved, State.taken, Tree.header, Tree.nodes, headerNodes, BitVec.ofNat_add, Nat.add_assoc,
      Nat.add_comm, BitVec.add_assoc]

/-! ## RDHDR as a run of turns of one token -/

/-- A state with the traversal stack `frames`, at RDHDR (R38). -/
def State.underStack (frames : List Frame) (s : State) : State := { s with trav := ⟨frames, 0, 0⟩ }

theorem beginHeader_eq_self {s : State} (h : s.trav.frames = [] → s.next = 0) : beginHeader s = s := by
  unfold beginHeader
  split
  · rw [← h ‹_›]
  · rfl

/-- The turn in which the subtree with root `i` is complete, from the state before its completion. -/
def completed (i : Idx) (frames : List Frame) (s : State) : Outcome State Fault Refusal :=
  andThen (completeSubtree i frames s).outcome fun t => .next t.advance

/-- Completing a subtree takes the stack as given, not the one in the state. -/
theorem completeSubtree_underStack (i : Idx) (frames gs hs : List Frame) (s : State) :
    completeSubtree i frames (s.underStack gs) = completeSubtree i frames (s.underStack hs) := by
  induction frames generalizing i s with
  | nil => rfl
  | cons f rest ih =>
    obtain ⟨j, d⟩ := f
    cases d with
    | false => rfl
    | true =>
      simp only [completeSubtree, writeNode]
      split
      · exact ih j { s with node := s.node.write j.toNat (internalNode 0 (j + 1) i) }
      · rfl

theorem completed_left {i j : Idx} {rest : List Frame} {s : State} :
    completed i (⟨j, false⟩ :: rest) (s.underStack (⟨j, false⟩ :: rest)) = .next (s.underStack (⟨j, true⟩ :: rest)) := by
  show Outcome.next (State.advance (s.underStack (⟨j, true⟩ :: rest))) = _
  rw [State.advance_eq_self (.inr (by simp [State.underStack]))]

theorem completed_right {i j : Idx} {rest : List Frame} {s : State} (hj : j.toNat < Config.nodeCap) :
    completed i (⟨j, true⟩ :: rest) (s.underStack (⟨j, true⟩ :: rest)) =
      completed j rest
        (State.underStack rest { s with node := s.node.write j.toNat (internalNode 0 (j + 1) i) }) := by
  rw [completed, completeSubtree, writeNode_eq_ok.2 ⟨hj, rfl⟩, Run.bind_ok]
  exact congrArg (fun r => andThen (Run.outcome r) fun t => .next t.advance)
    (completeSubtree_underStack j rest _ _ { s with node := s.node.write j.toNat (internalNode 0 (j + 1) i) })

/-- One turn of one token. -/
theorem run_headerTurn {s : State} {rest : List Move} (hb : s.state = .busy) (hp : s.phase = .rdhdr) :
    core.run 1 { s with moves := nodeTurns 1 rest } =
      andThen (headerTurn { s with moves := rest }) fun t => .next t.advance := by
  have turn : core.step { s with moves := nodeTurns 1 rest } =
      andThen (headerTurn { s with moves := rest }) fun t => .next t.advance := by
    show step { s with moves := .block .node :: rest } = _
    rw [step_of_move rfl, runMove, blockTurn_node (by exact hb), nodeTurn_rdhdr (by exact hp)]
  simp only [Host.Core.run, turn]
  cases headerTurn { s with moves := rest } <;> rfl

/-- The error entry empties the stack and does not look at the moves to come. -/
theorem errorEntry_underStack (c : Cause) (info : Word) (eoi : Bool) (frames : List Frame) (moves : List Move) (s : State) :
    State.errorEntry c info eoi { s.underStack frames with moves := moves } =
      { s.errorEntry c info eoi with moves := moves } := by
  cases h : s.sinkClosed <;> simp [State.errorEntry, State.closeOnce, State.underStack, h]

/-- A turn that raises ends in the error entry, the moves to come as they are. -/
theorem run_headerTurn_raises {s u : State} {frames : List Frame} {rest : List Move} {c : Cause} {info : Word} {eoi : Bool}
    (hb : s.state = .busy) (hp : s.phase = .rdhdr)
    (h : headerTurn { s.underStack frames with moves := rest } =
      .next (State.errorEntry c info eoi { u.underStack frames with moves := rest })) :
    core.run 1 { s.underStack frames with moves := nodeTurns 1 rest } =
      .next { u.errorEntry c info eoi with moves := rest } := by
  rw [run_headerTurn (by exact hb) (by exact hp), h, errorEntry_underStack]
  exact congrArg Outcome.next (State.advance_eq_self (.inl (by simp)))

/-- What Get's end says of the turns of one token begun where Get begins, under the stack `frames`: after a `node` of the
grammar they complete a subtree, after a raise they are in the same error entry. -/
def TurnsReach (frames : List Frame) (s : State) : Run Idx → Prop
  | .ok i t => i = s.next ∧ ∃ k, t.next.toNat = s.next.toNat + k ∧ t.next.toNat ≤ Config.nodeCap ∧ ∀ rest,
      core.run k { s.underStack frames with moves := nodeTurns k rest } =
        completed i frames (State.underStack frames { t with moves := rest })
  | .raised t => ∃ k, s.next.toNat + k ≤ 514 ∧ ∀ rest,
      core.run k { s.underStack frames with moves := nodeTurns k rest } = .next { t with moves := rest }
  | .bad _ => True

/-- An Internal node: the turn of its INTERNAL, then the turns of its two subtrees (R180). -/
theorem turnsReach_internal {fuel : Nat} {s s1 : State} {frames : List Frame} (hn : s.next.toNat < Config.nodeCap)
    (hb : s1.state = .busy) (hp : s1.phase = .rdhdr) (hs1 : s1.next = s.next + 1)
    (enter : ∀ rest, core.run 1 { s.underStack frames with moves := nodeTurns 1 rest } =
      .next { s1.underStack (⟨s.next, false⟩ :: frames) with moves := rest })
    (ih : ∀ (u : State) (d : Bool), u.state = .busy → u.phase = .rdhdr → s.next.toNat < u.next.toNat →
      u.next.toNat ≤ Config.nodeCap → TurnsReach (⟨s.next, d⟩ :: frames) u (getNode fuel u)) :
    TurnsReach frames s ((getNode fuel s1).bind fun l u => (getNode fuel u).bind fun r v =>
      (writeNode s.next.toNat (internalNode 0 l r) v).bind fun _ w => .ok s.next w) := by
  have hs : s1.next.toNat = s.next.toNat + 1 := by rw [hs1]; exact idx_toNat_succ hn.le
  have left := ih s1 false hb hp (by omega) (by omega)
  cases hL : getNode fuel s1 with
  | bad f => trivial
  | raised t =>
    rw [hL] at left
    obtain ⟨k, hk, run⟩ := left
    exact ⟨1 + k, by omega, fun rest => by rw [nodeTurns_add, run_add (enter _)]; exact run rest⟩
  | ok l u =>
    rw [hL] at left
    obtain ⟨rfl, k, hu, hcap, run⟩ := left
    obtain ⟨_, _, _, e⟩ := getNode_frame.1 _ _ hL
    have right := ih u true (by rw [e]; exact hb) (by rw [e]; exact hp) (by omega) hcap
    have toRight (rest : List Move) : core.run (1 + k) { s.underStack frames with moves := nodeTurns (1 + k) rest } =
        .next { u.underStack (⟨s.next, true⟩ :: frames) with moves := rest } := by
      rw [nodeTurns_add, run_add (enter _)]
      exact (run rest).trans completed_left
    rw [Run.bind_ok]
    cases hR : getNode fuel u with
    | bad f => trivial
    | raised t =>
      rw [hR] at right
      obtain ⟨k', hk, run'⟩ := right
      exact ⟨1 + k + k', by omega, fun rest => by rw [nodeTurns_add, run_add (toRight _)]; exact run' rest⟩
    | ok r v =>
      rw [hR] at right
      obtain ⟨rfl, k', hv, hcap', run'⟩ := right
      rw [Run.bind_ok, writeNode_eq_ok.2 ⟨hn, rfl⟩, Run.bind_ok, hs1]
      refine ⟨rfl, 1 + k + k', ?_, hcap', fun rest => ?_⟩
      · show v.next.toNat = _
        omega
      · rw [nodeTurns_add, run_add (toRight _)]
        exact (run' rest).trans (completed_right hn)

/-- Get and the turns of one token, from any point of a header on (R180 to R183). -/
theorem getNode_turns (fuel : Nat) {s : State} {frames : List Frame} (hb : s.state = .busy) (hp : s.phase = .rdhdr)
    (h0 : frames = [] → s.next = 0) (hl : frames.length ≤ s.next.toNat) (hn : s.next.toNat ≤ Config.nodeCap) :
    TurnsReach frames s (getNode fuel s) := by
  induction fuel generalizing s frames with
  | zero => trivial
  | succ fuel ih =>
    have begun (rest : List Move) : beginHeader { s.underStack frames with moves := rest } =
        { s.underStack frames with moves := rest } := beginHeader_eq_self h0
    have h514 : s.next.toNat + 1 ≤ 514 := Nat.succ_le_succ hn
    match hr : s.src.remaining with
    | [] =>
      rw [getNode_missing hr]
      refine ⟨1, h514, fun rest => run_headerTurn_raises hb hp ?_⟩
      rw [headerTurn_missing (by exact hr), begun]
      rfl
    | b :: bits =>
      by_cases full : s.next.toNat = Config.nodeCap
      · rw [getNode_full hr full]
        refine ⟨1, h514, fun rest => run_headerTurn_raises hb hp ?_⟩
        rw [headerTurn_full (by exact hr) (by rw [begun]; exact full), begun]
        rfl
      have free : s.next.toNat < Config.nodeCap := Nat.lt_of_le_of_ne hn full
      cases b with
      | false =>
        rw [getNode_internal hr full]
        refine turnsReach_internal free hb hp rfl (fun rest => ?_) fun u d hbu hpu hlt hcap =>
          ih hbu hpu (by simp) (Nat.succ_le_of_lt (Nat.lt_of_le_of_lt hl hlt)) hcap
        rw [run_headerTurn (by exact hb) (by exact hp),
          headerTurn_internal (by exact hr) (by rw [begun]; exact full) (Nat.lt_of_le_of_lt hl free), begun]
        exact congrArg Outcome.next (State.advance_eq_self (.inr (List.cons_ne_nil _ _)))
      | true =>
        by_cases short : bits.length < 9
        · rw [getNode_cut hr short full]
          refine ⟨1, h514, fun rest => run_headerTurn_raises hb hp ?_⟩
          rw [headerTurn_cut (by exact hr) short (by rw [begun]; exact full), begun]
          rfl
        · have nine : (bits.take 9).length = 9 := by simp; omega
          have split : s.src.remaining = true :: (bits.take 9 ++ bits.drop 9) := by rw [hr, List.take_append_drop]
          have taken : (s.next + 1 : Idx).toNat = s.next.toNat + 1 := idx_toNat_succ hn
          rw [getNode_leaf split nine free]
          refine ⟨rfl, 1, taken, taken.trans_le free, fun rest => ?_⟩
          rw [run_headerTurn (by exact hb) (by exact hp),
            headerTurn_leaf (by exact split) nine (by rw [begun]; exact free), begun]
          rfl

theorem underStack_nil {s : State} (h : s.trav = .empty) : s.underStack [] = s := by
  rw [State.underStack, show (⟨[], 0, 0⟩ : Traversal) = s.trav from h.symm]

/-- RDHDR's first turn does not look at the old NEXT (R180). -/
theorem step_first_headerTurn {s : State} {rest : List Move} (hb : s.state = .busy) (hp : s.phase = .rdhdr)
    (hf : s.trav.frames = []) :
    step { s with moves := .block .node :: rest } = step { s with next := 0, moves := .block .node :: rest } := by
  have turn : headerTurn { s with moves := rest } = headerTurn { s with next := 0, moves := rest } := by
    have begin : beginHeader { s with moves := rest } = beginHeader { s with next := 0, moves := rest } :=
      (if_pos hf).trans (if_pos hf).symm
    rw [headerTurn, headerTurn, begin]
  rw [step_of_move rfl, step_of_move rfl, runMove, runMove, blockTurn_node (by exact hb), blockTurn_node (by exact hb),
    nodeTurn_rdhdr (by exact hp), nodeTurn_rdhdr (by exact hp)]
  exact congrArg (fun o => andThen o fun t => .next t.advance) turn

theorem run_first_headerTurn {n : Nat} {s : State} (hb : s.state = .busy) (hp : s.phase = .rdhdr)
    (hf : s.trav = .empty) (hn : 0 < n) (rest : List Move) :
    core.run n { s with moves := nodeTurns n rest } =
      core.run n { State.underStack [] { s with next := 0 } with moves := nodeTurns n rest } := by
  obtain ⟨n, rfl⟩ := Nat.exists_eq_add_one_of_ne_zero hn.ne'
  have first : core.step { s with moves := nodeTurns (n + 1) rest } =
      core.step { s with next := 0, moves := nodeTurns (n + 1) rest } :=
    step_first_headerTurn hb hp (congrArg Traversal.frames hf)
  rw [underStack_nil (by exact hf)]
  simp only [Host.Core.run, first]

/-- Turns outside BUSY change nothing (R261, R270). -/
theorem run_waits {n : Nat} {s : State} {rest : List Move} (h : s.state ≠ .busy) :
    core.run n { s with moves := nodeTurns n rest } = .next { s with moves := rest } := by
  induction n with
  | zero => rfl
  | succ n ih =>
    refine (run_succ (t := { s with moves := nodeTurns n rest }) ?_).trans ih
    show step { s with moves := .block .node :: nodeTurns n rest } = _
    rw [step_of_move rfl, runMove, blockTurn_waits (by exact h)]

/-- RDHDR from its first statement on. -/
theorem rdhdr_turns {s : State} (hb : s.state = .busy) (hp : s.phase = .rdhdr) :
    TurnsReach [] { s with next := 0 } (getNode (Config.nodeCap + 1) { s with next := 0 }) :=
  getNode_turns _ hb hp (fun _ => rfl) (Nat.zero_le _) (Nat.zero_le _)

/-- RDHDR answers what its Get answers, with ROOT and TREE_VALID set unless it raised. -/
theorem exec_rdhdr_eq_next {s t : State} (h : exec .rdhdr s = .next t) :
    getNode (Config.nodeCap + 1) { s with next := 0 } = .raised t ∨
    ∃ i u, getNode (Config.nodeCap + 1) { s with next := 0 } = .ok i u ∧ t = { u with root := i, treeValid := true } := by
  obtain h | h := Run.outcome_eq_next.1 h
  · rw [rdhdrRun, Run.bind_eq_ok] at h
    obtain ⟨i, u, hu, h⟩ := h
    exact .inr ⟨i, u, hu, (Run.ok.inj h).2.symm⟩
  · rw [rdhdrRun, Run.bind_eq_raised] at h
    exact .inl (h.resolve_right (by simp))

/-- Reading the whole header of a tree that fits takes as many turns as the tree has nodes. -/
theorem run_header_turns {s t : State} {tree : Tree} {rest : Bits} (hb : s.state = .busy) (hp : s.phase = .rdhdr)
    (hf : s.trav = .empty) (hr : s.src.remaining = tree.header ++ rest) (hn : tree.nodes ≤ Config.nodeCap)
    (h : exec .rdhdr s = .next t) :
    core.run tree.nodes { s with moves := nodeTurns tree.nodes [] } = .next { t.advance with moves := [] } := by
  have read := getNode_of_header tree (s := { s with next := 0 }) (fuel := Config.nodeCap + 1) hr
    (by show 0 + _ ≤ _; omega) (by have := treeHeight_lt_nodes tree; omega)
  have turns := rdhdr_turns hb hp
  rw [read] at turns
  obtain ⟨-, k, hk, -, run⟩ := turns
  have count : k = tree.nodes := by
    have := idx_toNat_add (i := 0) (n := tree.nodes) (by show 0 + _ ≤ _; omega)
    have zero : ({ s with next := 0 } : State).next.toNat = 0 := rfl
    rw [zero] at hk
    exact (Nat.zero_add k).symm.trans (hk.symm.trans (this.trans (Nat.zero_add _)))
  subst count
  rw [run_first_headerTurn hb hp hf (treeNodes_pos tree), run, ← State.advance_withMoves]
  obtain ht | ⟨i, u, hu, rfl⟩ := exec_rdhdr_eq_next h
  · exact absurd (read.symm.trans ht) (by simp)
  · obtain ⟨rfl, rfl⟩ := Run.ok.inj (read.symm.trans hu)
    refine congrArg (fun t => Outcome.next (State.advance t)) ?_
    simp [State.underStack, headerRead, State.moved, hf]

/-- A raise in RDHDR is reached by at most 514 turns; the ones after it change nothing. -/
theorem run_header_raises {s t : State} (hb : s.state = .busy) (hp : s.phase = .rdhdr) (hf : s.trav = .empty)
    (h : exec .rdhdr s = .next t) (he : t.state = .error) :
    core.run 514 { s with moves := nodeTurns 514 [] } = .next { t with moves := [] } := by
  have turns := rdhdr_turns hb hp
  obtain ht | ⟨i, u, hu, rfl⟩ := exec_rdhdr_eq_next h
  · rw [ht] at turns
    obtain ⟨k, hk, run⟩ := turns
    obtain ⟨m, hm⟩ := Nat.exists_eq_add_of_le ((Nat.le_add_left ..).trans hk)
    rw [run_first_headerTurn hb hp hf (by decide), hm, nodeTurns_add, run_add (run _)]
    exact run_waits (by simp [he])
  · obtain ⟨_, _, _, e⟩ := getNode_frame.1 _ _ hu
    rw [e] at he
    simp [hb] at he

/-! ## Tokens cut short (R182, R183, R214) -/

/-- A turn that raises. -/
theorem step_headerTurn_raises {s u : State} {rest : List Move} {c : Cause} {info : Word} {eoi : Bool}
    (hb : s.state = .busy) (hp : s.phase = .rdhdr) (hm : s.moves = .block .node :: rest)
    (h : headerTurn { s with moves := rest } = .next (u.errorEntry c info eoi)) :
    step s = .next (u.errorEntry c info eoi) := by
  rw [step_of_move hm, runMove, blockTurn_node (by exact hb), nodeTurn_rdhdr (by exact hp), h]
  exact congrArg Outcome.next (State.advance_eq_self (.inl (by simp)))

theorem decodeHeader_tokenMissing {bits : Bits} (h : decodeHeader bits = .error .tokenMissing) : bits = [] := by
  unfold decodeHeader at h
  split at h
  · rfl
  · simp at h
  · split at h <;> simp at h

theorem decodeHeader_leafCut {bits : Bits} (h : decodeHeader bits = .error .leafCut) :
    ∃ rest, bits = true :: rest ∧ rest.length < 9 := by
  unfold decodeHeader at h
  split at h
  · simp at h
  · simp at h
  · split at h
    · simp at h
    · exact ⟨_, rfl, Nat.lt_of_not_le ‹_›⟩

/-- RDTAG with fewer than 32 bits left (R214). -/
theorem readTag_short {magic : Word} {s : State} (h : s.src.remaining.length < 32) :
    readTag magic s = s.atEnd.errorEntry .badMagic 0 true := by
  rw [readTag, readBits_of_short h]

/-- RDTAG's turn of one token with fewer than 32 bits left is RDTAG itself (R214). -/
theorem step_tag_short {s : State} {rest : List Move} (hb : s.state = .busy) (hp : s.phase = .rdtag)
    (hm : s.moves = .block .node :: rest) (h : s.src.remaining.length < 32) :
    step s = exec .rdtag { s with moves := rest } := by
  have cut : decodeTag s.src.remaining = .error .tagCut := if_neg (Nat.not_le.2 h)
  have short : exec .rdtag { s with moves := rest } =
      .next (State.errorEntry .badMagic 0 true (State.atEnd { s with moves := rest })) :=
    congrArg Outcome.next (readTag_short h)
  have turn : tagTurn { s with moves := rest } = exec .rdtag { s with moves := rest } := by
    rw [tagTurn, cut]
    exact microOpTurn_of_decode (by rw [hp]; decide)
  rw [step_of_move hm, runMove, blockTurn_node (by exact hb), nodeTurn_rdtag (by exact hp), turn, short]
  exact congrArg Outcome.next (State.advance_eq_self (.inl (by simp)))

end Sys2Proof.Machine

open Sys2Proof Sys2Proof.Machine Sys2Proof.Safety

/-- Settles O40, by the simulation of Get by turns (`getNode_turns`) and the turns that raise. -/
theorem tokensRunRdhdr : Obligations.TokensRunRdhdr := by
  unfold Obligations.TokensRunRdhdr
  refine ⟨fun s t tree rest hb hp hf hr hn h => ?_, fun s t hb hp hf h he => ?_, fun s rest n hb hp hm hn => ?_,
    fun s rest hb hp hm h32 => ?_⟩
  · exact (List.append_nil (List.replicate tree.nodes (Move.block .node))) ▸ run_header_turns hb hp hf hr hn h
  · exact (List.append_nil (List.replicate 514 (Move.block .node))) ▸ run_header_raises hb hp hf h he
  · have begun : beginHeader { s with moves := rest } = { s with moves := rest, next := n } := by
      rw [hn, beginHeader]
      split <;> rfl
    refine ⟨fun missing => ?_, fun cut free => ?_, fun cut full => ?_⟩
    · refine step_headerTurn_raises hb hp hm ?_
      rw [headerTurn_missing (by exact decodeHeader_tokenMissing missing), begun]
      rfl
    · obtain ⟨bits, hr, short⟩ := decodeHeader_leafCut cut
      have notFull : n.toNat ≠ Config.nodeCap := fun e => free (BitVec.eq_of_toNat_eq e)
      refine step_headerTurn_raises hb hp hm ?_
      rw [headerTurn_cut (by exact hr) short (by rw [begun]; exact notFull), begun]
      rfl
    · obtain ⟨bits, hr, -⟩ := decodeHeader_leafCut cut
      refine step_headerTurn_raises hb hp hm ?_
      rw [headerTurn_full (by exact hr) (by rw [begun, full]; rfl), begun]
      rfl
  · have whole := step_tag_short hb hp hm h32
    exact ⟨whole.trans (congrArg Host.Outcome.next (readTag_short h32)), whole⟩

end

section
/-! Every micro-operation answers from the tables it needs, and leaves those the next one needs (10_state.md R46). -/

namespace Sys2Proof.Machine

open Host (Outcome)
open Sys2Proof.Safety

/-! ## Runs that do not fault -/

/-- A run that does not fault: it ends with a result and a state of `P`, or has raised. -/
def Run.Answers {α : Type} (P : α → State → Prop) : Run α → Prop
  | .ok a t => P a t
  | .raised t => t.state = .error
  | .bad _ => False

theorem Run.Answers.bind {α β : Type} {P : α → State → Prop} {Q : β → State → Prop} {r : Run α} {k : α → State → Run β}
    (h : r.Answers P) (hk : ∀ a t, P a t → (k a t).Answers Q) : (r.bind k).Answers Q := by
  cases r with
  | ok a t => exact hk a t h
  | raised t => exact h
  | bad f => exact h.elim

theorem Run.answers_raise {α : Type} {P : α → State → Prop} {c : Cause} {info : Word} {eoi : Bool} {s : State} :
    (Run.raise c info eoi s : Run α).Answers P := by
  simp [Run.raise, Run.Answers]

/-- What a run that answers leaves, unless it has raised. -/
theorem Run.Answers.outcome {P : State → Prop} {r : Run Unit} (h : r.Answers fun _ t => P t) :
    ∃ t, r.outcome = .next t ∧ (t.state = .busy → P t) := by
  cases r with
  | ok a t => exact ⟨t, rfl, fun _ => h⟩
  | raised t => exact ⟨t, rfl, fun hb => by simp [show t.state = .error from h] at hb⟩
  | bad f => exact h.elim

/-- A read of the source: at the end, or further on with fewer bits left. -/
theorem readBits_cases {n : Nat} (hn : 0 < n) (s : State) :
    s.readBits n = (none, s.atEnd) ∨
      ∃ v, s.readBits n = (some v, s.moved n) ∧ (s.moved n).src.remaining.length < s.src.remaining.length := by
  by_cases short : s.src.remaining.length < n
  · exact .inl (readBits_of_short short)
  · have split : s.src.remaining = s.src.remaining.take n ++ s.src.remaining.drop n := (List.take_append_drop ..).symm
    have hlen : (s.src.remaining.take n).length = n := List.length_take_of_le (Nat.le_of_not_lt short)
    refine .inr ⟨_, readBits_of_remaining split hlen hn, ?_⟩
    rw [remaining_length] at short ⊢
    rw [remaining_length]
    simp only [State.moved]
    omega

theorem byte_lt_nsym (v : Byte) : v.toNat < Config.nsym := v.isLt.trans (by decide)

/-- A table whose entries below `n` are all written. -/
def Written {α : Type} (n : Nat) (t : Table α) : Prop := ∀ i < n, (t.read i).isSome

theorem Written.read {α : Type} {n i : Nat} {t : Table α} (h : Written n t) (hi : i < n) : ∃ v, t.read i = some v :=
  Option.isSome_iff_exists.1 (h i hi)

theorem Written.write {α : Type} {n : Nat} {t : Table α} (h : Written n t) (k : Nat) (v : α) : Written n (t.write k v) := by
  intro i hi
  by_cases e : k = i
  · rw [e, Table.read_write_same]; rfl
  · rw [Table.read_write_other _ _ e]; exact h i hi

theorem written_fill {α : Type} (n : Nat) (v : α) : Written n (Table.fill n v) := fun i hi => by
  simp [Table.read_fill, hi]

/-! ## COUNT and ENCODE -/

theorem countLoop_answers {limit : Count} {fuel : Nat} {s : State} (hf : s.src.remaining.length < fuel)
    (h : Written Config.nsym s.freq) : (countLoop limit fuel s).Answers fun _ t => Written Config.nsym t.freq := by
  induction fuel generalizing s with
  | zero => omega
  | succ fuel ih =>
    rw [countLoop]
    obtain e | ⟨v, e, less⟩ := readBits_cases (n := Config.wordW) (by decide) s <;> rw [e]
    · exact h
    obtain ⟨c, hc⟩ := h.read (byte_lt_nsym v)
    dsimp only
    rw [(readFreq_eq_ok (s := s.moved Config.wordW)).2 ⟨byte_lt_nsym v, hc, rfl⟩, Run.bind_ok]
    split
    · exact Run.answers_raise
    · rw [writeFreq_eq_ok.2 ⟨byte_lt_nsym v, rfl⟩, Run.bind_ok]
      exact ih (by dsimp only; omega) (h.write _ _)

/-- COUNT answers on every state, and leaves FREQ as BUILD needs it (R142, R150). -/
theorem countRun_answers (limit : Count) (s : State) : (countRun limit s).Answers fun _ t => FreqReady t := by
  refine (countLoop_answers (Nat.lt_succ_self _) (written_fill _ _)).bind fun _ t ht => ?_
  rw [writeFreq_eq_ok.2 ⟨by decide, rfl⟩, Run.bind_ok]
  exact ⟨Written.write ht _ _, Table.read_write_same ..⟩

theorem encodeLoop_answers {fuel : Nat} {s : State} (hf : s.src.remaining.length < fuel) (h : CodeReady s) :
    (encodeLoop fuel s).Answers fun _ t => CodeReady t := by
  induction fuel generalizing s with
  | zero => omega
  | succ fuel ih =>
    rw [encodeLoop]
    obtain e | ⟨v, e, less⟩ := readBits_cases (n := Config.wordW) (by decide) s <;> rw [e]
    · exact h
    obtain ⟨c, hc⟩ := Written.read h (byte_lt_nsym v)
    dsimp only
    rw [(readCode_eq_ok (s := s.moved Config.wordW)).2 ⟨byte_lt_nsym v, hc, rfl⟩, Run.bind_ok]
    split
    · rw [emitCode_eq]
      exact ih (by dsimp only; omega) h
    · exact Run.answers_raise

/-- ENCODE answers when GENCODES has written CODE (R190). -/
theorem encodeRun_answers {s : State} (h : CodeReady s) : (encodeRun s).Answers fun _ _ => True := by
  refine (encodeLoop_answers (s := s.rewind) (Nat.lt_succ_self _) h).bind fun _ t ht => ?_
  obtain ⟨c, hc⟩ := Written.read ht (i := Config.eos) (by decide)
  rw [readCode_eq_ok.2 ⟨by decide, hc, rfl⟩]
  trivial

/-! ## BUILD and GENCODES -/

theorem toNat_le_eos_of_mem_countedSyms {freq : Table Count} {sym : Sym} (h : sym ∈ countedSyms freq) :
    sym.toNat ≤ Config.eos := by
  obtain ⟨k, hk, rfl⟩ := List.mem_map.1 (List.mem_filter.1 h).1
  have := List.mem_range.1 hk
  simp only [Config.nsym, Config.eos, BitVec.toNat_ofNat] at this ⊢
  omega

/-- BUILD's tree has at most 257 leaves, all of them Symbols (R150, R157). -/
theorem buildRun_ready {s : State} (h : FreqReady s) : ∃ t, buildRun s = .ok () t ∧ TreeReady t := by
  obtain ⟨t, tree, ht, hold, hsyms, -⟩ := buildRun_tree h
  refine ⟨t, ht, tree, hold, ?_, fun sym hm => toNat_le_eos_of_mem_countedSyms (hsyms.subset hm)⟩
  have := treeHeight_lt_leaves tree
  have := countedSyms_length_le s.freq
  rw [← hsyms.length_eq] at this
  simp only [Config.nsym] at this
  omega

theorem writeCodes_written {n : Nat} (tree : Tree) {len : Len} {pat : Pat} {code : Table CodeEntry} (h : Written n code) :
    Written n (writeCodes tree len pat code) := by
  induction tree generalizing len pat code with
  | leaf sym => exact h.write _ _
  | node l r ihl ihr => exact ihr (ihl h)

theorem treeCodes_written (tree : Tree) : Written Config.nsym (treeCodes tree) := by
  cases tree with
  | leaf sym => exact (written_fill _ _).write _ _
  | node l r => exact writeCodes_written _ (written_fill _ _)

/-- GENCODES answers over BUILD's tree and writes the whole of CODE (R165, R166). -/
theorem gencodesRun_ready {s : State} (h : TreeReady s) :
    ∃ t, gencodesRun s = .ok () t ∧ TreeReady t ∧ CodeReady t := by
  obtain ⟨tree, hold, hh, hs⟩ := h
  exact ⟨_, gencodesRun_of_holdsTree hold (hh.trans (by decide)) hs, ⟨tree, hold, hh, hs⟩, treeCodes_written tree⟩

/-! ## RDHDR -/

/-- A tree held by the entries `lo` to `hi` alone: by every table that agrees with this one there. -/
def HeldBetween (lo hi : Nat) (node : Table Node) (tree : Tree) (i : Idx) : Prop :=
  ∀ node' : Table Node, (∀ j, lo ≤ j → j < hi → node'.read j = node.read j) → holdsTree node' tree i = true

theorem HeldBetween.holdsTree {lo hi : Nat} {node : Table Node} {tree : Tree} {i : Idx}
    (h : HeldBetween lo hi node tree i) : holdsTree node tree i = true := h node fun _ _ _ => rfl

theorem heldBetween_leaf {node : Table Node} {i : Idx} (hi : i.toNat < Config.nodeCap) (sym : Sym) :
    HeldBetween i.toNat (i.toNat + 1) (node.write i.toNat (leafNode sym 0)) (.leaf sym) i := by
  intro node' agree
  have entry := agree i.toNat (Nat.le_refl _) (Nat.lt_succ_self _)
  rw [Table.read_write_same] at entry
  simp [Safety.holdsTree, entry, hi, leafNode]

/-- Two subtrees in preorder after their root (R180): the right one's entries are written after the left one's, the root's
last. -/
theorem heldBetween_node {n1 n2 : Table Node} {i l r : Idx} {mid top : Nat} {left right : Tree}
    (hi : i.toNat < Config.nodeCap) (hl : HeldBetween (i.toNat + 1) mid n1 left l) (hr : HeldBetween mid top n2 right r)
    (lower : ∀ j < mid, n2.read j = n1.read j) (hmid : i.toNat < mid) (htop : mid ≤ top) :
    HeldBetween i.toNat top (n2.write i.toNat (internalNode 0 l r)) (.node left right) i := by
  intro node' agree
  have entry := agree i.toNat (Nat.le_refl _) (by omega)
  rw [Table.read_write_same] at entry
  have others (j : Nat) (hj : i.toNat < j) (hlt : j < top) : node'.read j = n2.read j := by
    rw [agree j hj.le hlt, Table.read_write_other _ _ hj.ne]
  have leftHeld := hl node' fun j h1 h2 => by rw [others j (by omega) (by omega), lower j h2]
  have rightHeld := hr node' fun j h1 h2 => others j (by omega) h2
  simp [Safety.holdsTree, entry, hi, internalNode, leftHeld, rightHeld]

/-- What Get leaves when it does not raise: a tree in the entries NEXT has gone over, the earlier ones as they were (R180). -/
structure TreeRead (s : State) (i : Idx) (t : State) : Prop where
  index : i = s.next
  more : s.next.toNat < t.next.toNat
  inRange : t.next.toNat ≤ Config.nodeCap
  lower : ∀ j < s.next.toNat, t.node.read j = s.node.read j
  held : ∃ tree, HeldBetween s.next.toNat t.next.toNat t.node tree i

/-- Get's nesting stays below the fuel that reaches from NEXT past the table's end (R184). -/
theorem getNode_answers {fuel : Nat} {s : State} (hn : s.next.toNat ≤ Config.nodeCap)
    (hf : Config.nodeCap < s.next.toNat + fuel) : (getNode fuel s).Answers fun i t => TreeRead s i t := by
  induction fuel generalizing s with
  | zero => omega
  | succ fuel ih =>
    match hr : s.src.remaining with
    | [] =>
      rw [getNode_missing hr]
      exact Run.answers_raise
    | b :: bits =>
      by_cases full : s.next.toNat = Config.nodeCap
      · rw [getNode_full hr full]
        exact Run.answers_raise
      have free : s.next.toNat < Config.nodeCap := Nat.lt_of_le_of_ne hn full
      have taken : (s.next + 1 : Idx).toNat = s.next.toNat + 1 := idx_toNat_succ hn
      cases b with
      | false =>
        rw [getNode_internal hr full]
        refine (ih (taken.trans_le free) (by show _ < (s.next + 1 : Idx).toNat + _; omega)).bind fun l u hl => ?_
        have moreL : s.next.toNat + 1 < u.next.toNat := taken ▸ hl.more
        refine (ih hl.inRange (by omega)).bind fun r v hr => ?_
        rw [writeNode_eq_ok.2 ⟨free, rfl⟩, Run.bind_ok]
        obtain ⟨left, heldL⟩ := hl.held
        obtain ⟨right, heldR⟩ := hr.held
        refine ⟨rfl, moreL.le.trans hr.more.le, hr.inRange, fun j hj => ?_, .node left right, ?_⟩
        · rw [Table.read_write_other _ _ hj.ne', hr.lower j (by omega)]
          exact hl.lower j (by show j < (s.next + 1 : Idx).toNat; omega)
        · exact heldBetween_node free (taken ▸ heldL) heldR hr.lower (by omega) hr.more.le
      | true =>
        by_cases short : bits.length < 9
        · rw [getNode_cut hr short full]
          exact Run.answers_raise
        · have nine : (bits.take 9).length = 9 := by simp; omega
          rw [getNode_leaf (by rw [hr, List.take_append_drop]) nine free]
          refine ⟨rfl, taken.symm ▸ Nat.lt_succ_self _, taken.trans_le free, fun j hj => ?_,
            .leaf (BitVec.ofNat 9 (fromMsb (bits.take 9))), ?_⟩
          · exact Table.read_write_other _ _ hj.ne'
          · exact taken.symm ▸ heldBetween_leaf free _

/-- RDHDR answers on every state, with a tree at ROOT unless it raises (R180). -/
theorem rdhdrRun_answers (s : State) :
    (rdhdrRun s).Answers fun _ t => ∃ tree, holdsTree t.node tree t.root = true := by
  refine (getNode_answers (s := { s with next := 0 }) (Nat.zero_le _) (by show _ < 0 + _; omega)).bind fun i t h => ?_
  obtain ⟨tree, held⟩ := h.held
  exact ⟨tree, held.holdsTree⟩

/-! ## DECODE -/

/-- NODE holds a tree at an index. -/
def HoldsSome (node : Table Node) (i : Idx) : Prop := ∃ tree, holdsTree node tree i = true

theorem HoldsSome.entry {node : Table Node} {i : Idx} (h : HoldsSome node i) :
    i.toNat < Config.nodeCap ∧ ∃ n, node.read i.toNat = some n ∧ (n.kind = .internal → ∀ b, HoldsSome node (n.child b)) := by
  obtain ⟨tree, h⟩ := h
  cases tree with
  | leaf sym =>
    obtain ⟨hi, n, hn, hk, -⟩ := holdsTree_leaf h
    exact ⟨hi, n, hn, fun e => by simp [hk] at e⟩
  | node l r =>
    obtain ⟨hi, n, hn, -, hl, hr⟩ := holdsTree_node h
    refine ⟨hi, n, hn, fun _ b => ?_⟩
    cases b with
    | false => exact ⟨l, hl⟩
    | true => exact ⟨r, hr⟩

/-- A branch of the walk stays in the tree (R201 to R203). -/
theorem decodeMove_ok {b : Bool} {s : State} (h : HoldsSome s.node s.cur) :
    ∃ c, decodeMove b s = .ok () { s with cur := c } ∧ HoldsSome s.node c := by
  obtain ⟨hi, n, hn, children⟩ := h.entry
  rw [decodeMove, readNode_ok hi hn, Run.bind_ok]
  cases hk : n.kind with
  | internal => exact ⟨n.child b, rfl, children hk b⟩
  | leaf => exact ⟨s.cur, rfl, h⟩

theorem decodeLoop_answers {fuel : Nat} {s : State} (hf : s.src.remaining.length < fuel)
    (hroot : HoldsSome s.node s.root) (hcur : HoldsSome s.node s.cur) :
    (decodeLoop fuel s).Answers fun _ _ => True := by
  induction fuel generalizing s with
  | zero => omega
  | succ fuel ih =>
    rw [decodeLoop]
    obtain e | ⟨v, e, less⟩ := readBits_cases (n := 1) (by decide) s <;> rw [e]
    · exact Run.answers_raise
    obtain ⟨c, hmove, hc⟩ := decodeMove_ok (b := v = 1) (s := s.moved 1) hcur
    obtain ⟨hi, n, hn, -⟩ := hc.entry
    dsimp only
    rw [hmove, Run.bind_ok, readNode_ok (s := { s.moved 1 with cur := c }) hi hn, Run.bind_ok]
    cases n.kind with
    | internal => exact ih (by dsimp only; omega) hroot hc
    | leaf =>
      dsimp only
      split
      · trivial
      · exact ih (Nat.lt_of_lt_of_le less (Nat.le_of_lt_succ hf)) hroot hroot

theorem decodeRun_answers {s : State} (h : HoldsSome s.node s.root) : (decodeRun s).Answers fun _ _ => True :=
  decodeLoop_answers (Nat.lt_succ_self _) h h

/-! ## The sequencer's turn -/

/-- Each micro-operation answers from the tables it needs and leaves those of the one after it, unless it raises (R46). -/
theorem microOpTurn_prepares {s : State} (h : Prepared s) :
    ∃ t, microOpTurn s = .next t ∧
      (t.state = .busy → s.phase ≠ .close → Prepared { t with phase := s.phase.following }) := by
  unfold Prepared at h
  cases hp : s.phase <;> rw [hp] at h
  case none => exact h.elim
  case count =>
    rw [microOpTurn_of_decode (i := .count) (by rw [hp]; rfl)]
    obtain ⟨t, e, ready⟩ := (countRun_answers Config.countMax s).outcome
    exact ⟨t, e, fun hb _ => ready hb⟩
  case build =>
    rw [microOpTurn_of_decode (i := .build) (by rw [hp]; rfl)]
    obtain ⟨t, e, ready⟩ := buildRun_ready h
    exact ⟨t, exec_build_eq_next.2 e, fun _ _ => ready⟩
  case gencodes =>
    rw [microOpTurn_of_decode (i := .gencodes) (by rw [hp]; rfl)]
    obtain ⟨t, e, ready⟩ := gencodesRun_ready h
    exact ⟨t, exec_gencodes_eq_next.2 e, fun _ _ => ready⟩
  case wrtag =>
    rw [microOpTurn_of_decode (i := .wrtag) (by rw [hp]; rfl)]
    exact ⟨_, exec_wrtag_eq s, fun _ _ => h⟩
  case wrhdr =>
    rw [microOpTurn_of_decode (i := .wrhdr) (by rw [hp]; rfl)]
    obtain ⟨⟨tree, hold, hh, -⟩, codes⟩ := h
    exact ⟨_, congrArg Run.outcome (putNode_of_holdsTree hold (Nat.lt_of_le_of_lt hh (by decide))), fun _ _ => codes⟩
  case encode =>
    rw [microOpTurn_of_decode (i := .encode) (by rw [hp]; rfl)]
    obtain ⟨t, e, -⟩ := (encodeRun_answers h).outcome
    exact ⟨t, e, fun _ _ => trivial⟩
  case rdtag =>
    rw [microOpTurn_of_decode (i := .rdtag) (by rw [hp]; rfl)]
    exact ⟨_, rfl, fun _ _ => trivial⟩
  case rdhdr =>
    rw [microOpTurn_of_decode (i := .rdhdr) (by rw [hp]; rfl)]
    obtain ⟨t, e, ready⟩ := (rdhdrRun_answers s).outcome
    exact ⟨t, e, fun hb _ => ready hb⟩
  case decode =>
    rw [microOpTurn_of_decode (i := .decode) (by rw [hp]; rfl)]
    obtain ⟨t, e, -⟩ := (decodeRun_answers h).outcome
    exact ⟨t, e, fun _ _ => trivial⟩
  case close =>
    rw [microOpTurn_of_decode (i := .close) (by rw [hp]; rfl)]
    exact ⟨_, exec_close_eq s, fun _ hc => absurd rfl hc⟩

theorem Ending.frames {s t : State} (h : Ending s t) (hf : s.trav.frames = []) : t.trav.frames = [] := by
  cases h with
  | ended kept _ => rw [kept.trav, hf]
  | closed _ => simpa using hf
  | raised kept cause => simp [Traversal.empty]

/-- Between micro-operations: no walk is under way, and while BUSY the next micro-operation finds its tables written. -/
def AtRest (s : State) : Prop := s.trav.frames = [] ∧ (s.state = .busy → Prepared s)

theorem atRest_of_waits {s : State} (hf : s.trav.frames = []) (hs : s.state ≠ .busy) : AtRest s :=
  ⟨hf, fun hb => absurd hb hs⟩

/-- The sequencer's advance from the end of a micro-operation. -/
theorem Ending.advance_atRest {s t : State} (e : Ending s t) (hf : s.trav.frames = [])
    (next : t.state = .busy → s.phase ≠ .close → Prepared { t with phase := s.phase.following }) : AtRest t.advance := by
  have ht := e.frames hf
  by_cases hb : t.state = .busy
  · have hp : t.phase = s.phase := by
      cases e with
      | ended kept _ => exact kept.phase
      | closed _ => simp
      | raised kept cause => simp at hb
    by_cases hc : s.phase = .close
    · rw [State.advance_of_close hb ht (hp.trans hc)]
      exact atRest_of_waits ht (by simp [State.complete])
    · rw [State.advance_of_not_close hb ht (by rwa [hp]), hp]
      exact ⟨ht, fun _ => next hb hc⟩
  · rw [State.advance_eq_self (.inl hb)]
    exact atRest_of_waits ht hb

/-- The block's turn over a whole micro-operation answers (R46). -/
theorem blockTurn_answers {s : State} (h : AtRest s) : ∃ t, blockTurn .microOp s = .next t ∧ AtRest t := by
  by_cases hb : s.state = .busy
  · obtain ⟨hf, prepared⟩ := h
    obtain ⟨t, e, next⟩ := microOpTurn_prepares (prepared hb)
    refine ⟨t.advance, ?_, (microOpTurn_ending e).advance_atRest hf next⟩
    rw [blockTurn_microOp hb hf, e]
    rfl
  · exact ⟨s, blockTurn_waits hb, h⟩

/-- A host write always answers (R39, R40). -/
theorem hostWrite_answers (r : HostReg) (w : Word) {s : State} (h : AtRest s) :
    ∃ t, hostWrite r w s = .next t ∧ AtRest t := by
  have answers : ∃ t, hostWrite r w s = .next t := by
    by_cases hr : r = .cmd
    · subst hr
      obtain ⟨-, e⟩ | ⟨-, e⟩ | ⟨-, e⟩ | ⟨-, e⟩ := hostWrite_cmd w s <;> exact ⟨_, e⟩
    · exact ⟨s, hostWrite_readOnly hr w s⟩
  obtain ⟨t, e⟩ := answers
  refine ⟨t, e, ?_⟩
  obtain rfl | ⟨-, rfl | ⟨-, -, first, hp, rfl⟩ | ⟨-, -, rfl⟩ | ⟨-, -, rfl⟩⟩ := hostWrite_next e
  · exact h
  · exact h
  · refine ⟨h.1, fun _ => ?_⟩
    obtain rfl | rfl := hp <;> trivial
  · exact atRest_of_waits rfl (by simp)
  · exact atRest_of_waits h.1 (by simp [illegalEntry])

/-- Every orderly step answers (R46). -/
theorem step_answers {s : State} (h : AtRest s) (orderly : orderlyMove s = true) : ∃ t, step s = .next t ∧ AtRest t := by
  rcases hm : s.moves with _ | ⟨m, rest⟩
  · rw [step_of_no_move hm]
    exact blockTurn_answers h
  rw [step_of_move hm]
  unfold orderlyMove at orderly
  rw [hm] at orderly
  cases m with
  | block g =>
    cases g with
    | microOp => exact blockTurn_answers (s := { s with moves := rest }) h
    | node => simp at orderly
  | write r w => exact hostWrite_answers r w (s := { s with moves := rest }) h
  | read r => exact ⟨_, rfl, h⟩
  | attach bits rewound =>
    have hs : s.state ≠ .busy := of_decide_eq_true orderly
    exact ⟨_, if_neg hs, atRest_of_waits h.1 hs⟩
  | reset => exact ⟨_, rfl, atRest_of_waits rfl (by simp)⟩
  | resetDuring g k => exact ⟨_, rfl, atRest_of_waits rfl (by simp [State.resetAfter])⟩

end Sys2Proof.Machine

open Sys2Proof Sys2Proof.Machine Sys2Proof.Safety

/-- Settles O57: the step answers because the tables are prepared, and `invKept` gives the invariant after it. -/
theorem noModelFaultIsReached : Obligations.NoModelFaultIsReached := by
  unfold Obligations.NoModelFaultIsReached
  refine ⟨⟨invAtReset, rfl, fun hb => RunState.noConfusion hb⟩, fun s ⟨inv, rest⟩ orderly => ?_⟩
  obtain ⟨t, ht, atRest⟩ := step_answers rest orderly
  exact ⟨t, ht, invKept s t inv ht, atRest⟩

end

section
/-! The two ports as bit strings (20_memory.md R62, R63, R66, R71): what a read gives, and that it gives back what was written. -/

namespace Sys2Proof.Machine

theorem fromMsb_cons (b : Bool) (bs : Bits) : fromMsb (b :: bs) = 2 ^ bs.length * b.toNat + fromMsb bs := by
  have h : fromMsb [b] = b.toNat := by simp [fromMsb]
  rw [← List.singleton_append, fromMsb_append, h, Nat.mul_comm]

theorem fromMsb_lt (bs : Bits) : fromMsb bs < 2 ^ bs.length := by
  induction bs with
  | nil => decide
  | cons b bs ih =>
    have hb : 2 ^ bs.length * b.toNat ≤ 2 ^ bs.length * 1 := Nat.mul_le_mul_left _ b.toNat_le
    rw [fromMsb_cons, List.length_cons, Nat.pow_succ]
    omega

/-- The bits written do not depend on those of the value above them (R66). -/
theorem msbFirst_mod {n m : Nat} (h : n ≤ m) (v : Nat) : msbFirst n (v % 2 ^ m) = msbFirst n v := by
  induction n with
  | zero => rfl
  | succ n ih => simp [msbFirst, ih (by omega), show n < m from h]

/-- Writing the value of a bit string gives the bit string back (R62, R66). -/
theorem msbFirst_fromMsb (bs : Bits) : msbFirst bs.length (fromMsb bs) = bs := by
  induction bs with
  | nil => rfl
  | cons b bs ih =>
    have head : (fromMsb (b :: bs)).testBit bs.length = b := by
      rw [fromMsb_cons, Nat.testBit_two_pow_mul_add _ (fromMsb_lt bs)]
      cases b <;> simp
    have tail : msbFirst bs.length (fromMsb (b :: bs)) = bs := by
      rw [← msbFirst_mod (Nat.le_refl _), fromMsb_cons, Nat.mul_add_mod, msbFirst_mod (Nat.le_refl _), ih]
    rw [List.length_cons, msbFirst, head, tail]

end Sys2Proof.Machine

open Sys2Proof Sys2Proof.Machine

/-- Settles O16: a value read is the one `msbFirst` writes the next bits for. -/
theorem readBitsValue : Obligations.ReadBitsValue := by
  unfold Obligations.ReadBitsValue
  refine fun src n => ⟨fun h => ⟨_, Source.readBits_enough h, ?_⟩, Source.readBits_short⟩
  have hn : (src.remaining.take n).length = n := by
    rw [List.length_take, remaining_length]
    omega
  calc msbFirst n (BitVec.ofNat n (fromMsb (src.remaining.take n))).toNat
      = msbFirst n (fromMsb (src.remaining.take n)) := by rw [BitVec.toNat_ofNat, msbFirst_mod (Nat.le_refl n)]
    _ = src.remaining.take n := by
      have := msbFirst_fromMsb (src.remaining.take n)
      rwa [hn] at this

/-- Settles O17: at the end of what was there before, the next `n` bits are those just written. -/
theorem writtenBitsReadBack : Obligations.WrittenBitsReadBack := by
  unfold Obligations.WrittenBitsReadBack
  intro k n v later
  have written : (Source.remaining ⟨(k.writeBits n v).bits ++ later, k.bits.length, none⟩).take n = msbFirst n v := by
    simp [Source.remaining]
  have value : BitVec.ofNat n (v % 2 ^ n) = BitVec.ofNat n v := BitVec.eq_of_toNat_eq (by simp)
  rw [Source.readBits_enough (by simp), written, fromMsb_msbFirst, value]

end

section
/-! The ports only move forward (20_memory.md R60, R61, R64 to R66): a relation that every statement of a micro-operation but
Rewind keeps, and from there every operation. -/

namespace Sys2Proof.Machine

open Host (Outcome)

/-- From `s` to `t` OUT has only grown, the input is the same and its position has not gone back, and the moves to come, CMD
and the host's data are as they were. -/
structure PortsForward (s t : State) : Prop where
  out : s.sink.bits <+: t.sink.bits
  closed : s.sink.closed = true → t.sink.closed = true
  input : t.src.bits = s.src.bits
  position : s.src.pos ≤ s.src.bits.length → s.src.pos ≤ t.src.pos ∧ t.src.pos ≤ t.src.bits.length
  rewound : t.src.rewound = s.src.rewound
  moves : t.moves = s.moves
  cmd : t.cmd = s.cmd
  hostData : t.hostData = s.hostData

namespace PortsForward

variable {s u v : State}

theorem refl (s : State) : PortsForward s s := ⟨List.prefix_rfl, id, rfl, fun h => ⟨Nat.le_refl _, h⟩, rfl, rfl, rfl, rfl⟩

/-- A change of tables, registers, flags or the stack. -/
theorem of_samePorts (h : PortsForward s u) (src : v.src = u.src := by rfl) (sink : v.sink = u.sink := by rfl)
    (moves : v.moves = u.moves := by rfl) (cmd : v.cmd = u.cmd := by rfl)
    (hostData : v.hostData = u.hostData := by rfl) : PortsForward s v where
  out := sink ▸ h.out
  closed := sink ▸ h.closed
  input := src ▸ h.input
  position := src ▸ h.position
  rewound := src ▸ h.rewound
  moves := moves.trans h.moves
  cmd := cmd.trans h.cmd
  hostData := hostData.trans h.hostData

/-- Bits appended to OUT. -/
theorem append (h : PortsForward s u) (bits : Bits) :
    PortsForward s { u with sink := { u.sink with bits := u.sink.bits ++ bits } } :=
  { h with out := h.out.trans (List.prefix_append ..) }

/-- A new read position between the old one and the end of the input. -/
theorem advance (h : PortsForward s u) {pos : Nat}
    (hp : u.src.pos ≤ u.src.bits.length → u.src.pos ≤ pos ∧ pos ≤ u.src.bits.length) :
    PortsForward s { u with src := { u.src with pos := pos } } :=
  { h with
    position := fun hs => by
      obtain ⟨le, inRange⟩ := h.position hs
      exact ⟨le.trans (hp inRange).1, (hp inRange).2⟩ }

theorem readBits {n : Nat} {o : Option (BitVec n)} (h : PortsForward s u) (e : u.readBits n = (o, v)) :
    PortsForward s v := by
  obtain rfl : (u.readBits n).2 = v := congrArg Prod.snd e
  unfold State.readBits Source.readBits
  split
  · next enough => exact h.advance fun _ => ⟨Nat.le_add_right .., enough⟩
  · exact h.advance fun inRange => ⟨inRange, Nat.le_refl _⟩

theorem skip (h : PortsForward s u) (n : Nat) : PortsForward s (u.skip n) :=
  h.advance fun inRange => ⟨Nat.le_min.2 ⟨Nat.le_add_right .., inRange⟩, Nat.min_le_right ..⟩

theorem closeOnce (h : PortsForward s u) : PortsForward s u.closeOnce := by
  unfold State.closeOnce
  split
  · exact h
  · exact { h with out := h.out.trans (List.prefix_append ..), closed := fun _ => rfl }

theorem errorEntry (h : PortsForward s u) (c : Cause) (info : Word) (eoi : Bool) :
    PortsForward s (u.errorEntry c info eoi) := by
  have recorded : PortsForward s { u with
      errCause := c, errInfo := info, errEoi := eoi
      freqValid := false, treeValid := false, codeValid := false, trav := .empty } :=
    h.of_samePorts
  exact recorded.closeOnce.of_samePorts

end PortsForward

/-! ## Runs -/

/-- A stretch that ends or raises has only moved the ports forward from `s`. -/
def Run.Forward {α : Type} (s : State) : Run α → Prop
  | .ok _ t => PortsForward s t
  | .raised t => PortsForward s t
  | .bad _ => True

theorem Run.Forward.bind {α β : Type} {s : State} {r : Run α} {k : α → State → Run β} (h : r.Forward s)
    (hk : ∀ a t, PortsForward s t → (k a t).Forward s) : (r.bind k).Forward s := by
  cases r with
  | ok a t => exact hk a t h
  | raised t => exact h
  | bad f => trivial

theorem Run.Forward.outcome {s t : State} {r : Run Unit} (h : r.Forward s) (e : r.outcome = .next t) :
    PortsForward s t := by
  obtain rfl | rfl := Run.outcome_eq_next.1 e <;> exact h

section
variable {s u : State} (h : PortsForward s u)
include h

theorem readEntry_forward {α : Type} (name : TableName) (cap : Nat) (t : Table α) (i : Nat) :
    (readEntry name cap t i u).Forward s := by
  unfold readEntry
  split
  · split
    · exact h
    · trivial
  · trivial

theorem writeFreq_forward (i : Nat) (v : Count) : (writeFreq i v u).Forward s := by
  unfold writeFreq
  split
  · exact h.of_samePorts
  · trivial

theorem writeNode_forward (i : Nat) (v : Node) : (writeNode i v u).Forward s := by
  unfold writeNode
  split
  · exact h.of_samePorts
  · trivial

theorem takeIndex_forward : (takeIndex u).Forward s := by
  obtain ⟨-, e⟩ | ⟨-, e⟩ := takeIndex_cases u <;> rw [e]
  · exact h.errorEntry ..
  · exact h.of_samePorts

theorem decodeMove_forward (b : Bool) : (decodeMove b u).Forward s := by
  refine (readEntry_forward h ..).bind fun n t ht => ?_
  split
  · exact ht.of_samePorts
  · exact ht

end

theorem emitCode_forward {s u : State} (h : PortsForward s u) (c : CodeEntry) :
    PortsForward s (emitCode c.pat c.len.toNat u) := by
  rw [emitCode_eq]
  exact h.append _

/-! ## The loops and recursions -/

theorem countLoop_forward {s : State} (limit : Count) (fuel : Nat) {u : State} (h : PortsForward s u) :
    (countLoop limit fuel u).Forward s := by
  induction fuel generalizing u with
  | zero => trivial
  | succ fuel ih =>
    unfold countLoop
    split
    · next e => exact h.readBits e
    · next e =>
      refine (readEntry_forward (h.readBits e) ..).bind fun c t ht => ?_
      split
      · exact ht.errorEntry ..
      · exact (writeFreq_forward ht ..).bind fun _ _ hw => ih hw

theorem encodeLoop_forward {s : State} (fuel : Nat) {u : State} (h : PortsForward s u) :
    (encodeLoop fuel u).Forward s := by
  induction fuel generalizing u with
  | zero => trivial
  | succ fuel ih =>
    unfold encodeLoop
    split
    · next e => exact h.readBits e
    · next e =>
      refine (readEntry_forward (h.readBits e) ..).bind fun c t ht => ?_
      split
      · exact ih (emitCode_forward ht c)
      · exact ht.errorEntry ..

theorem getNode_forward {s : State} (fuel : Nat) {u : State} (h : PortsForward s u) : (getNode fuel u).Forward s := by
  induction fuel generalizing u with
  | zero => trivial
  | succ fuel ih =>
    unfold getNode
    split
    · next e => exact (h.readBits e).errorEntry ..
    · next e =>
      refine (takeIndex_forward (h.readBits e)).bind fun i t ht => ?_
      split
      · exact (ih ht).bind fun _ _ hl => (ih hl).bind fun _ _ hr => (writeNode_forward hr ..).bind fun _ _ hw => hw
      · split
        · next e => exact (ht.readBits e).errorEntry ..
        · next e => exact (writeNode_forward (ht.readBits e) ..).bind fun _ _ hw => hw

theorem decodeLoop_forward {s : State} (fuel : Nat) {u : State} (h : PortsForward s u) :
    (decodeLoop fuel u).Forward s := by
  induction fuel generalizing u with
  | zero => trivial
  | succ fuel ih =>
    unfold decodeLoop
    split
    · next e => exact (h.readBits e).errorEntry ..
    · next e =>
      refine (decodeMove_forward (h.readBits e) _).bind fun _ t ht => (readEntry_forward ht ..).bind fun n v hv => ?_
      split
      · exact ih hv
      · split
        · exact hv
        · exact ih (hv.append _).of_samePorts

/-! ## The operations -/

theorem checkTag_forward {s u : State} (h : PortsForward s u) (magic m : Word) : PortsForward s (checkTag magic m u) := by
  obtain e | e := checkTag_cases magic m u <;> rw [e]
  · exact h
  · exact h.errorEntry ..

theorem readTag_forward (magic : Word) (s : State) : PortsForward s (readTag magic s) := by
  unfold readTag
  split
  · next e => exact ((PortsForward.refl s).readBits e).errorEntry ..
  · next e => exact checkTag_forward ((PortsForward.refl s).readBits e) ..

/-- Every operation moves the ports forward, ENCODE from the start of its source (R64). -/
theorem exec_forward {i : Instr} {s t : State} (h : exec i s = .next t) :
    PortsForward (if i = .encode then s.rewind else s) t := by
  have start : PortsForward s s := .refl s
  cases i with
  | compress =>
    obtain ⟨-, rfl⟩ | ⟨-, rfl⟩ := exec_start_cases h
    · exact start.of_samePorts
    · exact start
  | decompress =>
    obtain ⟨-, rfl⟩ | ⟨-, rfl⟩ := exec_start_cases h
    · exact start.of_samePorts
    · exact start
  | clear =>
    obtain ⟨-, rfl⟩ | ⟨-, rfl⟩ := exec_clear_cases h
    · exact start.of_samePorts
    · exact start
  | count =>
    refine Run.Forward.outcome (r := countRun Config.countMax s) ?_ h
    refine (countLoop_forward _ _ start.of_samePorts).bind fun _ _ hu => ?_
    exact (writeFreq_forward hu ..).bind fun _ _ hw => hw.of_samePorts
  | build =>
    obtain ⟨_, _, _, _, _, rfl⟩ := exec_build_next h
    exact start.of_samePorts
  | gencodes =>
    obtain ⟨_, rfl⟩ := exec_gencodes_next h
    exact start.of_samePorts
  | wrtag =>
    obtain rfl := Outcome.next.inj h
    exact start.append _
  | wrhdr =>
    obtain ⟨_, rfl⟩ := exec_wrhdr_next h
    exact start.append _
  | encode =>
    refine Run.Forward.outcome (r := encodeRun s) ?_ h
    refine (encodeLoop_forward _ (.refl s.rewind)).bind fun _ _ hu => ?_
    exact (readEntry_forward hu ..).bind fun c _ hc => emitCode_forward hc c
  | rdtag =>
    obtain rfl := Outcome.next.inj h
    exact readTag_forward _ s
  | rdhdr =>
    refine Run.Forward.outcome (r := rdhdrRun s) ?_ h
    refine (getNode_forward _ start.of_samePorts).bind fun _ _ hu => ?_
    exact hu.of_samePorts
  | decode =>
    refine Run.Forward.outcome (r := decodeRun s) ?_ h
    exact decodeLoop_forward _ start.of_samePorts
  | close =>
    obtain rfl := Outcome.next.inj h
    exact start.closeOnce
  | tag m =>
    obtain rfl := Outcome.next.inj h
    exact checkTag_forward (start.skip _) ..
  | internal =>
    obtain ⟨-, -, rfl⟩ | ⟨-, rfl⟩ := exec_internal_next h
    · exact (start.skip 1).of_samePorts
    · exact (start.skip 1).errorEntry ..
  | leaf sym =>
    obtain ⟨-, h⟩ | ⟨-, rfl⟩ := exec_leaf_next h
    · obtain ⟨_, _, _, e, -, -⟩ := completeSubtree_frame h
      rw [e]
      exact ((start.skip 1).skip 9).of_samePorts
    · exact (start.skip 1).errorEntry ..

end Sys2Proof.Machine

open Sys2Proof Sys2Proof.Machine

/-- Settles O54: ENCODE's rewound state differs from the state before in the source's bits and position only. -/
theorem portsOnlyMoveForward : Obligations.PortsOnlyMoveForward := by
  unfold Obligations.PortsOnlyMoveForward
  intro i s t h
  have forward := exec_forward h
  by_cases he : i = .encode
  · rw [if_pos he] at forward
    exact ⟨forward.out, forward.closed, fun hi => absurd he hi, forward.rewound, forward.moves, forward.cmd,
      forward.hostData⟩
  · rw [if_neg he] at forward
    exact ⟨forward.out, forward.closed, fun _ => ⟨forward.input, fun hp => (forward.position hp).1⟩, forward.rewound,
      forward.moves, forward.cmd, forward.hostData⟩

end

section
/-! The words and tokens of the three formats read back (30_encoding.md R102 to R104, R113 to R116), and what the TAG and the
illegal command word do. -/

namespace Sys2Proof.Machine

open Host (Outcome)

/-- A value written most significant bit first is read back whole (R62, R66). -/
theorem ofNat_fromMsb_msbFirst {n : Nat} (v : BitVec n) : BitVec.ofNat n (fromMsb (msbFirst n v.toNat)) = v := by
  rw [fromMsb_msbFirst, Nat.mod_eq_of_lt v.isLt, BitVec.ofNat_toNat, BitVec.setWidth_eq]

/-- The value of `n` bits, written again, is those bits. -/
theorem msbFirst_ofNat_fromMsb {n : Nat} {bs : Bits} (h : bs.length = n) :
    msbFirst n (BitVec.ofNat n (fromMsb bs)).toNat = bs := by
  subst h
  rw [BitVec.toNat_ofNat, msbFirst_mod (Nat.le_refl _), msbFirst_fromMsb]

/-- The first 32 bits of a stream are its TAG (R102). -/
theorem decodeTag_append {bs : Bits} (h : bs.length = 32) (rest : Bits) :
    decodeTag (bs ++ rest) = .ok (.tag (BitVec.ofNat 32 (fromMsb bs)), rest) := by
  have hl : Config.tagW ≤ (bs ++ rest).length := by rw [List.length_append, h]; exact Nat.le_add_right ..
  refine (if_pos hl).trans ?_
  rw [List.take_left' h, List.drop_left' h]

theorem decodeTag_msbFirst (m : Word) (rest : Bits) : decodeTag (msbFirst 32 m.toNat ++ rest) = .ok (.tag m, rest) := by
  rw [decodeTag_append (msbFirst_length ..), ofNat_fromMsb_msbFirst]

theorem decodeHeader_msbFirst (sym : Sym) (rest : Bits) :
    decodeHeader (true :: (msbFirst 9 sym.toNat ++ rest)) = .ok (.leaf sym, rest) := by
  rw [decodeHeader_leaf (msbFirst_length ..), ofNat_fromMsb_symbol]

/-- The bits a header token was read off are its encoding (R103, R104). -/
theorem encode_of_decodeHeader {bs rest : Bits} {i : Instr} (h : decodeHeader bs = .ok (i, rest)) :
    ∃ token, encode i = .headerBits token ∧ bs = token ++ rest := by
  match bs with
  | [] => simp [decodeHeader] at h
  | false :: bits =>
    obtain ⟨rfl, rfl⟩ := Prod.mk.inj (Except.ok.inj h)
    exact ⟨[false], rfl, rfl⟩
  | true :: bits =>
    by_cases short : bits.length < 9
    · simp [decodeHeader_cut short] at h
    · have nine : (bits.take 9).length = 9 := List.length_take_of_le (Nat.le_of_not_lt short)
      rw [← List.take_append_drop 9 bits, decodeHeader_leaf nine] at h
      obtain ⟨rfl, rfl⟩ := Prod.mk.inj (Except.ok.inj h)
      refine ⟨true :: bits.take 9, congrArg (fun bs => Encoding.headerBits (true :: bs)) ?_, ?_⟩
      · exact msbFirst_ofNat_fromMsb nine
      · rw [List.cons_append, List.take_append_drop]

/-! ## TAG and RDTAG -/

theorem exec_tag_eq (m : Word) (s : State) : exec (.tag m) s = .next (checkTag Config.magic m (s.skip 32)) := rfl

/-- RDTAG at the bits of a tag has the TAG's own effect (R212, R213). -/
theorem exec_rdtag_of_tag {s : State} {m : Word} {rest : Bits} (h : s.src.remaining = msbFirst 32 m.toNat ++ rest) :
    exec .rdtag s = exec (.tag m) s := by
  have read : s.readBits Config.tagW = (some m, s.moved 32) := by
    refine (readBits_of_remaining h (msbFirst_length ..) (by decide)).trans ?_
    rw [ofNat_fromMsb_msbFirst]
  have skipped : s.skip 32 = s.moved 32 := skip_of_remaining h (msbFirst_length ..) (by decide)
  rw [exec_tag_eq, skipped]
  show Outcome.next (readTag Config.magic s) = _
  rw [readTag, read]

/-! ## Illegal words -/

theorem hostWrite_illegal {w : Word} (h1 : w ≠ 1) (h2 : w ≠ 2) (h3 : w ≠ 3) (s : State) :
    hostWrite .cmd w s = .next (illegalCommand w { s with cmd := w }) := by
  rw [hostWrite, decodeCommand_other h1 h2 h3]

end Sys2Proof.Machine

open Sys2Proof Sys2Proof.Machine

/-- Settles O1: each word is evaluated by its decoder. -/
theorem specWordsDecode : Obligations.SpecWordsDecode := by
  unfold Obligations.SpecWordsDecode
  refine ⟨?_, ?_, ?_, ?_, ?_, ?_, ?_, ?_, ?_, ?_, ?_, ?_, ?_, ?_, ?_, ?_, ?_, ?_, ?_, ?_, ?_⟩ <;> rfl

/-- Settles O2: a command or PHASE code by evaluation, a token by reading its bits back. -/
theorem decodeOfEncode : Obligations.DecodeOfEncode := by
  unfold Obligations.DecodeOfEncode
  intro i
  cases i with
  | tag m => exact (congrArg decodeTag (List.append_nil _)).symm.trans (decodeTag_msbFirst m [])
  | leaf sym =>
    exact (congrArg (fun bs => decodeHeader (true :: bs)) (List.append_nil _)).symm.trans (decodeHeader_msbFirst sym [])
  | compress | decompress | clear => rfl
  | count | build | gencodes | wrtag | wrhdr | encode | rdtag | rdhdr | decode | close => rfl
  | internal => rfl

/-- Settles O3: each token's bits are read back, and the bits read are the token's. -/
theorem tokensReadBack : Obligations.TokensReadBack := by
  unfold Obligations.TokensReadBack
  exact ⟨decodeTag_msbFirst, fun _ => rfl, decodeHeader_msbFirst, fun _ _ _ => encode_of_decodeHeader⟩

/-- Settles O31: the comparison with MAGIC, and RDTAG's read of the tag's 32 bits. -/
theorem tagTokenIsRdtag : Obligations.TagTokenIsRdtag := by
  unfold Obligations.TagTokenIsRdtag
  refine ⟨fun s => ?_, fun s m hm => ?_, fun s m rest => exec_rdtag_of_tag⟩
  · exact congrArg Host.Outcome.next (if_pos rfl)
  · exact congrArg Host.Outcome.next (if_neg hm)

/-- Settles O9: the write in IDLE makes R228's entry, and CLEAR leaves it; elsewhere the write is dropped. -/
theorem illegalCommandWord : Obligations.IllegalCommandWord := by
  unfold Obligations.IllegalCommandWord
  intro s w rest h1 h2 h3 hm
  rw [step_of_move hm, runMove, hostWrite_illegal h1 h2 h3]
  refine ⟨fun idle => ⟨congrArg Host.Outcome.next (if_pos idle), _, rfl, rfl⟩, fun notIdle => ?_⟩
  exact congrArg Host.Outcome.next (if_neg notIdle)

end

section
/-! The header tokens INTERNAL and LEAF as operations of their own (43_header_codec.md R180, R183; 10_state.md R38). -/

namespace Sys2Proof.Machine

open Host (Outcome)
open Sys2Proof.Safety

theorem exec_internal_full {s : State} (h : s.next.toNat = Config.nodeCap) :
    exec .internal s = .next ((s.skip 1).errorEntry .treeOverflow 513 false) := by
  show (internalToken s).outcome = _
  rw [internalToken, takeIndex_full (by exact h)]
  rfl

theorem exec_internal_free {s : State} (h : s.next.toNat ≠ Config.nodeCap) (hl : s.trav.frames.length < Config.nodeCap) :
    exec .internal s = .next { s.skip 1 with
      next := s.next + 1, trav := { s.trav with frames := ⟨s.next, false⟩ :: s.trav.frames } } := by
  show (internalToken s).outcome = _
  rw [internalToken, takeIndex_free (by exact h), Run.bind_ok, pushFrame_eq_ok.2 ⟨by exact hl, rfl⟩]
  rfl

theorem exec_leaf_full {sym : Sym} {s : State} (h : s.next.toNat = Config.nodeCap) :
    exec (.leaf sym) s = .next ((s.skip 1).errorEntry .treeOverflow 513 false) := by
  show (leafToken sym s).outcome = _
  rw [leafToken, takeIndex_full (by exact h)]
  rfl

/-- A LEAF with an index free: its entry written, what is left is the completion of the subtrees it ends. -/
theorem exec_leaf_free {sym : Sym} {s : State} (h : s.next.toNat < Config.nodeCap) :
    exec (.leaf sym) s = (completeSubtree s.next s.trav.frames
      { (s.skip 1).skip 9 with
        next := s.next + 1, node := s.node.write s.next.toNat (leafNode sym 0) }).outcome := by
  show (leafToken sym s).outcome = _
  rw [leafToken, takeIndex_free (by exact Nat.ne_of_lt h), Run.bind_ok, writeNode_eq_ok.2 ⟨by exact h, rfl⟩]
  rfl

/-! ## The entries a finished subtree completes -/

/-- NODE with entries written, in their order. -/
def writeEntries : List (Idx × Node) → Table Node → Table Node
  | [], node => node
  | e :: es, node => writeEntries es (node.write e.1.toNat e.2)

theorem read_writeEntries_other {es : List (Idx × Node)} {node : Table Node} {i : Nat} (h : ∀ e ∈ es, e.1.toNat ≠ i) :
    (writeEntries es node).read i = node.read i := by
  induction es generalizing node with
  | nil => rfl
  | cons e es ih =>
    obtain ⟨he, hes⟩ := List.forall_mem_cons.1 h
    rw [writeEntries, ih hes, Table.read_write_other _ _ he]

/-- Entries at falling indexes are all there after the last write. -/
theorem read_writeEntries_mem {es : List (Idx × Node)} {node : Table Node} {e : Idx × Node}
    (falling : es.Pairwise fun a b => b.1.toNat < a.1.toNat) (he : e ∈ es) :
    (writeEntries es node).read e.1.toNat = some e.2 := by
  induction es generalizing node with
  | nil => simp at he
  | cons d es ih =>
    obtain ⟨hd, hes⟩ := List.pairwise_cons.1 falling
    rw [writeEntries]
    rcases List.mem_cons.1 he with rfl | he
    · rw [read_writeEntries_other fun b hb => (hd b hb).ne, Table.read_write_same]
    · exact ih hes he

theorem completedEntries_index {i : Idx} {frames : List Frame} :
    ∀ e ∈ completedEntries i frames, ∃ f ∈ frames, f.index = e.1 := by
  induction frames generalizing i with
  | nil => simp [completedEntries]
  | cons f rest ih =>
    obtain ⟨j, d⟩ := f
    cases d with
    | false => simp [completedEntries]
    | true =>
      refine List.forall_mem_cons.2 ⟨⟨_, List.mem_cons_self .., rfl⟩, fun e he => ?_⟩
      obtain ⟨f, hf, h⟩ := ih e he
      exact ⟨f, List.mem_cons_of_mem _ hf, h⟩

/-- Each entry of the stack was taken after those below it (R38). -/
abbrev Falling (frames : List Frame) : Prop :=
  frames.Pairwise fun above below => below.index.toNat < above.index.toNat

theorem completedEntries_falling {i : Idx} {frames : List Frame} (h : Falling frames) :
    (completedEntries i frames).Pairwise fun a b => b.1.toNat < a.1.toNat := by
  induction frames generalizing i with
  | nil => exact .nil
  | cons f rest ih =>
    obtain ⟨j, d⟩ := f
    obtain ⟨hj, hrest⟩ := List.pairwise_cons.1 h
    cases d with
    | false => exact .nil
    | true =>
      refine List.pairwise_cons.2 ⟨fun e he => ?_, ih hrest⟩
      obtain ⟨f, hf, hi⟩ := completedEntries_index e he
      exact hi ▸ hj f hf

/-- The nodes that stay on the stack lie below those that are completed. -/
theorem unwind_below_completed {i : Idx} {frames : List Frame} (h : Falling frames) :
    ∀ f ∈ (unwind frames).2, ∀ e ∈ completedEntries i frames, f.index.toNat < e.1.toNat := by
  induction frames generalizing i with
  | nil => simp [unwind]
  | cons g rest ih =>
    obtain ⟨j, d⟩ := g
    obtain ⟨hj, hrest⟩ := List.pairwise_cons.1 h
    cases d with
    | false => simp [completedEntries]
    | true =>
      refine fun f hf => List.forall_mem_cons.2 ⟨?_, ih hrest f hf⟩
      obtain ⟨g, hg, hi⟩ := unwind_mem rest f hf
      exact hi ▸ hj g hg

/-! ## Completing subtrees -/

/-- ROOT and TREE_VALID after a subtree with root `i` is complete: the header's root is the bottom node of the stack when that
empties it, and they stay while a subtree is still to come (R180). -/
structure RootCompleted (i : Idx) (frames : List Frame) (s t : State) : Prop where
  whole : (unwind frames).2 = [] → t.treeValid = true ∧ t.root = ((frames.getLast?).map Frame.index).getD i
  part : (unwind frames).2 ≠ [] → t.treeValid = s.treeValid ∧ t.root = s.root

/-- Completing subtrees answers under any stack of indexes inside NODE. -/
theorem completeSubtree_ok {i : Idx} {frames : List Frame} {s : State} (h : ∀ f ∈ frames, f.index.toNat < Config.nodeCap) :
    ∃ t, completeSubtree i frames s = .ok () t ∧
      t = { s with
        node := writeEntries (completedEntries i frames) s.node
        trav := t.trav, root := t.root, treeValid := t.treeValid } ∧
      t.trav.frames = (unwind frames).2 ∧ RootCompleted i frames s t := by
  induction frames generalizing i s with
  | nil => exact ⟨_, rfl, rfl, rfl, fun _ => ⟨rfl, rfl⟩, fun h => absurd rfl h⟩
  | cons f rest ih =>
    obtain ⟨j, d⟩ := f
    obtain ⟨hj, hrest⟩ := List.forall_mem_cons.1 h
    cases d with
    | false => exact ⟨_, rfl, rfl, rfl, fun h => absurd h (List.cons_ne_nil _ _), fun _ => ⟨rfl, rfl⟩⟩
    | true =>
      obtain ⟨t, ht, form, frames, root⟩ :=
        ih (i := j) (s := { s with node := s.node.write j.toNat (internalNode 0 (j + 1) i) }) hrest
      refine ⟨t, ?_, form, frames, fun whole => ?_, root.part⟩
      · rw [completeSubtree, writeNode_eq_ok.2 ⟨hj, rfl⟩, Run.bind_ok, ht]
      · refine ⟨(root.whole whole).1, (root.whole whole).2.trans ?_⟩
        rw [List.getLast?_cons]
        cases rest.getLast? <;> rfl

end Sys2Proof.Machine

open Sys2Proof Sys2Proof.Machine Sys2Proof.Safety

/-- Settles O38: with an index free the token is pushed, with none it raises. -/
theorem internalToken : Obligations.InternalToken := by
  unfold Obligations.InternalToken
  exact ⟨fun s => exec_internal_free, fun s => exec_internal_full⟩

/-- Settles O39: the leaf's entry, then the entries completed, all at indexes below it and falling. -/
theorem leafToken : Obligations.LeafToken := by
  unfold Obligations.LeafToken
  refine ⟨fun s sym hn hidx falling => ?_, fun s sym => exec_leaf_full⟩
  have below : ∀ e ∈ completedEntries s.next s.trav.frames, e.1.toNat < s.next.toNat := fun e he => by
    obtain ⟨f, hf, hi⟩ := completedEntries_index e he
    exact hi ▸ hidx f hf
  obtain ⟨t, ht, form, frames, root⟩ := completeSubtree_ok (i := s.next)
    (s := { (s.skip 1).skip 9 with next := s.next + 1, node := s.node.write s.next.toNat (leafNode sym 0) })
    fun f hf => (hidx f hf).trans hn
  have others {i : Nat} (hi : i ≠ s.next.toNat)
      (he : ∀ e ∈ completedEntries s.next s.trav.frames, e.1.toNat ≠ i) :
      (writeEntries (completedEntries s.next s.trav.frames) (s.node.write s.next.toNat (leafNode sym 0))).read i =
        s.node.read i :=
    (read_writeEntries_other he).trans (Table.read_write_other _ _ hi.symm)
  refine ⟨_, t.trav, t.root, t.treeValid, ?_, ?_, frames,
    fun e => read_writeEntries_mem (completedEntries_falling falling), fun i => others, fun f hf => ?_, root.whole, root.part⟩
  · rw [exec_leaf_free hn, ht, Run.outcome_ok]
    exact congrArg Host.Outcome.next form
  · rw [read_writeEntries_other fun e he => (below e he).ne, Table.read_write_same]
    rfl
  · obtain ⟨g, hg, hi⟩ := unwind_mem _ f hf
    exact others (hi ▸ (hidx g hg).ne) fun e he => (unwind_below_completed falling f hf e he).ne'

end

section
/-! The payload as a walk through the code tree (30_encoding.md R107, R108). -/

namespace Sys2Proof.Machine

open Sys2Proof.Safety

/-- What the walk of a payload comes to at a leaf: the end at the sentinel, else the symbol and the walk from the root on. -/
def walkLeaf (root : Tree) (sym : Sym) (rest : Bits) : List Sym × Option Bits :=
  if sym.toNat = Config.eos then ([], some rest)
  else (sym :: (root.walk root rest).1, (root.walk root rest).2)

theorem walkLeaf_sentinel (root : Tree) (rest : Bits) : walkLeaf root 256 rest = ([], some rest) := if_pos rfl

theorem walkLeaf_literal {root : Tree} {sym : Sym} (h : sym ≠ 256) (rest : Bits) :
    walkLeaf root sym rest = (sym :: (root.walk root rest).1, (root.walk root rest).2) :=
  if_neg fun e => h (BitVec.eq_of_toNat_eq e)

theorem walk_to_leaf {root here : Tree} {b : Bool} {sym : Sym} (h : here.move b = .leaf sym) (rest : Bits) :
    root.walk here (b :: rest) = walkLeaf root sym rest := by
  simp only [Tree.walk, h, walkLeaf]

theorem walk_to_node {root here l r : Tree} {b : Bool} (h : here.move b = .node l r) (rest : Bits) :
    root.walk here (b :: rest) = root.walk (.node l r) rest := by
  simp only [Tree.walk, h]

/-- A path of an Internal node is an edge and a path of the child it leads to. -/
theorem mem_paths_node {l r : Tree} {sym : Sym} {path : Bits} (h : (sym, path) ∈ (Safety.Tree.node l r).paths) :
    ∃ b path', path = b :: path' ∧ (sym, path') ∈ ((Safety.Tree.node l r).move b).paths := by
  rcases List.mem_append.1 h with h | h <;> obtain ⟨p, hp, e⟩ := List.mem_map.1 h <;>
    obtain ⟨rfl, rfl⟩ := Prod.mk.inj e
  · exact ⟨false, p.2, rfl, hp⟩
  · exact ⟨true, p.2, rfl, hp⟩

/-- The walk along a path from an Internal node comes to the path's leaf. -/
theorem walk_path {root l r : Tree} {sym : Sym} {path : Bits} (h : (sym, path) ∈ (Safety.Tree.node l r).paths) (rest : Bits) :
    root.walk (.node l r) (path ++ rest) = walkLeaf root sym rest := by
  induction path generalizing l r with
  | nil =>
    obtain ⟨b, path', e, -⟩ := mem_paths_node h
    simp at e
  | cons b path ih =>
    obtain ⟨b', path', e, hp⟩ := mem_paths_node h
    obtain ⟨rfl, rfl⟩ := List.cons.inj e
    cases hm : (Safety.Tree.node l r).move b with
    | leaf sym' =>
      rw [hm] at hp
      obtain ⟨rfl, rfl⟩ := Prod.mk.inj (List.mem_singleton.1 hp)
      exact walk_to_leaf hm rest
    | node l' r' =>
      rw [hm] at hp
      exact (walk_to_node hm _).trans (ih hp)

/-- The walk over a symbol's code comes to its leaf, in a one-leaf tree too (R107, R203). -/
theorem walk_code {tree : Tree} {sym : Sym} {code : Bits} (h : (sym, code) ∈ tree.codes) (rest : Bits) :
    tree.walk tree (code ++ rest) = walkLeaf tree sym rest := by
  cases tree with
  | leaf sym' =>
    obtain ⟨rfl, rfl⟩ := Prod.mk.inj (List.mem_singleton.1 h)
    exact walk_to_leaf (b := false) rfl rest
  | node l r => exact walk_path h rest

end Sys2Proof.Machine

open Sys2Proof Sys2Proof.Machine Sys2Proof.Safety

/-- Settles O46, by induction on the message: a code at a time (`walk_code`), the sentinel's last. -/
theorem payloadIsUnambiguous : Obligations.PayloadIsUnambiguous := by
  unfold Obligations.PayloadIsUnambiguous
  intro tree msg eosCode rest hmsg heos
  induction msg with
  | nil => exact (walk_code heos rest).trans (walkLeaf_sentinel tree rest)
  | cons p msg ih =>
    obtain ⟨⟨hp, literal⟩, hmsg⟩ := List.forall_mem_cons.1 hmsg
    rw [List.flatMap_cons, List.append_assoc, List.append_assoc, walk_code hp, walkLeaf_literal literal,
      ← List.append_assoc, ih hmsg]
    rfl

end

section
/-! The code table of a tree (42_code_table_gen.md R166, R167): what GENCODES writes for each leaf, as bits of the path to it. -/

namespace Sys2Proof.Machine

open Sys2Proof.Safety

/-! ## Codes of a tree -/

theorem paths_syms (tree : Tree) : tree.paths.map Prod.fst = tree.syms := by
  induction tree with
  | leaf sym => rfl
  | node l r ihl ihr => simp [Tree.paths, Tree.syms, ← ihl, ← ihr, Function.comp_def]

theorem codes_syms (tree : Tree) : tree.codes.map Prod.fst = tree.syms := by
  cases tree with
  | leaf sym => rfl
  | node l r => exact paths_syms (.node l r)

theorem exists_code_of_mem {tree : Tree} {sym : Sym} (h : sym ∈ tree.syms) : ∃ bits, (sym, bits) ∈ tree.codes := by
  rw [← codes_syms] at h
  obtain ⟨p, hp, rfl⟩ := List.mem_map.1 h
  exact ⟨p.2, hp⟩

theorem mem_syms_of_path {tree : Tree} {sym : Sym} {path : Bits} (h : (sym, path) ∈ tree.paths) : sym ∈ tree.syms :=
  paths_syms tree ▸ List.mem_map_of_mem h

theorem path_length_le {tree : Tree} {sym : Sym} {path : Bits} (h : (sym, path) ∈ tree.paths) :
    path.length ≤ tree.height := by
  induction tree generalizing path with
  | leaf sym' =>
    obtain ⟨-, rfl⟩ := Prod.mk.inj (List.mem_singleton.1 h)
    exact Nat.zero_le _
  | node l r ihl ihr =>
    obtain ⟨b, path', rfl, hp⟩ := mem_paths_node h
    simp only [Safety.Tree.height, List.length_cons]
    cases b with
    | false => have := ihl hp; omega
    | true => have := ihr hp; omega

/-! ## The entry of a path -/

/-- An edge's bit appended to the low end of a pattern doubles its value (R166). -/
theorem appendBit_ofNat (n : Nat) (b : Bool) : appendBit (BitVec.ofNat 256 n) b = BitVec.ofNat 256 (2 * n + b.toNat) := by
  have hb : b.toNat < 2 ^ 1 := b.toNat_lt
  have shifted : (n % 2 ^ 256) <<< 1 % 2 ^ 256 = 2 ^ 1 * (n % 2 ^ 255) := by
    rw [Nat.shiftLeft_eq]
    omega
  apply BitVec.eq_of_toNat_eq
  rw [appendBit, BitVec.toNat_or, BitVec.toNat_shiftLeft, BitVec.toNat_setWidth, BitVec.toNat_ofBool, BitVec.toNat_ofNat,
    BitVec.toNat_ofNat, shifted, Nat.mod_eq_of_lt (a := b.toNat) (by omega), ← Nat.two_pow_add_eq_or_of_lt hb]
  omega

theorem foldl_appendBit (path : Bits) (n : Nat) :
    path.foldl appendBit (BitVec.ofNat 256 n) = BitVec.ofNat 256 (path.foldl (fun a b => 2 * a + b.toNat) n) := by
  induction path generalizing n with
  | nil => rfl
  | cons b path ih => rw [List.foldl_cons, appendBit_ofNat, ih, List.foldl_cons]

/-- The entry of a leaf whose path from a node of entry `(len, pat)` on is `path` (R166). -/
def pathEntry (len : Len) (pat : Pat) (path : Bits) : CodeEntry :=
  ⟨true, len + BitVec.ofNat 9 path.length, path.foldl appendBit pat⟩

theorem pathEntry_cons (len : Len) (pat : Pat) (b : Bool) (path : Bits) :
    pathEntry (len + 1) (appendBit pat b) path = pathEntry len pat (b :: path) := by
  rw [pathEntry, pathEntry, List.foldl_cons, List.length_cons, Nat.add_comm, BitVec.ofNat_add, ← BitVec.add_assoc]
  rfl

theorem pathEntry_root (path : Bits) : pathEntry 0 0 path = entryOfBits path := by
  have len : (0 : Len) + BitVec.ofNat 9 path.length = BitVec.ofNat 9 path.length := BitVec.zero_add _
  rw [pathEntry, len, show (0 : Pat) = BitVec.ofNat 256 0 from rfl, foldl_appendBit]
  rfl

/-- A code's entry stands for its bits (R26, R192). -/
theorem codeBits_entryOfBits {bits : Bits} (h : bits.length ≤ 256) : codeBits (entryOfBits bits) = bits := by
  have hl : (BitVec.ofNat 9 bits.length).toNat = bits.length := by
    rw [BitVec.toNat_ofNat]
    exact Nat.mod_eq_of_lt (by omega)
  simp only [codeBits, entryOfBits]
  rw [hl, BitVec.toNat_ofNat, msbFirst_mod h, msbFirst_fromMsb]

/-! ## The table -/

theorem read_writeCodes_other {tree : Tree} {len : Len} {pat : Pat} {code : Table CodeEntry} {i : Nat}
    (h : ∀ sym ∈ tree.syms, sym.toNat ≠ i) : (writeCodes tree len pat code).read i = code.read i := by
  induction tree generalizing len pat code with
  | leaf sym => exact Table.read_write_other _ _ (h sym (List.mem_singleton_self _))
  | node l r ihl ihr =>
    obtain ⟨hl, hr⟩ := List.forall_mem_append.1 h
    rw [writeCodes, ihr hr, ihl hl]

/-- Over distinct leaf symbols each gets the path to its leaf (R166). -/
theorem read_writeCodes {tree : Tree} {len : Len} {pat : Pat} {code : Table CodeEntry} {sym : Sym} {path : Bits}
    (nodup : tree.syms.Nodup) (h : (sym, path) ∈ tree.paths) :
    (writeCodes tree len pat code).read sym.toNat = some (pathEntry len pat path) := by
  induction tree generalizing len pat code path with
  | leaf sym' =>
    obtain ⟨rfl, rfl⟩ := Prod.mk.inj (List.mem_singleton.1 h)
    rw [writeCodes, Table.read_write_same]
    simp [pathEntry]
  | node l r ihl ihr =>
    obtain ⟨hl, hr, disjoint⟩ := List.nodup_append.1 nodup
    obtain ⟨b, path', rfl, hp⟩ := mem_paths_node h
    rw [← pathEntry_cons, writeCodes]
    cases b with
    | true => exact ihr hr hp
    | false =>
      have elsewhere : ∀ sym' ∈ r.syms, sym'.toNat ≠ sym.toNat := fun sym' hs e =>
        disjoint sym (mem_syms_of_path hp) sym' hs (BitVec.eq_of_toNat_eq e.symm)
      rw [read_writeCodes_other elsewhere]
      exact ihl hl hp

/-- Over distinct leaf symbols GENCODES gives each its code (R166, R167). -/
theorem read_treeCodes {tree : Tree} {sym : Sym} {bits : Bits} (nodup : tree.syms.Nodup) (h : (sym, bits) ∈ tree.codes) :
    (treeCodes tree).read sym.toNat = some (entryOfBits bits) := by
  cases tree with
  | leaf sym' =>
    obtain ⟨rfl, rfl⟩ := Prod.mk.inj (List.mem_singleton.1 h)
    exact Table.read_write_same ..
  | node l r => rw [treeCodes, read_writeCodes nodup h, pathEntry_root]

/-- No code is longer than the tree is high, or than one bit. -/
theorem code_length_le {tree : Tree} {sym : Sym} {bits : Bits} (h : (sym, bits) ∈ tree.codes) (hh : tree.height ≤ 256) :
    bits.length ≤ 256 := by
  cases tree with
  | leaf sym' =>
    obtain ⟨-, rfl⟩ := Prod.mk.inj (List.mem_singleton.1 h)
    decide
  | node l r => exact (path_length_le h).trans hh

/-- CODE's entry for a leaf symbol of a code tree stands for the symbol's code. -/
theorem treeCodes_entry {tree : Tree} (nodup : tree.syms.Nodup) (hh : tree.height ≤ 256) {sym : Sym}
    (h : sym ∈ tree.syms) :
    ∃ c, (treeCodes tree).read sym.toNat = some c ∧ c.valid = true ∧ (sym, codeBits c) ∈ tree.codes := by
  obtain ⟨bits, hb⟩ := exists_code_of_mem h
  refine ⟨entryOfBits bits, read_treeCodes nodup hb, rfl, ?_⟩
  rwa [codeBits_entryOfBits (code_length_le hb hh)]

/-- A tree's header has eleven bits a leaf, less one (R106). -/
theorem header_length (tree : Tree) : tree.header.length + 1 = 11 * tree.syms.length := by
  induction tree with
  | leaf sym => simp [Tree.header, Tree.syms]
  | node l r ihl ihr =>
    simp only [Tree.header, Tree.syms, List.length_cons, List.length_append]
    omega

end Sys2Proof.Machine
end

section
/-! COUNT and ENCODE over the bytes of the source (40_frequency_counter.md R141, R142; 44_stream_encoder.md R191, R192). -/

namespace Sys2Proof.Machine

open Host (Outcome)
open Sys2Proof.Safety

theorem bitsOfBytes_cons (b : Byte) (bytes : List Byte) :
    bitsOfBytes (b :: bytes) = msbFirst 8 b.toNat ++ bitsOfBytes bytes := List.flatMap_cons

theorem bitsOfBytes_length (bytes : List Byte) : (bitsOfBytes bytes).length = 8 * bytes.length := by
  induction bytes with
  | nil => rfl
  | cons b bytes ih =>
    rw [bitsOfBytes_cons, List.length_append, msbFirst_length, ih, List.length_cons]
    omega

theorem readBits_byte {s : State} {b : Byte} {rest : Bits} (h : s.src.remaining = msbFirst 8 b.toNat ++ rest) :
    s.readBits Config.wordW = (some b, s.moved 8) := by
  refine (readBits_of_remaining h (msbFirst_length ..) (by decide)).trans ?_
  rw [fromMsb_msbFirst, Nat.mod_eq_of_lt b.isLt, BitVec.ofNat_toNat, BitVec.setWidth_eq]

theorem remaining_moved_byte {s : State} {b : Byte} {rest : Bits} (h : s.src.remaining = msbFirst 8 b.toNat ++ rest) :
    (s.moved 8).src.remaining = rest := by
  have := remaining_after h
  rwa [msbFirst_length] at this

/-! ## COUNT -/

/-- FREQ with each byte of a list counted once more (R141). -/
def addCounts : List Byte → Table Count → Table Count
  | [], freq => freq
  | b :: bytes, freq => addCounts bytes (freq.write b.toNat ((freq.read b.toNat).getD 0 + 1))

/-- Every byte's count is written and stays within `limit` when the bytes of a list are added (R143 does not apply). -/
def CountsFit (limit : Count) (bytes : List Byte) (freq : Table Count) : Prop :=
  ∀ b : Byte, ∃ c, freq.read b.toNat = some c ∧ c.toNat + bytes.count b ≤ limit.toNat

theorem CountsFit.head {limit c : Count} {b : Byte} {bytes : List Byte} {freq : Table Count}
    (h : CountsFit limit (b :: bytes) freq) (hc : freq.read b.toNat = some c) : c.toNat < limit.toNat := by
  obtain ⟨c', hc', le⟩ := h b
  obtain rfl := Option.some.inj (hc.symm.trans hc')
  rw [List.count_cons_self] at le
  omega

theorem CountsFit.tail {limit c : Count} {b : Byte} {bytes : List Byte} {freq : Table Count}
    (h : CountsFit limit (b :: bytes) freq) (hc : freq.read b.toNat = some c) :
    CountsFit limit bytes (freq.write b.toNat (c + 1)) := by
  intro x
  obtain ⟨cx, hx, le⟩ := h x
  by_cases e : b = x
  · subst e
    obtain rfl := Option.some.inj (hc.symm.trans hx)
    rw [List.count_cons_self] at le
    have := limit.isLt
    refine ⟨c + 1, Table.read_write_same .., ?_⟩
    bv_omega
  · rw [List.count_cons_of_ne e] at le
    exact ⟨cx, (Table.read_write_other _ _ fun e' => e (BitVec.eq_of_toNat_eq e')).trans hx, le⟩

/-- What each byte's count is afterwards (R142). -/
theorem read_addCounts {bytes : List Byte} {freq : Table Count} {b : Byte} {c : Count} (h : freq.read b.toNat = some c) :
    (addCounts bytes freq).read b.toNat = some (c + BitVec.ofNat 32 (bytes.count b)) := by
  induction bytes generalizing freq c with
  | nil => simpa [addCounts] using h
  | cons x bytes ih =>
    rw [addCounts]
    by_cases e : x = b
    · subst e
      rw [ih (Table.read_write_same ..), h, List.count_cons_self, Nat.add_comm, BitVec.ofNat_add, ← BitVec.add_assoc]
      rfl
    · rw [ih ((Table.read_write_other _ _ fun e' => e (BitVec.eq_of_toNat_eq e')).trans h), List.count_cons_of_ne e]

/-- COUNT's loop over a byte whose count is not full (R141). -/
theorem countLoop_byte {limit c : Count} {fuel : Nat} {s : State} {b : Byte} {rest : Bits}
    (h : s.src.remaining = msbFirst 8 b.toNat ++ rest) (hc : s.freq.read b.toNat = some c) (hl : c ≠ limit) :
    countLoop limit (fuel + 1) s = countLoop limit fuel { s.moved 8 with freq := s.freq.write b.toNat (c + 1) } := by
  rw [countLoop, readBits_byte h]
  dsimp only
  rw [readFreq_eq_ok.2 ⟨byte_lt_nsym b, by exact hc, rfl⟩, Run.bind_ok, if_neg hl, writeFreq_eq_ok.2 ⟨byte_lt_nsym b, rfl⟩,
    Run.bind_ok]
  rfl

theorem countLoop_bytes {limit : Count} (bytes : List Byte) {fuel : Nat} {s : State} {rest : Bits}
    (h : s.src.remaining = bitsOfBytes bytes ++ rest) (hc : CountsFit limit bytes s.freq) :
    countLoop limit (bytes.length + fuel) s =
      countLoop limit fuel { s.moved (8 * bytes.length) with freq := addCounts bytes s.freq } := by
  induction bytes generalizing s with
  | nil => rw [List.length_nil, Nat.zero_add]; rfl
  | cons b bytes ih =>
    obtain ⟨c, hb, -⟩ := hc b
    rw [bitsOfBytes_cons, List.append_assoc] at h
    have notFull : c ≠ limit := fun e => (hc.head hb).ne (congrArg BitVec.toNat e)
    rw [List.length_cons, Nat.add_right_comm, countLoop_byte h hb notFull, ih (by exact remaining_moved_byte h) (hc.tail hb)]
    simp only [addCounts, hb, State.moved, Option.getD_some, Nat.mul_add, Nat.add_assoc, Nat.add_comm]

theorem countLoop_end {limit : Count} {fuel : Nat} {s : State} (h : s.src.remaining.length < 8) :
    countLoop limit (fuel + 1) s = .ok () s.atEnd := by
  rw [countLoop, readBits_of_short h]

/-- FREQ as COUNT leaves it over a byte string (R142). -/
def countTable (bytes : List Byte) : Table Count := (addCounts bytes (Table.fill Config.nsym 0)).write Config.eos 1

/-- COUNT over a byte string, and fewer than eight bits after it, when no count overflows (R141). -/
theorem countRun_bytes {limit : Count} {bytes : List Byte} {s : State} {tail : Bits}
    (h : s.src.remaining = bitsOfBytes bytes ++ tail) (ht : tail.length < 8) (hc : ∀ b, bytes.count b ≤ limit.toNat) :
    countRun limit s = .ok () { s.atEnd with freq := countTable bytes, freqValid := true } := by
  have cleared : CountsFit limit bytes (Table.fill Config.nsym 0) := fun b =>
    ⟨0, by rw [Table.read_fill, if_pos (byte_lt_nsym b)], (Nat.zero_add _).trans_le (hc b)⟩
  have fuel : s.src.remaining.length + 1 = bytes.length + (7 * bytes.length + tail.length + 1) := by
    rw [h, List.length_append, bitsOfBytes_length]
    omega
  have after : (s.moved (8 * bytes.length)).src.remaining = tail := bitsOfBytes_length bytes ▸ remaining_after h
  rw [countRun, fuel, countLoop_bytes bytes (by exact h) cleared, countLoop_end (after ▸ ht), Run.bind_ok,
    writeFreq_eq_ok.2 ⟨by decide, rfl⟩]
  rfl

/-- A byte's count in that table (R142). -/
theorem countIn_countTable {bytes : List Byte} {b : Byte} (h : bytes.count b ≤ 2 ^ 32 - 1) :
    countIn (countTable bytes) (b.setWidth 9) = bytes.count b := by
  have toNat : (b.setWidth 9).toNat = b.toNat := BitVec.toNat_setWidth_of_le (by decide)
  have notEos : Config.eos ≠ b.toNat := b.isLt.ne'
  have zero : (Table.fill Config.nsym (0 : Count)).read b.toNat = some 0 := by
    rw [Table.read_fill, if_pos (byte_lt_nsym b)]
  rw [countIn, countTable, toNat, Table.read_write_other _ _ notEos, read_addCounts zero, Option.getD_some]
  simp only [BitVec.ofNat_eq_ofNat, BitVec.zero_add, BitVec.toNat_ofNat]
  exact Nat.mod_eq_of_lt (by omega)

theorem countIn_eos (bytes : List Byte) : countIn (countTable bytes) 256 = 1 := by
  have toNat : (256 : Sym).toNat = Config.eos := rfl
  rw [countIn, countTable, toNat, Table.read_write_same]
  rfl

/-! ## The counted symbols -/

theorem mem_countedSyms {freq : Table Count} {sym : Sym} :
    sym ∈ countedSyms freq ↔ sym.toNat < Config.nsym ∧ countIn freq sym ≠ 0 := by
  rw [countedSyms, List.mem_filter, bne_iff_ne, List.mem_map]
  refine and_congr_left fun _ => ⟨?_, fun h => ⟨sym.toNat, List.mem_range.2 h, by simp⟩⟩
  rintro ⟨i, hi, rfl⟩
  rw [BitVec.toNat_ofNat]
  exact (Nat.mod_le ..).trans_lt (List.mem_range.1 hi)

theorem countedSyms_nodup (freq : Table Count) : (countedSyms freq).Nodup := by
  refine (List.Nodup.map_on (fun i hi j hj e => ?_) List.nodup_range).filter _
  have small {k : Nat} (hk : k ∈ List.range Config.nsym) : (BitVec.ofNat 9 k).toNat = k := by
    rw [BitVec.toNat_ofNat]
    exact Nat.mod_eq_of_lt ((List.mem_range.1 hk).trans (by decide))
  rw [← small hi, ← small hj, e]

/-- The symbols a COUNT of a byte string counts: its bytes' and the sentinel (R142). -/
theorem mem_countedSyms_countTable {bytes : List Byte} (h : ∀ b, bytes.count b ≤ 2 ^ 32 - 1) {sym : Sym} :
    sym ∈ countedSyms (countTable bytes) ↔ sym = 256 ∨ ∃ b ∈ bytes, sym = b.setWidth 9 := by
  have counted (b : Byte) : countIn (countTable bytes) (b.setWidth 9) ≠ 0 ↔ b ∈ bytes := by
    rw [countIn_countTable (h b), Ne, List.count_eq_zero, not_not]
  rw [mem_countedSyms]
  constructor
  · rintro ⟨lt, ne⟩
    by_cases e : sym = 256
    · exact .inl e
    · have small : sym.toNat < 256 := by
        have : sym.toNat ≠ 256 := fun e' => e (BitVec.eq_of_toNat_eq e')
        simp only [Config.nsym] at lt
        omega
      have wide : sym = (sym.setWidth 8 : Byte).setWidth 9 := by
        apply BitVec.eq_of_toNat_eq
        simp only [BitVec.toNat_setWidth]
        omega
      exact .inr ⟨sym.setWidth 8, (counted _).1 (wide ▸ ne), wide⟩
  · rintro (rfl | ⟨b, hb, rfl⟩)
    · exact ⟨by decide, by rw [countIn_eos]; decide⟩
    · refine ⟨?_, (counted b).2 hb⟩
      rw [BitVec.toNat_setWidth_of_le (by decide)]
      exact byte_lt_nsym b

/-! ## ENCODE -/

/-- ENCODE's loop over a byte with a code (R191, R192). -/
theorem encodeLoop_byte {fuel : Nat} {s : State} {b : Byte} {c : CodeEntry} {rest : Bits}
    (h : s.src.remaining = msbFirst 8 b.toNat ++ rest) (hc : s.code.read b.toNat = some c) (hv : c.valid = true) :
    encodeLoop (fuel + 1) s =
      encodeLoop fuel { s.moved 8 with sink := { s.sink with bits := s.sink.bits ++ codeBits c } } := by
  rw [encodeLoop, readBits_byte h]
  dsimp only
  rw [readCode_eq_ok.2 ⟨byte_lt_nsym b, by exact hc, rfl⟩, Run.bind_ok, if_pos hv, emitCode_eq]
  rfl

theorem encodeLoop_bytes (bytes : List Byte) {fuel : Nat} {s : State} {rest : Bits}
    (h : s.src.remaining = bitsOfBytes bytes ++ rest)
    (hc : ∀ b ∈ bytes, ∃ c, s.code.read b.toNat = some c ∧ c.valid = true) :
    encodeLoop (bytes.length + fuel) s =
      encodeLoop fuel { s.moved (8 * bytes.length) with
        sink := { s.sink with bits := s.sink.bits ++ payloadBits s.code bytes } } := by
  induction bytes generalizing s with
  | nil => simp [State.moved, payloadBits]
  | cons b bytes ih =>
    obtain ⟨⟨c, hb, hv⟩, hbytes⟩ := List.forall_mem_cons.1 hc
    rw [bitsOfBytes_cons, List.append_assoc] at h
    rw [List.length_cons, Nat.add_right_comm, encodeLoop_byte h hb hv, ih (by exact remaining_moved_byte h) (by exact hbytes)]
    simp [State.moved, payloadBits, hb, Nat.mul_add, Nat.add_assoc, Nat.add_comm]

theorem encodeLoop_end {fuel : Nat} {s : State} (h : s.src.remaining.length < 8) :
    encodeLoop (fuel + 1) s = .ok () s.atEnd := by
  rw [encodeLoop, readBits_of_short h]

/-- ENCODE over a byte string, and fewer than eight bits after it, when every byte has a code (R191). -/
theorem encodeRun_bytes {bytes : List Byte} {s : State} {eosCode : CodeEntry} {tail : Bits}
    (h : s.rewind.src.remaining = bitsOfBytes bytes ++ tail) (ht : tail.length < 8)
    (hc : ∀ b ∈ bytes, ∃ c, s.code.read b.toNat = some c ∧ c.valid = true) (he : s.code.read Config.eos = some eosCode) :
    encodeRun s = .ok () { s.rewind.atEnd with
      sink := { s.sink with bits := s.sink.bits ++ payloadBits s.code bytes ++ codeBits eosCode } } := by
  have fuel : s.rewind.src.remaining.length + 1 = bytes.length + (7 * bytes.length + tail.length + 1) := by
    rw [h, List.length_append, bitsOfBytes_length]
    omega
  have after : (s.rewind.moved (8 * bytes.length)).src.remaining = tail := bitsOfBytes_length bytes ▸ remaining_after h
  rw [encodeRun, fuel, encodeLoop_bytes bytes h hc, encodeLoop_end (after ▸ ht), Run.bind_ok,
    readCode_eq_ok.2 ⟨by decide, by exact he, rfl⟩, Run.bind_ok, emitCode_eq]
  rfl

end Sys2Proof.Machine
end

section
/-! A whole COMPRESS, turn by turn: the tables first, then what it writes (47_sequencer_commands.md R222, 30_encoding.md
R101). -/

namespace Sys2Proof.Machine

open Host (Outcome)
open Sys2Proof.Safety

/-- The block about to run the micro-operation `p` whole, with no move of the host's to come. -/
structure AboutToRun (p : Phase) (s : State) : Prop where
  busy : s.state = .busy
  phase : s.phase = p
  frames : s.trav.frames = []
  moves : s.moves = []

theorem AboutToRun.step_eq {p : Phase} {i : Instr} {s t : State} (h : AboutToRun p s) (hi : decodePhase p.code = .ok i)
    (he : exec i s = .next t) : step s = .next t.advance := by
  rw [step_of_no_move h.moves, blockTurn_microOp h.busy h.frames, microOpTurn_of_decode (h.phase ▸ hi), he]
  rfl

/-- A micro-operation that has ended without a raise hands over to the next one (R227). -/
theorem AboutToRun.run {p : Phase} {i : Instr} {k : Nat} {s t : State} (h : AboutToRun p s)
    (hi : decodePhase p.code = .ok i) (hp : p ≠ .close) (he : exec i s = .next t)
    (same : t.state = s.state ∧ t.phase = s.phase ∧ t.trav = s.trav ∧ t.moves = s.moves) :
    ∃ u, u = { t with phase := p.following } ∧ AboutToRun p.following u ∧ core.run (k + 1) s = core.run k u := by
  obtain ⟨state, phase, trav, moves⟩ := same
  have frames : t.trav.frames = [] := by rw [trav, h.frames]
  have busy : t.state = .busy := state.trans h.busy
  refine ⟨_, rfl, ⟨busy, rfl, frames, moves.trans h.moves⟩, run_succ ?_⟩
  rw [h.step_eq hi he, State.advance_of_not_close busy frames (by rwa [phase, h.phase]), phase, h.phase]

/-- CLOSE completes the command (R225, R226). -/
theorem AboutToRun.run_close {s : State} (h : AboutToRun .close s) : core.run 1 s = .next s.closeOnce.complete := by
  refine run_succ (k := 0) ?_
  rw [h.step_eq (i := .close) rfl (exec_close_eq s),
    State.advance_of_close (by simpa using h.busy) (by simpa using h.frames) (by simpa using h.phase)]

/-- What the first three micro-operations leave for the ones that write: a code tree over `syms` in NODE, its codes in CODE,
the source's bits and the sink as they were. -/
structure TablesMade (syms : List Sym) (tree : Tree) (s t : State) : Prop where
  held : holdsTree t.node tree t.root = true
  code : t.code = treeCodes tree
  syms : tree.syms.Perm syms
  src : t.src.rewind = s.src.rewind
  sink : t.sink = s.sink
  sinkClosed : t.sinkClosed = s.sinkClosed

/-- A tree over counted symbols is no higher than a code is long (R168). -/
theorem height_of_countedSyms {tree : Tree} {freq : Table Count} (h : tree.syms.Perm (countedSyms freq)) :
    tree.height ≤ 256 := by
  have := treeHeight_lt_leaves tree
  have := countedSyms_length_le freq
  rw [← h.length_eq] at this
  simp only [Config.nsym] at this
  omega

/-- COUNT, BUILD and GENCODES over a byte string (R222). -/
theorem run_makeTables {bytes : List Byte} {k : Nat} {s : State} (h : AboutToRun .count s)
    (hr : s.src.remaining = bitsOfBytes bytes) (hc : ∀ b, bytes.count b ≤ 2 ^ 32 - 1) :
    ∃ (t : State) (tree : Tree), core.run (k + 3) s = core.run k t ∧ AboutToRun .wrtag t ∧
      TablesMade (countedSyms (countTable bytes)) tree s t := by
  have count : countRun Config.countMax s = .ok () { s.atEnd with freq := countTable bytes, freqValid := true } :=
    countRun_bytes (tail := []) (by rw [hr, List.append_nil]) (by decide) hc
  obtain ⟨s1, e1, h1, run1⟩ := h.run (i := .count) (k := k + 2) rfl (by decide) (congrArg Run.outcome count)
    ⟨rfl, rfl, rfl, rfl⟩
  have ready : FreqReady s1 := by
    have := countRun_answers Config.countMax s
    rw [count] at this
    rw [e1]
    exact this
  obtain ⟨t2, tree, build, held, syms, -⟩ := buildRun_tree ready
  replace build := exec_build_eq_next.2 build
  obtain ⟨_, _, _, _, _, built⟩ := exec_build_next build
  obtain ⟨s2, e2, h2, run2⟩ := h1.run (i := .build) (k := k + 1) rfl (by decide) build
    (by rw [built]; exact ⟨rfl, rfl, rfl, rfl⟩)
  replace held : holdsTree s2.node tree s2.root = true := by rw [e2]; exact held
  have freq : s1.freq = countTable bytes := by rw [e1]
  rw [freq] at syms
  have height := height_of_countedSyms syms
  have gencodes := exec_gencodes_eq_next.2 (gencodesRun_of_holdsTree held (height.trans (by decide))
    fun sym hm => toNat_le_eos_of_mem_countedSyms (syms.subset hm))
  obtain ⟨s3, e3, h3, run3⟩ := h2.run (i := .gencodes) (k := k) rfl (by decide) gencodes ⟨rfl, rfl, rfl, rfl⟩
  refine ⟨s3, tree, run1.trans (run2.trans run3), h3, ?_, ?_, syms, ?_, ?_, ?_⟩ <;> rw [e3]
  · exact held
  all_goals rw [e2, built, e1]; rfl

/-- WRTAG, WRHDR, ENCODE and CLOSE from such tables (R222). -/
theorem run_writeContainer {bytes : List Byte} {eosCode : CodeEntry} {tree : Tree} {s : State} (h : AboutToRun .wrtag s)
    (held : holdsTree s.node tree s.root = true) (hh : tree.height ≤ Config.nodeCap)
    (hr : s.rewind.src.remaining = bitsOfBytes bytes)
    (coded : ∀ b ∈ bytes, ∃ c, s.code.read b.toNat = some c ∧ c.valid = true)
    (heos : s.code.read Config.eos = some eosCode) (hopen : s.sinkClosed = false) :
    ∃ t : State, core.run 4 s = .next t ∧ t.state = .done ∧
      t.sink = Sink.close { s.sink with
        bits := s.sink.bits ++ msbFirst 32 Config.magic.toNat ++ tree.header ++ payloadBits s.code bytes ++
          codeBits eosCode } := by
  obtain ⟨s1, e1, h1, run1⟩ := h.run (i := .wrtag) (k := 3) rfl (by decide) (exec_wrtag_eq s) ⟨rfl, rfl, rfl, rfl⟩
  have held1 : holdsTree s1.node tree s1.root = true := by rw [e1]; exact held
  obtain ⟨s2, e2, h2, run2⟩ := h1.run (i := .wrhdr) (k := 2) rfl (by decide)
    (congrArg Run.outcome (putNode_of_holdsTree held1 (Nat.lt_succ_of_le hh))) ⟨rfl, rfl, rfl, rfl⟩
  have src2 : s2.src = s.src := by rw [e2, e1]; rfl
  have code2 : s2.code = s.code := by rw [e2, e1]; rfl
  have encode := encodeRun_bytes (s := s2) (bytes := bytes) (tail := []) (eosCode := eosCode)
    (by rw [State.rewind_src, src2, List.append_nil]; exact hr) (by decide) (code2 ▸ coded) (code2 ▸ heos)
  obtain ⟨s3, e3, h3, run3⟩ := h2.run (i := .encode) (k := 1) rfl (by decide) (congrArg Run.outcome encode)
    ⟨rfl, rfl, rfl, rfl⟩
  have closed3 : s3.sinkClosed = false := by rw [e3, e2, e1]; exact hopen
  refine ⟨_, run1.trans (run2.trans (run3.trans h3.run_close)), rfl, ?_⟩
  rw [State.complete_sink, State.closeOnce_sink, closed3, if_neg (by decide), e3, e2, e1]
  rfl

/-- The zero bits of a close make whole bytes (R67). -/
theorem padLength_spec (n : Nat) : padLength n < 8 ∧ (n + padLength n) % 8 = 0 := by
  unfold padLength
  omega

/-- The code of a byte as CODE has it, with its symbol (R107). -/
def byteCode (code : Table CodeEntry) (b : Byte) : Sym × Bits :=
  (b.setWidth 9, codeBits ((code.read b.toNat).getD noCodeEntry))

theorem payloadBits_eq_flatMap (code : Table CodeEntry) (bytes : List Byte) :
    payloadBits code bytes = (bytes.map (byteCode code)).flatMap fun p => p.2 := by
  rw [List.flatMap_map]
  rfl

section
variable {bytes : List Byte} {tree : Tree} (counts : ∀ b, bytes.count b ≤ 2 ^ 32 - 1)
  (syms : tree.syms.Perm (countedSyms (countTable bytes)))
include counts syms

/-- The leaves of the tree of a byte string are its bytes' symbols and the sentinel. -/
theorem mem_syms_of_counted {sym : Sym} : sym ∈ tree.syms ↔ sym = 256 ∨ ∃ b ∈ bytes, sym = b.setWidth 9 :=
  syms.mem_iff.trans (mem_countedSyms_countTable counts)

/-- Every byte has a code of the tree in CODE (R107). -/
theorem byteCode_mem {b : Byte} (hb : b ∈ bytes) :
    ∃ c, (treeCodes tree).read b.toNat = some c ∧ c.valid = true ∧ byteCode (treeCodes tree) b ∈ tree.codes := by
  obtain ⟨c, hc, hv, hm⟩ := treeCodes_entry (syms.nodup_iff.2 (countedSyms_nodup _)) (height_of_countedSyms syms)
    ((mem_syms_of_counted counts syms).2 (.inr ⟨b, hb, rfl⟩))
  rw [BitVec.toNat_setWidth_of_le (by decide)] at hc
  exact ⟨c, hc, hv, by rwa [byteCode, hc]⟩

/-- So does the sentinel (R107). -/
theorem eosCode_mem : ∃ c, (treeCodes tree).read Config.eos = some c ∧ (256, codeBits c) ∈ tree.codes := by
  obtain ⟨c, hc, -, hm⟩ := treeCodes_entry (syms.nodup_iff.2 (countedSyms_nodup _)) (height_of_countedSyms syms)
    ((mem_syms_of_counted counts syms).2 (.inl rfl))
  exact ⟨c, hc, hm⟩

end

/-- A COMPRESS of a byte string from IDLE with an open sink: the tag, the header of a tree over the counted symbols, the
bytes' codes and the sentinel's, then the close (R101, R222). -/
theorem run_compress {bytes : List Byte} {s : State} (idle : s.state = .idle) (frames : s.trav.frames = [])
    (hopen : s.sinkClosed = false) (hsrc : s.src = ⟨bitsOfBytes bytes, 0, none⟩)
    (counts : ∀ b, bytes.count b ≤ 2 ^ 32 - 1) :
    ∃ (t : State) (tree : Tree) (eosCode : Bits),
      core.run 8 { s with moves := [.write .cmd 1] } = .next t ∧ t.state = .done ∧
      tree.syms.Perm (countedSyms (countTable bytes)) ∧ (256, eosCode) ∈ tree.codes ∧
      t.sink = Sink.close { s.sink with
        bits := s.sink.bits ++ msbFirst 32 Config.magic.toNat ++ tree.header ++ payloadBits (treeCodes tree) bytes ++
          eosCode } := by
  have start : step { s with moves := [.write .cmd 1] } =
      .next (startCommand .count { s with moves := [], cmd := 1 }) :=
    congrArg Outcome.next (if_pos idle)
  obtain ⟨u, tree, made, about, tables⟩ := run_makeTables (k := 4) (bytes := bytes)
    (s := startCommand .count { s with moves := [], cmd := 1 }) ⟨rfl, rfl, frames, rfl⟩ (congrArg Source.remaining hsrc)
    counts
  have source : u.rewind.src.remaining = bitsOfBytes bytes := by
    rw [State.rewind_src, tables.src]
    exact congrArg (fun src => (Source.rewind src).remaining) hsrc
  have coded : ∀ b ∈ bytes, ∃ c, u.code.read b.toNat = some c ∧ c.valid = true := fun b hb => by
    obtain ⟨c, hc, hv, -⟩ := byteCode_mem counts tables.syms hb
    exact ⟨c, tables.code ▸ hc, hv⟩
  obtain ⟨eosCode, heos, mem⟩ := eosCode_mem counts tables.syms
  obtain ⟨t, written, done, sink⟩ := run_writeContainer about tables.held
    ((height_of_countedSyms tables.syms).trans (by decide)) source coded (tables.code ▸ heos) (tables.sinkClosed.trans hopen)
  rw [tables.code, tables.sink] at sink
  exact ⟨t, tree, codeBits eosCode, (run_succ start).trans (made.trans written), done, tables.syms, mem, sink⟩

end Sys2Proof.Machine

open Sys2Proof Sys2Proof.Machine Sys2Proof.Safety

/-- Settles O58: the bits a COMPRESS writes (`run_compress`), its payload as the codes of the bytes in order. -/
theorem compressWritesContainer : Obligations.CompressWritesContainer := by
  unfold Obligations.CompressWritesContainer
  intro s S idle frames hopen hsrc hsink counts
  obtain ⟨t, tree, eosCode, run, done, syms, eosMem, sink⟩ := run_compress idle frames hopen hsrc counts
  rw [hsink, List.nil_append, payloadBits_eq_flatMap] at sink
  have pad := padLength_spec (msbFirst 32 Config.magic.toNat ++ tree.header ++
    (S.map (byteCode (treeCodes tree))).flatMap (fun p => p.2) ++ eosCode).length
  refine ⟨t, tree, S.map (byteCode (treeCodes tree)), eosCode, _, run, done, sink, pad.1, ?_, header_length tree,
    syms.nodup_iff.2 (countedSyms_nodup _), fun sym => mem_syms_of_counted counts syms, ?_, ?_, eosMem⟩
  · rw [sink, Sink.close, List.length_append, List.length_replicate]
    exact pad.2
  · rw [List.map_map]
    rfl
  · intro p hp
    obtain ⟨b, hb, rfl⟩ := List.mem_map.1 hp
    obtain ⟨-, -, -, mem⟩ := byteCode_mem counts syms hb
    exact mem

end

section
/-! COUNT over whatever bits are left, to its end and to its overflow (40_frequency_counter.md R141 to R143). -/

namespace Sys2Proof.Machine

/-- A bit string is its whole bytes and fewer than eight bits after them (R70). -/
theorem bits_eq_bytes_append :
    (bits : Bits) → ∃ tail, bits = bitsOfBytes (bytesOfBits bits) ++ tail ∧ tail.length < 8
  | a :: b :: c :: d :: e :: f :: g :: h :: rest => by
    obtain ⟨tail, split, short⟩ := bits_eq_bytes_append rest
    have byte := msbFirst_ofNat_fromMsb (n := 8) (bs := [a, b, c, d, e, f, g, h]) rfl
    refine ⟨tail, ?_, short⟩
    rw [bytesOfBits, bitsOfBytes_cons, byte, List.append_assoc, ← split]
    rfl
  | [] | [_] | [_, _] | [_, _, _] | [_, _, _, _] | [_, _, _, _, _] | [_, _, _, _, _, _] | [_, _, _, _, _, _, _] =>
    ⟨_, rfl, by simp⟩

/-- A cleared FREQ has room for as many of each byte as the limit says (R141). -/
theorem countsFit_cleared {limit : Count} {bytes : List Byte} (h : ∀ b, bytes.count b ≤ limit.toNat) :
    CountsFit limit bytes (Table.fill Config.nsym 0) := fun b =>
  ⟨0, by rw [Table.read_fill, if_pos (byte_lt_nsym b)], (Nat.zero_add _).trans_le (h b)⟩

/-- The counts of bytes over a cleared FREQ (R142). -/
theorem read_addCounts_cleared (bytes : List Byte) (b : Byte) :
    (addCounts bytes (Table.fill Config.nsym 0)).read b.toNat = some (BitVec.ofNat 32 (bytes.count b)) := by
  rw [read_addCounts (c := 0) (by rw [Table.read_fill, if_pos (byte_lt_nsym b)]), BitVec.ofNat_eq_ofNat, BitVec.zero_add]

/-- The sentinel's count leaves the bytes' counts alone (R142). -/
theorem read_countTable (bytes : List Byte) (b : Byte) :
    (countTable bytes).read b.toNat = some (BitVec.ofNat 32 (bytes.count b)) := by
  have notEos : Config.eos ≠ b.toNat := b.isLt.ne'
  rw [countTable, Table.read_write_other _ _ notEos, read_addCounts_cleared]

/-- The counts of the numbers below a bound add up to a list's length when all of its members are below it. -/
theorem sum_count_range {l : List Nat} {n : Nat} (h : ∀ v ∈ l, v < n) :
    ((List.range n).map fun i => l.count i).sum = l.length := by
  have total := Multiset.sum_count_eq_card (s := Finset.range n) (m := l) fun v hv => Finset.mem_range.2 (h v hv)
  simp only [Multiset.coe_count, Multiset.coe_card] at total
  exact total

/-- A byte string has as many bytes as its 256 counts add up to. -/
theorem sum_count_bytes (bytes : List Byte) :
    ((List.range 256).map fun i => bytes.count (BitVec.ofNat 8 i)).sum = bytes.length := by
  have small : ∀ v ∈ bytes.map BitVec.toNat, v < 256 := List.forall_mem_map.2 fun b _ => b.isLt
  have toNat {i : Nat} (hi : i ∈ List.range 256) :
      bytes.count (BitVec.ofNat 8 i) = (bytes.map BitVec.toNat).count i := by
    rw [← List.count_map_of_injective _ _ BitVec.toNat_injective, BitVec.toNat_ofNat, Nat.mod_eq_of_lt (List.mem_range.1 hi)]
  rw [List.map_congr_left fun i hi => toNat hi, sum_count_range small, List.length_map]

/-- The counts COUNT leaves add up to the number of bytes, when none of them overflows (R142). -/
theorem sum_countTable {bytes : List Byte} (h : ∀ b, bytes.count b ≤ 2 ^ 32 - 1) :
    ((List.range 256).map fun i => (((countTable bytes).read i).getD 0).toNat).sum = bytes.length := by
  refine Eq.trans (congrArg List.sum (List.map_congr_left fun i hi => ?_)) (sum_count_bytes bytes)
  have toNat : (BitVec.ofNat 8 i).toNat = i := Nat.mod_eq_of_lt (List.mem_range.1 hi)
  have read := read_countTable bytes (BitVec.ofNat 8 i)
  rw [toNat] at read
  have fits := h (BitVec.ofNat 8 i)
  rw [read, Option.getD_some, BitVec.toNat_ofNat, Nat.mod_eq_of_lt (by omega)]

/-- COUNT's loop over a byte whose count is full (R143). -/
theorem countLoop_full {limit : Count} {fuel : Nat} {s : State} {b : Byte} {rest : Bits}
    (h : s.src.remaining = msbFirst 8 b.toNat ++ rest) (hc : s.freq.read b.toNat = some limit) :
    countLoop limit (fuel + 1) s = .raised ((s.moved 8).errorEntry .countOverflow (b.setWidth 32) false) := by
  rw [countLoop, readBits_byte h]
  dsimp only
  rw [readFreq_eq_ok.2 ⟨byte_lt_nsym b, by exact hc, rfl⟩, Run.bind_ok, if_pos rfl, Run.raise]

/-- COUNT up to the first byte that arrives with its count full: FREQ holds the counts of the bytes before it (R143). -/
theorem countRun_full {limit : Count} {s : State} {before : List Byte} {b : Byte} {rest : Bits}
    (h : s.src.remaining = bitsOfBytes before ++ (msbFirst 8 b.toNat ++ rest)) (full : before.count b = limit.toNat)
    (hc : ∀ c, before.count c ≤ limit.toNat) :
    countRun limit s = .raised (State.errorEntry .countOverflow (b.setWidth 32) false
      { s.moved (8 * (before.length + 1)) with freq := addCounts before (Table.fill Config.nsym 0) }) := by
  have fuel : s.src.remaining.length + 1 = before.length + (7 * before.length + 8 + rest.length + 1) := by
    rw [h, List.length_append, List.length_append, bitsOfBytes_length, msbFirst_length]
    omega
  have arrives : (s.moved (8 * before.length)).src.remaining = msbFirst 8 b.toNat ++ rest :=
    bitsOfBytes_length before ▸ remaining_after h
  have atLimit : (addCounts before (Table.fill Config.nsym 0)).read b.toNat = some limit := by
    rw [read_addCounts_cleared, full, BitVec.ofNat_toNat, BitVec.setWidth_eq]
  rw [countRun, fuel, countLoop_bytes before (by exact h) (countsFit_cleared hc),
    countLoop_full (by exact arrives) (by exact atLimit), Run.bind_raised]
  rfl

/-- COUNT raises nothing but COUNT_OVERFLOW (R143). -/
theorem countRun_eq_raised {limit : Count} {s t : State} (h : countRun limit s = .raised t) :
    ∃ freq pos, ∃ v : Byte, t = State.errorEntry .countOverflow (v.setWidth 32) false
      { s with freq := freq, src := { s.src with pos := pos } } := by
  rcases Run.bind_eq_raised.1 h with h | ⟨_, u, -, h⟩
  · obtain ⟨freq, pos, v, rfl⟩ := countLoop_frame.2 t h
    exact ⟨freq, pos, v, rfl⟩
  · rcases Run.bind_eq_raised.1 h with h | ⟨_, v, -, h⟩
    · exact absurd h writeFreq_ne_raised
    · exact absurd h (by simp)

end Sys2Proof.Machine

open Sys2Proof Sys2Proof.Machine

/-- Settles O18: the bits left are their whole bytes and a part of one, over which COUNT leaves `countTable`. -/
theorem countCountsBytes : Obligations.CountCountsBytes := by
  unfold Obligations.CountCountsBytes
  intro s counts
  obtain ⟨tail, split, short⟩ := bits_eq_bytes_append s.src.remaining
  exact ⟨countTable (bytesOfBits s.src.remaining),
    congrArg Run.outcome (countRun_bytes (limit := Config.countMax) split short counts),
    read_countTable _, Table.read_write_same .., sum_countTable counts⟩

/-- Settles O19: up to the byte whose count is full no count overflows (`countRun_full`), and every raise of COUNT has the
form of `countRun_eq_raised`. -/
theorem countOverflowRaised : Obligations.CountOverflowRaised := by
  unfold Obligations.CountOverflowRaised
  refine ⟨fun limit s before after b arrives full counts => ?_, fun limit s t h => ?_, fun s => ?_⟩
  · obtain ⟨tail, split, -⟩ := bits_eq_bytes_append s.src.remaining
    rw [arrives, bitsOfBytes, List.flatMap_append, List.flatMap_cons, List.append_assoc, List.append_assoc] at split
    refine ⟨_, countRun_full split full counts, ?_⟩
    rw [read_addCounts_cleared, full, BitVec.ofNat_toNat, BitVec.setWidth_eq]
  · obtain ⟨freq, pos, v, rfl⟩ := countRun_eq_raised h
    refine ⟨State.errorEntry_errCause .., State.errorEntry_errEoi .., ?_⟩
    rw [State.errorEntry_errInfo, BitVec.toNat_setWidth_of_le (by decide)]
    exact Nat.le_of_lt_succ v.isLt
  · have limit : Config.countMax = BitVec.ofNat 32 (2 ^ 32 - 1) := by decide
    rw [← limit]
    rfl

/-- Settles O20: the form of COUNT's next states. -/
theorem countFrame : Obligations.CountFrame := by
  unfold Obligations.CountFrame
  exact fun s t h => exec_count_next h

end

section
/-! PopMin over every live set: the node it takes out is first in the removal order (41_tree_builder.md R152). -/

namespace Sys2Proof.Machine

/-! ## The removal order -/

theorem goesBefore_iff {w v : Weight} {a b : Nat} : goesBefore w a v b = true ↔ w < v ∨ (w = v ∧ a < b) := by
  simp [goesBefore]

theorem goesBefore_trans {w v x : Weight} {a b c : Nat} (h : goesBefore w a v b = true) (h' : goesBefore v b x c = true) :
    goesBefore w a x c = true := by
  rw [goesBefore_iff] at *
  rcases h with h | ⟨rfl, h⟩
  · rcases h' with h' | ⟨rfl, -⟩
    · exact .inl (BitVec.lt_trans h h')
    · exact .inl h
  · exact h'.imp_right fun ⟨e, h'⟩ => ⟨e, h.trans h'⟩

/-- Two nodes are in one order or the other, their indexes being distinct (R152). -/
theorem goesBefore_of_not {w v : Weight} {a b : Nat} (h : ¬ goesBefore w a v b = true) (hab : a ≠ b) :
    goesBefore v b w a = true := by
  rw [goesBefore_iff] at *
  bv_omega

/-- The first in the order is no heavier. -/
theorem weight_le_of_goesBefore {w v : Weight} {a b : Nat} (h : goesBefore w a v b = true) : w.toNat ≤ v.toNat := by
  rw [goesBefore_iff] at h
  bv_omega

/-- Node `m` is before every other node of a list in the removal order (R152). -/
def FirstOf (node : Table Node) (m : Nat) (l : List Nat) : Prop :=
  ∀ i ∈ l, i ≠ m → ∃ n nm, node.read i = some n ∧ node.read m = some nm ∧
    goesBefore nm.weight m n.weight i = true

/-- A node after one of a list's nodes is after the first of them. -/
theorem FirstOf.cons_after {node : Table Node} {m i j : Nat} {l : List Nat} {ni nj : Node} (h : FirstOf node m l)
    (hi : i ∈ l) (ri : node.read i = some ni) (rj : node.read j = some nj)
    (before : goesBefore ni.weight i nj.weight j = true) : FirstOf node m (j :: l) := by
  refine List.forall_mem_cons.2 ⟨fun _ => ?_, h⟩
  by_cases him : i = m
  · exact ⟨nj, ni, rj, him ▸ ri, him ▸ before⟩
  · obtain ⟨ni', nm, ri', rm, hmi⟩ := h i hi him
    obtain rfl := Option.some.inj (ri'.symm.trans ri)
    exact ⟨nj, nm, rj, rm, goesBefore_trans hmi before⟩

/-- The scan of LIVE ends with the first of the nodes scanned and the one it began with (R152). -/
theorem firstInOrder_first {l : List Nat} {m r : Nat} {n : Node} {s u : State} (hm : s.node.read m = some n)
    (h : firstInOrder n.weight m l s = .ok r u) : FirstOf s.node r (m :: l) := by
  induction l generalizing m n with
  | nil =>
    obtain ⟨rfl, -⟩ := Run.ok.inj h
    exact fun i hi hne => absurd (List.mem_singleton.1 hi) hne
  | cons j rest ih =>
    obtain ⟨nj, v, hv, scan⟩ := Run.bind_eq_ok.1 h
    obtain ⟨-, hj, rfl⟩ := readNode_eq_ok.1 hv
    split at scan
    · next before => exact (ih hj scan).cons_after (List.mem_cons_self ..) hj hm before
    · next after =>
      have first := ih hm scan
      by_cases hmj : m = j
      · exact List.forall_mem_cons.2 ⟨first m (List.mem_cons_self ..), hmj ▸ first⟩
      · have first' := first.cons_after (List.mem_cons_self ..) hm hj (goesBefore_of_not after (Ne.symm hmj))
        exact fun i hi => first' i ((List.Perm.swap j m rest).mem_iff.1 hi)

/-- PopMin takes out the first of the live nodes (R152). -/
theorem popMin_first {m : Nat} {s u : State} (h : popMin s = .ok m u) : FirstOf s.node m s.live := by
  unfold popMin at h
  split at h
  · simp at h
  · next i rest hl =>
    obtain ⟨n, v, hv, scans⟩ := Run.bind_eq_ok.1 h
    obtain ⟨-, hi, rfl⟩ := readNode_eq_ok.1 hv
    obtain ⟨r, w, scan, ends⟩ := Run.bind_eq_ok.1 scans
    obtain ⟨rfl, -⟩ := Run.ok.inj ends
    rw [hl]
    exact firstInOrder_first hi scan

end Sys2Proof.Machine

open Sys2Proof Sys2Proof.Machine

/-- Settles O21: the scan of LIVE ends with the first node, and answers where it reads written entries only. -/
theorem popMinOrder : Obligations.PopMinOrder := by
  unfold Obligations.PopMinOrder
  refine ⟨fun s u m h => ?_, fun s live written => popMin_answers live written⟩
  obtain ⟨hm, hu⟩ := popMin_eq_ok h
  refine ⟨hm, hu, fun i hi hne => ?_⟩
  obtain ⟨n, nm, hn, hnm, before⟩ := popMin_first h i hi hne
  exact ⟨n, nm, hn, hnm, goesBefore_iff.1 before⟩

end

section
/-! What BUILD writes and where it ends: the leaves at the counted symbols, the merges at the indexes from 257 on
(41_tree_builder.md R151 to R154). -/

namespace Sys2Proof.Machine

open Sys2Proof.Safety

/-! ## Part 1 -/

/-- The leaves leave NODE alone where no symbol is counted (R151). -/
theorem buildLeaves_node {l : List Nat} {s t : State} (h : buildLeaves l s = .ok () t) {i : Nat}
    (hi : i ∈ l → s.freq.read i = some 0) : t.node.read i = s.node.read i := by
  induction l generalizing s with
  | nil => obtain ⟨-, rfl⟩ := Run.ok.inj h; rfl
  | cons k rest ih =>
    obtain ⟨c, u, hc, leaves⟩ := Run.bind_eq_ok.1 h
    obtain ⟨-, hc, rfl⟩ := readFreq_eq_ok.1 hc
    split at leaves
    · exact ih leaves fun hr => hi (List.mem_cons_of_mem _ hr)
    · next counted =>
      obtain ⟨_, v, hv, leaves⟩ := Run.bind_eq_ok.1 leaves
      obtain ⟨-, rfl⟩ := writeNode_eq_ok.1 hv
      have hne : k ≠ i := by
        rintro rfl
        exact counted (Option.some.inj (hc.symm.trans (hi (List.mem_cons_self ..))))
      exact (ih leaves fun hr => hi (List.mem_cons_of_mem _ hr)).trans (Table.read_write_other _ _ hne)

/-- Every live node's entry is the leaf of its own index. -/
def LiveAreLeaves (s : State) : Prop :=
  ∀ i ∈ s.live, ∃ w, s.node.read i = some (leafNode (BitVec.ofNat 9 i) w)

theorem buildLeaves_liveAreLeaves {l : List Nat} {s t : State} (h : buildLeaves l s = .ok () t) (hs : LiveAreLeaves s) :
    LiveAreLeaves t := by
  induction l generalizing s with
  | nil => obtain ⟨-, rfl⟩ := Run.ok.inj h; exact hs
  | cons k rest ih =>
    obtain ⟨c, u, hc, leaves⟩ := Run.bind_eq_ok.1 h
    obtain ⟨-, -, rfl⟩ := readFreq_eq_ok.1 hc
    split at leaves
    · exact ih leaves hs
    · obtain ⟨_, v, hv, leaves⟩ := Run.bind_eq_ok.1 leaves
      obtain ⟨-, rfl⟩ := writeNode_eq_ok.1 hv
      refine ih leaves fun i hi => ?_
      by_cases hik : k = i
      · subst hik
        exact ⟨_, Table.read_write_same ..⟩
      · obtain ⟨w, hw⟩ := hs i (((mem_liveInsert _).1 hi).resolve_left (Ne.symm hik))
        exact ⟨w, (Table.read_write_other _ _ hik).trans hw⟩

/-- Part 1 leaves the forest of the counted symbols' leaves, each at its symbol (R151). -/
theorem buildLeaves_counted {s u : State} (ready : FreqReady s)
    (h : buildLeaves (List.range Config.nsym) { s with live := [], nlive := 0 } = .ok () u) :
    ∃ F, Forest u (countIn s.freq) Config.nsym F ∧ (∀ p ∈ F, p.2 = .leaf (BitVec.ofNat 9 p.1)) ∧
      (forestSyms F).Perm (countedSyms s.freq) := by
  obtain ⟨t, F, ht, f, hF⟩ := buildLeaves_forest (s := { s with live := [], nlive := 0 }) (F := []) (k := 0) Config.nsym
    (by omega) ready.1 ⟨by simp, by simp, by simp, rfl⟩ (Nat.le_refl _)
  rw [← List.range_eq_range'] at ht hF
  obtain ⟨-, rfl⟩ := Run.ok.inj (h.symm.trans ht)
  have leaves := buildLeaves_liveAreLeaves h fun i hi => absurd hi (List.not_mem_nil)
  refine ⟨F, Nat.zero_add Config.nsym ▸ f, fun ⟨i, tree⟩ hp => ?_, hF⟩
  obtain ⟨w, hw⟩ := leaves i (f.live.mem_iff.1 (List.mem_map.2 ⟨_, hp, rfl⟩))
  have held := f.held _ hp
  cases tree with
  | leaf sym =>
    obtain ⟨-, n, hn, -, rfl, -⟩ := held
    obtain rfl := Option.some.inj (hw.symm.trans hn)
    rfl
  | node l r =>
    obtain ⟨-, n, hn, kind, -⟩ := held
    obtain rfl := Option.some.inj (hw.symm.trans hn)
    cases kind

/-- A forest of leaves has a leaf symbol for each tree. -/
theorem forestSyms_of_leaves {F : List (Nat × Tree)} (h : ∀ p ∈ F, p.2 = .leaf (BitVec.ofNat 9 p.1)) :
    forestSyms F = F.map fun p => BitVec.ofNat 9 p.1 := by
  rw [forestSyms, List.map_eq_flatMap]
  exact List.flatMap_congr fun p hp => by rw [h p hp]; rfl

/-! ## Part 2 -/

/-- A merge takes NEXT, writes there only, and makes it live (R153). -/
theorem mergeOnce_at_next {s u : State} (h : mergeOnce s = .ok () u) :
    u.next.toNat = s.next.toNat + 1 ∧ s.next.toNat ∈ u.live ∧
      ∀ i, i ≠ s.next.toNat → u.node.read i = s.node.read i := by
  obtain ⟨a, b, na, nb, -, -, -, -, hn, rfl⟩ := mergeOnce_eq_ok h
  exact ⟨idx_toNat_succ (Nat.le_of_lt hn), (mem_liveInsert _).2 (.inl rfl), fun i hi =>
    Table.read_write_other _ _ (Ne.symm hi)⟩

/-- The merges write NODE from the first NEXT up to the last only (R153). -/
theorem mergeLoop_node {fuel : Nat} {s t : State} (h : mergeLoop fuel s = .ok () t) :
    s.next.toNat ≤ t.next.toNat ∧
      ∀ i, i < s.next.toNat ∨ t.next.toNat ≤ i → t.node.read i = s.node.read i := by
  induction fuel generalizing s with
  | zero => simp [mergeLoop] at h
  | succ fuel ih =>
    simp only [mergeLoop] at h
    split at h
    · obtain ⟨-, rfl⟩ := Run.ok.inj h
      exact ⟨Nat.le_refl _, fun _ _ => rfl⟩
    · obtain ⟨_, u, hu, loop⟩ := Run.bind_eq_ok.1 h
      obtain ⟨hnext, -, kept⟩ := mergeOnce_at_next hu
      obtain ⟨hle, rest⟩ := ih loop
      exact ⟨by omega, fun i hi => (rest i (by omega)).trans (kept i (by omega))⟩

/-- Where anything is merged, the node made last is live at the end (R153). -/
theorem mergeLoop_last {fuel : Nat} {s t : State} (h : mergeLoop fuel s = .ok () t) :
    t = s ∨ t.next.toNat - 1 ∈ t.live := by
  induction fuel generalizing s with
  | zero => simp [mergeLoop] at h
  | succ fuel ih =>
    simp only [mergeLoop] at h
    split at h
    · obtain ⟨-, rfl⟩ := Run.ok.inj h
      exact .inl rfl
    · obtain ⟨_, u, hu, loop⟩ := Run.bind_eq_ok.1 h
      obtain ⟨hnext, live, -⟩ := mergeOnce_at_next hu
      rcases ih loop with rfl | last
      · exact .inr (by rwa [hnext, Nat.add_sub_cancel])
      · exact .inr last

/-! ## The whole of BUILD -/

/-- BUILD leaves NODE alone at the symbols with count 0 and from the final NEXT up (R151, R153). -/
theorem buildRun_node {s t : State} (h : buildRun s = .ok () t) :
    (∀ i < 257, s.freq.read i = some 0 → t.node.read i = s.node.read i) ∧
      ∀ i, 257 ≤ i → t.next.toNat ≤ i → t.node.read i = s.node.read i := by
  obtain ⟨u, v, hu, hv, finish⟩ := buildRun_eq_ok h
  obtain ⟨r, -, rfl⟩ := buildFinish_eq_ok finish
  obtain ⟨-, merges⟩ := mergeLoop_node hv
  refine ⟨fun i hi zero => ?_, fun i hi hn => ?_⟩
  · exact (merges i (.inl hi)).trans (buildLeaves_node hu fun _ => zero)
  · exact (merges i (.inr hn)).trans (buildLeaves_node hu fun hmem => absurd (List.mem_range.1 hmem) (Nat.not_lt.2 hi))

/-- The sentinel alone counted, its leaf is the forest (R154, R158 a). -/
theorem live_of_sentinel_only {s u : State} {F : List (Nat × Tree)} (ready : FreqReady s)
    (f : Forest u (countIn s.freq) Config.nsym F) (leaves : ∀ p ∈ F, p.2 = .leaf (BitVec.ofNat 9 p.1))
    (syms : (forestSyms F).Perm (countedSyms s.freq)) (one : F.length = 1) : u.live = [256] := by
  obtain ⟨p, rfl⟩ := List.length_eq_one_iff.1 one
  have hlive : u.live = [p.1] := List.perm_singleton.1 f.live.symm
  have hp : p.1 < 257 := (f.live_lt p.1 (by simp [hlive])).1
  have sentinel := syms.mem_iff.2 (sentinel_mem_countedSyms ready.2)
  rw [forestSyms_of_leaves leaves, List.map_singleton, List.mem_singleton] at sentinel
  rw [hlive, show p.1 = 256 by bv_omega]

/-- With L symbols counted BUILD ends with 255 + L the one live node, which is ROOT, and NEXT = 256 + L (R154). -/
theorem buildRun_ends {s t : State} (ready : FreqReady s) (h : buildRun s = .ok () t) :
    t.nlive = 1 ∧ t.next.toNat = 256 + (countedSyms s.freq).length ∧ t.live = [255 + (countedSyms s.freq).length] ∧
      t.root = BitVec.ofNat 10 (255 + (countedSyms s.freq).length) := by
  obtain ⟨u, v, hu, hv, finish⟩ := buildRun_eq_ok h
  obtain ⟨r, hr, rfl⟩ := buildFinish_eq_ok finish
  obtain ⟨F, f, leaves, syms⟩ := buildLeaves_counted ready hu
  have hL : F.length = (countedSyms s.freq).length := by
    rw [← syms.length_eq, forestSyms_of_leaves leaves, List.length_map]
  have hle := countedSyms_length_le s.freq
  rw [← hL] at hle ⊢
  have hnlive := f.nlive
  obtain ⟨one, hnext⟩ := mergeLoop_counts hv rfl (by simp [Config.nsym] at hle ⊢; omega)
  replace hnext : v.next.toNat + 1 = 257 + u.nlive.toNat := hnext
  have root : r = 255 + F.length := by
    have alone : F.length = 1 → u.live = [256] := live_of_sentinel_only ready f leaves syms
    rcases mergeLoop_last hv with rfl | last
    · have hF : F.length = 1 := by rw [← hnlive, show u.nlive = 1 from one]; rfl
      have hlive : [r] = [256] := hr.symm.trans (alone hF)
      rw [hF]
      exact List.singleton_inj.1 hlive
    · rw [hr, List.mem_singleton] at last
      omega
  exact ⟨one, by show v.next.toNat = _; omega, root ▸ hr, root ▸ rfl⟩

/-- A symbol that is not counted has count 0 (R151). -/
theorem read_freq_of_not_counted {s : State} (ready : FreqReady s) {i : Nat} (hi : i < 257)
    (h : BitVec.ofNat 9 i ∉ countedSyms s.freq) : s.freq.read i = some 0 := by
  obtain ⟨c, hc⟩ := Option.isSome_iff_exists.1 (ready.1 i hi)
  have toNat : (BitVec.ofNat 9 i).toNat = i := Nat.mod_eq_of_lt (by omega)
  have zero : ¬ countIn s.freq (BitVec.ofNat 9 i) ≠ 0 := fun ne =>
    h (List.mem_filter.2 ⟨List.mem_map.2 ⟨i, List.mem_range.2 hi, rfl⟩, bne_iff_ne.2 ne⟩)
  rw [not_not, countIn, toNat, hc, Option.getD_some] at zero
  exact hc.trans (congrArg some (BitVec.eq_of_toNat_eq zero))

end Sys2Proof.Machine

open Sys2Proof Sys2Proof.Machine Sys2Proof.Safety

/-- Settles O25: the form of BUILD's next states, and where its two parts write NODE. -/
theorem buildFrame : Obligations.BuildFrame := by
  unfold Obligations.BuildFrame
  intro s t h
  obtain ⟨zero, above⟩ := buildRun_node (exec_build_eq_next.1 h)
  obtain ⟨node, live, nlive, next, root, rfl⟩ := exec_build_next h
  exact ⟨node, live, nlive, next, root, rfl, zero, above⟩

/-- Settles O22: BUILD answers (`buildRun_tree`), and each merge takes one from NLIVE and adds one to NEXT
(`buildRun_ends`); 255 + L is 256 when L = 1, so ROOT has one form. -/
theorem buildEndsAtRoot : Obligations.BuildEndsAtRoot := by
  unfold Obligations.BuildEndsAtRoot
  rintro s L r ready rfl hr
  obtain ⟨t, -, run, -⟩ := buildRun_tree ready
  obtain ⟨hnlive, hnext, hlive, hroot⟩ := buildRun_ends ready run
  obtain ⟨zero, above⟩ := buildRun_node run
  have root : r = 255 + (countedSyms s.freq).length := by rw [hr]; split <;> omega
  have next : t.next = BitVec.ofNat 10 (256 + (countedSyms s.freq).length) := by
    rw [← hnext, BitVec.ofNat_toNat, BitVec.setWidth_eq]
  have answers := exec_build_eq_next.2 run
  obtain ⟨node, live, nlive, next', root', rfl⟩ := exec_build_next answers
  subst root next hnlive hlive hroot
  refine ⟨node, answers, fun i hi h => zero i hi (read_freq_of_not_counted ready hi h), fun i hi hi' => above i hi' ?_⟩
  exact hnext.trans_le hi

end

section
/-! Huffman's exchange, over weights and depths alone (41_tree_builder.md R156): in the place of two deepest siblings a
binary tree can have its two lightest leaves, at no greater cost, and these joined into one leaf. -/

namespace Sys2Proof.Machine

open Sys2Proof.Safety

/-! ## Leaf depths -/

/-- The leaf depths of a binary tree: a leaf alone, or a leaf split into two one deeper. -/
inductive LeafDepths : Multiset Nat → Prop
  | root : LeafDepths {0}
  | split {d : Nat} {S : Multiset Nat} : LeafDepths (d ::ₘ S) → LeafDepths ((d + 1) ::ₘ (d + 1) ::ₘ S)

/-- A tree with more than one leaf has two sibling leaves that no other leaf is deeper than. -/
theorem LeafDepths.deepest_siblings {S : Multiset Nat} (h : LeafDepths S) (more : S ≠ {0}) :
    ∃ d R, S = (d + 1) ::ₘ (d + 1) ::ₘ R ∧ (∀ x ∈ R, x ≤ d + 1) ∧ LeafDepths (d ::ₘ R) := by
  induction h with
  | root => exact absurd rfl more
  | @split d S h ih =>
    -- Before the split the tree was one leaf, or the leaf split was one of its deepest, or it was not.
    by_cases single : d ::ₘ S = {0}
    · obtain ⟨rfl, rfl⟩ := (Multiset.singleton_eq_cons_iff ..).1 single.symm
      exact ⟨0, 0, rfl, by simp, h⟩
    obtain ⟨e, R, hS, deep, joined⟩ := ih single
    by_cases hde : d = e + 1
    · subst hde
      obtain rfl := (Multiset.cons_inj_right _).1 hS
      have deep' : ∀ x ∈ (e + 1) ::ₘ R, x ≤ e + 1 + 1 :=
        Multiset.forall_mem_cons.2 ⟨Nat.le_succ _, fun x hx => (deep x hx).trans (Nat.le_succ _)⟩
      exact ⟨e + 1, (e + 1) ::ₘ R, rfl, deep', h⟩
    · have hd : d ∈ R := by
        have : d ∈ (e + 1) ::ₘ (e + 1) ::ₘ R := hS ▸ Multiset.mem_cons_self d S
        simpa [hde] using this
      obtain ⟨R, rfl⟩ := Multiset.exists_cons_of_mem hd
      have hS' : S = (e + 1) ::ₘ (e + 1) ::ₘ R := by
        rw [Multiset.cons_swap (e + 1) d, Multiset.cons_swap (e + 1) d] at hS
        exact (Multiset.cons_inj_right d).1 hS
      obtain ⟨hle, deep⟩ := Multiset.forall_mem_cons.1 deep
      have deep' : ∀ x ∈ (d + 1) ::ₘ R, x ≤ e + 1 := Multiset.forall_mem_cons.2 ⟨by omega, deep⟩
      refine ⟨e, (d + 1) ::ₘ (d + 1) ::ₘ R, ?_, Multiset.forall_mem_cons.2 ⟨by omega, deep'⟩, ?_⟩
      · simp only [hS', ← Multiset.singleton_add]
        abel
      · rw [Multiset.cons_swap e, Multiset.cons_swap e]
        exact (Multiset.cons_swap e d R ▸ joined).split

/-! ## Weighted path length -/

/-- The sum of weight times depth over leaves given as such pairs (R156). -/
def pathLength (P : Multiset (Nat × Nat)) : Nat := (P.map fun p => p.1 * p.2).sum

@[simp] theorem pathLength_cons (p : Nat × Nat) (P : Multiset (Nat × Nat)) :
    pathLength (p ::ₘ P) = p.1 * p.2 + pathLength P := by simp [pathLength]

/-- Some binary tree with leaves of the weights `W` has weighted path length at most `c`. -/
def PathLengthAtMost (W : Multiset Nat) (c : Nat) : Prop :=
  ∃ P : Multiset (Nat × Nat), P.map Prod.fst = W ∧ LeafDepths (P.map Prod.snd) ∧ pathLength P ≤ c

/-- A lightest leaf exchanged with a deepest one, and taken out: the path length has not grown. -/
theorem exchange_lightest_deepest {P : Multiset (Nat × Nat)} {w d : Nat} {W S : Multiset Nat}
    (weights : P.map Prod.fst = w ::ₘ W) (depths : P.map Prod.snd = d ::ₘ S) (light : ∀ x ∈ W, w ≤ x)
    (deep : ∀ x ∈ S, x ≤ d) :
    ∃ Q : Multiset (Nat × Nat), Q.map Prod.fst = W ∧ Q.map Prod.snd = S ∧ w * d + pathLength Q ≤ pathLength P := by
  obtain ⟨⟨w', e⟩, hp, hw, hW⟩ := (Multiset.map_eq_cons ..).2 weights
  obtain rfl : w' = w := hw
  obtain ⟨P, rfl⟩ := Multiset.exists_cons_of_mem hp
  rw [Multiset.erase_cons_head] at hW
  rw [Multiset.map_cons] at depths
  by_cases hed : e = d
  · subst hed
    exact ⟨P, hW, (Multiset.cons_inj_right _).1 depths, by simp⟩
  · have hd : d ∈ P.map Prod.snd := by
      have : d ∈ e ::ₘ P.map Prod.snd := depths ▸ Multiset.mem_cons_self d S
      exact (Multiset.mem_cons.1 this).resolve_left (Ne.symm hed)
    obtain ⟨⟨x, d'⟩, hx, hd'⟩ := Multiset.mem_map.1 hd
    obtain rfl : d' = d := hd'
    obtain ⟨P, rfl⟩ := Multiset.exists_cons_of_mem hx
    rw [Multiset.map_cons, Multiset.cons_swap] at depths
    have hS := (Multiset.cons_inj_right _).1 depths
    have hwx : w' ≤ x := light x (hW ▸ Multiset.mem_map_of_mem Prod.fst hx)
    have hed : e ≤ d' := deep e (hS ▸ Multiset.mem_cons_self ..)
    refine ⟨(x, e) ::ₘ P, by simpa using hW, by simpa using hS, ?_⟩
    have exchange := mul_add_mul_le_mul_add_mul hwx hed
    simp only [pathLength_cons]
    omega

/-- The two lightest leaves joined into one: some tree over the weights left is shorter by their sum (R153, R156). -/
theorem PathLengthAtMost.join {a b c : Nat} {W : Multiset Nat} (h : PathLengthAtMost (a ::ₘ b ::ₘ W) c)
    (lightA : ∀ x ∈ b ::ₘ W, a ≤ x) (lightB : ∀ x ∈ W, b ≤ x) :
    ∃ c', PathLengthAtMost ((a + b) ::ₘ W) c' ∧ c' + (a + b) ≤ c := by
  obtain ⟨P, weights, depths, le⟩ := h
  have more : P.map Prod.snd ≠ {0} := fun single => by
    have card := congrArg Multiset.card weights
    have card' := congrArg Multiset.card single
    simp only [Multiset.card_map, Multiset.card_cons, Multiset.card_singleton] at card card'
    omega
  obtain ⟨d, R, hS, deep, joined⟩ := depths.deepest_siblings more
  have deep' : ∀ x ∈ (d + 1) ::ₘ R, x ≤ d + 1 := Multiset.forall_mem_cons.2 ⟨Nat.le_refl _, deep⟩
  obtain ⟨Q, hQw, hQd, leQ⟩ := exchange_lightest_deepest weights hS lightA deep'
  obtain ⟨T, hTw, hTd, leT⟩ := exchange_lightest_deepest hQw hQd lightB deep
  refine ⟨(a + b) * d + pathLength T, ⟨(a + b, d) ::ₘ T, by simp [hTw], by simpa [hTd] using joined, by simp⟩, ?_⟩
  calc (a + b) * d + pathLength T + (a + b) = a * (d + 1) + (b * (d + 1) + pathLength T) := by ring
    _ ≤ c := by omega

/-- A code tree's leaves, with their weights, at the depths of a binary tree: put in the place of a leaf at depth `d`. -/
theorem exists_leaves_of_tree (weight : Sym → Nat) (tree : Tree) (d : Nat) :
    ∃ P : Multiset (Nat × Nat), P.map Prod.fst = tree.syms.map weight ∧ pathLength P = tree.cost weight d ∧
      ∀ S, LeafDepths (d ::ₘ S) → LeafDepths (P.map Prod.snd + S) := by
  induction tree generalizing d with
  | leaf sym => exact ⟨{(weight sym, d)}, rfl, by simp [pathLength, Tree.cost], fun S h => by simpa using h⟩
  | node l r ihl ihr =>
    obtain ⟨P, hPw, hPc, hP⟩ := ihl (d + 1)
    obtain ⟨Q, hQw, hQc, hQ⟩ := ihr (d + 1)
    refine ⟨P + Q, by simp [hPw, hQw, Tree.syms], ?_, fun S h => ?_⟩
    · rw [Tree.cost, ← hPc, ← hQc]
      simp [pathLength]
    · have := hQ _ (Multiset.add_cons .. ▸ hP _ h.split)
      rwa [Multiset.map_add, add_assoc, add_left_comm]

theorem pathLengthAtMost_cost (weight : Sym → Nat) (tree : Tree) :
    PathLengthAtMost (tree.syms.map weight) (tree.cost weight 0) := by
  obtain ⟨P, weights, cost, depths⟩ := exists_leaves_of_tree weight tree 0
  exact ⟨P, weights, by simpa using depths 0 LeafDepths.root, cost.le⟩

/-- A tree one level deeper costs its weight more. -/
theorem cost_succ (weight : Sym → Nat) (tree : Tree) (d : Nat) :
    tree.cost weight (d + 1) = tree.cost weight d + tree.weight weight := by
  induction tree generalizing d with
  | leaf sym => simp [Tree.cost, Tree.weight, Nat.mul_succ]
  | node l r ihl ihr => simp only [Tree.cost, Tree.weight, ihl, ihr]; omega

end Sys2Proof.Machine

end

section
/-! BUILD builds an optimal tree (41_tree_builder.md R156). What the merges keep: the trees of the forest can be joined by a
binary tree whose whole cost is at most that of any given tree with the same leaves. -/

namespace Sys2Proof.Machine

open Sys2Proof.Safety

/-! ## The merges -/

/-- A merge with the order its two nodes are taken in (R152, R153). -/
theorem mergeOnce_takes_first {s u : State} (h : mergeOnce s = .ok () u) :
    ∃ a b na nb,
      a ∈ s.live ∧ b ∈ s.live.erase a ∧ FirstOf s.node a s.live ∧ FirstOf s.node b (s.live.erase a) ∧
      s.node.read a = some na ∧ s.node.read b = some nb ∧ s.next.toNat < Config.nodeCap ∧
      u = { s with
        node := s.node.write s.next.toNat
          (internalNode (na.weight + nb.weight) (BitVec.ofNat 10 a) (BitVec.ofNat 10 b))
        live := liveInsert s.next.toNat ((s.live.erase a).erase b)
        nlive := s.nlive - 1 - 1 + 1, next := s.next + 1 } := by
  obtain ⟨a, s1, popA, afterA⟩ := Run.bind_eq_ok.1 h
  have firstA := popMin_first popA
  obtain ⟨ha, rfl⟩ := popMin_eq_ok popA
  obtain ⟨b, s2, popB, afterB⟩ := Run.bind_eq_ok.1 afterA
  have firstB := popMin_first popB
  obtain ⟨hb, rfl⟩ := popMin_eq_ok popB
  obtain ⟨na, s3, readA, afterC⟩ := Run.bind_eq_ok.1 afterB
  obtain ⟨-, hna, rfl⟩ := readNode_eq_ok.1 readA
  obtain ⟨nb, s4, readB, afterD⟩ := Run.bind_eq_ok.1 afterC
  obtain ⟨-, hnb, rfl⟩ := readNode_eq_ok.1 readB
  obtain ⟨_, s5, write, ends⟩ := Run.bind_eq_ok.1 afterD
  obtain ⟨hn, rfl⟩ := writeNode_eq_ok.1 write
  exact ⟨a, b, na, nb, ha, hb, firstA, firstB, hna, hnb, hn, (Run.ok.inj ends).2.symm⟩

/-- The first of the live nodes has a tree no heavier than the others'. -/
theorem weight_le_of_firstOf {node : Table Node} {weight : Sym → Nat} {k m : Nat} {T : Tree} {G : List (Nat × Tree)}
    {l : List Nat} (heldM : holdsBelow node weight k T m) (held : ∀ p ∈ G, holdsBelow node weight k p.2 p.1)
    (roots : G.map Prod.fst ⊆ l) (first : FirstOf node m l) : ∀ p ∈ G, T.weight weight ≤ p.2.weight weight := by
  intro p hp
  obtain ⟨-, nm, hm, hwm⟩ := holdsBelow_root heldM
  obtain ⟨-, n, hn, hw⟩ := holdsBelow_root (held p hp)
  rw [← hwm, ← hw]
  by_cases hpm : p.1 = m
  · obtain rfl := Option.some.inj (hn.symm.trans (hpm ▸ hm))
    exact Nat.le_refl _
  · obtain ⟨n', nm', hn', hm', before⟩ := first p.1 (roots (List.mem_map_of_mem hp)) hpm
    obtain rfl := Option.some.inj (hn.symm.trans hn')
    obtain rfl := Option.some.inj (hm.symm.trans hm')
    exact weight_le_of_goesBefore before

theorem forest_weights (weight : Sym → Nat) (F : List (Nat × Tree)) :
    ((forestSyms F).map weight).sum = (F.map fun p => p.2.weight weight).sum := by
  induction F with
  | nil => rfl
  | cons p F ih =>
    rw [List.map_cons, List.sum_cons, treeWeight_eq_sum, ← ih, ← List.sum_append, ← List.map_append]
    rfl

/-- A merge joins the two lightest trees of the forest at NEXT (R152, R153). -/
theorem Forest.merge {s u : State} {weight : Sym → Nat} {F : List (Nat × Tree)} (f : Forest s weight s.next.toNat F)
    (hsum : ((forestSyms F).map weight).sum < 2 ^ 41) (h : mergeOnce s = .ok () u) :
    ∃ a b Ta Tb G, F.Perm ((a, Ta) :: (b, Tb) :: G) ∧
      Forest u weight u.next.toNat ((s.next.toNat, .node Ta Tb) :: G) ∧
      (∀ p ∈ (b, Tb) :: G, Ta.weight weight ≤ p.2.weight weight) ∧
      ∀ p ∈ G, Tb.weight weight ≤ p.2.weight weight := by
  obtain ⟨a, b, na, nb, ha, hb, firstA, firstB, hna, hnb, hn, rfl⟩ := mergeOnce_takes_first h
  obtain ⟨Ta, Fa, hFa, hla⟩ := exists_tree_of_root f.live ha
  obtain ⟨Tb, G, hFb, hlb⟩ := exists_tree_of_root hla hb
  have hF : F.Perm ((a, Ta) :: (b, Tb) :: G) := hFa.trans (hFb.cons _)
  have heldBG := fun p hp => f.held p (hF.mem_iff.2 (List.mem_cons_of_mem _ hp))
  have heldG := fun p hp => heldBG p (List.mem_cons_of_mem _ hp)
  have heldA : holdsBelow s.node weight s.next.toNat Ta a := f.held (a, Ta) (hF.mem_iff.2 (List.mem_cons_self ..))
  have heldB : holdsBelow s.node weight s.next.toNat Tb b := heldBG (b, Tb) (List.mem_cons_self ..)
  obtain ⟨hak, na', hna', hwa⟩ := holdsBelow_root heldA
  obtain ⟨hbk, nb', hnb', hwb⟩ := holdsBelow_root heldB
  obtain rfl := Option.some.inj (hna'.symm.trans hna)
  obtain rfl := Option.some.inj (hnb'.symm.trans hnb)
  have hlen := hF.length_eq
  simp only [List.length_cons] at hlen
  obtain ⟨t, H, ht, g, -, hH, hnext⟩ := mergeOnce_forest f (by omega) hn hsum
  obtain ⟨-, rfl⟩ := Run.ok.inj (ht.symm.trans h)
  have hadd : (na'.weight + nb'.weight).toNat = Ta.weight weight + Tb.weight weight := by
    have total := (hF.map fun p => p.2.weight weight).sum_eq
    simp only [List.map_cons, List.sum_cons, ← forest_weights] at total
    rw [BitVec.toNat_add, hwa, hwb]
    exact Nat.mod_eq_of_lt (by omega)
  have toNat {i : Nat} (hi : i < s.next.toNat) : (BitVec.ofNat 10 i).toNat = i :=
    Nat.mod_eq_of_lt (hi.trans s.next.isLt)
  have kept {T : Tree} {i : Nat} (v : Node) (hT : holdsBelow s.node weight s.next.toNat T i) :
      holdsBelow (s.node.write s.next.toNat v) weight (s.next.toNat + 1) T i :=
    holdsBelow_write hT (Nat.le_refl _) (Nat.le_succ _)
  have hnew : s.next.toNat ∉ (s.live.erase a).erase b := fun hm =>
    Nat.lt_irrefl _ (f.live_lt _ (List.mem_of_mem_erase (List.mem_of_mem_erase hm))).1
  refine ⟨a, b, Ta, Tb, G, hF, ⟨?_, (hlb.cons _).trans (liveInsert_perm hnew).symm, g.nodup, ?_⟩,
    weight_le_of_firstOf heldA heldBG (List.Subset.trans ((hFb.map _).symm.trans hla).subset List.erase_subset) firstA,
    weight_le_of_firstOf heldB heldG (List.Subset.trans hlb.subset List.erase_subset) firstB⟩
  · rw [hnext]
    refine List.forall_mem_cons.2 ⟨⟨Nat.lt_succ_self _, _, Table.read_write_same .., rfl, hadd, ?_, ?_⟩,
      fun p hp => kept _ (heldG p hp)⟩
    · exact (toNat hak).symm ▸ kept _ heldA
    · exact (toNat hbk).symm ▸ kept _ heldB
  · rw [g.nlive, List.length_cons]
    omega

/-! ## Completing a forest -/

/-- The forest's trees can be joined by a binary tree whose whole cost is at most `C`. -/
def CompletesWithin (weight : Sym → Nat) (F : List (Nat × Tree)) (C : Nat) : Prop :=
  ∃ c, PathLengthAtMost (F.map fun p => p.2.weight weight) c ∧ c + (F.map fun p => p.2.cost weight 0).sum ≤ C

theorem CompletesWithin.perm {weight : Sym → Nat} {F G : List (Nat × Tree)} {C : Nat} (h : CompletesWithin weight F C)
    (hFG : F.Perm G) : CompletesWithin weight G C := by
  obtain ⟨c, bound, le⟩ := h
  have weights := Multiset.coe_eq_coe.2 (hFG.map fun p => p.2.weight weight)
  have costs := (hFG.map fun p => p.2.cost weight 0).sum_eq
  exact ⟨c, weights ▸ bound, costs ▸ le⟩

/-- The forest with its two lightest trees joined can be completed as cheaply (R156). -/
theorem CompletesWithin.join {weight : Sym → Nat} {a b k : Nat} {Ta Tb : Tree} {G : List (Nat × Tree)} {C : Nat}
    (h : CompletesWithin weight ((a, Ta) :: (b, Tb) :: G) C)
    (lightA : ∀ p ∈ (b, Tb) :: G, Ta.weight weight ≤ p.2.weight weight)
    (lightB : ∀ p ∈ G, Tb.weight weight ≤ p.2.weight weight) :
    CompletesWithin weight ((k, .node Ta Tb) :: G) C := by
  obtain ⟨c, bound, le⟩ := h
  replace bound : PathLengthAtMost
      (Ta.weight weight ::ₘ Tb.weight weight ::ₘ ↑(G.map fun p => p.2.weight weight)) c := bound
  obtain ⟨c', bound', le'⟩ := bound.join
    (List.forall_mem_map.2 lightA) (List.forall_mem_map.2 lightB)
  refine ⟨c', bound', ?_⟩
  simp only [List.map_cons, List.sum_cons, Tree.cost, cost_succ] at le ⊢
  omega

/-- The leaves alone can be completed within the cost of any tree that has them. -/
theorem completesWithin_cost {weight : Sym → Nat} {F : List (Nat × Tree)} {other : Tree}
    (leaves : ∀ p ∈ F, p.2 = .leaf (BitVec.ofNat 9 p.1)) (h : other.syms.Perm (forestSyms F)) :
    CompletesWithin weight F (other.cost weight 0) := by
  have weights : (forestSyms F).map weight = F.map fun p => p.2.weight weight := by
    rw [forestSyms_of_leaves leaves, List.map_map]
    exact List.map_congr_left fun p hp => by rw [leaves p hp]; rfl
  have costs : (F.map fun p => p.2.cost weight 0).sum = 0 := by
    refine List.sum_eq_zero (List.forall_mem_map.2 fun p hp => ?_)
    rw [leaves p hp, Tree.cost, Nat.mul_zero]
  refine ⟨other.cost weight 0, ?_, by rw [costs]; omega⟩
  rw [← weights, ← Multiset.coe_eq_coe.2 (h.map weight)]
  exact pathLengthAtMost_cost weight other

/-- The merges end with one tree over the forest's leaves, no costlier than the forest could be completed (R153, R156). -/
theorem mergeLoop_cost_le {fuel : Nat} {s t : State} {weight : Sym → Nat} {F : List (Nat × Tree)}
    (h : mergeLoop fuel s = .ok () t) (f : Forest s weight s.next.toNat F)
    (hsum : ((forestSyms F).map weight).sum < 2 ^ 41) :
    ∃ r tree, Forest t weight t.next.toNat [(r, tree)] ∧ tree.syms.Perm (forestSyms F) ∧
      ∀ C, CompletesWithin weight F C → tree.cost weight 0 ≤ C := by
  induction fuel generalizing s F with
  | zero => simp [mergeLoop] at h
  | succ fuel ih =>
    simp only [mergeLoop] at h
    split at h
    · next one =>
      obtain ⟨-, rfl⟩ := Run.ok.inj h
      obtain ⟨⟨r, tree⟩, rfl⟩ := List.length_eq_one_iff.1 (f.nlive.symm.trans (one ▸ rfl))
      refine ⟨r, tree, f, by simp [forestSyms], fun C hC => ?_⟩
      obtain ⟨c, -, le⟩ := hC
      simp only [List.map_singleton, List.sum_singleton] at le
      omega
    · obtain ⟨_, u, hu, loop⟩ := Run.bind_eq_ok.1 h
      obtain ⟨a, b, Ta, Tb, G, hF, g, lightA, lightB⟩ := f.merge hsum hu
      have syms : (forestSyms ((s.next.toNat, .node Ta Tb) :: G)).Perm (forestSyms F) := by
        refine List.Perm.trans ?_ (hF.flatMap_right _).symm
        simp [forestSyms, Tree.syms]
      obtain ⟨r, tree, ft, htree, optimal⟩ := ih loop g (by rwa [(syms.map weight).sum_eq])
      exact ⟨r, tree, ft, htree.trans syms, fun C hC => optimal C ((hC.perm hF).join lightA lightB)⟩

/-! ## The whole of BUILD -/

/-- NODE holds one tree at an index (R22). -/
theorem eq_of_holdsTree {node : Table Node} {weight : Sym → Nat} {k : Nat} {tree tree' : Tree} {i : Idx}
    (h : holdsTree node tree i = true) (h' : holdsBelow node weight k tree' i.toNat) : tree = tree' := by
  induction tree generalizing tree' i with
  | leaf sym =>
    obtain ⟨-, n, hn, kind, rfl⟩ := holdsTree_leaf h
    cases tree' with
    | leaf sym' =>
      obtain ⟨-, n', hn', -, rfl, -⟩ := h'
      rw [Option.some.inj (hn.symm.trans hn')]
    | node l r =>
      obtain ⟨-, n', hn', kind', -⟩ := h'
      obtain rfl := Option.some.inj (hn.symm.trans hn')
      exact absurd (kind.symm.trans kind') (by decide)
  | node l r ihl ihr =>
    obtain ⟨-, n, hn, kind, hl, hr⟩ := holdsTree_node h
    cases tree' with
    | leaf sym' =>
      obtain ⟨-, n', hn', kind', -⟩ := h'
      obtain rfl := Option.some.inj (hn.symm.trans hn')
      exact absurd (kind.symm.trans kind') (by decide)
    | node l' r' =>
      obtain ⟨-, n', hn', -, -, hl', hr'⟩ := h'
      obtain rfl := Option.some.inj (hn.symm.trans hn')
      rw [ihl hl hl', ihr hr hr']

/-- BUILD leaves at ROOT a tree that no tree with the same leaves is cheaper than (R156). -/
theorem buildRun_optimal {s t : State} (ready : FreqReady s) (h : buildRun s = .ok () t) :
    ∃ k tree, holdsBelow t.node (countIn s.freq) k tree t.root.toNat ∧
      ∀ other : Tree, other.syms.Perm tree.syms → tree.cost (countIn s.freq) 0 ≤ other.cost (countIn s.freq) 0 := by
  obtain ⟨u, v, hu, hv, finish⟩ := buildRun_eq_ok h
  obtain ⟨r, hr, rfl⟩ := buildFinish_eq_ok finish
  obtain ⟨F, f, leaves, counted⟩ := buildLeaves_counted ready hu
  obtain ⟨r', tree, g, syms, optimal⟩ := mergeLoop_cost_le hv ⟨f.held, f.live, f.nodup, f.nlive⟩
    (by rw [(counted.map _).sum_eq]; exact countedSyms_sum_lt _)
  obtain rfl : r' = r := List.singleton_inj.1 ((List.perm_singleton.1 g.live.symm).symm.trans hr)
  have held := g.held _ (List.mem_singleton_self _)
  have root : (BitVec.ofNat 10 r').toNat = r' := Nat.mod_eq_of_lt ((holdsBelow_root held).1.trans v.next.isLt)
  exact ⟨v.next.toNat, tree, root.symm ▸ held, fun other h =>
    optimal _ (completesWithin_cost leaves (h.trans syms))⟩

end Sys2Proof.Machine

open Sys2Proof Sys2Proof.Machine Sys2Proof.Safety

/-- Settles O24, by Huffman's exchange: every merge keeps the forest completable within the cost of any other tree
(`CompletesWithin.join`), and NODE holds one tree at ROOT. -/
theorem buildIsOptimal : Obligations.BuildIsOptimal := by
  unfold Obligations.BuildIsOptimal
  intro s t tree ready run held other leaves
  obtain ⟨k, built, heldBuilt, optimal⟩ := buildRun_optimal ready (exec_build_eq_next.1 run)
  obtain rfl := eq_of_holdsTree held heldBuilt
  exact optimal other leaves

end

section
/-! GENCODES (42_code_table_gen.md R166 to R168): the whole of CODE over a code tree, and that the codes of a tree are
prefix-free. -/

namespace Sys2Proof.Machine

open Sys2Proof.Safety

/-! ## The codes of a tree -/

/-- A code has at least one bit, in a one-leaf tree too (R167). -/
theorem code_length_pos {tree : Tree} {sym : Sym} {bits : Bits} (h : (sym, bits) ∈ tree.codes) : 1 ≤ bits.length := by
  cases tree with
  | leaf sym' =>
    obtain ⟨-, rfl⟩ := Prod.mk.inj (List.mem_singleton.1 h)
    exact Nat.le_refl 1
  | node l r =>
    obtain ⟨b, path, rfl, -⟩ := mem_paths_node h
    exact Nat.succ_pos _

/-- What a walk comes to at a leaf tells the leaf's symbol. -/
theorem sym_eq_of_walkLeaf {root : Tree} {sym sym' : Sym} {rest rest' : Bits}
    (h : walkLeaf root sym rest = walkLeaf root sym' rest') : sym = sym' := by
  by_cases eos : sym = 256 <;> by_cases eos' : sym' = 256
  · exact eos.trans eos'.symm
  · rw [eos, walkLeaf_sentinel, walkLeaf_literal eos'] at h
    simp at h
  · rw [eos', walkLeaf_sentinel, walkLeaf_literal eos] at h
    simp at h
  · rw [walkLeaf_literal eos, walkLeaf_literal eos'] at h
    exact (List.cons.inj (Prod.mk.inj h).1).1

/-- No code of a tree begins another symbol's: the walk over the longer one would come to both leaves (R168). -/
theorem sym_eq_of_code_prefix {tree : Tree} {sym sym' : Sym} {bits bits' : Bits} (h : (sym, bits) ∈ tree.codes)
    (h' : (sym', bits') ∈ tree.codes) (hp : bits <+: bits') : sym = sym' := by
  obtain ⟨rest, rfl⟩ := hp
  have walk := walk_code h' []
  rw [List.append_nil, walk_code h] at walk
  exact sym_eq_of_walkLeaf walk

/-! ## The table -/

/-- Where no leaf's symbol is, GENCODES leaves CODE as the clearing left it (R166). -/
theorem read_treeCodes_other {tree : Tree} {i : Nat} (h : ∀ sym ∈ tree.syms, sym.toNat ≠ i) :
    (treeCodes tree).read i = if i < 257 then some noCodeEntry else none := by
  have cleared : (Table.fill Config.nsym noCodeEntry).read i = if i < 257 then some noCodeEntry else none :=
    Table.read_fill ..
  cases tree with
  | leaf sym => exact (Table.read_write_other _ _ (h sym (List.mem_singleton_self _))).trans cleared
  | node l r => exact (read_writeCodes_other h).trans cleared

/-- The entry of a Symbol without a leaf is invalid (R166). -/
theorem read_treeCodes_absent {tree : Tree} {i : Nat} (hi : i < 257) (h : BitVec.ofNat 9 i ∉ tree.syms) :
    (treeCodes tree).read i = some noCodeEntry := by
  rw [read_treeCodes_other, if_pos hi]
  rintro sym hs rfl
  exact h (by rwa [BitVec.ofNat_toNat, BitVec.setWidth_eq])

/-- A valid entry of CODE holds the code of its index's symbol (R166). -/
theorem code_of_valid {tree : Tree} (nodup : tree.syms.Nodup) {i : Nat} {c : CodeEntry}
    (h : (treeCodes tree).read i = some c) (valid : c.valid = true) :
    ∃ sym bits, sym.toNat = i ∧ (sym, bits) ∈ tree.codes ∧ c = entryOfBits bits := by
  by_cases present : ∃ sym ∈ tree.syms, sym.toNat = i
  · obtain ⟨sym, hs, rfl⟩ := present
    obtain ⟨bits, hb⟩ := exists_code_of_mem hs
    exact ⟨sym, bits, rfl, hb, Option.some.inj (h.symm.trans (read_treeCodes nodup hb))⟩
  · rw [read_treeCodes_other fun sym hs e => present ⟨sym, hs, e⟩] at h
    split at h
    · obtain rfl := Option.some.inj h
      exact absurd valid (by decide)
    · simp at h

/-- Every Symbol's entry: valid exactly for a leaf's symbol, and then its code, of 1 to 256 bits (R166, R168). -/
theorem treeCodes_covers {tree : Tree} (nodup : tree.syms.Nodup) (height : tree.height ≤ 256) {i : Nat} (hi : i < 257) :
    ∃ c, (treeCodes tree).read i = some c ∧ (c.valid = true ↔ BitVec.ofNat 9 i ∈ tree.syms) ∧
      (c.valid = true → 1 ≤ c.len.toNat ∧ c.len.toNat ≤ 256 ∧ (BitVec.ofNat 9 i, codeBits c) ∈ tree.codes) := by
  have toNat : (BitVec.ofNat 9 i).toNat = i := Nat.mod_eq_of_lt (by omega)
  by_cases hs : BitVec.ofNat 9 i ∈ tree.syms
  · obtain ⟨bits, hb⟩ := exists_code_of_mem hs
    have short := code_length_le hb height
    have len : (entryOfBits bits).len.toNat = bits.length := Nat.mod_eq_of_lt (by omega)
    refine ⟨entryOfBits bits, toNat ▸ read_treeCodes nodup hb, iff_of_true rfl hs, fun _ => ?_⟩
    rw [len, codeBits_entryOfBits short]
    exact ⟨code_length_pos hb, short, hb⟩
  · exact ⟨noCodeEntry, read_treeCodes_absent hi hs, iff_of_false (by decide) hs, fun valid => absurd valid (by decide)⟩

/-- No valid code of CODE begins another (R168). -/
theorem treeCodes_prefixFree {tree : Tree} (nodup : tree.syms.Nodup) (height : tree.height ≤ 256) {i j : Nat}
    {c d : CodeEntry} (hc : (treeCodes tree).read i = some c) (hd : (treeCodes tree).read j = some d)
    (hcv : c.valid = true) (hdv : d.valid = true) (hp : codeBits c <+: codeBits d) : i = j := by
  obtain ⟨sym, bits, rfl, hb, rfl⟩ := code_of_valid nodup hc hcv
  obtain ⟨sym', bits', rfl, hb', rfl⟩ := code_of_valid nodup hd hdv
  rw [codeBits_entryOfBits (code_length_le hb height), codeBits_entryOfBits (code_length_le hb' height)] at hp
  rw [sym_eq_of_code_prefix hb hb' hp]

/-- GENCODES over a held tree no higher than a code is long, its leaves Symbols (R165, R166). -/
theorem exec_gencodes_of_holdsTree {tree : Tree} {s : State} (held : holdsTree s.node tree s.root = true)
    (height : tree.height ≤ 256) (syms : ∀ sym ∈ tree.syms, sym.toNat ≤ 256) :
    exec .gencodes s = .next { s with code := treeCodes tree, codeValid := true } :=
  exec_gencodes_eq_next.2 (gencodesRun_of_holdsTree held (height.trans (by decide)) syms)

end Sys2Proof.Machine

open Sys2Proof Sys2Proof.Machine Sys2Proof.Safety

/-- Settles O27: BUILD's tree has the counted symbols for its leaves (`buildRun_tree`), so GENCODES' table covers them
(`treeCodes_covers`), and its codes are prefix-free because a walk comes to one leaf (`treeCodes_prefixFree`). -/
theorem codeTableIsPrefixFree : Obligations.CodeTableIsPrefixFree := by
  unfold Obligations.CodeTableIsPrefixFree
  intro s ready
  obtain ⟨t, tree, build, held, syms, -⟩ := buildRun_tree ready
  have nodup : tree.syms.Nodup := syms.nodup_iff.2 (countedSyms_nodup _)
  have height := height_of_countedSyms syms
  have gencodes := exec_gencodes_of_holdsTree held height fun sym hs =>
    toNat_le_eos_of_mem_countedSyms (syms.subset hs)
  refine ⟨t, _, tree, exec_build_eq_next.2 build, gencodes, held, fun i hi => ?_, fun i j c d hc hd ne hcv hdv hp =>
    ne (treeCodes_prefixFree nodup height hc hd hcv hdv hp), rfl, rfl, rfl, rfl⟩
  obtain ⟨c, hc, valid, code⟩ := treeCodes_covers nodup height hi
  have counted : BitVec.ofNat 9 i ∈ tree.syms ↔ countIn s.freq (BitVec.ofNat 9 i) ≠ 0 := by
    have symbol : (BitVec.ofNat 9 i).toNat < Config.nsym := (Nat.mod_le ..).trans_lt hi
    rw [syms.mem_iff, mem_countedSyms, and_iff_right symbol]
  exact ⟨c, hc, valid.trans counted, code⟩

/-- Settles O26: GENCODES writes `treeCodes`, which has each leaf's code at its symbol and the cleared entry elsewhere. -/
theorem gencodesAssignsPaths : Obligations.GencodesAssignsPaths := by
  unfold Obligations.GencodesAssignsPaths
  intro s tree held height nodup syms
  exact ⟨treeCodes tree, exec_gencodes_of_holdsTree held height syms, fun _ hp => read_treeCodes nodup hp,
    fun _ hi absent => read_treeCodes_absent hi absent⟩

/-- Settles O28: the form of GENCODES' next states (`exec_gencodes_next`), its walk writing CODE alone. -/
theorem gencodesFrame : Obligations.GencodesFrame := by
  unfold Obligations.GencodesFrame
  intro s t h
  exact exec_gencodes_next h

end

section
/-! WRHDR over every state and over a held tree (43_header_codec.md R176, R177). -/

namespace Sys2Proof.Machine

open Sys2Proof.Safety

/-- A full binary tree has one Internal node fewer than it has leaves (R106). -/
theorem treeNodes_leaves (tree : Tree) : tree.nodes + 1 = 2 * tree.syms.length := by
  induction tree with
  | leaf sym => rfl
  | node l r ihl ihr => simp only [Tree.nodes, Tree.syms, List.length_append]; omega

end Sys2Proof.Machine

open Sys2Proof Sys2Proof.Machine Sys2Proof.Safety

/-- Settles O32: Put over a held tree (`putNode_of_holdsTree`) appends its header, whose bits and nodes are counted by
induction over the tree. -/
theorem wrhdrWritesPreorder : Obligations.WrhdrWritesPreorder := by
  unfold Obligations.WrhdrWritesPreorder
  intro s tree held height
  have put := putNode_of_holdsTree held (fuel := Config.nodeCap + 1) (Nat.lt_succ_of_le height)
  exact ⟨congrArg Run.outcome put, header_length tree, treeNodes_leaves tree⟩

/-- Settles O33: the form of WRHDR's next states (`exec_wrhdr_next`), each write of Put appending to OUT. -/
theorem wrhdrFrame : Obligations.WrhdrFrame := by
  unfold Obligations.WrhdrFrame
  intro s t h
  exact exec_wrhdr_next h

end

section
/-! RDHDR by the bits left: either they begin with the header of a tree that fits, or it raises, and then the type bits among
them say which error it is and where NEXT stands (43_header_codec.md R180 to R183). -/

namespace Sys2Proof.Machine

open Sys2Proof.Safety

/-! ## The entries of a tree that was read -/

/-- The indexes of an Internal node's children in preorder (R180; 10_state.md R24). -/
theorem childIndexes {i : Idx} {m n : Nat} (fits : i.toNat + (m + n + 1) ≤ Config.nodeCap) :
    (i + 1 : Idx).toNat = i.toNat + 1 ∧ (i + 1 + BitVec.ofNat 10 m : Idx).toNat = i.toNat + 1 + m := by
  have left : (i + 1 : Idx).toNat = i.toNat + 1 := idx_toNat_succ (by omega)
  exact ⟨left, by rw [idx_toNat_add (by omega), left]⟩

section
variable {tree : Tree} {i : Idx} {node : Table Node}

/-- Reading a tree writes the entries from its root's index on, one a node, and no other (R180). -/
theorem read_headerNodes_other (fits : i.toNat + tree.nodes ≤ Config.nodeCap) {j : Nat}
    (hj : j < i.toNat ∨ i.toNat + tree.nodes ≤ j) : (headerNodes tree i node).read j = node.read j := by
  induction tree generalizing i node with
  | leaf sym =>
    simp only [Tree.nodes] at hj
    exact Table.read_write_other _ _ (by omega)
  | node l r ihl ihr =>
    simp only [Tree.nodes] at fits hj
    obtain ⟨left, right⟩ := childIndexes fits
    rw [headerNodes, Table.read_write_other _ _ (by omega), ihr (by omega) (by omega), ihl (by omega) (by omega)]

/-- The entries written hold the tree, whatever the other entries become (R181). -/
theorem heldBetween_headerNodes (fits : i.toNat + tree.nodes ≤ Config.nodeCap) :
    HeldBetween i.toNat (i.toNat + tree.nodes) (headerNodes tree i node) tree i := by
  induction tree generalizing i node with
  | leaf sym => exact heldBetween_leaf (by simp only [Tree.nodes] at fits; omega) sym
  | node l r ihl ihr =>
    simp only [Tree.nodes] at fits
    obtain ⟨left, right⟩ := childIndexes fits
    have heldL := ihl (i := i + 1) (node := node) (by omega)
    have heldR := ihr (i := i + 1 + BitVec.ofNat 10 l.nodes) (node := headerNodes l (i + 1) node) (by omega)
    rw [left] at heldL
    rw [right] at heldR
    have top : i.toNat + (Safety.Tree.node l r).nodes = i.toNat + 1 + l.nodes + r.nodes := by simp only [Tree.nodes]; omega
    rw [top]
    exact heldBetween_node (by omega) heldL heldR
      (fun j hj => read_headerNodes_other (by omega) (.inl (by omega))) (by omega) (by omega)

/-- Every entry written has weight 0, and an Internal one its left child at the next index (R180; 10_state.md R24). -/
theorem headerNodes_preorder (fits : i.toNat + tree.nodes ≤ Config.nodeCap) {j : Nat} (low : i.toNat ≤ j)
    (high : j < i.toNat + tree.nodes) :
    ∃ n, (headerNodes tree i node).read j = some n ∧ n.weight = 0 ∧ (n.kind = .internal → n.left.toNat = j + 1) := by
  induction tree generalizing i node with
  | leaf sym =>
    simp only [Tree.nodes] at high
    obtain rfl : j = i.toNat := by omega
    exact ⟨_, Table.read_write_same .., rfl, by simp [leafNode]⟩
  | node l r ihl ihr =>
    simp only [Tree.nodes] at fits high
    obtain ⟨left, right⟩ := childIndexes fits
    rw [headerNodes]
    by_cases root : i.toNat = j
    · subst root
      exact ⟨_, Table.read_write_same .., rfl, fun _ => left⟩
    rw [Table.read_write_other _ _ root]
    by_cases inLeft : j < i.toNat + 1 + l.nodes
    · rw [read_headerNodes_other (by omega) (.inl (by omega))]
      exact ihl (by omega) (by omega) (by omega)
    · exact ihr (by omega) (by omega) (by omega)

end

/-! ## Type bits -/

theorem headerTokens_internal (due : Nat) (rest : Bits) :
    headerTokens (due + 1) (false :: rest) = ((headerTokens (due + 2) rest).1 + 1, (headerTokens (due + 2) rest).2) := by
  rw [headerTokens]

/-- A type bit 1 with its symbol is one whole `node` (R104). -/
theorem headerTokens_leaf (due : Nat) {bs : Bits} (rest : Bits) (h : bs.length = 9) :
    headerTokens (due + 1) (true :: (bs ++ rest)) = ((headerTokens due rest).1 + 1, (headerTokens due rest).2) := by
  match bs, h with
  | [_, _, _, _, _, _, _, _, _], _ => simp only [List.cons_append, List.nil_append, headerTokens]

/-- A type bit 1 with fewer than nine bits after it counts, and completes nothing (R182). -/
theorem headerTokens_cut (due : Nat) {rest : Bits} (h : rest.length < 9) :
    headerTokens (due + 1) (true :: rest) = (1, false) := by
  rw [headerTokens]
  intro _ _ _ _ _ _ _ _ _ _ e
  rw [e] at h
  simp only [List.length_cons] at h
  omega

theorem headerTokens_pos (due : Nat) (b : Bool) (rest : Bits) : 0 < (headerTokens (due + 1) (b :: rest)).1 := by
  cases b with
  | false => rw [headerTokens_internal]; exact Nat.succ_pos _
  | true =>
    by_cases short : rest.length < 9
    · rw [headerTokens_cut due short]; exact Nat.one_pos
    · rw [← List.take_append_drop 9 rest, headerTokens_leaf due _ (by simp; omega)]; exact Nat.succ_pos _

/-- A tree's header is one of the `node`s due, with a type bit a node. -/
theorem headerTokens_header (tree : Tree) (due : Nat) (rest : Bits) :
    headerTokens (due + 1) (tree.header ++ rest) =
      ((headerTokens due rest).1 + tree.nodes, (headerTokens due rest).2) := by
  induction tree generalizing due rest with
  | leaf sym => exact headerTokens_leaf due rest (msbFirst_length ..)
  | node l r ihl ihr =>
    rw [Tree.header, List.cons_append, headerTokens_internal, List.append_assoc, ihl, ihr]
    simp only [Tree.nodes]
    congr 1; omega

theorem headerTokens_header_whole (tree : Tree) (rest : Bits) :
    headerTokens 1 (tree.header ++ rest) = (tree.nodes, true) := by
  rw [headerTokens_header tree 0 rest]
  simp [headerTokens]

/-- A proper beginning of a tree's header completes nothing and holds no more type bits than the header. -/
theorem headerTokens_header_take (tree : Tree) (due : Nat) {k : Nat} (hk : k < tree.header.length) :
    ∃ n ≤ tree.nodes, headerTokens (due + 1) (tree.header.take k) = (n, false) := by
  induction tree generalizing due k with
  | leaf sym =>
    match k, hk with
    | 0, _ => exact ⟨0, Nat.zero_le _, by simp [headerTokens]⟩
    | k + 1, hk =>
      simp only [Tree.header, List.length_cons, msbFirst_length] at hk
      exact ⟨1, Nat.le_refl _, headerTokens_cut due (by simp; omega)⟩
  | node l r ihl ihr =>
    match k, hk with
    | 0, _ => exact ⟨0, Nat.zero_le _, by simp [headerTokens]⟩
    | k + 1, hk =>
      simp only [Tree.header, List.length_cons, List.length_append] at hk
      simp only [Tree.header, List.take_succ_cons, headerTokens_internal, List.take_append, Tree.nodes]
      by_cases inLeft : k < l.header.length
      · obtain ⟨n, hn, e⟩ := ihl (due + 1) inLeft
        rw [Nat.sub_eq_zero_of_le inLeft.le, List.take_zero, List.append_nil, e]
        exact ⟨n + 1, by omega, rfl⟩
      · obtain ⟨n, hn, e⟩ := ihr due (k := k - l.header.length) (by omega)
        rw [List.take_of_length_le (by omega), headerTokens_header, e]
        exact ⟨n + l.nodes + 1, by omega, rfl⟩

/-! ## Get that raises -/

/-- What Get and the whole of RDHDR change before they set ROOT: NODE, NEXT and the read position. -/
def State.headerAt (node : Table Node) (next : Idx) (pos : Nat) (s : State) : State :=
  { s with node := node, next := next, src := { s.src with pos := pos } }

/-- How Get raises from a state on, by the type bits among the bits left: fewer than fill the table and no whole `node`, or one
more than fill it (R182, R183). The entries from NEXT up stay. -/
inductive HeaderRaises (s : State) : State → Prop
  | truncated (node : Table Node) (next : Idx) (n : Nat) (count : next.toNat = s.next.toNat + n)
      (fits : next.toNat ≤ Config.nodeCap)
      (tokens : ∀ due, headerTokens (due + 1) s.src.remaining = (n, false))
      (above : ∀ j, next.toNat ≤ j → node.read j = s.node.read j) :
      HeaderRaises s ((s.headerAt node next s.src.bits.length).errorEntry .headerTruncated 0 true)
  | overflow (node : Table Node) (pos : Nat)
      (tokens : ∀ due, Config.nodeCap < s.next.toNat + (headerTokens (due + 1) s.src.remaining).1)
      (above : ∀ j, Config.nodeCap ≤ j → node.read j = s.node.read j) :
      HeaderRaises s ((s.headerAt node 513 pos).errorEntry .treeOverflow 513 false)

/-- A raise after `m` type bits, with `k` more `node`s due than before them, is a raise of the whole. -/
theorem HeaderRaises.after {s u t : State} {node : Table Node} {next : Idx} {pos m k : Nat} (h : HeaderRaises u t)
    (reached : u = s.headerAt node next pos) (count : next.toNat = s.next.toNat + m) (fits : next.toNat ≤ Config.nodeCap)
    (above : ∀ j, next.toNat ≤ j → node.read j = s.node.read j)
    (tokens : ∀ due, headerTokens (due + 1) s.src.remaining =
      ((headerTokens (due + k + 1) u.src.remaining).1 + m, (headerTokens (due + k + 1) u.src.remaining).2)) :
    HeaderRaises s t := by
  have hnext : u.next = next := by rw [reached]; rfl
  have hnode : u.node = node := by rw [reached]; rfl
  cases h with
  | truncated node' next' n count' fits' tokens' above' =>
    rw [hnext] at count'
    rw [hnode] at above'
    have moved : u.headerAt node' next' u.src.bits.length = s.headerAt node' next' s.src.bits.length := by rw [reached]; rfl
    rw [moved]
    refine .truncated node' next' (n + m) (by omega) fits' (fun due => by rw [tokens, tokens']) fun j hj => ?_
    rw [above' j hj, above j (by omega)]
  | overflow node' pos' tokens' above' =>
    rw [hnode] at above'
    have moved : u.headerAt node' 513 pos' = s.headerAt node' 513 pos' := by rw [reached]; rfl
    rw [moved]
    refine .overflow node' pos' (fun due => ?_) fun j hj => by rw [above' j hj, above j (fits.trans hj)]
    have := tokens' (due + k)
    rw [hnext] at this
    rw [tokens]
    omega

theorem headerRaises_missing {s : State} (h : s.src.remaining = []) (hn : s.next.toNat ≤ Config.nodeCap) :
    HeaderRaises s (s.atEnd.errorEntry .headerTruncated 0 true) :=
  .truncated s.node s.next 0 rfl hn (fun due => by rw [h, headerTokens]) fun _ _ => rfl

theorem headerRaises_cut {s : State} {rest : Bits} (h : s.src.remaining = true :: rest) (short : rest.length < 9)
    (hn : s.next.toNat < Config.nodeCap) : HeaderRaises s (s.atEnd.taken.errorEntry .headerTruncated 0 true) := by
  have taken : (s.next + 1 : Idx).toNat = s.next.toNat + 1 := idx_toNat_succ hn.le
  exact .truncated s.node (s.next + 1) 1 taken (taken.trans_le hn) (fun due => by rw [h, headerTokens_cut due short])
    fun _ _ => rfl

theorem headerRaises_full {s : State} {b : Bool} {rest : Bits} (h : s.src.remaining = b :: rest)
    (hn : s.next.toNat = Config.nodeCap) : HeaderRaises s ((s.moved 1).errorEntry .treeOverflow 513 false) := by
  have full : s.moved 1 = s.headerAt s.node 513 (s.src.pos + 1) := by
    rw [State.headerAt, show (513 : Idx) = s.next from (BitVec.eq_of_toNat_eq hn).symm]
    rfl
  rw [full]
  refine .overflow s.node _ (fun due => ?_) fun _ _ => rfl
  have := headerTokens_pos due b rest
  rw [h]
  omega

/-- Either the bits left begin with the header of a tree that fits, which `getNode_of_header` reads, or Get raises (R180 to
R183). -/
theorem getNode_reads_or_raises {fuel : Nat} {s : State} (hn : s.next.toNat ≤ Config.nodeCap)
    (hf : Config.nodeCap < s.next.toNat + fuel) :
    (∃ (tree : Tree) (rest : Bits), s.src.remaining = tree.header ++ rest ∧
      s.next.toNat + tree.nodes ≤ Config.nodeCap) ∨
      ∃ t, getNode fuel s = .raised t ∧ HeaderRaises s t := by
  induction fuel generalizing s with
  | zero => omega
  | succ fuel ih =>
    match hr : s.src.remaining with
    | [] => exact .inr ⟨_, getNode_missing hr, headerRaises_missing hr hn⟩
    | b :: bits =>
      by_cases full : s.next.toNat = Config.nodeCap
      · exact .inr ⟨_, getNode_full hr full, headerRaises_full hr full⟩
      have free : s.next.toNat < Config.nodeCap := Nat.lt_of_le_of_ne hn full
      have taken : (s.next + 1 : Idx).toNat = s.next.toNat + 1 := idx_toNat_succ hn
      cases b with
      | false =>
        have left : (s.moved 1).taken.src.remaining = bits := remaining_moved_one hr
        have leftNext : (s.moved 1).taken.next.toNat = s.next.toNat + 1 := taken
        obtain ⟨l, rest, hl, fitsL⟩ | ⟨t, raised, raises⟩ := ih (s := (s.moved 1).taken) (by omega) (by omega)
        · have readL := getNode_of_header l hl fitsL (fuel := fuel) (by have := treeHeight_lt_nodes l; omega)
          have right : (headerRead l (s.moved 1).taken).src.remaining = rest := remaining_after hl
          have rightNext : (headerRead l (s.moved 1).taken).next.toNat = (s.moved 1).taken.next.toNat + l.nodes :=
            idx_toNat_add fitsL
          obtain ⟨r, rest', hr', fitsR⟩ | ⟨t, raised, raises⟩ :=
            ih (s := headerRead l (s.moved 1).taken) (by omega) (by omega)
          · refine .inl ⟨.node l r, rest', ?_, by simp only [Tree.nodes]; omega⟩
            rw [← left, hl, ← right, hr', Tree.header, List.cons_append, List.append_assoc]
          · refine .inr ⟨t, by rw [getNode_internal hr full, readL, Run.bind_ok, raised, Run.bind_raised], ?_⟩
            refine raises.after (m := l.nodes + 1) (k := 0) rfl (rightNext.trans (by omega)) (rightNext.trans_le fitsL)
              (fun j hj => read_headerNodes_other fitsL (.inr (rightNext ▸ hj))) fun due => ?_
            rw [hr, headerTokens_internal, ← left, hl, headerTokens_header, right]
            rfl
        · refine .inr ⟨t, by rw [getNode_internal hr full, raised, Run.bind_raised], ?_⟩
          refine raises.after (m := 1) (k := 1) rfl taken (taken.trans_le free) (fun _ _ => rfl) fun due => ?_
          rw [hr, headerTokens_internal, left]
      | true =>
        by_cases short : bits.length < 9
        · exact .inr ⟨_, getNode_cut hr short full, headerRaises_cut hr short free⟩
        · refine .inl ⟨.leaf (BitVec.ofNat 9 (fromMsb (bits.take 9))), bits.drop 9, ?_, free⟩
          have symbol := msbFirst_ofNat_fromMsb (n := 9) (bs := bits.take 9) (by simp; omega)
          rw [Tree.header, symbol, List.cons_append, List.take_append_drop]

/-! ## The whole of RDHDR -/

/-- The state in which RDHDR has read a tree (R180, R181). -/
def rdhdrRead (tree : Tree) (s : State) : State :=
  { s with
    node := headerNodes tree 0 s.node, root := 0, next := BitVec.ofNat 10 tree.nodes, treeValid := true
    src := { s.src with pos := s.src.pos + tree.header.length } }

/-- RDHDR over the header of a tree that fits (R180). -/
theorem exec_rdhdr_of_header {tree : Tree} {s : State} {rest : Bits} (h : s.src.remaining = tree.header ++ rest)
    (fits : tree.nodes ≤ Config.nodeCap) : exec .rdhdr s = .next (rdhdrRead tree s) := by
  have read := getNode_of_header tree (s := { s with next := 0 }) (fuel := Config.nodeCap + 1) h
    (by show 0 + _ ≤ _; omega) (by have := treeHeight_lt_nodes tree; omega)
  show (rdhdrRun s).outcome = _
  rw [rdhdrRun, read, Run.bind_ok]
  simp [rdhdrRead, headerRead, State.moved]

/-- RDHDR reads a tree that fits or raises (R180 to R183). -/
theorem exec_rdhdr_reads_or_raises (s : State) :
    (∃ (tree : Tree) (rest : Bits), s.src.remaining = tree.header ++ rest ∧ tree.nodes ≤ Config.nodeCap) ∨
      ∃ t, exec .rdhdr s = .next t ∧ HeaderRaises { s with next := 0 } t := by
  obtain ⟨tree, rest, h, fits⟩ | ⟨t, raised, raises⟩ :=
    getNode_reads_or_raises (s := { s with next := 0 }) (fuel := Config.nodeCap + 1) (Nat.zero_le _)
      (by show _ < 0 + _; omega)
  · exact .inl ⟨tree, rest, h, (Nat.le_add_left ..).trans fits⟩
  · refine .inr ⟨t, ?_, raises⟩
    show (rdhdrRun s).outcome = _
    rw [rdhdrRun, raised]
    rfl

/-- RDHDR over bits that end before a whole header and before a 514th type bit (R182). -/
theorem exec_rdhdr_truncated {s : State} {n : Nat} (h : headerTokens 1 s.src.remaining = (n, false)) (hn : n < 514) :
    ∃ node, exec .rdhdr s =
      .next ((s.headerAt node (BitVec.ofNat 10 n) s.src.bits.length).errorEntry .headerTruncated 0 true) := by
  obtain ⟨tree, rest, hr, -⟩ | ⟨t, run, raises⟩ := exec_rdhdr_reads_or_raises s
  · rw [hr, headerTokens_header_whole] at h
    simp at h
  · cases raises with
    | truncated node next n' count _ tokens _ =>
      obtain rfl : n' = n := congrArg Prod.fst ((tokens 0).symm.trans h)
      have zero : ({ s with next := 0 } : State).next.toNat = 0 := rfl
      obtain rfl : next = BitVec.ofNat 10 n' := by
        apply BitVec.eq_of_toNat_eq
        rw [count, zero, BitVec.toNat_ofNat, Nat.mod_eq_of_lt (by omega), Nat.zero_add]
      exact ⟨node, run⟩
    | overflow _ _ tokens _ =>
      have tooMany : 513 < 0 + (headerTokens 1 s.src.remaining).1 := tokens 0
      rw [h] at tooMany
      omega

/-- RDHDR over bits with a 514th type bit (R183). -/
theorem exec_rdhdr_overflow {s : State} (h : 514 ≤ (headerTokens 1 s.src.remaining).1) :
    ∃ node pos, exec .rdhdr s = .next ((s.headerAt node 513 pos).errorEntry .treeOverflow 513 false) := by
  obtain ⟨tree, rest, hr, fits⟩ | ⟨t, run, raises⟩ := exec_rdhdr_reads_or_raises s
  · rw [hr, headerTokens_header_whole] at h
    exact absurd (h.trans fits) (by decide)
  · cases raises with
    | truncated _ next n count fits tokens _ =>
      have whole : (headerTokens 1 s.src.remaining).1 = n := congrArg Prod.fst (tokens 0)
      have zero : ({ s with next := 0 } : State).next.toNat = 0 := rfl
      rw [count, zero] at fits
      exact absurd fits (by simp only [Config.nodeCap]; omega)
    | overflow node pos _ _ => exact ⟨node, pos, run⟩

end Sys2Proof.Machine

open Sys2Proof Sys2Proof.Machine Sys2Proof.Safety

/-- Settles O34: the entries of `headerNodes` for the header of a tree that fits, and every other input raises
(`exec_rdhdr_reads_or_raises`), which leaves TREE_VALID 0. -/
theorem rdhdrReadsTree : Obligations.RdhdrReadsTree := by
  unfold Obligations.RdhdrReadsTree
  refine ⟨fun s tree rest h fits => ?_, fun s t run valid => ?_⟩
  · have fromZero : (0 : Idx).toNat + tree.nodes ≤ Config.nodeCap := (Nat.zero_add _).trans_le fits
    exact ⟨headerNodes tree 0 s.node, exec_rdhdr_of_header h fits, (heldBetween_headerNodes fromZero).holdsTree,
      fun i hi => headerNodes_preorder fromZero (Nat.zero_le _) ((Nat.zero_add _).symm ▸ hi),
      fun i hi => read_headerNodes_other fromZero (.inr ((Nat.zero_add _).trans_le hi))⟩
  · obtain ⟨tree, rest, h, fits⟩ | ⟨u, run', raises⟩ := exec_rdhdr_reads_or_raises s
    · exact ⟨tree, rest, h, fits⟩
    · obtain rfl := Host.Outcome.next.inj (run.symm.trans run')
      cases raises <;> simp at valid

/-- Settles O35: the beginning of a header holds no more type bits than the header and completes none
(`headerTokens_header_take`), and over such bits RDHDR's raise is told by `exec_rdhdr_truncated`. -/
theorem rdhdrTruncated : Obligations.RdhdrTruncated := by
  unfold Obligations.RdhdrTruncated
  refine ⟨fun s tree k hk h fits => ?_, fun s n h hn => exec_rdhdr_truncated h hn⟩
  obtain ⟨n, hn, tokens⟩ := headerTokens_header_take tree 0 hk
  rw [← h] at tokens
  obtain ⟨node, run⟩ := exec_rdhdr_truncated tokens (Nat.lt_succ_of_le (hn.trans fits))
  exact ⟨node, _, run⟩

/-- Settles O36: a complete header has a type bit a node (`headerTokens_header_whole`), and the 514th type bit overflows
(`exec_rdhdr_overflow`). -/
theorem rdhdrOverflow : Obligations.RdhdrOverflow := by
  unfold Obligations.RdhdrOverflow
  refine ⟨fun s tree rest h big => exec_rdhdr_overflow ?_, fun s n whole h hn => exec_rdhdr_overflow ?_⟩
  · rw [h, headerTokens_header_whole]
    exact big
  · rw [h]
    exact hn

/-- Settles O37: a tree that was read stands below the final NEXT (`read_headerNodes_other`), and so do the entries of one that
was cut (`HeaderRaises`). -/
theorem rdhdrFrame : Obligations.RdhdrFrame := by
  unfold Obligations.RdhdrFrame
  intro s t run
  obtain ⟨tree, rest, h, fits⟩ | ⟨u, run', raises⟩ := exec_rdhdr_reads_or_raises s
  · obtain rfl := Host.Outcome.next.inj ((exec_rdhdr_of_header h fits).symm.trans run)
    have final : (BitVec.ofNat 10 tree.nodes).toNat = tree.nodes :=
      Nat.mod_eq_of_lt (fits.trans_lt (by decide))
    exact ⟨_, _, _, fun i hi => read_headerNodes_other (i := 0) ((Nat.zero_add _).trans_le fits)
      (.inr ((Nat.zero_add _).trans_le (final ▸ hi))), .inl ⟨0, rfl⟩⟩
  · obtain rfl := Host.Outcome.next.inj (run'.symm.trans run)
    cases raises with
    | truncated node next _ _ _ _ above => exact ⟨node, next, _, above, .inr (.inl rfl)⟩
    | overflow node pos _ above => exact ⟨node, 513, pos, above, .inr (.inr rfl)⟩

end

section
/-! ENCODE over whatever the rewound source holds, to its end and to the first byte without a code (44_stream_encoder.md R191 to
R194). -/

namespace Sys2Proof.Machine

open Sys2Proof.Safety

/-- The rewound source has all of its bits left (R64). -/
theorem rewind_remaining (s : State) : s.rewind.src.remaining = s.src.rewind.bits := rfl

/-- Rewinding puts the read position at 0, so bits read after it are the position (R64). -/
theorem rewind_moved (s : State) (n : Nat) : s.rewind.moved n = { s with src := { s.src.rewind with pos := n } } := by
  have start : s.rewind.src.pos = 0 := rfl
  rw [State.moved, start, Nat.zero_add]
  rfl

/-- ENCODE's loop over a byte without a code (R192). -/
theorem encodeLoop_noCode {fuel : Nat} {s : State} {b : Byte} {c : CodeEntry} {rest : Bits}
    (h : s.src.remaining = msbFirst 8 b.toNat ++ rest) (hc : s.code.read b.toNat = some c) (hv : c.valid = false) :
    encodeLoop (fuel + 1) s = .raised ((s.moved 8).errorEntry .noCode (b.setWidth 32) false) := by
  rw [encodeLoop, readBits_byte h]
  dsimp only
  rw [readCode_eq_ok.2 ⟨byte_lt_nsym b, by exact hc, rfl⟩, Run.bind_ok, if_neg (by simp [hv]), Run.raise]

/-- ENCODE up to the first byte without a code: OUT has the codes of the bytes before it (R192, R194). -/
theorem encodeRun_noCode {s : State} {before : List Byte} {b : Byte} {c : CodeEntry} {rest : Bits}
    (h : s.rewind.src.remaining = bitsOfBytes before ++ (msbFirst 8 b.toNat ++ rest))
    (hbefore : ∀ x ∈ before, ∃ cx, s.code.read x.toNat = some cx ∧ cx.valid = true)
    (hc : s.code.read b.toNat = some c) (hv : c.valid = false) :
    encodeRun s = .raised (State.errorEntry .noCode (b.setWidth 32) false
      { s.rewind.moved (8 * (before.length + 1)) with
        sink := { s.sink with bits := s.sink.bits ++ payloadBits s.code before } }) := by
  have fuel : s.rewind.src.remaining.length + 1 = before.length + (7 * before.length + 8 + rest.length + 1) := by
    rw [h, List.length_append, List.length_append, bitsOfBytes_length, msbFirst_length]
    omega
  have arrives : (s.rewind.moved (8 * before.length)).src.remaining = msbFirst 8 b.toNat ++ rest :=
    bitsOfBytes_length before ▸ remaining_after h
  rw [encodeRun, fuel, encodeLoop_bytes before h hbefore, encodeLoop_noCode (by exact arrives) (by exact hc) hv,
    Run.bind_raised]
  rfl

end Sys2Proof.Machine

open Sys2Proof Sys2Proof.Machine

/-- Settles O42: the rewound bits are their whole bytes and a part of one; ENCODE runs through them when every byte has a code
(`encodeRun_bytes`), and to the first byte that has none (`encodeRun_noCode`). -/
theorem encodeWritesCodes : Obligations.EncodeWritesCodes := by
  unfold Obligations.EncodeWritesCodes
  refine ⟨fun s bytes eosCode hbytes codes eos => ?_, fun s before after b c arrives codes hc hv => ?_⟩
  · obtain ⟨tail, split, short⟩ := bits_eq_bytes_append s.src.rewind.bits
    rw [← hbytes, ← rewind_remaining] at split
    exact congrArg Run.outcome (encodeRun_bytes split short codes eos)
  · obtain ⟨tail, split, -⟩ := bits_eq_bytes_append s.src.rewind.bits
    rw [arrives, bitsOfBytes, List.flatMap_append, List.flatMap_cons, List.append_assoc, List.append_assoc,
      ← rewind_remaining] at split
    have run := encodeRun_noCode split codes hc hv
    rw [rewind_moved] at run
    exact congrArg Run.outcome run

/-- Settles O43: the form of ENCODE's next states. -/
theorem encodeFrame : Obligations.EncodeFrame := by
  unfold Obligations.EncodeFrame
  exact fun s t h => exec_encode_next h

end

section
/-! DECODE over a held tree: a bit at a time the loop makes the moves of the tree's walk, and ends where the walk ends
(45_stream_decoder.md R201 to R206). -/

namespace Sys2Proof.Machine

open Sys2Proof.Safety

/-! ## One bit -/

/-- From an Internal node the bit leads to the child it names (R202). -/
theorem decodeMove_internal {b : Bool} {s : State} {n : Node} (hi : s.cur.toNat < Config.nodeCap)
    (hn : s.node.read s.cur.toNat = some n) (hk : n.kind = .internal) :
    decodeMove b s = .ok () { s with cur := n.child b } := by
  rw [decodeMove, readNode_ok hi hn, Run.bind_ok]
  simp only [hk]

/-- At a leaf, which can only be a leaf root, CUR stays (R203). -/
theorem decodeMove_leaf {b : Bool} {s : State} {n : Node} (hi : s.cur.toNat < Config.nodeCap)
    (hn : s.node.read s.cur.toNat = some n) (hk : n.kind = .leaf) : decodeMove b s = .ok () s := by
  rw [decodeMove, readNode_ok hi hn, Run.bind_ok]
  simp only [hk]

/-- Over a held tree a bit makes the tree's own move. -/
theorem decodeMove_of_holdsTree {here : Tree} (b : Bool) {s : State} (h : holdsTree s.node here s.cur = true) :
    ∃ c, decodeMove b s = .ok () { s with cur := c } ∧ holdsTree s.node (here.move b) c = true := by
  cases here with
  | leaf sym =>
    obtain ⟨hi, n, hn, hk, -⟩ := holdsTree_leaf h
    exact ⟨s.cur, decodeMove_leaf hi hn hk, h⟩
  | node l r =>
    obtain ⟨hi, n, hn, hk, hl, hr⟩ := holdsTree_node h
    refine ⟨n.child b, decodeMove_internal hi hn hk, ?_⟩
    cases b with
    | false => exact hl
    | true => exact hr

/-- A payload bit (R201). -/
theorem readBits_payloadBit {s : State} {b : Bool} {rest : Bits} (h : s.src.remaining = b :: rest) :
    s.readBits 1 = (some (BitVec.ofBool b), s.moved 1) := readBits_typeBit h

theorem decide_ofBool_eq_one (b : Bool) : decide (BitVec.ofBool b = 1) = b := by
  cases b <;> rfl

/-- What DECODE's loop does at the node a bit has led to: on from an Internal node (R202), the end at the sentinel's leaf (R205),
or a literal's low 8 bits and back to ROOT (R204). -/
def decodeAt (fuel : Nat) (n : Node) (s : State) : Run Unit :=
  match n.kind with
  | .internal => decodeLoop fuel s
  | .leaf =>
    if n.sym.toNat = Config.eos then .ok () s
    else decodeLoop fuel { s with cur := s.root, sink := { s.sink with bits := s.sink.bits ++ msbFirst 8 n.sym.toNat } }

theorem decodeAt_internal {n : Node} (hk : n.kind = .internal) (fuel : Nat) (s : State) :
    decodeAt fuel n s = decodeLoop fuel s := by
  rw [decodeAt, hk]

theorem decodeAt_sentinel {n : Node} (hk : n.kind = .leaf) (eos : n.sym = 256) (fuel : Nat) (s : State) :
    decodeAt fuel n s = .ok () s := by
  rw [decodeAt, hk, eos]
  exact if_pos rfl

theorem decodeAt_literal {n : Node} (hk : n.kind = .leaf) (literal : n.sym ≠ 256) (fuel : Nat) (s : State) :
    decodeAt fuel n s = decodeLoop fuel { s with
      cur := s.root, sink := { s.sink with bits := s.sink.bits ++ msbFirst 8 n.sym.toNat } } := by
  rw [decodeAt, hk]
  exact if_neg fun e => literal (BitVec.eq_of_toNat_eq e)

/-- One bit of DECODE's loop: the move, then what the node it leads to asks for (R201). -/
theorem decodeLoop_bit {s : State} {b : Bool} {rest : Bits} {c : Idx} {n : Node} (hs : s.src.remaining = b :: rest)
    (move : decodeMove b (s.moved 1) = .ok () { s.moved 1 with cur := c }) (hc : c.toNat < Config.nodeCap)
    (hn : s.node.read c.toNat = some n) (fuel : Nat) :
    decodeLoop (fuel + 1) s = decodeAt fuel n { s.moved 1 with cur := c } := by
  have byte : msbFirst 8 n.sym.toNat = msbFirst 8 (n.sym.setWidth 8 : Byte).toNat := by
    rw [BitVec.toNat_setWidth, msbFirst_mod (Nat.le_refl _)]
  rw [decodeLoop, readBits_payloadBit hs]
  simp only [decide_ofBool_eq_one]
  rw [move, Run.bind_ok, readNode_ok hc (by exact hn), Run.bind_ok, decodeAt, byte]
  rfl

/-- Where the bits end the loop raises (R206). -/
theorem decodeLoop_end {fuel : Nat} {s : State} (h : s.src.remaining = []) :
    decodeLoop (fuel + 1) s = .raised (s.atEnd.errorEntry .payloadTruncated 0 true) := by
  rw [decodeLoop, readBits_of_short (by rw [h]; decide)]
  rfl

/-! ## The whole walk -/

/-- The state with what DECODE changes: CUR, the read position and the bits appended to OUT. -/
def State.decoded (cur : Idx) (pos : Nat) (bits : Bits) (s : State) : State :=
  { s with cur := cur, src := { s.src with pos := pos }, sink := { s.sink with bits := s.sink.bits ++ bits } }

/-- How DECODE's loop ends from a state on, by what the walk of the bits left comes to: at the sentinel's leaf with the bits
after its code left, or in a raise at the end of the bits; the literals of the walk are on OUT (R204 to R206). -/
inductive DecodeEnds (s : State) : List Sym × Option Bits → Run Unit → Prop
  | sentinel (syms : List Sym) (rest : Bits) (cur : Idx) (n : Node) (read : s.node.read cur.toNat = some n)
      (kind : n.kind = .leaf) (sym : n.sym = 256) :
      DecodeEnds s (syms, some rest)
        (.ok () (s.decoded cur (s.src.bits.length - rest.length) (literalBits syms)))
  | truncated (syms : List Sym) (cur : Idx) :
      DecodeEnds s (syms, none)
        (.raised ((s.decoded cur s.src.bits.length (literalBits syms)).errorEntry .payloadTruncated 0 true))

/-- An end of the loop after some literals is an end of the whole. -/
theorem DecodeEnds.after {s u : State} {syms : List Sym} {w : List Sym × Option Bits} {r : Run Unit} {cur : Idx}
    {pos : Nat} (h : DecodeEnds u w r) (reached : u = s.decoded cur pos (literalBits syms)) :
    DecodeEnds s (syms ++ w.1, w.2) r := by
  have whole (c : Idx) (p : Nat) (later : List Sym) :
      u.decoded c p (literalBits later) = s.decoded c p (literalBits (syms ++ later)) := by
    rw [reached]
    simp [State.decoded, literalBits]
  have bits : u.src.bits = s.src.bits := by rw [reached]; rfl
  have node : u.node = s.node := by rw [reached]; rfl
  cases h with
  | sentinel later rest c n read kind sym =>
    rw [whole, bits]
    exact .sentinel _ rest c n (node ▸ read) kind sym
  | truncated later c =>
    rw [whole, bits]
    exact .truncated _ c

/-- DECODE's loop over a held tree ends as the tree's walk does (R201). -/
theorem decodeLoop_ends {root here : Tree} {bits : Bits} {fuel : Nat} {s : State} (hs : s.src.remaining = bits)
    (hf : bits.length ≤ fuel) (hroot : holdsTree s.node root s.root = true)
    (hcur : holdsTree s.node here s.cur = true) : DecodeEnds s (root.walk here bits) (decodeLoop (fuel + 1) s) := by
  induction bits generalizing here fuel s with
  | nil =>
    have unmoved : s.atEnd = s.decoded s.cur s.src.bits.length (literalBits []) := by
      simp [State.atEnd, State.decoded, literalBits]
    rw [decodeLoop_end hs, unmoved]
    exact .truncated [] s.cur
  | cons b bits ih =>
    obtain ⟨fuel, rfl⟩ := Nat.exists_eq_add_one_of_ne_zero (Nat.ne_zero_of_lt hf)
    have hf : bits.length ≤ fuel := Nat.le_of_succ_le_succ hf
    have left : (s.moved 1).src.remaining = bits := remaining_moved_one hs
    have unwritten (c : Idx) : ({ s.moved 1 with cur := c } : State) = s.decoded c (s.src.pos + 1) (literalBits []) := by
      simp [State.moved, State.decoded, literalBits]
    obtain ⟨c, move, held⟩ := decodeMove_of_holdsTree b (s := s.moved 1) hcur
    cases hm : here.move b with
    | node l r =>
      rw [hm] at held
      obtain ⟨hc, n, hn, hk, -, -⟩ := holdsTree_node held
      rw [walk_to_node hm, decodeLoop_bit hs move hc hn, decodeAt_internal hk]
      exact (ih (s := { s.moved 1 with cur := c }) left hf hroot held).after (syms := []) (unwritten c)
    | leaf sym =>
      rw [hm] at held
      obtain ⟨hc, n, hn, hk, rfl⟩ := holdsTree_leaf held
      rw [walk_to_leaf hm, decodeLoop_bit hs move hc hn]
      by_cases eos : n.sym = 256
      · have pos : s.src.pos + 1 = s.src.bits.length - bits.length := by
          have := congrArg List.length hs
          rw [remaining_length, List.length_cons] at this
          omega
        rw [decodeAt_sentinel hk eos, eos, walkLeaf_sentinel, unwritten, pos]
        exact .sentinel [] bits c n hn hk eos
      · rw [decodeAt_literal hk eos, walkLeaf_literal eos]
        refine (ih (s := { s.moved 1 with cur := s.root, sink := _ }) left hf hroot hroot).after (syms := [n.sym])
          (cur := s.root) (pos := s.src.pos + 1) ?_
        simp [State.moved, State.decoded, literalBits]

/-- DECODE over a held tree ends as the walk from the root does (R201). -/
theorem decodeRun_ends {tree : Tree} {s : State} (h : holdsTree s.node tree s.root = true) :
    DecodeEnds s (tree.walk tree s.src.remaining) (decodeRun s) :=
  (decodeLoop_ends (s := { s with cur := s.root }) rfl (Nat.le_refl _) h h).after (syms := []) (cur := s.root)
    (pos := s.src.pos) (by simp [State.decoded, literalBits])

end Sys2Proof.Machine

open Sys2Proof Sys2Proof.Machine Sys2Proof.Safety

/-- Settles O44: DECODE ends as the tree's walk does (`decodeRun_ends`), at the sentinel or in the raise. -/
theorem decodeFollowsTree : Obligations.DecodeFollowsTree := by
  unfold Obligations.DecodeFollowsTree
  refine ⟨fun s tree syms rest held walk => ?_, fun s tree syms held walk => ?_⟩
  all_goals
    have ends := decodeRun_ends held
    rw [walk] at ends
    generalize run : decodeRun s = r at ends
  · cases ends with
    | sentinel _ _ cur n read kind sym => exact ⟨cur, n, congrArg Run.outcome run, read, kind, sym⟩
  · cases ends with
    | truncated _ cur => exact ⟨cur, congrArg Run.outcome run⟩

/-- Settles O45: at a leaf CUR stays whatever the bit (`decodeMove_leaf`), and the sentinel's leaf ends the loop
(`decodeAt_sentinel`). -/
theorem decodeLeafRoot : Obligations.DecodeLeafRoot := by
  unfold Obligations.DecodeLeafRoot
  intro s n b rest hi hn hk eos hs
  have move := decodeMove_leaf (b := b) (s := { s.moved 1 with cur := s.root }) hi hn hk
  have loop := decodeLoop_bit (s := { s with cur := s.root }) hs move hi hn s.src.remaining.length
  exact congrArg Run.outcome (loop.trans (decodeAt_sentinel hk eos ..))

/-- Settles O47: the form of DECODE's next states. -/
theorem decodeFrame : Obligations.DecodeFrame := by
  unfold Obligations.DecodeFrame
  exact fun s t h => exec_decode_next h

end

section
/-! A whole DECOMPRESS of a container, turn by turn, and the byte string it gives back (47_sequencer_commands.md R223;
45_stream_decoder.md R207). -/

namespace Sys2Proof.Machine

open Host (Outcome)
open Sys2Proof.Safety

/-! ## Bytes of the output -/

/-- A byte's bits give the byte back (R70). -/
theorem bytesOfBits_byte (b : Byte) (rest : Bits) : bytesOfBits (msbFirst 8 b.toNat ++ rest) = b :: bytesOfBits rest := by
  have value := ofNat_fromMsb_msbFirst b
  simp only [msbFirst] at value
  simp only [msbFirst, List.cons_append, List.nil_append, bytesOfBits, value]

/-- The whole bytes of a byte string's bits, and fewer than eight bits after them, are the byte string (R70). -/
theorem bytesOfBits_bitsOfBytes_append (bytes : List Byte) {tail : Bits} (h : tail.length < 8) :
    bytesOfBits (bitsOfBytes bytes ++ tail) = bytes := by
  induction bytes with
  | nil =>
    match tail, h with
    | [], _ | [_], _ | [_, _], _ | [_, _, _], _ | [_, _, _, _], _ | [_, _, _, _, _], _ | [_, _, _, _, _, _], _
    | [_, _, _, _, _, _, _], _ => rfl
  | cons b bytes ih => rw [bitsOfBytes_cons, List.append_assoc, bytesOfBits_byte, ih]

/-- The literals of bytes' symbols are the bytes (R204). -/
theorem literalBits_bytes (bytes : List Byte) : literalBits (bytes.map fun b => b.setWidth 9) = bitsOfBytes bytes := by
  rw [literalBits, List.flatMap_map]
  refine List.flatMap_congr fun b _ => ?_
  rw [BitVec.toNat_setWidth_of_le (by decide)]

/-- A byte's symbol is not the sentinel. -/
theorem byte_symbol_ne_eos (b : Byte) : b.setWidth 9 ≠ (256 : Sym) := fun e => by
  have := congrArg BitVec.toNat e
  rw [BitVec.toNat_setWidth_of_le (by decide)] at this
  exact absurd this b.isLt.ne

/-- A closed sink's file is the byte string whose bits it held before the close (R67, R70). -/
theorem file_close_bitsOfBytes {k : Sink} {bytes : List Byte} (h : k.bits = bitsOfBytes bytes) :
    k.close.file = some bytes := by
  refine congrArg some ?_
  rw [Sink.close, h]
  exact bytesOfBits_bitsOfBytes_append bytes (by rw [List.length_replicate]; exact (padLength_spec _).1)

/-! ## The commands' sequence -/

/-- A tree with distinct Symbols at its leaves fits in NODE (R22, R29). -/
theorem nodes_le_nodeCap {tree : Tree} (nodup : tree.syms.Nodup) (symbols : ∀ sym ∈ tree.syms, sym.toNat ≤ Config.eos) :
    tree.nodes ≤ Config.nodeCap := by
  have inRange : tree.syms.map BitVec.toNat ⊆ List.range Config.nsym := fun i hi => by
    obtain ⟨sym, hsym, rfl⟩ := List.mem_map.1 hi
    exact List.mem_range.2 (Nat.lt_succ_of_le (symbols sym hsym))
  have leaves := ((nodup.map BitVec.toNat_injective).subperm inRange).length_le
  rw [List.length_map, List.length_range] at leaves
  have := treeNodes_leaves tree
  simp only [Config.nsym, Config.nodeCap] at leaves ⊢
  omega

/-- RDTAG over the model's own tag goes past it (R212). -/
theorem exec_rdtag_of_magic {s : State} {rest : Bits} (h : s.src.remaining = msbFirst 32 Config.magic.toNat ++ rest) :
    exec .rdtag s = .next (s.moved 32) := by
  have skipped : s.skip 32 = s.moved 32 := skip_of_remaining h (msbFirst_length ..) (by decide)
  rw [exec_rdtag_of_tag h, tagTokenIsRdtag.1 s]
  exact congrArg Outcome.next skipped

/-- A DECOMPRESS of a tag, the header of a tree that fits and a payload whose walk comes to the sentinel: the literals of the
walk, then the close (R101, R223). -/
theorem run_decompress {u : State} {tree : Tree} {payload rest : Bits} {syms : List Sym} (idle : u.state = .idle)
    (frames : u.trav.frames = []) (hopen : u.sinkClosed = false)
    (hsrc : u.src = ⟨msbFirst 32 Config.magic.toNat ++ (tree.header ++ payload), 0, none⟩)
    (fits : tree.nodes ≤ Config.nodeCap) (walk : tree.walk tree payload = (syms, some rest)) :
    ∃ v : State, core.run 5 { u with moves := [.write .cmd 2] } = .next v ∧ v.state = .done ∧
      v.sink = Sink.close { u.sink with bits := u.sink.bits ++ literalBits syms } := by
  have start : step { u with moves := [.write .cmd 2] } =
      .next (startCommand .rdtag { u with moves := [], cmd := 2 }) :=
    congrArg Outcome.next (if_pos idle)
  have about : AboutToRun .rdtag (startCommand .rdtag { u with moves := [], cmd := 2 }) := ⟨rfl, rfl, frames, rfl⟩
  have tagLeft : u.src.remaining = msbFirst 32 Config.magic.toNat ++ (tree.header ++ payload) :=
    congrArg Source.remaining hsrc
  have headerLeft : (u.moved 32).src.remaining = tree.header ++ payload := msbFirst_length 32 _ ▸ remaining_after tagLeft
  obtain ⟨s1, e1, h1, run1⟩ := about.run (i := .rdtag) (k := 3) rfl (by decide) (exec_rdtag_of_magic tagLeft)
    ⟨rfl, rfl, rfl, rfl⟩
  have rdhdr := exec_rdhdr_of_header (s := s1) (by rw [e1]; exact headerLeft) fits
  obtain ⟨s2, e2, h2, run2⟩ := h1.run (i := .rdhdr) (k := 2) rfl (by decide) rdhdr ⟨rfl, rfl, rfl, rfl⟩
  have held : holdsTree s2.node tree s2.root = true := by
    rw [e2]
    exact (heldBetween_headerNodes (i := 0) ((Nat.zero_add _).trans_le fits)).holdsTree
  have payloadLeft : s2.src.remaining = payload := by
    rw [e2, e1]
    exact remaining_after headerLeft
  rw [← payloadLeft] at walk
  obtain ⟨cur, n, decode, -⟩ := decodeFollowsTree.1 s2 tree syms rest held walk
  obtain ⟨s3, e3, h3, run3⟩ := h2.run (i := .decode) (k := 1) rfl (by decide) decode ⟨rfl, rfl, rfl, rfl⟩
  have closed3 : s3.sinkClosed = false := by rw [e3, e2, e1]; exact hopen
  refine ⟨_, (run_succ start).trans (run1.trans (run2.trans (run3.trans h3.run_close))), rfl, ?_⟩
  rw [State.complete_sink, State.closeOnce_sink, closed3, if_neg (by decide), e3, e2, e1]
  rfl

end Sys2Proof.Machine

open Sys2Proof Sys2Proof.Machine Sys2Proof.Safety

/-- Settles O59: a COMPRESS writes a container (`compressWritesContainer`), whose payload the tree's walk reads back as the
bytes' symbols (`payloadIsUnambiguous`), and a DECOMPRESS writes the literals of that walk (`run_decompress`). -/
theorem roundTrip : Obligations.RoundTrip := by
  unfold Obligations.RoundTrip
  intro s u S idle frames hopen hsrc hsink counts uidle uframes uopen usink
  obtain ⟨t, tree, msg, eosCode, k, compress, done, sink, -, -, -, nodup, leaves, msgSyms, msgCodes, eosMem⟩ :=
    compressWritesContainer s S idle frames hopen hsrc hsink counts
  have symbols : ∀ sym ∈ tree.syms, sym.toNat ≤ Config.eos := fun sym hsym => by
    obtain rfl | ⟨b, -, rfl⟩ := (leaves sym).1 hsym
    · exact Nat.le_refl _
    · rw [BitVec.toNat_setWidth_of_le (by decide)]
      exact b.isLt.le
  have literals : ∀ p ∈ msg, p ∈ tree.codes ∧ p.1 ≠ 256 := fun p hp => by
    have symbol : p.1 ∈ S.map fun b => b.setWidth 9 := msgSyms ▸ List.mem_map_of_mem hp
    obtain ⟨b, -, e⟩ := List.mem_map.1 symbol
    exact ⟨msgCodes p hp, e ▸ byte_symbol_ne_eos b⟩
  have walk := payloadIsUnambiguous tree msg eosCode (List.replicate k false) literals eosMem
  obtain ⟨v, decompress, vdone, vsink⟩ := run_decompress (u := { u with src := ⟨t.sink.bits, 0, none⟩ }) uidle uframes uopen
    (by rw [sink]; simp only [List.append_assoc]) (nodes_le_nodeCap nodup symbols) walk
  refine ⟨t, v, compress, done, decompress, vdone, ?_⟩
  rw [vsink]
  refine file_close_bitsOfBytes ?_
  rw [usink, msgSyms, literalBits_bytes]
  rfl

end

section
/-! The format tag: WRTAG's write and the three endings of RDTAG (46_format_tag.md R211 to R214). -/

namespace Sys2Proof.Machine

/-- RDTAG over the 32 bits of any value but MAGIC raises BAD_MAGIC naming that value (R213). -/
theorem exec_rdtag_of_other {s : State} {v : Word} {rest : Bits} (h : s.src.remaining = msbFirst 32 v.toNat ++ rest)
    (hv : v ≠ Config.magic) : exec .rdtag s = .next ((s.moved 32).errorEntry .badMagic v false) := by
  have skipped : s.skip 32 = s.moved 32 := skip_of_remaining h (msbFirst_length ..) (by decide)
  rw [exec_rdtag_of_tag h, tagTokenIsRdtag.2.1 s v hv]
  exact congrArg (fun u => Host.Outcome.next (State.errorEntry .badMagic v false u)) skipped

/-- RDTAG with fewer than 32 bits left raises BAD_MAGIC at the end of the input (R214). -/
theorem exec_rdtag_of_short {s : State} (h : s.src.remaining.length < 32) :
    exec .rdtag s = .next (s.atEnd.errorEntry .badMagic 0 true) :=
  congrArg Host.Outcome.next (readTag_short h)

end Sys2Proof.Machine

open Sys2Proof Sys2Proof.Machine

/-- Settles O30: RDTAG over MAGIC's bits, over another value's, and over a cut tag. -/
theorem rdtagChecksMagic : Obligations.RdtagChecksMagic := by
  unfold Obligations.RdtagChecksMagic
  exact ⟨fun _ _ => exec_rdtag_of_magic, fun _ _ _ => exec_rdtag_of_other, fun _ => exec_rdtag_of_short, rfl⟩

/-- Settles O29: the write is `exec_wrtag_eq`; the code and the places in the sequence are read off the model's tables. -/
theorem wrtagWritesMagic : Obligations.WrtagWritesMagic := by
  unfold Obligations.WrtagWritesMagic
  exact ⟨exec_wrtag_eq, rfl, rfl, rfl⟩

end

section
/-! The host's commands and the sequencer's runs (47_sequencer_commands.md R221 to R229): what each command word does by STATE,
and that COMPRESS and DECOMPRESS run their sequences of micro-operations up to the first raise. -/

namespace Sys2Proof.Machine

open Host (Outcome)
open Sys2Proof.Safety

/-! ## Commands by STATE -/

theorem exec_compress_of_idle {s : State} (idle : s.state = .idle) : exec .compress s = .next (startCommand .count s) :=
  congrArg Outcome.next (if_pos idle)

theorem exec_decompress_of_idle {s : State} (idle : s.state = .idle) :
    exec .decompress s = .next (startCommand .rdtag s) :=
  congrArg Outcome.next (if_pos idle)

theorem exec_compress_dropped {s : State} (h : s.state ≠ .idle) : exec .compress s = .next s :=
  congrArg Outcome.next (if_neg h)

theorem exec_decompress_dropped {s : State} (h : s.state ≠ .idle) : exec .decompress s = .next s :=
  congrArg Outcome.next (if_neg h)

theorem exec_clear_accepted {s : State} (h : s.state ≠ .busy) : exec .clear s = .next s.clearRegisters :=
  congrArg Outcome.next (if_neg h)

theorem exec_clear_dropped {s : State} (busy : s.state = .busy) : exec .clear s = .next s :=
  congrArg Outcome.next (if_pos busy)

/-- A write of CMD outside IDLE is dropped, but for CLEAR's outside BUSY (R221, R229). -/
theorem hostWrite_dropped {w : Word} {s : State} (notIdle : s.state ≠ .idle) (clear : w = 3 → s.state = .busy) :
    hostWrite .cmd w s = .next { s with cmd := w } := by
  obtain ⟨-, e⟩ | ⟨-, e⟩ | ⟨isClear, e⟩ | ⟨-, e⟩ := hostWrite_cmd w s
  · exact e.trans (exec_compress_dropped notIdle)
  · exact e.trans (exec_decompress_dropped notIdle)
  · exact e.trans (exec_clear_dropped (clear isClear))
  · exact e.trans (congrArg Outcome.next (if_neg notIdle))

/-- A command word written to CMD runs its command, CMD holding the word (R40, R221). -/
theorem step_command {s : State} {w : Word} {i : Instr} {rest : List Move} (hm : s.moves = .write .cmd w :: rest)
    (hi : decodeCommand w = .ok i) : step s = exec i { s with moves := rest, cmd := w } :=
  stepRunsDecoded.2.1 s w i rest hm hi

/-! ## The close -/

theorem closeOnce_of_open {s : State} (h : s.sinkClosed = false) :
    s.closeOnce = { s with sink := s.sink.close, sinkClosed := true } :=
  if_neg (by rw [h]; decide)

theorem closeOnce_of_closed {s : State} (h : s.sinkClosed = true) : s.closeOnce = s := if_pos h

/-! ## Runs -/

/-- A run by its first step, whatever that step's outcome. -/
theorem run_succ_eq (k : Nat) (s : State) : core.run (k + 1) s = andThen (step s) (core.run k) := by
  have first : core.step s = step s := rfl
  simp only [Host.Core.run, first]
  cases step s <;> rfl

/-- Left alone outside BUSY the block waits (R261, R270). -/
theorem run_of_no_move {s : State} (h : s.state ≠ .busy) (hm : s.moves = []) (k : Nat) : core.run k s = .next s := by
  induction k with
  | zero => rfl
  | succ k ih => exact (run_succ ((step_of_no_move hm).trans (blockTurn_waits h))).trans ih

/-- No operation changes the moves to come. -/
theorem exec_moves {i : Instr} {s t : State} (h : exec i s = .next t) : t.moves = s.moves := by
  obtain ⟨-, -, -, -, moves, -⟩ := portsOnlyMoveForward i s t h
  exact moves

/-- A turn of the block over a whole micro-operation, whatever its outcome (R227). -/
theorem AboutToRun.step_andThen {p : Phase} {i : Instr} {s : State} (h : AboutToRun p s)
    (hi : decodePhase p.code = .ok i) : step s = andThen (exec i s) fun t => .next t.advance := by
  rw [step_of_no_move h.moves, blockTurn_microOp h.busy h.frames, microOpTurn_of_decode (h.phase ▸ hi)]

/-- A micro-operation other than CLOSE has raised, or hands over to the next one (R226, R227). -/
theorem AboutToRun.raised_or_next {p : Phase} {i : Instr} {s t : State} (h : AboutToRun p s)
    (hi : decodePhase p.code = .ok i) (hp : p ≠ .close) (he : exec i s = .next t) :
    (t.state = .error ∧ t.moves = []) ∨
    (t.state = .busy ∧ t.advance = { t with phase := p.following } ∧
      AboutToRun p.following { t with phase := p.following }) := by
  have moves : t.moves = [] := (exec_moves he).trans h.moves
  have ending : Ending s t := microOpTurn_ending ((microOpTurn_of_decode (h.phase ▸ hi)).trans he)
  have frames : t.trav.frames = [] := ending.frames h.frames
  cases ending with
  | ended kept before =>
    have busy : t.state = .busy := kept.state.trans h.busy
    refine .inr ⟨busy, ?_, busy, rfl, frames, moves⟩
    rw [State.advance_of_not_close busy frames (kept.phase ▸ before), kept.phase, h.phase]
  | closed atClose => exact absurd (h.phase.symm.trans atClose) hp
  | raised kept cause => exact .inl ⟨State.errorEntry_state .., moves⟩

/-- The micro-operations from PHASE `p` on as the sequencer takes them, each by its PHASE code, up to CLOSE (R116, R227). -/
inductive SequencedFrom : Phase → List (Phase × Instr) → Prop where
  | close : SequencedFrom .close [(.close, .close)]
  | cons {p : Phase} {i : Instr} {rest : List (Phase × Instr)} (code : decodePhase p.code = .ok i) (before : p ≠ .close)
    (following : SequencedFrom p.following rest) : SequencedFrom p ((p, i) :: rest)

/-- The sequence of R222. -/
theorem compressSequence_sequenced : SequencedFrom .count compressSequence :=
  .cons rfl (by decide) <| .cons rfl (by decide) <| .cons rfl (by decide) <| .cons rfl (by decide) <|
    .cons rfl (by decide) <| .cons rfl (by decide) .close

/-- The sequence of R223. -/
theorem decompressSequence_sequenced : SequencedFrom .rdtag decompressSequence :=
  .cons rfl (by decide) <| .cons rfl (by decide) <| .cons rfl (by decide) .close

/-- A turn for each micro-operation of such a sequence leads where the sequence leads: to its end, to the first raise, where
the block then waits, or to the first fault. -/
theorem run_eq_runSequence {p : Phase} {seq : List (Phase × Instr)} (order : SequencedFrom p seq) {s : State}
    (h : AboutToRun p { s with phase := p }) : core.run seq.length { s with phase := p } = runSequence seq s := by
  induction order generalizing s with
  | close =>
    have notRaised : ¬ (State.closeOnce { s with phase := .close }).state = .error := by
      rw [State.closeOnce_state, h.busy]
      decide
    rw [runSequence, exec_close_eq]
    exact h.run_close.trans (if_neg notRaised).symm
  | @cons p i rest code before following ih =>
    rw [List.length_cons, run_succ_eq, h.step_andThen code, runSequence]
    cases he : exec i { s with phase := p } with
    | fault f => rfl
    | refused r => rfl
    | next t =>
      show core.run rest.length t.advance = if t.state = .error then .next t else runSequence rest t
      obtain ⟨error, moves⟩ | ⟨busy, advanced, about⟩ := h.raised_or_next code before he
      · have notBusy : t.state ≠ .busy := by rw [error]; decide
        rw [if_pos error, State.advance_eq_self (.inl notBusy)]
        exact run_of_no_move notBusy moves _
      · rw [if_neg (by rw [busy]; decide), advanced]
        exact ih about

/-- An accepted command left alone runs its sequence (R222, R223). -/
theorem run_startCommand {first : Phase} {seq : List (Phase × Instr)} (order : SequencedFrom first seq) {s : State}
    (frames : s.trav.frames = []) (moves : s.moves = []) :
    core.run seq.length (startCommand first s) = runSequence seq { s.clearValid with state := .busy } :=
  run_eq_runSequence order (s := { s.clearValid with state := .busy }) ⟨rfl, rfl, frames, moves⟩

end Sys2Proof.Machine

open Sys2Proof Sys2Proof.Machine Sys2Proof.Safety

/-- Settles O49: the write starts the command, and each turn after it takes one step of the sequence (`run_startCommand`). -/
theorem commandsAreTheirSequences : Obligations.CommandsAreTheirSequences := by
  unfold Obligations.CommandsAreTheirSequences
  refine ⟨fun s idle frames => ?_, fun s idle frames => ?_⟩
  · refine (run_succ ((step_command rfl rfl).trans (exec_compress_of_idle (by exact idle)))).trans ?_
    exact run_startCommand compressSequence_sequenced frames rfl
  · refine (run_succ ((step_command rfl rfl).trans (exec_decompress_of_idle (by exact idle)))).trans ?_
    exact run_startCommand decompressSequence_sequenced frames rfl

/-- Settles O6: each command by STATE; `startCommand` is the state written out. -/
theorem commandsAcceptedOrDropped : Obligations.CommandsAcceptedOrDropped := by
  unfold Obligations.CommandsAcceptedOrDropped
  exact ⟨fun s idle => ⟨exec_compress_of_idle idle, exec_decompress_of_idle idle⟩,
    fun s notIdle => ⟨exec_compress_dropped notIdle, exec_decompress_dropped notIdle⟩, fun s => exec_clear_dropped⟩

/-- Settles O7: `State.clearRegisters` is the state written out. -/
theorem clearLeavesResetValues : Obligations.ClearLeavesResetValues := by
  unfold Obligations.ClearLeavesResetValues
  exact fun s => exec_clear_accepted

/-- Settles O8: a legal word's command by STATE, the writes that are dropped (`hostWrite_dropped`), and the entry of an illegal
word (`illegalCommandWord`). -/
theorem acceptanceTable : Obligations.AcceptanceTable := by
  unfold Obligations.AcceptanceTable
  rintro s _ w rest hm rfl
  refine ⟨?compress, ?decompress, fun notIdle notClear => ?dropped, fun busy => ?whileBusy, ?clear,
    fun idle h1 h2 h3 => ?illegal⟩
  case compress =>
    rintro idle rfl
    exact (step_command hm rfl).trans (exec_compress_of_idle idle)
  case decompress =>
    rintro idle rfl
    exact (step_command hm rfl).trans (exec_decompress_of_idle idle)
  case dropped => exact (step_of_move hm).trans (hostWrite_dropped notIdle fun h => absurd h notClear)
  case whileBusy => exact (step_of_move hm).trans (hostWrite_dropped (by simp [busy]) fun _ => busy)
  case clear =>
    rintro notBusy rfl
    exact (step_command hm rfl).trans (exec_clear_accepted notBusy)
  case illegal =>
    obtain ⟨entered, -⟩ := (illegalCommandWord s w rest h1 h2 h3 hm).1 idle
    exact ⟨_, entered, rfl⟩

/-- Settles O48: the close's padding is `padLength` of the bits written (`padLength_spec`). -/
theorem closeOnlyOnce : Obligations.CloseOnlyOnce := by
  unfold Obligations.CloseOnlyOnce
  refine ⟨fun s h => ?_, fun s h => ?_⟩
  · obtain ⟨short, whole⟩ := padLength_spec s.sink.bits.length
    exact ⟨_, short, whole, congrArg Host.Outcome.next (closeOnce_of_open h)⟩
  · exact congrArg Host.Outcome.next (closeOnce_of_closed h)

end

section
/-! What the error entry, the attach move and the two moves of reset do (60_exceptions.md R250, R251; 70_reset_and_hazards.md R270
to R278), and a block without a command. -/

namespace Sys2Proof.Machine

/-- The reset input gives the reset state and leaves the environment alone (R270). -/
theorem State.hardReset_eq (s : State) :
    s.hardReset = { State.reset with src := s.src, sink := s.sink, hostData := s.hostData, moves := s.moves } := rfl

theorem attach_of_rest {s : State} (h : s.state ≠ .busy) (bits : Bits) (rewound : Option Bits) :
    attach bits rewound s = .next { s with src := ⟨bits, 0, rewound⟩, sink := ⟨[], false⟩ } := if_neg h

theorem attach_of_busy {s : State} (h : s.state = .busy) (bits : Bits) (rewound : Option Bits) :
    attach bits rewound s = .refused .attachWhileBusy := if_pos h

end Sys2Proof.Machine

open Sys2Proof Sys2Proof.Machine

/-- Settles O5: with no move listed the step is the block's turn, which waits (`blockTurn_waits`). -/
theorem waitsForACommand : Obligations.WaitsForACommand := by
  unfold Obligations.WaitsForACommand
  exact fun s waits noMove => (step_of_no_move noMove).trans (blockTurn_waits waits)

/-- Settles O12: the attach move by STATE. -/
theorem attachOnlyAtRest : Obligations.AttachOnlyAtRest := by
  unfold Obligations.AttachOnlyAtRest
  exact fun s bits rewound rest hm =>
    ⟨fun atRest => (step_of_move hm).trans (attach_of_rest (by exact atRest) bits rewound),
      fun busy => (step_of_move hm).trans (attach_of_busy (by exact busy) bits rewound)⟩

/-- Settles O14: the step is the reset input, with the moves after it still to come. -/
theorem resetInput : Obligations.ResetInput := by
  unfold Obligations.ResetInput
  exact fun s rest hm => (step_of_move hm).trans (congrArg Host.Outcome.next (State.hardReset_eq { s with moves := rest }))

/-- Settles O15: the entry with the sink closed already, and with the sink still open. -/
theorem errorEntryRecords : Obligations.ErrorEntryRecords := by
  unfold Obligations.ErrorEntryRecords
  intro s cause info eoi
  cases closed : s.sinkClosed with
  | true => rw [State.errorEntry, closeOnce_of_closed (by exact closed), if_pos rfl, ← closed]
  | false => rw [State.errorEntry, closeOnce_of_open (by exact closed), if_neg Bool.false_ne_true]

end

section
/-! A turn of the block stopped between two of its port transactions (20_memory.md R74; 70_reset_and_hazards.md R270, R271): where
the source and the sink can stand inside COUNT, ENCODE and DECODE, and that all of a turn's transactions are what it does. -/

namespace Sys2Proof.Machine

open Host (Outcome)
open Sys2Proof.Safety

/-! ## Whole turns -/

/-- A tag is read off the bits that write it (R102). -/
theorem decodeTag_eq_ok {bs rest : Bits} {i : Instr} (h : decodeTag bs = .ok (i, rest)) :
    ∃ m : Word, i = .tag m ∧ bs = msbFirst 32 m.toNat ++ rest := by
  by_cases enough : 32 ≤ bs.length
  · have taken : (bs.take 32).length = 32 := List.length_take_of_le enough
    rw [← List.take_append_drop 32 bs, decodeTag_append taken] at h
    obtain ⟨rfl, rfl⟩ := Prod.mk.inj (Except.ok.inj h)
    exact ⟨_, rfl, by rw [msbFirst_ofNat_fromMsb taken, List.take_append_drop]⟩
  · rw [decodeTag, if_neg enough] at h
    simp at h

/-- RDTAG's turn of its one token is the whole of RDTAG (R212). -/
theorem tagTurn_eq_microOpTurn {s : State} (hp : s.phase = .rdtag) : tagTurn s = microOpTurn s := by
  cases hd : decodeTag s.src.remaining with
  | error e => simp [tagTurn, hd]
  | ok token =>
    obtain ⟨m, hi, split⟩ := decodeTag_eq_ok hd
    rw [tagTurn_of_decode hd, hi, ← exec_rdtag_of_tag split, microOpTurn_of_decode (by rw [hp]; rfl)]

/-- Outside a walk a turn of one node makes the transactions of the whole micro-operation (R231). -/
theorem nodePorts_of_microOp {s : State} (h : walkPhase s.phase = false) : nodePorts s = microOpPorts s := by
  cases hp : s.phase <;> simp_all [nodePorts, walkPhase]

/-- While BUSY and outside a walk the turn makes the transactions of the micro-operation PHASE names, whatever its grain. -/
theorem turnPorts_of_microOp {g : Grain} {s : State} (hb : s.state = .busy) (hp : walkPhase s.phase = false) :
    turnPorts g s = microOpPorts s := by
  rw [turnPorts, if_pos hb, nodePorts_of_microOp hp, ite_self]

/-- The transactions of a turn of one node or token leave the source and the sink as the turn does. -/
theorem agrees_node {s t : State} (h : nodeTurn s = .next t) :
    runPorts (nodePorts s) (s.src, s.sink) = (t.src, t.sink) := by
  by_cases hr : s.phase = .rdtag
  · rw [nodeTurn_rdtag hr, tagTurn_eq_microOpTurn hr] at h
    simpa [nodePorts, hr] using agrees_microOp h
  obtain ⟨hp, h⟩ | ⟨hp, h⟩ | ⟨hp, -⟩ | ⟨hp, h⟩ | ⟨hp, h⟩ := nodeTurn_eq_next h
  · simpa [nodePorts, hp] using visitGencodes_io h
  · simpa [nodePorts, hp] using agrees_visit h
  · exact absurd hp hr
  · simpa [nodePorts, hp] using agrees_token h
  · rw [nodePorts_of_microOp hp]
    exact agrees_microOp h

/-- The transactions of the block's turn leave the source and the sink as the turn does (R74, R79). -/
theorem agrees_turn {g : Grain} {s t : State} (h : blockTurn g s = .next t) :
    runPorts (turnPorts g s) (s.src, s.sink) = (t.src, t.sink) := by
  by_cases hb : s.state = .busy
  · rw [blockTurn, if_pos hb, andThen_eq_next] at h
    obtain ⟨u, turn, advanced⟩ := h
    obtain rfl := Outcome.next.inj advanced
    rw [turnPorts, if_pos hb, State.advance_src, State.advance_sink]
    by_cases walk : g = .node ∨ s.trav.frames ≠ []
    · rw [if_pos walk] at turn ⊢
      exact agrees_node turn
    · rw [if_neg walk] at turn ⊢
      exact agrees_microOp turn
  · rw [blockTurn_waits hb] at h
    obtain rfl := Outcome.next.inj h
    rw [turnPorts_waits hb, runPorts_nil]

/-! ## Standing partway -/

/-- Some number of the transactions, from the first on, brings the ports from `io` to `io'`. -/
def Passes (ops : List PortOp) (io io' : Source × Sink) : Prop := ∃ k, runPorts (ops.take k) io = io'

theorem Passes.refl (ops : List PortOp) (io : Source × Sink) : Passes ops io io := ⟨0, rfl⟩

theorem Passes.cons {op : PortOp} {ops : List PortOp} {io io' : Source × Sink} (h : Passes ops (op.run io) io') :
    Passes (op :: ops) io io' := by
  obtain ⟨k, e⟩ := h
  exact ⟨k + 1, e⟩

/-- After the whole of a first list. -/
theorem Passes.append {ops later : List PortOp} {io io' : Source × Sink} (h : Passes later (runPorts ops io) io') :
    Passes (ops ++ later) io io' := by
  obtain ⟨k, e⟩ := h
  exact ⟨ops.length + k, by rw [List.take_length_add_append, runPorts_append, e]⟩

/-- Inside a first list. -/
theorem Passes.append_right {ops : List PortOp} {io io' : Source × Sink} (h : Passes ops io io') (later : List PortOp) :
    Passes (ops ++ later) io io' := by
  obtain ⟨k, e⟩ := h
  refine ⟨min k ops.length, ?_⟩
  rw [List.take_append_of_le_length (Nat.min_le_right ..), ← List.take_eq_take_min, e]

/-! ## Single transactions and micro-operations -/

/-- A read of bits that are there moves the position past them (R62). -/
theorem run_read {n : Nat} {src : Source} (h : src.pos + n ≤ src.bits.length) (k : Sink) :
    (PortOp.read n).run (src, k) = ({ src with pos := src.pos + n }, k) := by
  rw [PortOp.run, Source.readBits_enough h]

/-- Bits written one at a time are appended in order (R66). -/
theorem runPorts_bitWrites (bits : Bits) (src : Source) (k : Sink) :
    runPorts (bits.map fun b => .write 1 b.toNat) (src, k) = (src, { k with bits := k.bits ++ bits }) := by
  induction bits generalizing k with
  | nil => simp
  | cons b bits ih =>
    have written : k.writeBits 1 b.toNat = { k with bits := k.bits ++ [b] } := by
      cases b <;> rfl
    rw [List.map_cons, runPorts_cons, PortOp.run, written, ih, List.append_assoc, List.singleton_append]

theorem microOpPorts_count {s : State} (hp : s.phase = .count) :
    microOpPorts s =
      countPorts Config.countMax (s.src.remaining.length + 1) { s with freq := Table.fill Config.nsym 0 } := by
  rw [microOpPorts, hp]

theorem microOpPorts_encode {s : State} (hp : s.phase = .encode) :
    microOpPorts s = .rewind :: encodePorts (s.rewind.src.remaining.length + 1) s.rewind := by
  rw [microOpPorts, hp]

theorem microOpPorts_decode {s : State} (hp : s.phase = .decode) :
    microOpPorts s = decodePorts (s.src.remaining.length + 1) { s with cur := s.root } := by
  rw [microOpPorts, hp]

/-! ## COUNT -/

/-- The transactions of COUNT's loop over a byte whose count is not full (R141). -/
theorem countPorts_byte {limit c : Count} {s : State} {b : Byte} {rest : Bits}
    (h : s.src.remaining = msbFirst 8 b.toNat ++ rest) (hc : s.freq.read b.toNat = some c) (hl : c ≠ limit) (fuel : Nat) :
    countPorts limit (fuel + 1) s =
      .read 8 :: countPorts limit fuel { s.moved 8 with freq := s.freq.write b.toNat (c + 1) } := by
  rw [countPorts, readBits_byte h]
  dsimp only
  rw [readFreq_eq_ok.2 ⟨byte_lt_nsym b, by exact hc, rfl⟩, Run.portsAfter, if_neg hl,
    writeFreq_eq_ok.2 ⟨byte_lt_nsym b, rfl⟩, Run.portsAfter]
  rfl

/-- COUNT's loop reads byte after byte while no count overflows. -/
theorem countPorts_bytes {limit : Count} (bytes : List Byte) {s : State} {rest : Bits}
    (h : s.src.remaining = bitsOfBytes bytes ++ rest) (hc : CountsFit limit bytes s.freq) (fuel : Nat) :
    List.replicate bytes.length (.read 8) <+: countPorts limit (bytes.length + fuel) s := by
  induction bytes generalizing s with
  | nil => exact List.nil_prefix
  | cons b bytes ih =>
    obtain ⟨c, hb, -⟩ := hc b
    rw [bitsOfBytes_cons, List.append_assoc] at h
    have notFull : c ≠ limit := fun e => (hc.head hb).ne (congrArg BitVec.toNat e)
    rw [List.length_cons, Nat.add_right_comm, countPorts_byte h hb notFull, List.replicate_succ, List.prefix_cons_inj]
    exact ih (by exact remaining_moved_byte h) (hc.tail hb)

/-- Reads of as many bytes as are left move the position past each (R62). -/
theorem runPorts_byteReads (k : Nat) {src : Source} (h : 8 * k ≤ src.remaining.length) (sink : Sink) :
    runPorts (List.replicate k (.read 8)) (src, sink) = ({ src with pos := src.pos + 8 * k }, sink) := by
  induction k generalizing src with
  | zero => rfl
  | succ k ih =>
    rw [remaining_length] at h
    rw [List.replicate_succ, runPorts_cons, run_read (by omega), ih (by rw [remaining_length]; dsimp only; omega)]
    simp only [Nat.mul_succ, Nat.add_assoc, Nat.add_comm 8]

/-- COUNT after `k` of its reads: `k` bytes read, nothing written (R141). -/
theorem count_partway {s : State} {k : Nat} (counts : ∀ b : Byte, (bytesOfBits s.src.remaining).count b ≤ 2 ^ 32 - 1)
    (hk : k ≤ (bytesOfBits s.src.remaining).length) (hp : s.phase = .count) :
    runPorts ((microOpPorts s).take k) (s.src, s.sink) = ({ s.src with pos := s.src.pos + 8 * k }, s.sink) := by
  obtain ⟨tail, split, -⟩ := bits_eq_bytes_append s.src.remaining
  generalize bytesOfBits s.src.remaining = bytes at *
  have room : s.src.remaining.length = 8 * bytes.length + tail.length := by
    rw [split, List.length_append, bitsOfBytes_length]
  have fuel : s.src.remaining.length + 1 = bytes.length + (7 * bytes.length + tail.length + 1) := by
    rw [room]
    omega
  have reads : List.replicate bytes.length (.read 8) <+: microOpPorts s := by
    rw [microOpPorts_count hp, fuel]
    exact countPorts_bytes bytes (by exact split) (countsFit_cleared counts) _
  obtain ⟨later, hports⟩ := reads
  rw [← hports, List.take_append_of_le_length (by rwa [List.length_replicate]), List.take_replicate, Nat.min_eq_left hk]
  exact runPorts_byteReads k (by omega) s.sink

/-! ## ENCODE -/

/-- The transactions of ENCODE's loop over a byte with a code (R191). -/
theorem encodePorts_byte {s : State} {b : Byte} {c : CodeEntry} {rest : Bits}
    (h : s.src.remaining = msbFirst 8 b.toNat ++ rest) (hc : s.code.read b.toNat = some c) (hv : c.valid = true)
    (fuel : Nat) :
    encodePorts (fuel + 1) s = .read 8 :: (codePorts c ++ encodePorts fuel (s.moved 8)) := by
  rw [encodePorts, readBits_byte h]
  dsimp only
  rw [readCode_eq_ok.2 ⟨byte_lt_nsym b, by exact hc, rfl⟩, Run.portsAfter, if_pos hv]

/-- The read of a byte (R62). -/
theorem run_read_byte {src : Source} {b : Byte} {rest : Bits} (h : src.remaining = msbFirst 8 b.toNat ++ rest) (k : Sink) :
    (PortOp.read 8).run (src, k) = ({ src with pos := src.pos + 8 }, k) :=
  run_read (by simpa using pos_le_of_remaining h (by simp)) k

/-- Emit stands after each bit of a code (R192). -/
theorem codePorts_passes (c : CodeEntry) (j : Nat) (src : Source) (k : Sink) :
    Passes (codePorts c) (src, k) (src, { k with bits := k.bits ++ (codeBits c).take j }) :=
  ⟨j, by rw [codePorts, ← List.map_take]; exact runPorts_bitWrites _ src k⟩

/-- ENCODE's loop stands after any bits of the code of a byte, the codes of the bytes before it written (R191). -/
theorem encodePorts_passes (before : List Byte) {s : State} {b : Byte} {c : CodeEntry} {rest : Bits}
    (h : s.src.remaining = bitsOfBytes before ++ (msbFirst 8 b.toNat ++ rest))
    (codes : ∀ x ∈ before, ∃ cx, s.code.read x.toNat = some cx ∧ cx.valid = true)
    (hc : s.code.read b.toNat = some c) (hv : c.valid = true) (j fuel : Nat) (k : Sink) :
    Passes (encodePorts (before.length + (fuel + 1)) s) (s.src, k)
      ({ s.src with pos := s.src.pos + 8 * (before.length + 1) },
        { k with bits := k.bits ++ payloadBits s.code before ++ (codeBits c).take j }) := by
  induction before generalizing s k with
  | nil =>
    rw [List.length_nil, Nat.zero_add, encodePorts_byte (by exact h) hc hv]
    refine Passes.cons ?_
    rw [run_read_byte (by exact h)]
    simpa [payloadBits] using (codePorts_passes c j { s.src with pos := s.src.pos + 8 } k).append_right _
  | cons x before ih =>
    obtain ⟨⟨cx, hx, hvx⟩, hbefore⟩ := List.forall_mem_cons.1 codes
    rw [bitsOfBytes_cons, List.append_assoc] at h
    rw [List.length_cons, Nat.add_right_comm, encodePorts_byte h hx hvx]
    refine Passes.cons (Passes.append ?_)
    rw [run_read_byte h, runPorts_codePorts]
    have later := ih (s := s.moved 8) (remaining_moved_byte h) hbefore hc { k with bits := k.bits ++ codeBits cx }
    simpa [State.moved, payloadBits, hx, codeBits, Nat.mul_add, Nat.add_assoc, Nat.add_comm, Nat.add_left_comm] using later

/-- ENCODE stands after any bits of the code of any byte that it comes to (R191, R192). -/
theorem encode_partway {s : State} {before after : List Byte} {b : Byte} {c : CodeEntry} (hp : s.phase = .encode)
    (arrives : bytesOfBits s.src.rewind.bits = before ++ b :: after)
    (codes : ∀ x ∈ before, ∃ cx, s.code.read x.toNat = some cx ∧ cx.valid = true)
    (hc : s.code.read b.toNat = some c) (hv : c.valid = true) (j : Nat) :
    Passes (microOpPorts s) (s.src, s.sink)
      ({ s.src.rewind with pos := 8 * (before.length + 1) },
        { s.sink with bits := s.sink.bits ++ payloadBits s.code before ++ (codeBits c).take j }) := by
  obtain ⟨tail, split, -⟩ := bits_eq_bytes_append s.src.rewind.bits
  rw [arrives, bitsOfBytes, List.flatMap_append, List.flatMap_cons, List.append_assoc, List.append_assoc,
    ← rewind_remaining] at split
  have fuel : s.rewind.src.remaining.length + 1 =
      before.length + (s.rewind.src.remaining.length - before.length + 1) := by
    have := congrArg List.length split
    rw [List.length_append, ← bitsOfBytes, bitsOfBytes_length] at this
    omega
  rw [microOpPorts_encode hp, fuel]
  refine Passes.cons ?_
  have partway := encodePorts_passes before split codes hc hv j (s.rewind.src.remaining.length - before.length) s.sink
  have start : s.rewind.src.pos = 0 := rfl
  rwa [start, Nat.zero_add] at partway

/-! ## DECODE -/

/-- The transactions of DECODE's loop over a bit that leads to an Internal node (R202). -/
theorem decodePorts_internal {s : State} {b : Bool} {rest : Bits} {c : Idx} {n : Node} (hs : s.src.remaining = b :: rest)
    (move : decodeMove b (s.moved 1) = .ok () { s.moved 1 with cur := c }) (hc : c.toNat < Config.nodeCap)
    (hn : s.node.read c.toNat = some n) (hk : n.kind = .internal) (fuel : Nat) :
    decodePorts (fuel + 1) s = .read 1 :: decodePorts fuel { s.moved 1 with cur := c } := by
  rw [decodePorts, readBits_payloadBit hs]
  simp only [decide_ofBool_eq_one]
  rw [move, Run.portsAfter, readNode_ok hc (by exact hn), Run.portsAfter, hk]

/-- The transactions of DECODE's loop over a bit that leads to a literal's leaf (R204). -/
theorem decodePorts_literal {s : State} {b : Bool} {rest : Bits} {c : Idx} {n : Node} (hs : s.src.remaining = b :: rest)
    (move : decodeMove b (s.moved 1) = .ok () { s.moved 1 with cur := c }) (hc : c.toNat < Config.nodeCap)
    (hn : s.node.read c.toNat = some n) (hk : n.kind = .leaf) (literal : n.sym ≠ 256) (fuel : Nat) :
    decodePorts (fuel + 1) s =
      .read 1 :: .write 8 (n.sym.setWidth 8 : Byte).toNat :: decodePorts fuel { s.moved 1 with cur := s.root } := by
  rw [decodePorts, readBits_payloadBit hs]
  simp only [decide_ofBool_eq_one]
  rw [move, Run.portsAfter, readNode_ok hc (by exact hn), Run.portsAfter, hk]
  simp only [if_neg fun e : n.sym.toNat = Config.eos => literal (BitVec.eq_of_toNat_eq e)]
  rfl

/-- The read of a payload bit (R62, R201). -/
theorem run_read_bit {src : Source} {b : Bool} {rest : Bits} (h : src.remaining = b :: rest) (k : Sink) :
    (PortOp.read 1).run (src, k) = ({ src with pos := src.pos + 1 }, k) :=
  run_read (pos_le_of_remaining (bs := [b]) h Nat.one_pos) k

/-- The write of a literal (R66, R204). -/
theorem run_write_literal (sym : Sym) (src : Source) (k : Sink) :
    (PortOp.write 8 (sym.setWidth 8 : Byte).toNat).run (src, k) =
      (src, { k with bits := k.bits ++ msbFirst 8 sym.toNat }) := by
  rw [PortOp.run, Sink.writeBits, BitVec.toNat_setWidth, msbFirst_mod (Nat.le_refl _)]

/-- DECODE's loop over a held tree stands after any bits whose walk has not come to the sentinel, the literals of the walk
written (R201). -/
theorem decodePorts_passes {root here : Tree} (read : Bits) {s : State} {rest : Bits} {syms : List Sym}
    (hs : s.src.remaining = read ++ rest) (hroot : holdsTree s.node root s.root = true)
    (hcur : holdsTree s.node here s.cur = true) (walk : root.walk here read = (syms, none)) (fuel : Nat) (k : Sink) :
    Passes (decodePorts (read.length + fuel) s) (s.src, k)
      ({ s.src with pos := s.src.pos + read.length }, { k with bits := k.bits ++ literalBits syms }) := by
  induction read generalizing here s syms k with
  | nil =>
    obtain rfl : [] = syms := congrArg Prod.fst walk
    simpa [literalBits] using Passes.refl _ (s.src, k)
  | cons b read ih =>
    have left : (s.moved 1).src.remaining = read ++ rest := remaining_moved_one hs
    obtain ⟨c, move, held⟩ := decodeMove_of_holdsTree b (s := s.moved 1) hcur
    rw [List.length_cons, Nat.add_right_comm, Nat.add_comm read.length 1, ← Nat.add_assoc]
    cases hm : here.move b with
    | node l r =>
      rw [hm] at held
      obtain ⟨hc, n, hn, hk, -, -⟩ := holdsTree_node held
      rw [walk_to_node hm] at walk
      rw [decodePorts_internal hs move hc hn hk]
      refine Passes.cons ?_
      rw [run_read_bit hs]
      exact ih (s := { s.moved 1 with cur := c }) left hroot held walk k
    | leaf sym =>
      rw [hm] at held
      obtain ⟨hc, n, hn, hk, rfl⟩ := holdsTree_leaf held
      rw [walk_to_leaf hm] at walk
      have literal : n.sym ≠ 256 := by
        intro eos
        rw [eos, walkLeaf_sentinel] at walk
        simp at walk
      rw [walkLeaf_literal literal] at walk
      obtain ⟨hsyms, ends⟩ := Prod.mk.inj walk
      rw [decodePorts_literal hs move hc hn hk literal]
      refine Passes.cons (Passes.cons ?_)
      rw [run_read_bit hs, run_write_literal]
      have later := ih (s := { s.moved 1 with cur := s.root }) (syms := (root.walk root read).1) left hroot hroot
        (Prod.ext rfl ends) { k with bits := k.bits ++ msbFirst 8 n.sym.toNat }
      rw [← hsyms]
      simpa [State.moved, literalBits] using later

/-- DECODE stands after any bits that do not complete the sentinel's code (R201). -/
theorem decode_partway {s : State} {tree : Tree} {read rest : Bits} {syms : List Sym} (hp : s.phase = .decode)
    (held : holdsTree s.node tree s.root = true) (hs : s.src.remaining = read ++ rest)
    (walk : tree.walk tree read = (syms, none)) :
    Passes (microOpPorts s) (s.src, s.sink)
      ({ s.src with pos := s.src.pos + read.length }, { s.sink with bits := s.sink.bits ++ literalBits syms }) := by
  have fuel : s.src.remaining.length + 1 = read.length + (rest.length + 1) := by
    rw [hs, List.length_append, Nat.add_assoc]
  rw [microOpPorts_decode hp, fuel]
  exact decodePorts_passes (s := { s with cur := s.root }) read hs held held walk (rest.length + 1) s.sink

end Sys2Proof.Machine

open Sys2Proof Sys2Proof.Machine Sys2Proof.Safety

/-- Settles O60: all of a turn's transactions are what it does (`agrees_turn`), and their beginnings stand where
`count_partway`, `encode_partway` and `decode_partway` say. -/
theorem resetOnTheSpot : Obligations.ResetOnTheSpot := by
  unfold Obligations.ResetOnTheSpot
  refine ⟨?move, fun s g waits => turnPorts_waits waits, ?turn, ?count, ?encode, ?decode⟩
  case move =>
    rintro s _ g k rest _ hm rfl rfl
    exact step_of_move hm
  case turn =>
    intro s t g h
    have whole := agrees_turn h
    refine ⟨whole, fun k => ⟨(runPorts_sink ((turnPorts g s).take k) (s.src, s.sink)).1, ?_⟩⟩
    have part := runPorts_take (turnPorts g s) k (s.src, s.sink)
    rwa [whole] at part
  case count =>
    intro s g k busy _ hp counts hk
    rw [turnPorts_of_microOp busy (by rw [hp]; rfl)]
    exact count_partway counts hk hp
  case encode =>
    intro s g before after b c j busy _ hp arrives codes hc hv _
    rw [turnPorts_of_microOp busy (by rw [hp]; rfl)]
    exact encode_partway hp arrives codes hc hv j
  case decode =>
    intro s g tree read rest syms busy _ hp held hs walk
    rw [turnPorts_of_microOp busy (by rw [hp]; rfl)]
    exact decode_partway hp held hs walk

end
